-- ==== Sys2Proof/Word.lean ====
section
/-! DEFINITION. The widths every file uses: a register word of 32 bits and an 8-bit codeword or code unit
(00_scope.md rule R8: REG_W, CU_W, CW_W). -/

namespace Sys2Proof

/-- One control register word (rule R31: every register is 32 bits wide). -/
abbrev Word := BitVec 32

/-- One codeword or one text code unit (rule R8: CW_W = CU_W = 8). -/
abbrev Byte := BitVec 8

/-- The single bit of a Bool as an element of GRID, MM or RDM (rule R68: 1 = dark). -/
abbrev Bit := BitVec 1

end Sys2Proof
end

