-- ==== Sys2Proof/Config.lean ====
section
/-! DEFINITION. What an implementation fixes: the sizes of 00_scope.md rule R8, the identity word of rule R1, the
fuel of one ENC.DM step (70_reset_and_hazards.md rule R598), and the FREE VALUES that stand for every `any value`
of the spec (93_implementation_defined.md). A free value has no body: no proof can see what it is. -/

namespace Sys2Proof.Config

/-- TXT_SIZE (rule R8). -/
abbrev txtSize : Nat := 8192
/-- CW_SIZE (rule R8). -/
abbrev cwSize : Nat := 4096
/-- GRID_DIM: addressable rows and columns of GRID, MM and RDM (rule R8). -/
abbrev gridDim : Nat := 256
/-- Elements of each two-dimensional space (rule R84). -/
abbrev gridSize : Nat := 65536
/-- OUT_SIZE (rule R8). -/
abbrev outSize : Nat := 16384
/-- SEG_SIZE (rule R8). -/
abbrev segSize : Nat := 2048
/-- FNC_SIZE (rule R8). -/
abbrev fncSize : Nat := 2048
/-- VB_SIZE = 4 * TXT_SIZE (rule R8). -/
abbrev vbSize : Nat := 32768

/-- The constant ID reads: "SCC", 1 (rule R1, rule R52). -/
abbrev idWord : Word := 0x53434301

/-- FUEL_ENC_DM: main-loop rounds one step runs ENC.DM for (rule R598 recommends this value; the parameter is OPEN).
Running out is no fault: the command stays busy and a later step goes on with it (log entry 7). -/
def fuelEncDm (txtLen : Nat) : Nat := 2 * txtLen + 8

/-- A free value of width `w`: draw `draw`, element `addr`. One draw is one event that leaves an element `any value`
(rule R548, rule R582, rule R513); its elements are told apart by `addr`. UNCONSTRAINED (log entry 1). -/
opaque freeValue (w draw addr : Nat) : BitVec w

/-- A free list of values, for VB after a failed ENC.DM (rule R520, rule R548). UNCONSTRAINED (log entry 1). -/
opaque freeBytes (draw : Nat) : List Byte

/-- A free list of sizes, for SZ after a failed ENC.DM (rule R520, rule R548). UNCONSTRAINED (log entry 1). -/
opaque freeSizes (draw : Nat) : List Nat

end Sys2Proof.Config
end

