-- ==== Sys2Proof/Machine/Tables.lean ====
section
/-! DEFINITION. The ROM tables that are a parameter of the machine (20_memory.md rule R100, 92_eei_decisions.md "Open
parameters"): their record shapes, the record `Rom` that a machine carries, and the default contents (rule R101, rule R103,
rule R104; log entry 11). -/

namespace Sys2Proof.Machine

/-- A row of T_DMSYM: shape, data and error-correction codewords, size of a data region, regions across and down. -/
structure DmRow where
  rect : Bool
  data : Nat
  ec : Nat
  rw : Nat
  rh : Nat
  hr : Nat
  vr : Nat
deriving DecidableEq, Repr

/-- T_DMSYM: rect, data, ec, rw, rh, hr, vr. -/
def tDmSym : List DmRow :=
  [⟨false, 3, 5, 8, 8, 1, 1⟩, ⟨false, 5, 7, 10, 10, 1, 1⟩, ⟨true, 5, 7, 16, 6, 1, 1⟩,
   ⟨false, 8, 10, 12, 12, 1, 1⟩, ⟨true, 10, 11, 14, 6, 2, 1⟩, ⟨false, 12, 12, 14, 14, 1, 1⟩,
   ⟨true, 16, 14, 24, 10, 1, 1⟩, ⟨false, 18, 14, 16, 16, 1, 1⟩, ⟨false, 22, 18, 18, 18, 1, 1⟩,
   ⟨true, 22, 18, 16, 10, 2, 1⟩] ++
  [⟨false, 30, 20, 20, 20, 1, 1⟩, ⟨true, 32, 24, 16, 14, 2, 1⟩, ⟨false, 36, 24, 22, 22, 1, 1⟩,
   ⟨false, 44, 28, 24, 24, 1, 1⟩, ⟨true, 49, 28, 22, 14, 2, 1⟩, ⟨false, 62, 36, 14, 14, 2, 2⟩,
   ⟨false, 86, 42, 16, 16, 2, 2⟩, ⟨false, 114, 48, 18, 18, 2, 2⟩, ⟨false, 144, 56, 20, 20, 2, 2⟩,
   ⟨false, 174, 68, 22, 22, 2, 2⟩] ++
  [⟨false, 204, 84, 24, 24, 2, 2⟩, ⟨false, 280, 112, 14, 14, 4, 4⟩, ⟨false, 368, 144, 16, 16, 4, 4⟩,
   ⟨false, 456, 192, 18, 18, 4, 4⟩, ⟨false, 576, 224, 20, 20, 4, 4⟩, ⟨false, 696, 272, 22, 22, 4, 4⟩,
   ⟨false, 816, 336, 24, 24, 4, 4⟩, ⟨false, 1050, 408, 18, 18, 6, 6⟩, ⟨false, 1304, 496, 20, 20, 6, 6⟩,
   ⟨false, 1558, 620, 22, 22, 6, 6⟩]

/-- A row of T_QRCAP: codewords of the symbol, data codewords at levels L, M, Q, H. -/
structure QrRow where
  total : Nat
  l : Nat
  m : Nat
  q : Nat
  h : Nat
deriving DecidableEq, Repr

/-- T_QRCAP for versions 1 to 40. -/
def tQrCap : List QrRow :=
  [⟨26, 19, 16, 13, 9⟩, ⟨44, 34, 28, 22, 16⟩, ⟨70, 55, 44, 34, 26⟩, ⟨100, 80, 64, 48, 36⟩, ⟨134, 108, 86, 62, 46⟩,
   ⟨172, 136, 108, 76, 60⟩, ⟨196, 156, 124, 88, 66⟩, ⟨242, 194, 154, 110, 86⟩, ⟨292, 232, 182, 132, 100⟩, ⟨346, 274, 216, 154, 122⟩] ++
  [⟨404, 324, 254, 180, 140⟩, ⟨466, 370, 290, 206, 158⟩, ⟨532, 428, 334, 244, 180⟩, ⟨581, 461, 365, 261, 197⟩, ⟨655, 523, 415, 295, 223⟩,
   ⟨733, 589, 453, 325, 253⟩, ⟨815, 647, 507, 367, 283⟩, ⟨901, 721, 563, 397, 313⟩, ⟨991, 795, 627, 445, 341⟩, ⟨1085, 861, 669, 485, 385⟩] ++
  [⟨1156, 932, 714, 512, 406⟩, ⟨1258, 1006, 782, 568, 442⟩, ⟨1364, 1094, 860, 614, 464⟩, ⟨1474, 1174, 914, 664, 514⟩, ⟨1588, 1276, 1000, 718, 538⟩,
   ⟨1706, 1370, 1062, 754, 596⟩, ⟨1828, 1468, 1128, 808, 628⟩, ⟨1921, 1531, 1193, 871, 661⟩, ⟨2051, 1631, 1267, 911, 701⟩, ⟨2185, 1735, 1373, 985, 745⟩] ++
  [⟨2323, 1843, 1455, 1033, 793⟩, ⟨2465, 1955, 1541, 1115, 845⟩, ⟨2611, 2071, 1631, 1171, 901⟩, ⟨2761, 2191, 1725, 1231, 961⟩, ⟨2876, 2306, 1812, 1286, 986⟩,
   ⟨3034, 2434, 1914, 1354, 1054⟩, ⟨3196, 2566, 1992, 1426, 1096⟩, ⟨3362, 2702, 2102, 1502, 1142⟩, ⟨3532, 2812, 2216, 1582, 1222⟩, ⟨3706, 2956, 2334, 1666, 1276⟩]

/-- T_QRALIGN for versions 1 to 40. -/
def tQrAlign : List (List Nat) :=
  [[], [6, 18], [6, 22], [6, 26], [6, 30],
   [6, 34], [6, 22, 38], [6, 24, 42], [6, 26, 46], [6, 28, 50]] ++
  [[6, 30, 54], [6, 32, 58], [6, 34, 62], [6, 26, 46, 66], [6, 26, 48, 70],
   [6, 26, 50, 74], [6, 30, 54, 78], [6, 30, 56, 82], [6, 30, 58, 86], [6, 34, 62, 90]] ++
  [[6, 28, 50, 72, 94], [6, 26, 50, 74, 98], [6, 30, 54, 78, 102], [6, 28, 54, 80, 106], [6, 32, 58, 84, 110],
   [6, 30, 58, 86, 114], [6, 34, 62, 90, 118], [6, 26, 50, 74, 98, 122], [6, 30, 54, 78, 102, 126], [6, 26, 52, 78, 104, 130]] ++
  [[6, 30, 56, 82, 108, 134], [6, 34, 60, 86, 112, 138], [6, 30, 58, 86, 114, 142], [6, 34, 62, 90, 118, 146], [6, 30, 54, 78, 102, 126, 150],
   [6, 24, 50, 76, 102, 128, 154], [6, 28, 54, 80, 106, 132, 158], [6, 32, 58, 84, 110, 136, 162], [6, 26, 54, 82, 110, 138, 166], [6, 30, 58, 86, 114, 142, 170]]

/-- The contents of the three tables of one machine: T_DMSYM, and T_QRCAP and T_QRALIGN for versions 1, 2, … in order. -/
structure Rom where
  dmSym : List DmRow
  qrCap : List QrRow
  qrAlign : List (List Nat)
deriving DecidableEq, Repr

/-- The default contents (rule R101, rule R103, rule R104). -/
def romDefault : Rom := ⟨tDmSym, tQrCap, tQrAlign⟩

end Sys2Proof.Machine
end

