-- ==== Sys2Proof/Syntax.lean ====
section
/-! DEFINITION. The instruction syntax: one constructor per row of spec/opcode_table.json, in the table's order: the
fourteen command words (format CMD32, 30_encoding.md rule R122), the eighteen Data Matrix codewords read in ASCII mode
(format DMCW8, rule R132) and the eleven QR mode indicators (format QRMI4, rule R150). -/

namespace Sys2Proof

inductive Instr where
  -- CMD32: the commands (rule R122)
  | nop
  | encDm
  | encQr
  | mapDm
  | mapQr
  | parDm
  /-- PAR.QR with its two option bits, MIRROR (bit 8) and RETRY (bit 9) (rule R120). -/
  | parQr (mirror retry : Bool)
  | decDm
  | decQr
  | fmtEnc
  | fmtDec
  | verEnc
  | verDec
  | pen
  -- DMCW8: the codewords of the ASCII-mode alphabet (rule R132)
  | dmIll0
  /-- 1 to 128: one character, code b - 1. -/
  | dmAscii (b : Byte)
  | dmPad
  /-- 130 to 229: two digits, value b - 130. -/
  | dmDigits (b : Byte)
  | dmLatchC40
  | dmLatchB256
  | dmFnc1
  | dmSa
  | dmRp
  | dmUpshift
  | dmMacro05
  | dmMacro06
  | dmLatchX12
  | dmLatchText
  | dmLatchEdf
  | dmEci
  /-- 242 to 253 and 255: no meaning. -/
  | dmIll (b : Byte)
  | dmUnlatch
  -- QRMI4: the mode indicators (rule R150)
  | qrTerm
  | qrNum
  | qrAlnum
  | qrSa
  | qrByte
  | qrFnc1First
  | qrEci
  | qrKanji
  | qrFnc1Second
  | qrHanzi
  /-- 0x6, 0xA, 0xB, 0xC, 0xE, 0xF: no meaning. -/
  | qrIll (v : BitVec 4)
deriving DecidableEq, Repr

end Sys2Proof
end

