-- ==== Sys2Proof/Machine/State.lean ====
section
/-! DEFINITION. The state of one SCC instance as plain data (10_state.md): the control registers of rule R31 field by
field, the eight buffer spaces of rule R68, the working state of rule R60 to rule R66, what the sequencer is doing, and the
model's own fields (the pending actions of the host, what the host has read, and the counter of free draws). -/

namespace Sys2Proof.Machine

/-! ### Buffers -/

/-- The eight buffer spaces (rule R68, rule R80). They are disjoint; no flat address spans them. -/
inductive Space where
  | txt | cw | grid | mm | rdm | out | seg | fnc
deriving DecidableEq, Repr

/-- Width of an element of a space in bits (rule R68). -/
def Space.width (sp : Space) : Nat :=
  match sp with
  | .txt | .cw | .out => 8
  | .grid | .mm | .rdm => 1
  | .seg => 32
  | .fnc => 16

/-- One buffer space: the elements that hold a written value, by rising element address, and the draw that names the free
value of every element nothing has written (rule R71, rule R582: unspecified, but stable). An unlisted address has no
written value. -/
structure Buf (w : Nat) where
  gen : Nat
  cells : List (Nat × BitVec w)
deriving DecidableEq, Repr

/-- The buffers of one instance (rule R68). -/
structure Memory where
  /-- input text, 8-bit code units -/
  txt : Buf 8
  /-- the codeword stream -/
  cw : Buf 8
  /-- the symbol, 1 = dark; element r*256 + c -/
  grid : Buf 1
  /-- the Data Matrix mapping matrix -/
  mm : Buf 1
  /-- the already-written / already-read companion; for QR the function-pattern mask -/
  rdm : Buf 1
  /-- decoded text -/
  out : Buf 8
  /-- byte segments, OFF[15:0], LEN[31:16] -/
  seg : Buf 32
  /-- FNC1 positions -/
  fnc : Buf 16
deriving DecidableEq, Repr

/-! ### Control registers. Only the named fields of rule R31 are stored: reserved bits read 0 and are never written. -/

/-- STATUS (rule R34) but for BUSY, which is the sequencer's phase (`State.busy`). -/
structure Status where
  done : Bool
  error : Bool
  /-- sticky, cleared by reset only -/
  defect : Bool
  mirrored : Bool
  /-- sticky, cleared by reset only -/
  wrbusy : Bool
deriving DecidableEq, Repr

/-- ERR (rule R35): CODE[7:0], UNIT[11:8], INFO[31:16]. -/
structure ErrReg where
  code : BitVec 8
  unit : BitVec 4
  info : BitVec 16
deriving DecidableEq, Repr

/-- CFG_MIN and CFG_MAX (rule R37): width[7:0], height[15:8]. -/
structure SizeReg where
  w : BitVec 8
  h : BitVec 8
deriving DecidableEq, Repr

/-- CFG_QR (rule R38): ECL[1:0], MASK_ID[6:4], MASK_AUTO[7], SJIS[8]. -/
structure CfgQrReg where
  ecl : BitVec 2
  maskId : BitVec 3
  maskAuto : Bool
  sjis : Bool
deriving DecidableEq, Repr

/-- CFG_ECI (rule R39): VALUE[6:0], EN[31]. -/
structure CfgEciReg where
  value : BitVec 7
  en : Bool
deriving DecidableEq, Repr

/-- RES_SA (rule R49): SEQ[7:0], PARITY[15:8], VALID[16]. -/
structure SaReg where
  seq : BitVec 8
  parity : BitVec 8
  valid : Bool
deriving DecidableEq, Repr

/-- RES_ECI (rule R50): VALUE[19:0], PRESENT[31]. -/
structure EciReg where
  value : BitVec 20
  present : Bool
deriving DecidableEq, Repr

/-- TCE_NEW (rule R53): MODE[2:0], VALID[3]; VALID = 0 when `new` is "none". -/
structure TceNewReg where
  mode : BitVec 3
  valid : Bool
deriving DecidableEq, Repr

/-- The control registers (rule R31). ID (0x1F) is a constant and is not stored (`regValue` returns it). TCE_MODE, TCE_POS,
TCE_NEW and TCE_SKIP are the one home of the working state `mode`, `pos`, `new`, `skip` (rule R53, rule R60, rule R61). -/
structure Regs where
  /-- 0x00: the last word issued, whole (rule R33) -/
  cmd : Word
  /-- 0x01 -/
  status : Status
  /-- 0x02 -/
  err : ErrReg
  /-- 0x03 -/
  a0 : Word
  /-- 0x04 -/
  a1 : Word
  /-- 0x05 -/
  r0 : Word
  /-- 0x06 -/
  cfgShape : BitVec 2
  /-- 0x07 -/
  cfgMin : SizeReg
  /-- 0x08 -/
  cfgMax : SizeReg
  /-- 0x09 -/
  cfgQr : CfgQrReg
  /-- 0x0A -/
  cfgEci : CfgEciReg
  /-- 0x0B -/
  txtLen : BitVec 16
  /-- 0x0C -/
  cwLen : BitVec 16
  /-- 0x0D -/
  sym : BitVec 5
  /-- 0x0E -/
  ver : BitVec 6
  /-- 0x0F -/
  gridH : BitVec 8
  /-- 0x10 -/
  gridW : BitVec 8
  /-- 0x11 -/
  outLen : BitVec 16
  /-- 0x12 -/
  segCnt : BitVec 16
  /-- 0x13 -/
  fncCnt : BitVec 16
  /-- 0x14 -/
  resMod : BitVec 3
  /-- 0x15 -/
  resSa : SaReg
  /-- 0x16 -/
  resEci : EciReg
  /-- 0x17 -/
  resEcl : BitVec 2
  /-- 0x18 -/
  resMask : BitVec 3
  /-- 0x19 -/
  resPen : Word
  /-- 0x1A -/
  resMode : BitVec 4
  /-- 0x1B -/
  tceMode : BitVec 3
  /-- 0x1C -/
  tcePos : BitVec 16
  /-- 0x1D -/
  tceNew : TceNewReg
  /-- 0x1E -/
  tceSkip : BitVec 2
deriving DecidableEq, Repr

/-! ### Working state -/

/-- The six lookahead cost accumulators, 32 bits each (COST_W, 00_scope.md rule R8), in twelfths of a codeword, by mode
(rule R63). -/
structure CostRegs where
  ascii : Word
  c40 : Word
  text : Word
  x12 : Word
  edifact : Word
  base256 : Word
deriving DecidableEq, Repr

/-- The working state that is not a register (rule R62 to rule R66). -/
structure Work where
  /-- U1: the value buffer VB, front first; at most VB_SIZE values -/
  vb : List Byte
  /-- U1: the size stack SZ, top first -/
  sz : List Nat
  /-- U1: cost[0..5] -/
  cost : CostRegs
  /-- U1: characters the current lookahead has read -/
  k : BitVec 16
  /-- U2, U3 Data Matrix walk: row, col (signed) -/
  row : Int
  col : Int
  /-- U2, U3 Data Matrix walk: index of the codeword being placed or read -/
  cwpos : Nat
  /-- U2, U3 QR walk: x, y (signed), dir (true = up), bitpos -/
  x : Int
  y : Int
  dirUp : Bool
  bitpos : Nat
  /-- U4: the bit cursor into CW -/
  bp : Nat
  /-- U4 Data Matrix: pending shift, 0 to 3 -/
  shift : Nat
  /-- U4 Data Matrix: upper shift pending -/
  upper : Bool
  /-- U4 Data Matrix: the trailer buffer TRL -/
  trl : List Byte
  /-- U4: an ECI designator was met -/
  eci : Bool
  /-- U4 QR: the value of the last ECI designator -/
  eciValue : BitVec 20
  /-- U4 QR: 0 none, 1 first position, 2 second position -/
  fnc1 : BitVec 2
  /-- U5 mask search: best mask so far and its penalty -/
  best : BitVec 3
  bestpen : Nat
deriving DecidableEq, Repr

/-- What DEC.DM decodes next (rule R392): an ASCII codeword, or a whole segment of a sub-decoder. -/
inductive DmSeg where
  | ascii | c40 | text | x12 | edifact | base256 | eci
deriving DecidableEq, Repr

/-- What the sequencer is doing (rule R510). BUSY is 1 in every phase but `idle`. -/
inductive Phase where
  /-- no command is running -/
  | idle
  /-- a command word was issued (rule R511) and is not decoded yet -/
  | issued
  /-- ENC.DM is between two rounds of its main loop (rule R204) -/
  | encDm
  /-- DEC.DM is between two codewords or segments of its stream (rule R392) -/
  | dmStream (next : DmSeg)
  /-- DEC.QR is before a mode indicator (rule R432) -/
  | qrStream
deriving DecidableEq, Repr

/-! ### The host (the model's own fields) -/

/-- One action of the world outside the instance: the four access primitives of rule R80, and the reset input (rule R580). -/
inductive HostAct where
  | regRead (idx : Nat)
  | regWrite (idx : Nat) (v : Word)
  | bufRead (sp : Space) (addr : Nat)
  /-- one element, of the width the space has (rule R81) -/
  | bufWrite (sp : Space) (addr : Nat) (v : BitVec sp.width)
  | reset
deriving DecidableEq, Repr

/-- A pending action with the moment it lands: `none` waits until the instance is idle (the poll of STATUS of rule R125);
`some n` lands after `n` more rounds of the running command (a round: rule R204, rule R392, rule R432; a command without
rounds ends in its first), or at once when the instance is idle. -/
structure HostEvent where
  act : HostAct
  after : Option Nat
deriving DecidableEq, Repr

/-- The state of one instance (rule R30) with its host's pending actions, and the ROM tables it was built with. -/
structure State where
  /-- T_DMSYM, T_QRCAP, T_QRALIGN: no state of the spec's but its parameter (rule R30, 20_memory.md rule R100); nothing writes
  it (log entry 11) -/
  rom : Rom
  regs : Regs
  mem : Memory
  work : Work
  phase : Phase
  /-- the host's pending actions, next first -/
  host : List HostEvent
  /-- what the host's reads returned, latest first -/
  readings : List Word
  /-- free draws made so far: the next draw's number (the model's own; log entry 1) -/
  draws : Nat
deriving DecidableEq, Repr

/-! ### Why a step can stop: it cannot -/

/-- There is NO fault that stops the machine: every fault of the spec (60_exceptions.md rule R540) is a NEXT state with
ERR and STATUS written. The type is empty; nothing raises it, which is neither safe nor unsafe. -/
inductive Fault
deriving DecidableEq, Repr

/-- Why the model gives no next state. -/
inductive Refusal where
  /-- Raised by an arm of `exec` whose instruction has no meaning yet; safe. No arm answers so. -/
  | notModelled (mnemonic : String)
deriving DecidableEq, Repr

/-! ### Reset (70_reset_and_hazards.md rule R580, rule R581) -/

/-- The registers after reset (rule R581): 0 but for CFG_QR = 0x80. -/
def Regs.reset : Regs where
  cmd := 0
  status := ⟨false, false, false, false, false⟩
  err := ⟨0, 0, 0⟩
  a0 := 0
  a1 := 0
  r0 := 0
  cfgShape := 0
  cfgMin := ⟨0, 0⟩
  cfgMax := ⟨0, 0⟩
  cfgQr := ⟨0, 0, true, false⟩
  cfgEci := ⟨0, false⟩
  txtLen := 0
  cwLen := 0
  sym := 0
  ver := 0
  gridH := 0
  gridW := 0
  outLen := 0
  segCnt := 0
  fncCnt := 0
  resMod := 0
  resSa := ⟨0, 0, false⟩
  resEci := ⟨0, false⟩
  resEcl := 0
  resMask := 0
  resPen := 0
  resMode := 0
  tceMode := 0
  tcePos := 0
  tceNew := ⟨0, false⟩
  tceSkip := 0

/-- The working state after reset: VB and SZ empty; the rest is unspecified and taken as 0 (rule R582 allows it: nothing
reads it before writing it; log entry 3). -/
def Work.reset : Work where
  vb := []
  sz := []
  cost := ⟨0, 0, 0, 0, 0, 0⟩
  k := 0
  row := 0
  col := 0
  cwpos := 0
  x := 0
  y := 0
  dirUp := false
  bitpos := 0
  bp := 0
  shift := 0
  upper := false
  trl := []
  eci := false
  eciValue := 0
  fnc1 := 0
  best := 0
  bestpen := 0

/-- The buffers after reset: nothing written, every element the free value of its own draw (rule R580: unspecified);
`d` is the first of the eight draws. -/
def Memory.unwritten (d : Nat) : Memory where
  txt := ⟨d, []⟩
  cw := ⟨d + 1, []⟩
  grid := ⟨d + 2, []⟩
  mm := ⟨d + 3, []⟩
  rdm := ⟨d + 4, []⟩
  out := ⟨d + 5, []⟩
  seg := ⟨d + 6, []⟩
  fnc := ⟨d + 7, []⟩

/-- The machine right after reset (rule R580): idle, no pending action of the host; the ROM tables at their default
contents. -/
def State.reset : State where
  rom := romDefault
  regs := Regs.reset
  mem := Memory.unwritten 0
  work := Work.reset
  phase := .idle
  host := []
  readings := []
  draws := 8

/-- STATUS.BUSY (rule R34, rule R510): a command is running. -/
def State.busy (s : State) : Bool := decide (s.phase ≠ .idle)

end Sys2Proof.Machine
end

