-- ==== Sys2Proof/Machine/Flags.lean ====
section
/-! DEFINITION. The flags of the SCC: STATUS and its six bits (10_state.md rule R34), the only flags there are; the fault
names and codes of ERR (60_exceptions.md rule R541); the units of ERR.UNIT (rule R35). -/

namespace Sys2Proof.Machine

/-- The fault names of rule R541. ChecksumException and NotFoundException are the reserved ones no command raises
(rule R543). -/
inductive Exn where
  | formatException
  | checksumException
  | capacityExceeded
  | notFoundException
  | illegalCommand
  | illegalCharacter
  | internalDefect
deriving DecidableEq, Repr

/-- ERR.CODE of a fault (rule R541). -/
def Exn.code (x : Exn) : BitVec 8 :=
  match x with
  | .formatException => 1
  | .checksumException => 2
  | .capacityExceeded => 3
  | .notFoundException => 4
  | .illegalCommand => 5
  | .illegalCharacter => 6
  | .internalDefect => 7

/-- The units ERR.UNIT names (rule R35). -/
inductive UnitId where
  | decoder | tce | map | par | bsp | fmc
deriving DecidableEq, Repr

/-- ERR.UNIT of a unit (rule R35). -/
def UnitId.num (u : UnitId) : BitVec 4 :=
  match u with
  | .decoder => 0
  | .tce => 1
  | .map => 2
  | .par => 3
  | .bsp => 4
  | .fmc => 5

/-- A fault found by a unit's rule: its name and ERR.INFO (rule R548). -/
structure Raise where
  exn : Exn
  info : Nat
deriving DecidableEq, Repr

/-- InternalDefect, INFO 0 (60_exceptions.md rule R547). -/
def defectErr : Raise := ⟨.internalDefect, 0⟩

/-- A Bool as the number 0 or 1. -/
def flagNat (b : Bool) : Nat := if b then 1 else 0

/-- STATUS as the host reads it (rule R34): BUSY[0], DONE[1], ERROR[2], DEFECT[3], MIRRORED[4], WRBUSY[5]. -/
def statusWord (busy : Bool) (st : Status) : Word :=
  BitVec.ofNat 32 (flagNat busy + 2 * flagNat st.done + 4 * flagNat st.error + 8 * flagNat st.defect
    + 16 * flagNat st.mirrored + 32 * flagNat st.wrbusy)

/-- STATUS at command issue (rule R511): DONE and ERROR cleared; MIRRORED cleared by a PAR.QR word only. -/
def Status.atIssue (st : Status) (isParQr : Bool) : Status :=
  { st with done := false, error := false, mirrored := if isParQr then false else st.mirrored }

/-- STATUS at a completed command's end (rule R517). -/
def Status.atCompletion (st : Status) : Status :=
  { st with done := true, error := false }

/-- STATUS at a command's end by fault `x` (rule R548): DEFECT is set by InternalDefect only, and is sticky. -/
def Status.atFault (st : Status) (x : Exn) : Status :=
  { st with done := true, error := true, defect := st.defect || decide (x = .internalDefect) }

end Sys2Proof.Machine
end

