-- ==== Sys2Proof/Machine/Rom.lean ====
section
/-! DEFINITION. The queries over the ROM tables of a machine (20_memory.md rule R101 to rule R109) and the invariant of their
Data Matrix rows (rule R107); and the tables that are no parameter: ccBits (rule R106), T_FMT and T_VER
(46_format_metadata_codec.md rule R473 and rule R478). -/

namespace Sys2Proof.Machine

/-- A scan that stops at the first row `hit` accepts meets a row that is not `ok` (60_exceptions.md rule R547: a broken row
fails closed at the first use that meets it). -/
def scanBroken {α : Type} (ok hit : α → Bool) (rows : List α) : Bool :=
  match rows with
  | [] => false
  | r :: rest => if ok r then (if hit r then false else scanBroken ok hit rest) else true

/-! ### T_DMSYM, the Data Matrix symbol table (rule R101) -/

/-- Symbol width in modules. -/
def dmSymW (r : DmRow) : Nat := r.hr * (r.rw + 2)
/-- Symbol height in modules. -/
def dmSymH (r : DmRow) : Nat := r.vr * (r.rh + 2)
/-- Columns of the mapping matrix. -/
def dmNc (r : DmRow) : Nat := r.hr * r.rw
/-- Rows of the mapping matrix. -/
def dmNr (r : DmRow) : Nat := r.vr * r.rh
/-- Codewords of the symbol. -/
def dmTotal (r : DmRow) : Nat := r.data + r.ec

/-- The row keeps the invariant of rule R107: `(nr*nc) / 8 == data + ec`, nr and nc even. -/
def dmRowOk (r : DmRow) : Bool :=
  decide (dmNr r * dmNc r / 8 = dmTotal r) && decide (dmNr r % 2 = 0) && decide (dmNc r % 2 = 0)

/-- A row of T_DMSYM by its index. -/
def dmRow (rom : Rom) (idx : Nat) : Option DmRow := rom.dmSym[idx]?

/-- The size filter of one bound register (rule R102): both fields 0 means no bound. -/
def SizeReg.unbounded (b : SizeReg) : Bool := decide (b.w = 0) && decide (b.h = 0)

/-- The filters of `dmLookup` (rule R102): CFG_SHAPE, CFG_MIN, CFG_MAX permit the row. -/
def dmPermitted (shape : BitVec 2) (cmin cmax : SizeReg) (r : DmRow) : Bool :=
  !(decide (shape = 1) && r.rect) && !(decide (shape = 2) && !r.rect)
    && (cmin.unbounded || (decide (cmin.w.toNat ≤ dmSymW r) && decide (cmin.h.toNat ≤ dmSymH r)))
    && (cmax.unbounded || (decide (dmSymW r ≤ cmax.w.toNat) && decide (dmSymH r ≤ cmax.h.toNat)))

/-- The scan of `dmLookup` over the rows from index `idx` on (rule R102). -/
def dmScan (shape : BitVec 2) (cmin cmax : SizeReg) (n : Nat) (idx : Nat) (rows : List DmRow) : Option (Nat × DmRow) :=
  match rows with
  | [] => none
  | r :: rest =>
    if dmPermitted shape cmin cmax r && decide (n ≤ r.data) then some (idx, r)
    else dmScan shape cmin cmax n (idx + 1) rest

/-- `dmLookup(n)` (rule R102): the first permitted row with room for `n` data codewords; none is CapacityExceeded. -/
def dmLookup (rom : Rom) (r : Regs) (n : Nat) : Option (Nat × DmRow) :=
  dmScan r.cfgShape r.cfgMin r.cfgMax n 0 rom.dmSym

/-- `dmLookup(n)` meets a row that breaks rule R107. -/
def dmLookupBroken (rom : Rom) (r : Regs) (n : Nat) : Bool :=
  scanBroken dmRowOk (fun row => dmPermitted r.cfgShape r.cfgMin r.cfgMax row && decide (n ≤ row.data)) rom.dmSym

/-- The row whose symbol size is H × W, from index `idx` on. -/
def dmFindDims (h w : Nat) (idx : Nat) (rows : List DmRow) : Option (Nat × DmRow) :=
  match rows with
  | [] => none
  | r :: rest => if dmSymH r = h ∧ dmSymW r = w then some (idx, r) else dmFindDims h w (idx + 1) rest

/-- `dmByDims(H, W)` (rule R108); none is FormatException. -/
def dmByDims (rom : Rom) (h w : Nat) : Option (Nat × DmRow) :=
  if h % 2 = 1 ∨ w % 2 = 1 then none else dmFindDims h w 0 rom.dmSym

/-- `dmByDims(H, W)` meets a row that breaks rule R107. -/
def dmByDimsBroken (rom : Rom) (h w : Nat) : Bool :=
  if h % 2 = 1 ∨ w % 2 = 1 then false
  else scanBroken dmRowOk (fun r => decide (dmSymH r = h ∧ dmSymW r = w)) rom.dmSym

/-! ### T_QRCAP and T_QRALIGN (rule R103, rule R104) -/

/-- The row of a version 1 to 40; all zeros for any other number and for a version the table has no row for, a row that breaks
rule R107. -/
def qrRow (rom : Rom) (v : Nat) : QrRow :=
  match v with
  | 0 => ⟨0, 0, 0, 0, 0⟩
  | n + 1 => (rom.qrCap[n]?).getD ⟨0, 0, 0, 0, 0⟩

/-- `total(v)` (rule R103). -/
def qrTotal (rom : Rom) (v : Nat) : Nat := (qrRow rom v).total

/-- `data(v, e)` for a level ordinal e: 0 = L, 1 = M, 2 = Q, 3 = H (rule R103). -/
def qrData (rom : Rom) (v e : Nat) : Nat :=
  match e with
  | 0 => (qrRow rom v).l
  | 1 => (qrRow rom v).m
  | 2 => (qrRow rom v).q
  | _ => (qrRow rom v).h

/-- `dim(v)` (rule R103). -/
def qrDim (v : Nat) : Nat := 17 + 4 * v

/-- VER is a version (rule R43): 1 to 40. -/
def verLegal (v : Nat) : Bool := decide (1 ≤ v) && decide (v ≤ 40)

/-- The scan of `qrPick` from version `v` on, `n` versions left. -/
def qrPickFrom (rom : Rom) (bytes e : Nat) (v n : Nat) : Option Nat :=
  match n with
  | 0 => none
  | n + 1 => if bytes ≤ qrData rom v e then some v else qrPickFrom rom bytes e (v + 1) n

/-- `qrPick(nbits, e)` (rule R109); none is CapacityExceeded. -/
def qrPick (rom : Rom) (nbits e : Nat) : Option Nat := qrPickFrom rom ((nbits + 7) / 8) e 1 40

/-- The version's row of T_QRCAP keeps what rule R107 says of that table alone: `data(v, e) < total(v)`, data non-increasing in e
and non-decreasing in v. -/
def qrCapOk (rom : Rom) (v : Nat) : Bool :=
  [0, 1, 2, 3].all (fun e => decide (qrData rom v e < qrTotal rom v) && decide (qrData rom v (e + 1) ≤ qrData rom v e)
    && decide (qrData rom (v - 1) e ≤ qrData rom v e))

/-- The versions 1 to 40. -/
def versions : List Nat := (List.range 40).map (fun k => k + 1)

/-- The alignment-pattern coordinates of a version (rule R104). -/
def qrAlign (rom : Rom) (v : Nat) : List Nat :=
  match v with
  | 0 => []
  | n + 1 => (rom.qrAlign[n]?).getD []

/-- One of the three pairs that fall on finder patterns (rule R105): (first, first), (last, first), (first, last). -/
def alignSkipped (first last cx cy : Nat) : Bool :=
  (decide (cx = first) && decide (cy = first)) || (decide (cx = last) && decide (cy = first))
    || (decide (cx = first) && decide (cy = last))

/-- Every pair (cx, cy) of a version's coordinates, for every cy every cx. -/
def alignPairs (cs : List Nat) : List (Nat × Nat) := cs.flatMap (fun cy => cs.map (fun cx => (cx, cy)))

/-- The centres (cx, cy) of a version's alignment patterns (rule R104, rule R105). -/
def qrCentres (rom : Rom) (v : Nat) : List (Nat × Nat) :=
  let cs := qrAlign rom v
  let first := cs.headD 0
  let last := cs.getLastD 0
  (alignPairs cs).filter (fun p => !alignSkipped first last p.1 p.2)

/-! ### ccBits (rule R106) -/

/-- `ccBits(m, v)`: the width of the character-count field of mode indicator `m` in version `v`. -/
def ccBits (m v : Nat) : Nat :=
  let band (a b c : Nat) : Nat := if v ≤ 9 then a else if v ≤ 26 then b else c
  match m with
  | 1 => band 10 12 14
  | 2 => band 9 11 13
  | 4 => band 8 16 16
  | _ => band 8 10 12

/-! ### T_FMT and T_VER (46_format_metadata_codec.md rule R473, rule R478) -/

/-- T_FMT: the 32 format words. -/
def tFmt : List Nat :=
  [0x5412, 0x5125, 0x5E7C, 0x5B4B, 0x45F9, 0x40CE, 0x4F97, 0x4AA0] ++
  [0x77C4, 0x72F3, 0x7DAA, 0x789D, 0x662F, 0x6318, 0x6C41, 0x6976] ++
  [0x1689, 0x13BE, 0x1CE7, 0x19D0, 0x0762, 0x0255, 0x0D0C, 0x083B] ++
  [0x355F, 0x3068, 0x3F31, 0x3A06, 0x24B4, 0x2183, 0x2EDA, 0x2BED]

/-- T_VER: the 34 version words, of versions 7 to 40. -/
def tVer : List Nat :=
  [0x07C94, 0x085BC, 0x09A99, 0x0A4D3, 0x0BBF6, 0x0C762, 0x0D847, 0x0E60D, 0x0F928, 0x10B78] ++
  [0x1145D, 0x12A17, 0x13532, 0x149A6, 0x15683, 0x168C9, 0x177EC, 0x18EC4, 0x191E1, 0x1AFAB] ++
  [0x1B08E, 0x1CC1A, 0x1D33F, 0x1ED75, 0x1F250, 0x209D5, 0x216F0, 0x228BA, 0x2379F, 0x24B0B] ++
  [0x2542E, 0x26A64, 0x27541, 0x28C69]

/-- `[1, 0, 3, 2][e]`: the level code of a level ordinal, and back (30_encoding.md rule R170). -/
def ecBits (e : Nat) : Nat :=
  match e with
  | 0 => 1
  | 1 => 0
  | 2 => 3
  | _ => 2

/-- The format word of level ordinal `e` and mask id `m`: T_FMT[(ecBits(e) << 3) | m] (rule R473, rule R474). -/
def fmtWord (e m : Nat) : Nat := (tFmt[8 * ecBits e + m]?).getD 0

/-- The version word of a version 7 to 40 (rule R478). -/
def verWord (v : Nat) : Nat := (tVer[v - 7]?).getD 0

end Sys2Proof.Machine
end

