-- ==== Sys2Proof/Machine/Alphabets.lean ====
section
/-! DEFINITION. The character predicates, the value sets and the packings the encoders and decoders share
(30_encoding.md rule R131, rule R133 to rule R142, rule R151 to rule R157). Code units and values are natural numbers here:
the spec computes on them with integer arithmetic and no wrap-around (47_commands.md rule R526). -/

namespace Sys2Proof.Machine

/-! ### Predicates (rule R131) -/

/-- A decimal digit. -/
def isDigit (c : Nat) : Bool := decide (48 ≤ c) && decide (c ≤ 57)
/-- An extended character. -/
def isExt (c : Nat) : Bool := decide (128 ≤ c)
/-- An upper-case letter. -/
def isUpper (c : Nat) : Bool := decide (65 ≤ c) && decide (c ≤ 90)
/-- A lower-case letter. -/
def isLower (c : Nat) : Bool := decide (97 ≤ c) && decide (c ≤ 122)
/-- Native to C40. -/
def natC40 (c : Nat) : Bool := decide (c = 32) || isDigit c || isUpper c
/-- Native to Text. -/
def natText (c : Nat) : Bool := decide (c = 32) || isDigit c || isLower c
/-- An X12 separator. -/
def x12Sep (c : Nat) : Bool := decide (c = 13) || decide (c = 42) || decide (c = 62)
/-- Native to X12. -/
def natX12 (c : Nat) : Bool := x12Sep c || decide (c = 32) || isDigit c || isUpper c
/-- Native to EDIFACT. -/
def natEdf (c : Nat) : Bool := decide (32 ≤ c) && decide (c ≤ 94)
/-- False for every code unit: the stub rule R131 makes normative. -/
def isSpecialB256 (_ : Nat) : Bool := false

/-! ### C40 and Text (rule R133 to rule R135) -/

/-- `c40Values(c)` for c below 128. -/
def c40Low (c : Nat) : List Nat :=
  if c = 32 then [3]
  else if isDigit c then [c - 44]
  else if isUpper c then [c - 51]
  else if c < 32 then [0, c]
  else if c ≤ 47 then [1, c - 33]
  else if c ≤ 64 then [1, c - 43]
  else if c ≤ 95 then [1, c - 69]
  else [2, c - 96]

/-- `c40Values(c)` (rule R133). -/
def c40Values (c : Nat) : List Nat :=
  if 128 ≤ c then [1, 30] ++ c40Low (c - 128) else c40Low c

/-- `textValues(c)` for c below 128. -/
def textLow (c : Nat) : List Nat :=
  if c = 32 then [3]
  else if isDigit c then [c - 44]
  else if isLower c then [c - 83]
  else if c < 32 then [0, c]
  else if c ≤ 47 then [1, c - 33]
  else if c ≤ 64 then [1, c - 43]
  else if 91 ≤ c ∧ c ≤ 95 then [1, c - 69]
  else if c = 96 then [2, 0]
  else if c ≤ 90 then [2, c - 64]
  else [2, c - 96]

/-- `textValues(c)` (rule R134). -/
def textValues (c : Nat) : List Nat :=
  if 128 ≤ c then [1, 30] ++ textLow (c - 128) else textLow c

/-- The 27 characters of shift 2 (rule R135): 33 to 47, 58 to 64, 91 to 95; meant for v ≤ 26. -/
def shift2Char (v : Nat) : Nat :=
  if v ≤ 14 then v + 33 else if v ≤ 21 then v + 43 else v + 69

/-! ### X12 and EDIFACT values (rule R136, rule R137) -/

/-- `x12Value(c)`; none is IllegalCharacter. -/
def x12Value (c : Nat) : Option Nat :=
  if c = 13 then some 0
  else if c = 42 then some 1
  else if c = 62 then some 2
  else if c = 32 then some 3
  else if isDigit c then some (c - 44)
  else if isUpper c then some (c - 51)
  else none

/-- The character of an X12 value; none is FormatException. -/
def x12Char (v : Nat) : Option Nat :=
  if v = 0 then some 13
  else if v = 1 then some 42
  else if v = 2 then some 62
  else if v = 3 then some 32
  else if v ≤ 13 then some (v + 44)
  else if v ≤ 39 then some (v + 51)
  else none

/-- `edfValue(c)`; none is IllegalCharacter. -/
def edfValue (c : Nat) : Option Nat :=
  if 32 ≤ c ∧ c ≤ 63 then some c
  else if 64 ≤ c ∧ c ≤ 94 then some (c - 64)
  else none

/-- The character of an EDIFACT value other than 31: bit 5 clear adds 64. -/
def edfChar (v : Nat) : Nat := if v < 32 then v + 64 else v

/-! ### Packings (rule R140, rule R141) -/

/-- The two codewords of three values (rule R140). -/
def packTriplet (a b c : Nat) : List Nat :=
  let v := 1600 * a + 40 * b + c + 1
  [v / 256, v % 256]

/-- The three values of two codewords (rule R140); none is FormatException (h = l = 0). -/
def unpackTriplet (h l : Nat) : Option (List Nat) :=
  if h = 0 ∧ l = 0 then none
  else
    let f := 256 * h + l - 1
    some [f / 1600, (f % 1600) / 40, f % 40]

/-- `edfPack(L)` (rule R141): the codewords of 1 to 4 six-bit values, missing ones taken as 0. -/
def edfPack (vs : List Nat) : List Nat :=
  let v := (vs[0]?.getD 0) * 262144 + (vs[1]?.getD 0) * 4096 + (vs[2]?.getD 0) * 64 + vs[3]?.getD 0
  [(v / 65536) % 256] ++ (if 2 ≤ vs.length then [(v / 256) % 256] else []) ++ (if 3 ≤ vs.length then [v % 256] else [])

/-! ### Base256 randomising and pads (rule R139); `p` is the 1-based position of the codeword -/

/-- `rand255(b, P)`. -/
def rand255 (b p : Nat) : Nat :=
  let t := b + ((149 * p) % 255) + 1
  if t ≤ 255 then t else t - 256

/-- `unrand255(r, P)`. -/
def unrand255 (r p : Nat) : Nat :=
  let o := ((149 * p) % 255) + 1
  if o ≤ r then r - o else r + 256 - o

/-- `rand253(P)`. -/
def rand253 (p : Nat) : Nat :=
  let t := 129 + ((149 * p) % 253) + 1
  if t ≤ 254 then t else t - 254

/-! ### The macro literals (rule R142) -/

/-- Header of macro 05. -/
def macroHeader05 : List Nat := [0x5B, 0x29, 0x3E, 0x1E, 0x30, 0x35, 0x1D]
/-- Header of macro 06. -/
def macroHeader06 : List Nat := [0x5B, 0x29, 0x3E, 0x1E, 0x30, 0x36, 0x1D]
/-- Trailer of both macros. -/
def macroTrailer : List Nat := [0x1E, 0x04]

/-! ### QR (rule R151, rule R155, rule R156) -/

/-- `alnum(c)` (rule R151): the value of a character of ALNUM. -/
def alnum (c : Nat) : Option Nat :=
  if isDigit c then some (c - 48)
  else if isUpper c then some (c - 55)
  else match c with
    | 32 => some 36
    | 36 => some 37
    | 37 => some 38
    | 42 => some 39
    | 43 => some 40
    | 45 => some 41
    | 46 => some 42
    | 47 => some 43
    | 58 => some 44
    | _ => none

/-- ALNUM[v] for v ≤ 44 (rule R151). -/
def alnumChar (v : Nat) : Nat :=
  if v ≤ 9 then v + 48
  else if v ≤ 35 then v + 55
  else match v with
    | 36 => 32
    | 37 => 36
    | 38 => 37
    | 39 => 42
    | 40 => 43
    | 41 => 45
    | 42 => 46
    | 43 => 47
    | _ => 58

/-- The 13-bit Kanji group of a two-byte code (rule R155); none is IllegalCharacter. A pair whose second byte
is below 0x40 is not shut out: it takes the group rule R155 computes for it, which decodes to another pair, although
41_tce_qr.md rule R292 claims the round trip for every text. The model follows rule R155 (DESIGN CHOICE; log entry 21). -/
def kanjiGroup (code : Nat) : Option Nat :=
  if 0x8140 ≤ code ∧ code ≤ 0x9FFC then
    some (((code - 0x8140) / 256) * 0xC0 + (code - 0x8140) % 256)
  else if 0xE040 ≤ code ∧ code ≤ 0xEBBF then
    some (((code - 0xC140) / 256) * 0xC0 + (code - 0xC140) % 256)
  else none

/-- The two-byte code of a Kanji group (rule R155). The low part is below 0xC0, so `|` adds. -/
def kanjiCode (g : Nat) : Nat :=
  let a := (g / 0xC0) * 256 + g % 0xC0
  if a < 0x1F00 then a + 0x8140 else a + 0xC140

/-- The two-byte code of a Hanzi group (rule R156). -/
def hanziCode (g : Nat) : Nat :=
  let a := (g / 0x60) * 256 + g % 0x60
  if a < 0x0A00 then a + 0xA1A1 else a + 0xA6A1

/-! ### Bits of a number -/

/-- The `n` low bits of `v`, most significant first. -/
def bitsMsb (v n : Nat) : List Bool :=
  match n with
  | 0 => []
  | n + 1 => v.testBit n :: bitsMsb v n

/-- The number whose bits, most significant first, are `bs`, after a prefix worth `acc`. -/
def bitsVal (acc : Nat) (bs : List Bool) : Nat :=
  match bs with
  | [] => acc
  | b :: rest => bitsVal (2 * acc + flagNat b) rest

/-- Bits, most significant first, in whole bytes; fewer than 8 left over are dropped (43_parser.md rule R377). -/
def bytesOfBits (bits : List Bool) : List Nat :=
  match bits with
  | b1 :: b2 :: b3 :: b4 :: b5 :: b6 :: b7 :: b8 :: rest =>
    bitsVal 0 [b1, b2, b3, b4, b5, b6, b7, b8] :: bytesOfBits rest
  | _ => []

end Sys2Proof.Machine
end

