-- ==== Sys2Proof/WellFormed.lean ====
section
/-! DEFINITION. Which terms of `Instr` stand for an encoding of the spec: the four rows with an operand field restrict
it to the range 30_encoding.md rule R132 and rule R150 give. -/

namespace Sys2Proof

/-- The codewords of row DM.ASCII (rule R132). -/
def isAsciiCodeword (b : Byte) : Bool := decide (1 ≤ b.toNat) && decide (b.toNat ≤ 128)

/-- The codewords of row DM.DIGITS (rule R132). -/
def isDigitsCodeword (b : Byte) : Bool := decide (130 ≤ b.toNat) && decide (b.toNat ≤ 229)

/-- The codewords of row DM.ILL (rule R132): 242 to 253, and 255. -/
def isIllegalCodeword (b : Byte) : Bool :=
  (decide (242 ≤ b.toNat) && decide (b.toNat ≤ 253)) || decide (b.toNat = 255)

/-- The indicators of row QR.ILL (rule R150). -/
def isIllegalIndicator (v : BitVec 4) : Bool :=
  decide (v.toNat ∈ [0x6, 0xA, 0xB, 0xC, 0xE, 0xF])

/-- The term stands for an encoding: its operand is one its row admits. -/
def Instr.wf (i : Instr) : Bool :=
  match i with
  | .dmAscii b => isAsciiCodeword b
  | .dmDigits b => isDigitsCodeword b
  | .dmIll b => isIllegalCodeword b
  | .qrIll v => isIllegalIndicator v
  | .nop | .encDm | .encQr | .mapDm | .mapQr | .parDm | .parQr _ _ | .decDm | .decQr
  | .fmtEnc | .fmtDec | .verEnc | .verDec | .pen
  | .dmIll0 | .dmPad | .dmLatchC40 | .dmLatchB256 | .dmFnc1 | .dmSa | .dmRp | .dmUpshift
  | .dmMacro05 | .dmMacro06 | .dmLatchX12 | .dmLatchText | .dmLatchEdf | .dmEci | .dmUnlatch
  | .qrTerm | .qrNum | .qrAlnum | .qrSa | .qrByte | .qrFnc1First | .qrEci | .qrKanji
  | .qrFnc1Second | .qrHanzi => true

end Sys2Proof
end

