-- ==== Sys2Proof/Decode.lean ====
section
/-! DEFINITION. Decoding and encoding. The SCC has three layers of encoding (30_encoding.md): the 32-bit command word
written to CMD, the 8-bit codeword read by U4 in Data Matrix ASCII mode, and the 4-bit mode indicator U4 reads from a QR
bit stream. Which layer applies is a matter of what the sequencer is doing, never of the bits. Each decoder is total: the
command decoder rejects by name, the other two give every bit pattern its row (the illegal rows included). -/

namespace Sys2Proof

/-! ### The command word (format CMD32) -/

/-- Why a command word spells no command (rule R123). Every one is the fault IllegalCommand when issued. -/
inductive CmdReject where
  /-- A bit of [31:10] is set. -/
  | reservedBits
  /-- MIRROR or RETRY is set with an OP other than PAR.QR's. -/
  | optionBits
  /-- OP[7:0] is none of the fourteen opcodes. -/
  | unknownOpcode
deriving DecidableEq, Repr

/-- OP[7:0] of a command word (rule R120). -/
def cmdOp (w : Word) : Nat := w.toNat % 256
/-- MIRROR[8] of a command word (rule R120). -/
def cmdMirror (w : Word) : Bool := w.getLsbD 8
/-- RETRY[9] of a command word (rule R120). -/
def cmdRetry (w : Word) : Bool := w.getLsbD 9

/-- The opcode map (rule R122) for the words without option bits: the command an OP names. -/
def commandOfOp (op : Nat) : Option Instr :=
  match op with
  | 0x00 => some .nop
  | 0x10 => some .encDm
  | 0x11 => some .encQr
  | 0x20 => some .mapDm
  | 0x21 => some .mapQr
  | 0x30 => some .parDm
  | 0x31 => some (.parQr false false)
  | 0x40 => some .decDm
  | 0x41 => some .decQr
  | 0x50 => some .fmtEnc
  | 0x51 => some .fmtDec
  | 0x52 => some .verEnc
  | 0x53 => some .verDec
  | 0x54 => some .pen
  | _ => none

/-- Decode a command word (rule R122, rule R123, rule R518). -/
def decodeCommand (w : Word) : Except CmdReject Instr :=
  if 1024 ≤ w.toNat then .error .reservedBits
  else if cmdOp w = 0x31 then .ok (.parQr (cmdMirror w) (cmdRetry w))
  else if cmdMirror w || cmdRetry w then
    (if (commandOfOp (cmdOp w)).isSome then .error .optionBits else .error .unknownOpcode)
  else match commandOfOp (cmdOp w) with
    | some i => .ok i
    | none => .error .unknownOpcode

/-! ### The Data Matrix codeword in ASCII mode (format DMCW8) -/

/-- The row of the ASCII-mode alphabet a codeword belongs to (rule R132). Total: every one of the 256 codewords has one. -/
def decodeCodeword (b : Byte) : Instr :=
  match b.toNat with
  | 0 => .dmIll0
  | 129 => .dmPad
  | 230 => .dmLatchC40
  | 231 => .dmLatchB256
  | 232 => .dmFnc1
  | 233 => .dmSa
  | 234 => .dmRp
  | 235 => .dmUpshift
  | 236 => .dmMacro05
  | 237 => .dmMacro06
  | 238 => .dmLatchX12
  | 239 => .dmLatchText
  | 240 => .dmLatchEdf
  | 241 => .dmEci
  | 254 => .dmUnlatch
  | n => if n ≤ 128 then .dmAscii b else if n ≤ 229 then .dmDigits b else .dmIll b

/-! ### The QR mode indicator (format QRMI4) -/

/-- The row a 4-bit mode indicator belongs to (rule R150). Total. -/
def decodeIndicator (v : BitVec 4) : Instr :=
  match v.toNat with
  | 0x0 => .qrTerm
  | 0x1 => .qrNum
  | 0x2 => .qrAlnum
  | 0x3 => .qrSa
  | 0x4 => .qrByte
  | 0x5 => .qrFnc1First
  | 0x7 => .qrEci
  | 0x8 => .qrKanji
  | 0x9 => .qrFnc1Second
  | 0xD => .qrHanzi
  | _ => .qrIll v

/-! ### One decoder over the three formats, and the encoder -/

/-- An encoded instruction: the format (rule R120, rule R132, rule R150) and its bits. -/
inductive Encoded where
  | cmd32 (w : Word)
  | dmcw8 (b : Byte)
  | qrmi4 (v : BitVec 4)
deriving DecidableEq, Repr

/-- Decode an encoded instruction of any of the three formats. -/
def decode (e : Encoded) : Except CmdReject Instr :=
  match e with
  | .cmd32 w => decodeCommand w
  | .dmcw8 b => .ok (decodeCodeword b)
  | .qrmi4 v => .ok (decodeIndicator v)

/-- The word of a PAR.QR with its option bits (rule R120): OP 0x31, MIRROR in bit 8, RETRY in bit 9. -/
def parQrWord (mirror retry : Bool) : Word :=
  BitVec.ofNat 32 (0x31 + (if mirror then 256 else 0) + (if retry then 512 else 0))

/-- The encoding of an instruction, from the tables of rule R122, rule R132 and rule R150. -/
def encode (i : Instr) : Encoded :=
  match i with
  | .nop => .cmd32 0x00000000
  | .encDm => .cmd32 0x00000010
  | .encQr => .cmd32 0x00000011
  | .mapDm => .cmd32 0x00000020
  | .mapQr => .cmd32 0x00000021
  | .parDm => .cmd32 0x00000030
  | .parQr mirror retry => .cmd32 (parQrWord mirror retry)
  | .decDm => .cmd32 0x00000040
  | .decQr => .cmd32 0x00000041
  | .fmtEnc => .cmd32 0x00000050
  | .fmtDec => .cmd32 0x00000051
  | .verEnc => .cmd32 0x00000052
  | .verDec => .cmd32 0x00000053
  | .pen => .cmd32 0x00000054
  | .dmIll0 => .dmcw8 0
  | .dmAscii b => .dmcw8 b
  | .dmPad => .dmcw8 129
  | .dmDigits b => .dmcw8 b
  | .dmLatchC40 => .dmcw8 230
  | .dmLatchB256 => .dmcw8 231
  | .dmFnc1 => .dmcw8 232
  | .dmSa => .dmcw8 233
  | .dmRp => .dmcw8 234
  | .dmUpshift => .dmcw8 235
  | .dmMacro05 => .dmcw8 236
  | .dmMacro06 => .dmcw8 237
  | .dmLatchX12 => .dmcw8 238
  | .dmLatchText => .dmcw8 239
  | .dmLatchEdf => .dmcw8 240
  | .dmEci => .dmcw8 241
  | .dmIll b => .dmcw8 b
  | .dmUnlatch => .dmcw8 254
  | .qrTerm => .qrmi4 0x0
  | .qrNum => .qrmi4 0x1
  | .qrAlnum => .qrmi4 0x2
  | .qrSa => .qrmi4 0x3
  | .qrByte => .qrmi4 0x4
  | .qrFnc1First => .qrmi4 0x5
  | .qrEci => .qrmi4 0x7
  | .qrKanji => .qrmi4 0x8
  | .qrFnc1Second => .qrmi4 0x9
  | .qrHanzi => .qrmi4 0xD
  | .qrIll v => .qrmi4 v

/-! ### The opcode table's numbering of an instruction's bits -/

/-- Which of the three formats a table row of `nbits` bits (in whole bytes) with bits `w` is read in. 32 bits is a
command word and 4 bits a mode indicator. Eight bits may be either a DMCW8 row or a QRMI4 row whose four bits were rounded
up to a byte: the indicators 1 to 15 are then read as QRMI4 rows and every other byte as DMCW8 (log entry 12: a convention of
this probe only; the machine's own fetch always knows which of the two streams it is in). -/
def tableEncoding (nbits w : Nat) : Option Encoded :=
  if nbits = 32 then some (.cmd32 (BitVec.ofNat 32 w))
  else if nbits = 8 then
    (if 1 ≤ w % 256 ∧ w % 256 ≤ 15 then some (.qrmi4 (BitVec.ofNat 4 w)) else some (.dmcw8 (BitVec.ofNat 8 w)))
  else if nbits = 4 then some (.qrmi4 (BitVec.ofNat 4 w))
  else none

/-- The instruction the decoders read from an instruction whose bits, numbered as spec/opcode_table.json numbers them,
are `w`; none where the command decoder rejects. -/
def decodeTableWord (nbits w : Nat) : Option Instr :=
  match tableEncoding nbits w with
  | none => none
  | some e => match decode e with
    | .ok i => some i
    | .error _ => none

end Sys2Proof
end

