-- ==== Sys2Proof/Machine/Ops.lean ====
section
/-! DEFINITION. The named operations over memory and registers: reading and writing one buffer element, the canonical form
of memory, the write set of every command (47_commands.md rule R520), leaving a location `any value`, command issue
(rule R511), command completion (rule R517) and TAKING A FAULT (60_exceptions.md rule R548), the one fault mechanism of the
SCC, in `State.raise`. There is no return from a fault (rule R550): the instance is idle after it. -/

namespace Sys2Proof.Machine

/-! ### One buffer -/

/-- Number of elements of a space (rule R68, rule R8). -/
def Space.size (sp : Space) : Nat :=
  match sp with
  | .txt => Config.txtSize
  | .cw => Config.cwSize
  | .grid | .mm | .rdm => Config.gridSize
  | .out => Config.outSize
  | .seg => Config.segSize
  | .fnc => Config.fncSize

/-- The written value at an address, if there is one. -/
def cellAt {w : Nat} (a : Nat) (cells : List (Nat × BitVec w)) : Option (BitVec w) :=
  match cells with
  | [] => none
  | (b, v) :: rest => if a = b then some v else cellAt a rest

/-- Write one element, keeping the addresses strictly rising. -/
def cellPut {w : Nat} (a : Nat) (v : BitVec w) (cells : List (Nat × BitVec w)) : List (Nat × BitVec w) :=
  match cells with
  | [] => [(a, v)]
  | (b, u) :: rest =>
    if a < b then (a, v) :: (b, u) :: rest
    else if a = b then (a, v) :: rest
    else (b, u) :: cellPut a v rest

/-- What an unlisted address reads as: the free value of the buffer's draw at that address (rule R71, rule R582). -/
def Buf.unlisted {w : Nat} (b : Buf w) (a : Nat) : BitVec w := Config.freeValue w b.gen a

/-- Read one element (rule R81, rule R82: no side effect). -/
def Buf.read {w : Nat} (b : Buf w) (a : Nat) : BitVec w := (cellAt a b.cells).getD (b.unlisted a)

/-- Write one element (rule R81). -/
def Buf.write {w : Nat} (b : Buf w) (a : Nat) (v : BitVec w) : Buf w := { b with cells := cellPut a v b.cells }

/-- A buffer no element of which has been written, every element the free value of draw `gen`. -/
def Buf.blank {w : Nat} (gen : Nat) : Buf w := ⟨gen, []⟩

/-- A buffer whose elements 0, 1, … hold `vals` and whose other elements are the free values of draw `gen`. -/
def Buf.ofList {w : Nat} (gen : Nat) (vals : List (BitVec w)) : Buf w :=
  ⟨gen, vals.zipIdx.map (fun p => (p.2, p.1))⟩

/-- Drop what was written at addresses `lo` to `hi - 1`: those elements are `any value` again. -/
def Buf.forget {w : Nat} (b : Buf w) (lo hi : Nat) : Buf w :=
  { b with cells := b.cells.filter (fun c => !(decide (lo ≤ c.1) && decide (c.1 < hi))) }

/-- Addresses strictly rising, from `lo` on and below `size`. -/
def cellsWf {w : Nat} (lo size : Nat) (cells : List (Nat × BitVec w)) : Bool :=
  match cells with
  | [] => true
  | (a, _) :: rest => decide (lo ≤ a) && decide (a < size) && cellsWf (a + 1) size rest

/-- The canonical form of one buffer: addresses strictly rising and inside the space. -/
def Buf.wf {w : Nat} (size : Nat) (b : Buf w) : Bool := cellsWf 0 size b.cells

/-- The canonical form of the memory. An unlisted address has no written value, so no listed entry can equal it. -/
def Memory.wf (m : Memory) : Bool :=
  m.txt.wf Config.txtSize && m.cw.wf Config.cwSize && m.grid.wf Config.gridSize && m.mm.wf Config.gridSize
    && m.rdm.wf Config.gridSize && m.out.wf Config.outSize && m.seg.wf Config.segSize && m.fnc.wf Config.fncSize

/-- Read one element of a space by name, as a word (rule R80: BufRead). -/
def Memory.read (m : Memory) (sp : Space) (a : Nat) : Word :=
  match sp with
  | .txt => (m.txt.read a).setWidth 32
  | .cw => (m.cw.read a).setWidth 32
  | .grid => (m.grid.read a).setWidth 32
  | .mm => (m.mm.read a).setWidth 32
  | .rdm => (m.rdm.read a).setWidth 32
  | .out => (m.out.read a).setWidth 32
  | .seg => m.seg.read a
  | .fnc => (m.fnc.read a).setWidth 32

/-- Write one element of a space by name (rule R80: BufWrite; rule R81: exactly one element, of the space's width). -/
def Memory.write (m : Memory) (sp : Space) (a : Nat) (v : BitVec sp.width) : Memory :=
  match sp, v with
  | .txt, v => { m with txt := m.txt.write a v }
  | .cw, v => { m with cw := m.cw.write a v }
  | .grid, v => { m with grid := m.grid.write a v }
  | .mm, v => { m with mm := m.mm.write a v }
  | .rdm, v => { m with rdm := m.rdm.write a v }
  | .out, v => { m with out := m.out.write a v }
  | .seg, v => { m with seg := m.seg.write a v }
  | .fnc, v => { m with fnc := m.fnc.write a v }

/-- Every element of a space becomes `any value`: the free values of draw `gen`. -/
def Memory.blankSpace (m : Memory) (sp : Space) (gen : Nat) : Memory :=
  match sp with
  | .txt => { m with txt := Buf.blank gen }
  | .cw => { m with cw := Buf.blank gen }
  | .grid => { m with grid := Buf.blank gen }
  | .mm => { m with mm := Buf.blank gen }
  | .rdm => { m with rdm := Buf.blank gen }
  | .out => { m with out := Buf.blank gen }
  | .seg => { m with seg := Buf.blank gen }
  | .fnc => { m with fnc := Buf.blank gen }

/-! ### Write sets -/

/-- A location a command may have in its write set (rule R520): a register, a buffer, or U1's working state. -/
inductive Loc where
  | r0 | cwLen | sym | ver | gridH | gridW | outLen | segCnt | fncCnt
  | resMod | resSa | resEci | resEcl | resMask | resPen | resMode
  | tceMode | tcePos | tceNew | tceSkip
  | buf (sp : Space)
  | tceWork
deriving DecidableEq, Repr

/-- The index of a location that is a register (rule R31). -/
def Loc.regIndex (l : Loc) : Option Nat :=
  match l with
  | .r0 => some 0x05
  | .cwLen => some 0x0C
  | .sym => some 0x0D
  | .ver => some 0x0E
  | .gridH => some 0x0F
  | .gridW => some 0x10
  | .outLen => some 0x11
  | .segCnt => some 0x12
  | .fncCnt => some 0x13
  | .resMod => some 0x14
  | .resSa => some 0x15
  | .resEci => some 0x16
  | .resEcl => some 0x17
  | .resMask => some 0x18
  | .resPen => some 0x19
  | .resMode => some 0x1A
  | .tceMode => some 0x1B
  | .tcePos => some 0x1C
  | .tceNew => some 0x1D
  | .tceSkip => some 0x1E
  | .buf _ => none
  | .tceWork => none

/-- The write set of ENC.DM (rule R520). -/
def writesEncDm : List Loc :=
  [.buf .cw, .cwLen, .sym, .resMode, .tceMode, .tcePos, .tceNew, .tceSkip, .tceWork]
/-- The write set of ENC.QR (rule R520). -/
def writesEncQr : List Loc := [.buf .cw, .cwLen, .ver, .resMode]
/-- The write set of MAP.DM (rule R520), STATUS.DEFECT left out: it is only ever set. -/
def writesMapDm : List Loc := [.buf .mm, .buf .rdm, .buf .grid, .gridH, .gridW]
/-- The write set of MAP.QR (rule R520). -/
def writesMapQr : List Loc := [.buf .grid, .buf .rdm, .gridH, .gridW, .resMask, .resPen]
/-- The write set of PAR.DM (rule R520). -/
def writesParDm : List Loc := [.sym, .buf .mm, .buf .rdm, .buf .cw, .cwLen]
/-- The write set of PAR.QR (rule R520); STATUS.MIRRORED is the exception of rule R548. -/
def writesParQr : List Loc := [.ver, .resEcl, .resMask, .buf .rdm, .buf .cw, .cwLen]
/-- The write set of DEC.DM (rule R520). -/
def writesDecDm : List Loc :=
  [.buf .out, .outLen, .buf .seg, .segCnt, .buf .fnc, .fncCnt, .resMod, .resEci, .resSa]
/-- The write set of DEC.QR (rule R520). -/
def writesDecQr : List Loc := [.buf .out, .outLen, .buf .seg, .segCnt, .fncCnt, .resMod, .resEci, .resSa]

/-- The write set of an instruction (rule R520), STATUS, ERR and CMD left out as there. A codeword or mode indicator has the
write set of the command whose stream it stands in. -/
def writeSet (i : Instr) : List Loc :=
  match i with
  | .nop => []
  | .encDm => writesEncDm
  | .encQr => writesEncQr
  | .mapDm => writesMapDm
  | .mapQr => writesMapQr
  | .parDm => writesParDm
  | .parQr _ _ => writesParQr
  | .decDm => writesDecDm
  | .decQr => writesDecQr
  | .fmtEnc => [.r0]
  | .fmtDec => [.r0, .resEcl, .resMask]
  | .verEnc => [.r0]
  | .verDec => [.r0]
  | .pen => [.resPen]
  | .dmIll0 | .dmAscii _ | .dmPad | .dmDigits _ | .dmLatchC40 | .dmLatchB256 | .dmFnc1 | .dmSa | .dmRp | .dmUpshift
  | .dmMacro05 | .dmMacro06 | .dmLatchX12 | .dmLatchText | .dmLatchEdf | .dmEci | .dmIll _ | .dmUnlatch => writesDecDm
  | .qrTerm | .qrNum | .qrAlnum | .qrSa | .qrByte | .qrFnc1First | .qrEci | .qrKanji | .qrFnc1Second | .qrHanzi
  | .qrIll _ => writesDecQr

/-! ### `any value` -/

/-- The free value of width `w` of the next draw. -/
def State.free (s : State) (w : Nat) : BitVec w := Config.freeValue w s.draws 0

/-- U1's working state as the free values of draw `d`; VB holds at most VB_SIZE values. -/
def Work.freeTce (wk : Work) (d : Nat) : Work :=
  { wk with
    vb := (Config.freeBytes d).take Config.vbSize
    sz := Config.freeSizes d
    cost := ⟨Config.freeValue 32 d 0, Config.freeValue 32 d 1, Config.freeValue 32 d 2, Config.freeValue 32 d 3,
             Config.freeValue 32 d 4, Config.freeValue 32 d 5⟩
    k := Config.freeValue 16 d 6 }

/-- One location becomes `any value`, by a draw of its own (rule R548: a draw made once). -/
def State.havocLoc (s : State) (l : Loc) : State :=
  let d := s.draws
  match l with
  | .r0 => { s with regs.r0 := s.free 32, draws := d + 1 }
  | .cwLen => { s with regs.cwLen := s.free 16, draws := d + 1 }
  | .sym => { s with regs.sym := s.free 5, draws := d + 1 }
  | .ver => { s with regs.ver := s.free 6, draws := d + 1 }
  | .gridH => { s with regs.gridH := s.free 8, draws := d + 1 }
  | .gridW => { s with regs.gridW := s.free 8, draws := d + 1 }
  | .outLen => { s with regs.outLen := s.free 16, draws := d + 1 }
  | .segCnt => { s with regs.segCnt := s.free 16, draws := d + 1 }
  | .fncCnt => { s with regs.fncCnt := s.free 16, draws := d + 1 }
  | .resMod => { s with regs.resMod := s.free 3, draws := d + 1 }
  | .resSa => { s with regs.resSa := ⟨Config.freeValue 8 d 0, Config.freeValue 8 d 1, (Config.freeValue 1 d 2).getLsbD 0⟩
                       draws := d + 1 }
  | .resEci => { s with regs.resEci := ⟨Config.freeValue 20 d 0, (Config.freeValue 1 d 1).getLsbD 0⟩, draws := d + 1 }
  | .resEcl => { s with regs.resEcl := s.free 2, draws := d + 1 }
  | .resMask => { s with regs.resMask := s.free 3, draws := d + 1 }
  | .resPen => { s with regs.resPen := s.free 32, draws := d + 1 }
  | .resMode => { s with regs.resMode := s.free 4, draws := d + 1 }
  | .tceMode => { s with regs.tceMode := s.free 3, draws := d + 1 }
  | .tcePos => { s with regs.tcePos := s.free 16, draws := d + 1 }
  | .tceNew => { s with regs.tceNew := ⟨Config.freeValue 3 d 0, (Config.freeValue 1 d 1).getLsbD 0⟩, draws := d + 1 }
  | .tceSkip => { s with regs.tceSkip := s.free 2, draws := d + 1 }
  | .buf sp => { s with mem := s.mem.blankSpace sp d, draws := d + 1 }
  | .tceWork => { s with work := s.work.freeTce d, draws := d + 1 }

/-- Every location of a list becomes `any value`, each by a draw of its own. -/
def State.havoc (s : State) (ls : List Loc) : State := ls.foldl State.havocLoc s

/-! ### A command's issue and its two ends -/

/-- Taking a fault (rule R548): the one fault mechanism, and also the command's end. ERR takes the fault's code, the unit
that found it and INFO; STATUS.ERROR and DONE are set, BUSY is cleared, DEFECT is set by InternalDefect; every location of
the write set `ws` becomes `any value`, but for IllegalCommand, which leaves it untouched. -/
def State.raise (s : State) (x : Exn) (u : UnitId) (info : Nat) (ws : List Loc) : State :=
  let t := if x = .illegalCommand then s else s.havoc ws
  { t with
    regs.err := ⟨x.code, u.num, BitVec.ofNat 16 info⟩
    regs.status := t.regs.status.atFault x
    phase := .idle }

/-- The refusal of a command (rule R518, rule R545): IllegalCommand of the command decoder, UNIT 0, INFO 0. -/
def State.illegal (s : State) : State := s.raise .illegalCommand .decoder 0 []

/-- A command completes (rule R517). -/
def State.complete (s : State) : State :=
  { s with regs.err := ⟨0, 0, 0⟩, regs.status := s.regs.status.atCompletion, phase := .idle }

/-- The word matches the PAR.QR row of rule R122. -/
def isParQrWord (w : Word) : Bool :=
  match decodeCommand w with
  | .ok (.parQr _ _) => true
  | _ => false

/-- Command issue (rule R511): a host write of `w` to CMD while idle. DEFECT and WRBUSY are not touched. -/
def State.issue (s : State) (w : Word) : State :=
  { s with
    regs.cmd := w
    regs.err := ⟨0, 0, 0⟩
    regs.status := s.regs.status.atIssue (isParQrWord w)
    phase := .issued }

/-! ### U4's output operations (44_bsp_datamatrix.md rule R392, rule R399; 45_bsp_qr.md rule R440) -/

/-- `out(c)`: append one code unit to OUT. A write past the end of OUT is InternalDefect before the write
(10_state.md rule R70, 20_memory.md rule R81). -/
def State.out (s : State) (c : Byte) : Except Raise State :=
  if s.regs.outLen.toNat < Config.outSize then
    .ok { s with
      mem.out := s.mem.out.write s.regs.outLen.toNat c
      regs.outLen := s.regs.outLen + 1 }
  else .error defectErr

/-- Append code units in order. -/
def State.outAll (s : State) (cs : List Byte) : Except Raise State :=
  match cs with
  | [] => .ok s
  | c :: rest => match s.out c with
    | .error r => .error r
    | .ok t => t.outAll rest

/-- Append an entry (OFF, LEN) to the byte-segment table SEG (rule R410, rule R440). -/
def State.addSegment (s : State) (off len : Nat) : Except Raise State :=
  if s.regs.segCnt.toNat < Config.segSize then
    .ok { s with
      mem.seg := s.mem.seg.write s.regs.segCnt.toNat (BitVec.ofNat 32 (off + 65536 * len))
      regs.segCnt := s.regs.segCnt + 1 }
  else .error defectErr

/-- Record an FNC1: its position goes to FNC and the separator 29 to OUT (rule R399). -/
def State.addFnc1 (s : State) : Except Raise State :=
  if s.regs.fncCnt.toNat < Config.fncSize then
    State.out { s with
      mem.fnc := s.mem.fnc.write s.regs.fncCnt.toNat s.regs.outLen
      regs.fncCnt := s.regs.fncCnt + 1 } 29
  else .error defectErr

end Sys2Proof.Machine
end

