-- ==== Sys2Proof/Machine/Operands.lean ====
section
/-! DEFINITION. The operand forms of the SCC: a register by its index (10_state.md rule R31), the input text, the codeword
stream as codewords and as bits (20_memory.md rule R85), the grid (rule R84), and the reader `readBits` of U4. -/

namespace Sys2Proof.Machine

/-! ### A register as the host sees it -/

/-- ERR as a word (rule R35). -/
def ErrReg.word (e : ErrReg) : Word := BitVec.ofNat 32 (e.code.toNat + 256 * e.unit.toNat + 65536 * e.info.toNat)
/-- CFG_MIN or CFG_MAX as a word (rule R37). -/
def SizeReg.word (r : SizeReg) : Word := BitVec.ofNat 32 (r.w.toNat + 256 * r.h.toNat)
/-- CFG_QR as a word (rule R38). -/
def CfgQrReg.word (r : CfgQrReg) : Word :=
  BitVec.ofNat 32 (r.ecl.toNat + 16 * r.maskId.toNat + 128 * flagNat r.maskAuto + 256 * flagNat r.sjis)
/-- CFG_ECI as a word (rule R39). -/
def CfgEciReg.word (r : CfgEciReg) : Word := BitVec.ofNat 32 (r.value.toNat + 2147483648 * flagNat r.en)
/-- RES_SA as a word (rule R49). -/
def SaReg.word (r : SaReg) : Word := BitVec.ofNat 32 (r.seq.toNat + 256 * r.parity.toNat + 65536 * flagNat r.valid)
/-- RES_ECI as a word (rule R50). -/
def EciReg.word (r : EciReg) : Word := BitVec.ofNat 32 (r.value.toNat + 2147483648 * flagNat r.present)
/-- TCE_NEW as a word (rule R53). -/
def TceNewReg.word (r : TceNewReg) : Word := BitVec.ofNat 32 (r.mode.toNat + 8 * flagNat r.valid)

/-- The value of the register with index `idx` (rule R31), reserved bits 0; none above 0x1F. -/
def State.regValue (s : State) (idx : Nat) : Option Word :=
  match idx with
  | 0x00 => some s.regs.cmd
  | 0x01 => some (statusWord s.busy s.regs.status)
  | 0x02 => some s.regs.err.word
  | 0x03 => some s.regs.a0
  | 0x04 => some s.regs.a1
  | 0x05 => some s.regs.r0
  | 0x06 => some (s.regs.cfgShape.setWidth 32)
  | 0x07 => some s.regs.cfgMin.word
  | 0x08 => some s.regs.cfgMax.word
  | 0x09 => some s.regs.cfgQr.word
  | 0x0A => some s.regs.cfgEci.word
  | 0x0B => some (s.regs.txtLen.setWidth 32)
  | 0x0C => some (s.regs.cwLen.setWidth 32)
  | 0x0D => some (s.regs.sym.setWidth 32)
  | 0x0E => some (s.regs.ver.setWidth 32)
  | 0x0F => some (s.regs.gridH.setWidth 32)
  | 0x10 => some (s.regs.gridW.setWidth 32)
  | 0x11 => some (s.regs.outLen.setWidth 32)
  | 0x12 => some (s.regs.segCnt.setWidth 32)
  | 0x13 => some (s.regs.fncCnt.setWidth 32)
  | 0x14 => some (s.regs.resMod.setWidth 32)
  | 0x15 => some s.regs.resSa.word
  | 0x16 => some s.regs.resEci.word
  | 0x17 => some (s.regs.resEcl.setWidth 32)
  | 0x18 => some (s.regs.resMask.setWidth 32)
  | 0x19 => some s.regs.resPen
  | 0x1A => some (s.regs.resMode.setWidth 32)
  | 0x1B => some (s.regs.tceMode.setWidth 32)
  | 0x1C => some (s.regs.tcePos.setWidth 32)
  | 0x1D => some s.regs.tceNew.word
  | 0x1E => some (s.regs.tceSkip.setWidth 32)
  | 0x1F => some Config.idWord
  | _ => none

/-- A host write of `v` to the register with index `idx` while idle, CMD apart (rule R31): an RW field takes its bits of `v`,
reserved bits are dropped, a write to an RO register or above 0x1F is dropped. -/
def State.regStore (s : State) (idx : Nat) (v : Word) : State :=
  match idx with
  | 0x03 => { s with regs.a0 := v }
  | 0x04 => { s with regs.a1 := v }
  | 0x06 => { s with regs.cfgShape := v.setWidth 2 }
  | 0x07 => { s with regs.cfgMin := ⟨v.setWidth 8, v.extractLsb' 8 8⟩ }
  | 0x08 => { s with regs.cfgMax := ⟨v.setWidth 8, v.extractLsb' 8 8⟩ }
  | 0x09 => { s with regs.cfgQr := ⟨v.setWidth 2, v.extractLsb' 4 3, v.getLsbD 7, v.getLsbD 8⟩ }
  | 0x0A => { s with regs.cfgEci := ⟨v.setWidth 7, v.getLsbD 31⟩ }
  | 0x0B => { s with regs.txtLen := v.setWidth 16 }
  | 0x0C => { s with regs.cwLen := v.setWidth 16 }
  | 0x0D => { s with regs.sym := v.setWidth 5 }
  | 0x0E => { s with regs.ver := v.setWidth 6 }
  | 0x0F => { s with regs.gridH := v.setWidth 8 }
  | 0x10 => { s with regs.gridW := v.setWidth 8 }
  | _ => s

/-! ### Whole buffers -/

/-- The elements of a buffer from address 0 on, `n` of them. -/
def Buf.take {w : Nat} (b : Buf w) (n : Nat) : List (BitVec w) := (List.range n).map b.read

/-- The input text TXT[0 .. TXT_LEN) as code units. -/
def State.text (s : State) : List Nat := (s.mem.txt.take s.regs.txtLen.toNat).map BitVec.toNat

/-- The codeword CW[i]. -/
def State.cwAt (s : State) (i : Nat) : Nat := (s.mem.cw.read i).toNat

/-- CW[0 .. CW_LEN). -/
def State.codewords (s : State) : List Nat := (s.mem.cw.take s.regs.cwLen.toNat).map BitVec.toNat

/-- CW replaced by a command's result: the codewords and their number; elements beyond are `any value` (rule R520). -/
def State.setCw (s : State) (cws : List Nat) : State :=
  { s with
    mem.cw := Buf.ofList s.draws (cws.map (BitVec.ofNat 8))
    regs.cwLen := BitVec.ofNat 16 cws.length
    draws := s.draws + 1 }

/-! ### Grids. Inside a command a grid is one number: bit `r * 256 + c` is the cell (r, c) (rule R84). -/

/-- The address of a cell (rule R84). -/
def cellAddr (r c : Nat) : Nat := 256 * r + c

/-- The cell (r, c) of a grid. -/
def gridBit (g r c : Nat) : Bool := g.testBit (cellAddr r c)

/-- The cells of `h` rows and `w` columns, row by row, as addresses. -/
def cellAddrs (h w : Nat) : List Nat :=
  (List.range h).flatMap (fun r => (List.range w).map (fun c => cellAddr r c))

/-- The grid with the cells of `f` set, over `h` rows and `w` columns. -/
def gridOf (h w : Nat) (f : Nat → Nat → Bool) : Nat :=
  (List.range h).foldl (fun g r =>
    (List.range w).foldl (fun g c => if f r c then g ||| (1 <<< cellAddr r c) else g) g) 0

/-- The cells of a rectangle: left column `x`, top row `y`, `w` columns, `h` rows. -/
def rectBits (x y w h : Nat) : Nat :=
  (List.range h).foldl (fun g r => g ||| ((2 ^ w - 1) <<< cellAddr (y + r) x)) 0

/-- A one-bit buffer read as a grid of `h` rows and `w` columns. -/
def Buf.grid (b : Buf 1) (h w : Nat) : Nat := gridOf h w (fun r c => (b.read (cellAddr r c)).getLsbD 0)

/-- A one-bit buffer holding a grid of `h` rows and `w` columns; the elements outside are the free values of draw `gen`. -/
def Buf.ofGrid (gen h w g : Nat) : Buf 1 :=
  ⟨gen, (cellAddrs h w).map (fun a => (a, BitVec.ofBool (g.testBit a)))⟩

/-- The symbol GRID[0 .. GRID_H)[0 .. GRID_W) (rule R44). -/
def State.symbol (s : State) : Nat := s.mem.grid.grid s.regs.gridH.toNat s.regs.gridW.toNat

/-! ### CW as a stream of bits (rule R85) -/

/-- Stream bit `p`: bit 7 - p % 8 of CW[p / 8]. -/
def State.streamBit (s : State) (p : Nat) : Bool := (s.mem.cw.read (p / 8)).getMsbD (p % 8)

/-- The field of `n` bits at stream position `p`, after a prefix worth `acc`. -/
def State.streamField (s : State) (acc p n : Nat) : Nat :=
  match n with
  | 0 => acc
  | n + 1 => s.streamField (2 * acc + flagNat (s.streamBit p)) (p + 1) n

/-- `avail` (10_state.md rule R65): the bits left. -/
def State.avail (s : State) : Nat := 8 * s.regs.cwLen.toNat - s.work.bp

/-- ERR.INFO of a fault U4 finds: the index of the codeword holding the next unread bit (10_state.md rule R35). -/
def State.bspInfo (s : State) : Nat := s.work.bp / 8

/-- FormatException of U4 at the bit cursor (60_exceptions.md rule R542). -/
def State.formatErr (s : State) : Raise := ⟨.formatException, s.bspInfo⟩

/-- The bit cursor moved on by `n`. -/
def State.advance (s : State) (n : Nat) : State := { s with work.bp := s.work.bp + n }

/-- `readBits(n)` (rule R85): FormatException where fewer than `n` bits are left, else the field, and the state with the
cursor moved on. -/
def State.readBits (s : State) (n : Nat) : Except Raise (Nat × State) :=
  if s.avail < n then .error s.formatErr
  else .ok (s.streamField 0 s.work.bp n, s.advance n)

/-! ### The range of CW_LEN -/

/-- CW_LEN lies in its legal range, 0 to CW_SIZE (10_state.md rule R41): a condition at issue of every command that reads CW_LEN
(60_exceptions.md rule R545). -/
def cwLenLegal (r : Regs) : Bool := decide (r.cwLen.toNat ≤ Config.cwSize)

end Sys2Proof.Machine
end

