-- ==== Sys2Proof/Machine/Control.lean ====
section
/-! DEFINITION. How a command's rule ends (47_commands.md rule R517), and NOP (rule R521). -/

namespace Sys2Proof.Machine

/-- The command's end, for a command of unit `u` with write set `ws` that was started in `s` and whose rule gave `r`:
completion with the state reached, or the fault found (rule R517). -/
def State.finish (s : State) (u : UnitId) (ws : List Loc) (r : Except Raise State) : State :=
  match r with
  | .ok t => t.complete
  | .error e => s.raise e.exn u e.info ws

/-- NOP (rule R521): it completes. -/
def execNop (s : State) : Host.Outcome State Fault Refusal := .next s.complete

end Sys2Proof.Machine
end

