-- ==== Sys2Proof/Machine/BspDm.lean ====
section
/-! DEFINITION. U4 for Data Matrix (44_bsp_datamatrix.md): the meaning of every codeword of the ASCII-mode alphabet, the
segment decoders, and the command DEC.DM. A codeword's meaning acts on the state whose bit cursor stands just behind the
codeword, and goes on with the stream or ends the command; it acts on the working state whatever the phase (log entry 16). -/

namespace Sys2Proof.Machine

/-! ### Going on, and the end of DEC.DM -/

/-- The end of one stream element that was started in `s`, for a command with write set `ws`: the state reached, or the fault
found by U4. U4's working state (bp, shift, upper, trl, eci and its value, fnc1) keeps its last values when the command completes
and, after a fault, those from before the element that faulted: the spec gives them no value (DESIGN CHOICE; log entry 17). -/
def State.streamEnd (s : State) (ws : List Loc) (r : Except Raise State) : State :=
  match r with
  | .ok t => t
  | .error e => s.raise e.exn .bsp e.info ws

/-- The FNC1 positions recorded, FNC[0 .. FNC_CNT). -/
def State.fncList (s : State) : List Nat := (s.mem.fnc.take s.regs.fncCnt.toNat).map BitVec.toNat

/-- `modifier()` of Data Matrix (rule R418), from the FNC1 positions. -/
def dmModifier (eci : Bool) (fnc : List Nat) : Nat :=
  let first := fnc.contains 0 || fnc.contains 4
  let second := fnc.contains 1 || fnc.contains 5
  if eci then (if first then 5 else if second then 6 else 4)
  else (if first then 2 else if second then 3 else 1)

/-- The end of DEC.DM (rule R392): the macro trailers, RES_MOD, completion. -/
def State.dmFinish (s : State) : Except Raise State :=
  match s.outAll s.work.trl with
  | .error r => .error r
  | .ok t => .ok (State.complete { t with regs.resMod := BitVec.ofNat 3 (dmModifier t.work.eci t.fncList) })

/-- The end-of-stream test (rule R392, rule R393): the command ends, or ASCII mode goes on. -/
def State.dmNext (s : State) : Except Raise State :=
  if s.avail = 0 then s.dmFinish else .ok { s with phase := .dmStream .ascii }

/-- As `dmNext`, after an effect that may have found a fault. -/
def dmNextOf (r : Except Raise State) : Except Raise State :=
  match r with
  | .error e => .error e
  | .ok t => t.dmNext

/-- A latch (rule R398), or the ECI codeword (rule R403): the segment decoder `seg` is next; a pending upper shift is lost. -/
def State.dmLatch (s : State) (seg : DmSeg) : Except Raise State :=
  if s.avail = 0 then s.dmFinish else .ok { s with phase := .dmStream seg, work.upper := false }

/-! ### The codewords of the ASCII-mode alphabet (rule R393) -/

/-- DM.ASCII (rule R395): code unit b - 1, plus 128 under an upper shift; the character ends the call, and the shift. -/
def dmAsciiBody (b : Byte) (s : State) : Except Raise State :=
  dmNextOf (State.out { s with work.upper := false } (if s.work.upper then b - 1 + 128 else b - 1))

/-- DM.DIGITS (rule R397). -/
def dmDigitsBody (b : Byte) (s : State) : Except Raise State :=
  let v := b.toNat - 130
  dmNextOf (s.outAll [BitVec.ofNat 8 (48 + v / 10), BitVec.ofNat 8 (48 + v % 10)])

/-- DM.FNC1 (rule R399). -/
def dmFnc1Body (s : State) : Except Raise State := dmNextOf s.addFnc1

/-- DM.UPSHIFT (rule R402). -/
def dmUpshiftBody (s : State) : Except Raise State := State.dmNext { s with work.upper := true }

/-- DM.MACRO05 and DM.MACRO06 (rule R401) with their header. -/
def dmMacroBody (header : List Nat) (s : State) : Except Raise State :=
  dmNextOf (State.outAll { s with work.trl := macroTrailer.map (BitVec.ofNat 8) ++ s.work.trl }
    (header.map (BitVec.ofNat 8)))

/-- DM.UNLATCH (rule R404): legal as the last codeword only. -/
def dmUnlatchBody (s : State) : Except Raise State := if s.avail = 0 then s.dmNext else .error s.formatErr

/-- DM.ILL0 (rule R394). -/
def execDmIll0 (s : State) : Host.Outcome State Fault Refusal := .next (s.streamEnd writesDecDm (.error s.formatErr))
/-- DM.ASCII (rule R395). -/
def execDmAscii (b : Byte) (s : State) : Host.Outcome State Fault Refusal := .next (s.streamEnd writesDecDm (dmAsciiBody b s))
/-- DM.PAD (rule R396): end of data. -/
def execDmPad (s : State) : Host.Outcome State Fault Refusal := .next (s.streamEnd writesDecDm s.dmFinish)
/-- DM.DIGITS (rule R397). -/
def execDmDigits (b : Byte) (s : State) : Host.Outcome State Fault Refusal :=
  .next (s.streamEnd writesDecDm (dmDigitsBody b s))
/-- DM.LATCH_C40 (rule R398). -/
def execDmLatchC40 (s : State) : Host.Outcome State Fault Refusal := .next (s.streamEnd writesDecDm (s.dmLatch .c40))
/-- DM.LATCH_B256 (rule R398). -/
def execDmLatchB256 (s : State) : Host.Outcome State Fault Refusal := .next (s.streamEnd writesDecDm (s.dmLatch .base256))
/-- DM.FNC1 (rule R399). -/
def execDmFnc1 (s : State) : Host.Outcome State Fault Refusal := .next (s.streamEnd writesDecDm (dmFnc1Body s))
/-- DM.SA (rule R400): ignored. -/
def execDmSa (s : State) : Host.Outcome State Fault Refusal := .next (s.streamEnd writesDecDm s.dmNext)
/-- DM.RP (rule R400): ignored. -/
def execDmRp (s : State) : Host.Outcome State Fault Refusal := .next (s.streamEnd writesDecDm s.dmNext)
/-- DM.UPSHIFT (rule R402). -/
def execDmUpshift (s : State) : Host.Outcome State Fault Refusal := .next (s.streamEnd writesDecDm (dmUpshiftBody s))
/-- DM.MACRO05 (rule R401). -/
def execDmMacro05 (s : State) : Host.Outcome State Fault Refusal :=
  .next (s.streamEnd writesDecDm (dmMacroBody macroHeader05 s))
/-- DM.MACRO06 (rule R401). -/
def execDmMacro06 (s : State) : Host.Outcome State Fault Refusal :=
  .next (s.streamEnd writesDecDm (dmMacroBody macroHeader06 s))
/-- DM.LATCH_X12 (rule R398). -/
def execDmLatchX12 (s : State) : Host.Outcome State Fault Refusal := .next (s.streamEnd writesDecDm (s.dmLatch .x12))
/-- DM.LATCH_TEXT (rule R398). -/
def execDmLatchText (s : State) : Host.Outcome State Fault Refusal := .next (s.streamEnd writesDecDm (s.dmLatch .text))
/-- DM.LATCH_EDF (rule R398). -/
def execDmLatchEdf (s : State) : Host.Outcome State Fault Refusal := .next (s.streamEnd writesDecDm (s.dmLatch .edifact))
/-- DM.ECI (rule R403). -/
def execDmEci (s : State) : Host.Outcome State Fault Refusal := .next (s.streamEnd writesDecDm (s.dmLatch .eci))
/-- DM.ILL (rule R394): the fault does not depend on which of the codewords it is. -/
def execDmIll (_ : Byte) (s : State) : Host.Outcome State Fault Refusal :=
  .next (s.streamEnd writesDecDm (.error s.formatErr))
/-- DM.UNLATCH in ASCII mode (rule R404). -/
def execDmUnlatch (s : State) : Host.Outcome State Fault Refusal := .next (s.streamEnd writesDecDm (dmUnlatchBody s))

/-- The case table of `asciiSeg` on a codeword just read (rule R393). -/
def asciiCodeword (b : Byte) (s : State) : Except Raise State :=
  let n := b.toNat
  if n = 0 then .error s.formatErr
  else if n ≤ 128 then dmAsciiBody b s
  else if n = 129 then s.dmFinish
  else if n ≤ 229 then dmDigitsBody b s
  else if n = 230 then s.dmLatch .c40
  else if n = 231 then s.dmLatch .base256
  else if n = 232 then dmFnc1Body s
  else if n = 233 then s.dmNext
  else if n = 234 then s.dmNext
  else if n = 235 then dmUpshiftBody s
  else if n = 236 then dmMacroBody macroHeader05 s
  else if n = 237 then dmMacroBody macroHeader06 s
  else if n = 238 then s.dmLatch .x12
  else if n = 239 then s.dmLatch .text
  else if n = 240 then s.dmLatch .edifact
  else if n = 241 then s.dmLatch .eci
  else if n = 254 then dmUnlatchBody s
  else .error s.formatErr

/-! ### C40 and Text segments (rule R405 to rule R407) -/

/-- `put(c)` (rule R406). -/
def State.put (s : State) (c : Nat) : Except Raise State :=
  State.out { s with work.upper := false } (BitVec.ofNat 8 (if s.work.upper then (c + 128) % 256 else c))

/-- The pending shift of a C40 or Text segment set. -/
def State.setShift (s : State) (n : Nat) : State := { s with work.shift := n }

/-- `basic(v)` (rule R406, 30_encoding.md rule R135) for 3 ≤ v ≤ 39. -/
def c40Basic (text : Bool) (v : Nat) : Nat :=
  if v = 3 then 32 else if v ≤ 13 then v + 44 else if text then v + 83 else v + 51

/-- `textShift3(v)` (rule R406) for v ≤ 31. -/
def textShift3 (v : Nat) : Nat := if v = 0 then 96 else if v ≤ 26 then v + 64 else v + 96

/-- One value of a C40 or Text segment (rule R406). -/
def c40Value (text : Bool) (v : Nat) (s : State) : Except Raise State :=
  match s.work.shift with
  | 0 =>
    if v < 3 then .ok (s.setShift (v + 1))
    else if v < 40 then s.put (c40Basic text v)
    else .error s.formatErr
  | 1 => (s.setShift 0).put v
  | 2 =>
    if v < 27 then (s.setShift 0).put (shift2Char v)
    else if v = 27 then (s.setShift 0).addFnc1
    else if v = 30 then .ok { s.setShift 0 with work.upper := true }
    else .error s.formatErr
  | _ =>
    if text then
      (if v < 32 then (s.setShift 0).put (textShift3 v) else .error s.formatErr)
    else (s.setShift 0).put (v + 96)

/-- The values of a pair in order. -/
def c40ValuesIn (text : Bool) (vs : List Nat) (s : State) : Except Raise State :=
  match vs with
  | [] => .ok s
  | v :: rest =>
    match c40Value text v s with
    | .error r => .error r
    | .ok t => c40ValuesIn text rest t

/-- The framing C40, Text and X12 segments share (rule R405, rule R406, rule R408): pairs of codewords until one codeword is
left, an unlatch, or the end; `vals` takes a pair's three values. `fuel` bounds the pairs and does not run out (log entry
18): each takes 16 bits. -/
def pairSeg (vals : List Nat → State → Except Raise State) (fuel : Nat) (s : State) : Except Raise State :=
  match fuel with
  | 0 => .ok s
  | fuel + 1 =>
    if s.avail = 8 then .ok s
    else
      match s.readBits 8 with
      | .error r => .error r
      | .ok (a, t) =>
        if a = 254 then .ok t
        else
          match t.readBits 8 with
          | .error r => .error r
          | .ok (b, u) =>
            match unpackTriplet a b with
            | none => .error u.formatErr
            | some vs =>
              match vals vs u with
              | .error r => .error r
              | .ok w => if w.avail = 0 then .ok w else pairSeg vals fuel w

/-- `c40Seg(text)` (rule R406). -/
def c40Seg (text : Bool) (s : State) : Except Raise State :=
  pairSeg (c40ValuesIn text) (s.avail + 1) { s with work.upper := false, work.shift := 0 }

/-- The values of an X12 pair in order (rule R408). -/
def x12ValuesIn (vs : List Nat) (s : State) : Except Raise State :=
  match vs with
  | [] => .ok s
  | v :: rest =>
    match x12Char v with
    | none => .error s.formatErr
    | some c =>
      match s.out (BitVec.ofNat 8 c) with
      | .error r => .error r
      | .ok t => x12ValuesIn rest t

/-- `x12Seg()` (rule R408). -/
def x12Seg (s : State) : Except Raise State := pairSeg x12ValuesIn (s.avail + 1) s

/-! ### EDIFACT segments (rule R409) -/

/-- The values left of one group; the flag says that the unlatch value ended the segment. -/
def edfGroup (n : Nat) (s : State) : Except Raise (State × Bool) :=
  match n with
  | 0 => .ok (s, false)
  | n + 1 =>
    match s.readBits 6 with
    | .error r => .error r
    | .ok (v, t) =>
      if v = 31 then
        (if t.work.bp % 8 = 0 then .ok (t, true)
         else
           match t.readBits (8 - t.work.bp % 8) with
           | .error r => .error r
           | .ok (_, u) => .ok (u, true))
      else
        match t.out (BitVec.ofNat 8 (edfChar v)) with
        | .error r => .error r
        | .ok u => edfGroup n u

/-- The groups of an EDIFACT segment. `fuel` does not run out: each group takes at least 8 bits (log entry 18). -/
def edfGroups (fuel : Nat) (s : State) : Except Raise State :=
  match fuel with
  | 0 => .ok s
  | fuel + 1 =>
    if s.avail ≤ 16 then .ok s
    else
      match edfGroup 4 s with
      | .error r => .error r
      | .ok (t, true) => .ok t
      | .ok (t, false) => if t.avail = 0 then .ok t else edfGroups fuel t

/-- `edfSeg()` (rule R409). -/
def edfSeg (s : State) : Except Raise State := edfGroups (s.avail + 1) s

/-! ### Base256 segments (rule R410) and ECI (rule R416) -/

/-- `n` payload bytes, the first at 1-based position `p`. -/
def b256Bytes (n p : Nat) (s : State) : Except Raise State :=
  match n with
  | 0 => .ok s
  | n + 1 =>
    match s.readBits 8 with
    | .error r => .error r
    | .ok (r, t) =>
      match t.out (BitVec.ofNat 8 (unrand255 r p)) with
      | .error e => .error e
      | .ok u => b256Bytes n (p + 1) u

/-- The payload of a Base256 segment and its SEG entry. -/
def b256Payload (count p : Nat) (s : State) : Except Raise State :=
  match b256Bytes count p s with
  | .error r => .error r
  | .ok t => t.addSegment s.regs.outLen.toNat count

/-- `b256Seg()` (rule R410). -/
def b256Seg (s : State) : Except Raise State :=
  let p := s.work.bp / 8 + 1
  match s.readBits 8 with
  | .error r => .error r
  | .ok (r1, t) =>
    let d1 := unrand255 r1 p
    if d1 = 0 then b256Payload (t.avail / 8) (p + 1) t
    else if d1 < 250 then b256Payload d1 (p + 1) t
    else
      match t.readBits 8 with
      | .error r => .error r
      | .ok (r2, u) => b256Payload (250 * (d1 - 249) + unrand255 r2 (p + 1)) (p + 2) u

/-- `eciSeg()` (rule R416). -/
def eciSeg (s : State) : Except Raise State :=
  match s.readBits 8 with
  | .error r => .error r
  | .ok (c, t) => .ok { t with work.eci := true, regs.resEci := ⟨BitVec.ofNat 20 c, true⟩ }

/-- The decoder of a segment that is not an ASCII codeword (rule R392). -/
def dmSegment (seg : DmSeg) (s : State) : Except Raise State :=
  match seg with
  | .ascii => .ok s
  | .c40 => c40Seg false s
  | .text => c40Seg true s
  | .x12 => x12Seg s
  | .edifact => edfSeg s
  | .base256 => b256Seg s
  | .eci => eciSeg s

/-- A whole segment, and the end-of-stream test after it (rule R392); the next ASCII call starts with no upper shift. -/
def dmSegmentThen (seg : DmSeg) (s : State) : Except Raise State :=
  match dmSegment seg s with
  | .error r => .error r
  | .ok t => State.dmNext { t with work.upper := false }

/-! ### The command -/

/-- One element of the stream: an ASCII codeword, or a whole segment (rule R392). After a fault U4's working state is the one from
before the segment, or from behind the ASCII codeword's eight bits (DESIGN CHOICE; log entry 17). -/
def State.dmRound (s : State) : State :=
  match s.phase with
  | .dmStream .ascii =>
    match s.readBits 8 with
    | .error r => s.streamEnd writesDecDm (.error r)
    | .ok (b, t) => t.streamEnd writesDecDm (asciiCodeword (BitVec.ofNat 8 b) t)
  | .dmStream seg => s.streamEnd writesDecDm (dmSegmentThen seg s)
  | .idle | .issued | .encDm | .qrStream => s

/-- The stream to its end. `fuel` does not run out (rule R422; log entry 18). -/
def dmLoop (fuel : Nat) (s : State) : State :=
  match fuel with
  | 0 => s
  | fuel + 1 =>
    match s.phase with
    | .dmStream _ => dmLoop fuel s.dmRound
    | .idle | .issued | .encDm | .qrStream => s

/-- DEC.DM begun (rule R392): the results are cleared, and the sequencer stands before the first codeword. -/
def State.dmBegin (s : State) : State :=
  { s with
    mem.out := Buf.blank s.draws
    mem.seg := Buf.blank (s.draws + 1)
    mem.fnc := Buf.blank (s.draws + 2)
    regs.outLen := 0
    regs.segCnt := 0
    regs.fncCnt := 0
    regs.resEci := ⟨0, false⟩
    regs.resSa := ⟨0, 0, false⟩
    work.trl := []
    work.eci := false
    work.bp := 0
    work.upper := false
    phase := .dmStream .ascii
    draws := s.draws + 3 }

/-- The legality of DEC.DM (rule R391). -/
def decDmLegal (r : Regs) : Bool := cwLenLegal r

/-- DEC.DM (rule R390). -/
def execDecDm (s : State) : Host.Outcome State Fault Refusal :=
  .next (if decDmLegal s.regs then dmLoop (2 * s.regs.cwLen.toNat + 2) s.dmBegin else s.illegal)

end Sys2Proof.Machine
end

