-- ==== Sys2Proof/Machine/BspQr.lean ====
section
/-! DEFINITION. U4 for QR (45_bsp_qr.md): the meaning of every mode indicator, and the command DEC.QR. An indicator's meaning
acts on the state whose bit cursor stands just behind the indicator; it runs its whole segment and goes on with the stream,
or ends the command; it acts on the working state whatever the phase (log entry 16). -/

namespace Sys2Proof.Machine

/-- `modifier()` of QR (rule R446). -/
def qrModifier (eci : Bool) (fnc1 : BitVec 2) : Nat :=
  if eci then (if fnc1 = 1 then 4 else if fnc1 = 2 then 6 else 2)
  else (if fnc1 = 1 then 3 else if fnc1 = 2 then 5 else 1)

/-- The end of DEC.QR (rule R432): RES_MOD, completion. -/
def State.qrFinish (s : State) : State :=
  State.complete { s with regs.resMod := BitVec.ofNat 3 (qrModifier s.work.eci s.work.fnc1) }

/-- The stream goes on with the next indicator. -/
def State.qrNext (s : State) : State := { s with phase := .qrStream }

/-- As `qrNext`, after an effect that may have found a fault. -/
def qrNextOf (r : Except Raise State) : Except Raise State :=
  match r with
  | .error e => .error e
  | .ok t => .ok t.qrNext

/-- `readBits(ccBits(m, VER))` (rule R432). -/
def State.readCount (s : State) (m : Nat) : Except Raise (Nat × State) := s.readBits (ccBits m s.regs.ver.toNat)

/-- A segment with a count: the count is read, then `body` decodes that many characters. -/
def State.counted (s : State) (m : Nat) (body : Nat → State → Except Raise State) : Except Raise State :=
  match s.readCount m with
  | .error r => .error r
  | .ok (n, t) => body n t

/-! ### The segment decoders -/

/-- One numeric group of `bits` bits, a number below `limit`, whose digits are written (rule R438). -/
def numGroup (bits limit : Nat) (digits : Nat → List Nat) (s : State) : Except Raise State :=
  match s.readBits bits with
  | .error r => .error r
  | .ok (v, t) => if limit ≤ v then .error t.formatErr else t.outAll ((digits v).map (BitVec.ofNat 8))

/-- `numeric(n)` (rule R438). -/
def numSeg (n : Nat) (s : State) : Except Raise State :=
  match n with
  | 0 => .ok s
  | 1 => numGroup 4 10 (fun v => [48 + v]) s
  | 2 => numGroup 7 100 (fun v => [48 + v / 10, 48 + v % 10]) s
  | n + 3 =>
    match numGroup 10 1000 (fun v => [48 + v / 100, 48 + (v / 10) % 10, 48 + v % 10]) s with
    | .error r => .error r
    | .ok t => numSeg n t

/-- The characters of `alnumSeg(n)` (rule R439). -/
def alnumChars (n : Nat) (s : State) : Except Raise State :=
  match n with
  | 0 => .ok s
  | 1 => numGroup 6 45 (fun v => [alnumChar v]) s
  | n + 2 =>
    match numGroup 11 2025 (fun v => [alnumChar (v / 45), alnumChar (v % 45)]) s with
    | .error r => .error r
    | .ok t => alnumChars n t

/-- The FNC1 escape over a segment's output (rule R439): two percent signs become one, a single one becomes GS. -/
def fncEscape (cs : List Byte) : List Byte :=
  match cs with
  | [] => []
  | [c] => if c = 37 then [0x1D] else [c]
  | c :: d :: rest =>
    if c = 37 then (if d = 37 then 37 :: fncEscape rest else 0x1D :: fncEscape (d :: rest))
    else c :: fncEscape (d :: rest)

/-- OUT[start .. OUT_LEN). -/
def State.outFrom (s : State) (start : Nat) : List Byte :=
  (List.range (s.regs.outLen.toNat - start)).map (fun k => s.mem.out.read (start + k))

/-- OUT[start .. OUT_LEN) replaced by its escaped form (rule R439); the elements OUT_LEN shrinks by are `any value`
(47_commands.md rule R520). -/
def State.escapeFrom (s : State) (start : Nat) : Except Raise State :=
  match State.outAll { s with regs.outLen := BitVec.ofNat 16 start } (fncEscape (s.outFrom start)) with
  | .error r => .error r
  | .ok t => .ok { t with mem.out := t.mem.out.forget t.regs.outLen.toNat s.regs.outLen.toNat }

/-- `alnumSeg(n)` (rule R439). -/
def alnumSeg (n : Nat) (s : State) : Except Raise State :=
  match alnumChars n s with
  | .error r => .error r
  | .ok t => if t.work.fnc1 = 0 then .ok t else t.escapeFrom s.regs.outLen.toNat

/-- `n` bytes of a byte segment. -/
def byteChars (n : Nat) (s : State) : Except Raise State :=
  match n with
  | 0 => .ok s
  | n + 1 =>
    match s.readBits 8 with
    | .error r => .error r
    | .ok (v, t) =>
      match t.out (BitVec.ofNat 8 v) with
      | .error r => .error r
      | .ok u => byteChars n u

/-- `byteSeg(n)` (rule R440). -/
def byteSeg (n : Nat) (s : State) : Except Raise State :=
  if s.avail < 8 * n then .error s.formatErr
  else
    match byteChars n s with
    | .error r => .error r
    | .ok t => t.addSegment s.regs.outLen.toNat n

/-- `n` 13-bit groups, each two bytes high first, by the transform `code` (rule R441, rule R442). -/
def doubleBytes (code : Nat → Nat) (n : Nat) (s : State) : Except Raise State :=
  match n with
  | 0 => .ok s
  | n + 1 =>
    match s.readBits 13 with
    | .error r => .error r
    | .ok (g, t) =>
      match t.outAll [BitVec.ofNat 8 (code g / 256), BitVec.ofNat 8 (code g % 256)] with
      | .error r => .error r
      | .ok u => doubleBytes code n u

/-- The groups after the check that they are all there (rule R441, rule R442). -/
def doubleByteSeg (code : Nat → Nat) (n : Nat) (s : State) : Except Raise State :=
  if s.avail < 13 * n then .error s.formatErr else doubleBytes code n s

/-- `hanzi()` (rule R442): the subset, the count, then the checks. -/
def hanziSeg (s : State) : Except Raise State :=
  match s.readBits 4 with
  | .error r => .error r
  | .ok (sub, t) =>
    t.counted 13 (fun n u => if sub = 1 then doubleByteSeg hanziCode n u else .error u.formatErr)

/-- `structuredAppend()` (rule R436). -/
def qrSaBody (s : State) : Except Raise State :=
  if s.avail < 16 then .error s.formatErr
  else
    .ok { s.advance 16 with
      regs.resSa := ⟨BitVec.ofNat 8 (s.streamField 0 s.work.bp 8), BitVec.ofNat 8 (s.streamField 0 (s.work.bp + 8) 8), true⟩ }

/-- RES_ECI.VALUE for a designator worth `v` (10_state.md rule R50). A three-byte designator whose first byte is 0xD0 to 0xDF is
worth 2^20 or more (30_encoding.md rule R157) and has no value in the 20-bit field; the spec does not say what is stored, and
it is the free value of draw `d` (DESIGN CHOICE; log entry 20). -/
def eciField (d v : Nat) : BitVec 20 := if v < 2 ^ 20 then BitVec.ofNat 20 v else Config.freeValue 20 d 0

/-- The ECI value found (rule R437): a later designator overwrites an earlier one. A draw is taken where the value is free
(log entry 20). -/
def State.setEci (s : State) (v : Nat) : State :=
  { s with
    work.eci := true
    work.eciValue := eciField s.draws v
    regs.resEci := ⟨eciField s.draws v, true⟩
    draws := if v < 2 ^ 20 then s.draws else s.draws + 1 }

/-- `eciDesignator()` (rule R437, 30_encoding.md rule R157): one, two or three bytes. -/
def qrEciBody (s : State) : Except Raise State :=
  match s.readBits 8 with
  | .error r => .error r
  | .ok (f, t) =>
    if f < 128 then .ok (t.setEci f)
    else if f < 192 then
      match t.readBits 8 with
      | .error r => .error r
      | .ok (g, u) => .ok (u.setEci ((f % 64) * 256 + g))
    else if f < 224 then
      match t.readBits 16 with
      | .error r => .error r
      | .ok (g, u) => .ok (u.setEci ((f % 32) * 65536 + g))
    else .error t.formatErr

/-! ### The mode indicators (rule R432) -/

/-- QR.TERM: end of data. -/
def execQrTerm (s : State) : Host.Outcome State Fault Refusal := .next s.qrFinish
/-- QR.NUM. -/
def execQrNum (s : State) : Host.Outcome State Fault Refusal :=
  .next (s.streamEnd writesDecQr (qrNextOf (s.counted 1 numSeg)))
/-- QR.ALNUM. -/
def execQrAlnum (s : State) : Host.Outcome State Fault Refusal :=
  .next (s.streamEnd writesDecQr (qrNextOf (s.counted 2 alnumSeg)))
/-- QR.SA. -/
def execQrSa (s : State) : Host.Outcome State Fault Refusal := .next (s.streamEnd writesDecQr (qrNextOf (qrSaBody s)))
/-- QR.BYTE. -/
def execQrByte (s : State) : Host.Outcome State Fault Refusal :=
  .next (s.streamEnd writesDecQr (qrNextOf (s.counted 4 byteSeg)))
/-- QR.FNC1_1. -/
def execQrFnc1First (s : State) : Host.Outcome State Fault Refusal := .next (State.qrNext { s with work.fnc1 := 1 })
/-- QR.ECI. -/
def execQrEci (s : State) : Host.Outcome State Fault Refusal := .next (s.streamEnd writesDecQr (qrNextOf (qrEciBody s)))
/-- QR.KANJI. -/
def execQrKanji (s : State) : Host.Outcome State Fault Refusal :=
  .next (s.streamEnd writesDecQr (qrNextOf (s.counted 8 (doubleByteSeg kanjiCode))))
/-- QR.FNC1_2. -/
def execQrFnc1Second (s : State) : Host.Outcome State Fault Refusal := .next (State.qrNext { s with work.fnc1 := 2 })
/-- QR.HANZI. -/
def execQrHanzi (s : State) : Host.Outcome State Fault Refusal := .next (s.streamEnd writesDecQr (qrNextOf (hanziSeg s)))
/-- QR.ILL: the fault does not depend on which of the indicators it is. -/
def execQrIll (_ : BitVec 4) (s : State) : Host.Outcome State Fault Refusal :=
  .next (s.streamEnd writesDecQr (.error s.formatErr))

/-- The case table of the main loop on an indicator just read (rule R432). -/
def qrIndicator (m : Nat) (s : State) : Except Raise State :=
  match m with
  | 0x0 => .ok s.qrFinish
  | 0x5 => .ok (State.qrNext { s with work.fnc1 := 1 })
  | 0x9 => .ok (State.qrNext { s with work.fnc1 := 2 })
  | 0x3 => qrNextOf (qrSaBody s)
  | 0x7 => qrNextOf (qrEciBody s)
  | 0xD => qrNextOf (hanziSeg s)
  | 0x1 => qrNextOf (s.counted 1 numSeg)
  | 0x2 => qrNextOf (s.counted 2 alnumSeg)
  | 0x4 => qrNextOf (s.counted 4 byteSeg)
  | 0x8 => qrNextOf (s.counted 8 (doubleByteSeg kanjiCode))
  | _ => .error s.formatErr

/-! ### The command -/

/-- The indicator at the bit cursor and the state behind it (rule R432): with fewer than 4 bits left it is the terminator and
nothing is read. -/
def State.nextIndicator (s : State) : Nat × State :=
  if s.avail < 4 then (0, s) else (s.streamField 0 s.work.bp 4, s.advance 4)

/-- One round of the main loop: an indicator with its segment. After a fault U4's working state is the one from behind the
indicator, before its segment (DESIGN CHOICE; log entry 17). -/
def State.qrRound (s : State) : State :=
  s.nextIndicator.2.streamEnd writesDecQr (qrIndicator s.nextIndicator.1 s.nextIndicator.2)

/-- The stream to its end. `fuel` does not run out (rule R449; log entry 18). -/
def qrLoop (fuel : Nat) (s : State) : State :=
  match fuel with
  | 0 => s
  | fuel + 1 =>
    match s.phase with
    | .qrStream => qrLoop fuel s.qrRound
    | .idle | .issued | .encDm | .dmStream _ => s

/-- DEC.QR begun (rule R432): the results are cleared, and the sequencer stands before the first indicator. -/
def State.qrBegin (s : State) : State :=
  { s with
    mem.out := Buf.blank s.draws
    mem.seg := Buf.blank (s.draws + 1)
    regs.outLen := 0
    regs.segCnt := 0
    regs.fncCnt := 0
    regs.resSa := ⟨0, 0, false⟩
    regs.resEci := ⟨0, false⟩
    work.fnc1 := 0
    work.eci := false
    work.bp := 0
    phase := .qrStream
    draws := s.draws + 2 }

/-- The legality of DEC.QR (rule R431). -/
def decQrLegal (r : Regs) : Bool := verLegal r.ver.toNat && cwLenLegal r

/-- DEC.QR (rule R430). -/
def execDecQr (s : State) : Host.Outcome State Fault Refusal :=
  .next (if decQrLegal s.regs then qrLoop (2 * s.regs.cwLen.toNat + 2) s.qrBegin else s.illegal)

end Sys2Proof.Machine
end

