-- ==== Sys2Proof/Machine/Fmc.lean ====
section
/-! DEFINITION. U5, the format metadata codec (46_format_metadata_codec.md): the nearest-match searches, the penalty score,
and the five commands FMT.ENC, FMT.DEC, VER.ENC, VER.DEC, PEN. -/

namespace Sys2Proof.Machine

/-! ### The BCH remainder (rule R470). The tables of rule R473 and rule R478 are its values; no command computes it. -/

/-- `bitlen(x)`. -/
def bitLen (x : Nat) : Nat := if x = 0 then 0 else Nat.log2 x + 1

/-- The loop of `bchRem`; each round shortens `r`, so a fuel of its length is enough. -/
def bchLoop (g fuel r : Nat) : Nat :=
  match fuel with
  | 0 => r
  | fuel + 1 => if bitLen g ≤ bitLen r then bchLoop g fuel (r ^^^ (g <<< (bitLen r - bitLen g))) else r

/-- `bchRem(v, g)`. -/
def bchRem (v g : Nat) : Nat := bchLoop g 32 (v <<< (bitLen g - 1))

/-! ### Hamming distance and the nearest-match searches -/

/-- The number of 1 bits among the `n` low bits of `x`. -/
def popCount (n x : Nat) : Nat :=
  match n with
  | 0 => 0
  | n + 1 => x % 2 + popCount n (x / 2)

/-- `dist(a, b)` (rule R471), for words of at most 32 bits. -/
def dist (a b : Nat) : Nat := popCount 32 (a ^^^ b)

/-- Keep the nearer of the best row so far and row `d` at distance `x`: strictly lower replaces (rule R475). -/
def nearer (best : Option Nat × Nat) (d x : Nat) : Option Nat × Nat :=
  if x < best.2 then (some d, x) else best

/-- The scan of `fmtNearest` from row `d` on. -/
def fmtScan (w1 w2 d : Nat) (best : Option Nat × Nat) (rows : List Nat) : Option Nat :=
  match rows with
  | [] => if best.2 ≤ 3 then best.1 else none
  | t :: rest =>
    if t = w1 ∨ t = w2 then some d
    else
      let b1 := nearer best d (dist w1 t)
      fmtScan w1 w2 (d + 1) (if w1 ≠ w2 then nearer b1 d (dist w2 t) else b1) rest

/-- `fmtNearest(w1, w2)` (rule R475); none is FormatException. -/
def fmtNearest (w1 w2 : Nat) : Option Nat := fmtScan w1 w2 0 (none, 99) tFmt

/-- The scan of `verNearest` from version `v` on. -/
def verScan (w v : Nat) (best : Option Nat × Nat) (rows : List Nat) : Option Nat :=
  match rows with
  | [] => if best.2 ≤ 3 then best.1 else none
  | t :: rest => if t = w then some v else verScan w (v + 1) (nearer best v (dist w t)) rest

/-- `verNearest(w)` (rule R480); none is FormatException. -/
def verNearest (w : Nat) : Option Nat := verScan w 7 (none, 99) tVer

/-! ### The penalty (rule R490) -/

/-- Row `r` of a grid of `w` columns. -/
def gridRow (g w r : Nat) : List Bool := (List.range w).map (fun c => gridBit g r c)
/-- Column `c` of a grid of `h` rows. -/
def gridCol (g h c : Nat) : List Bool := (List.range h).map (fun r => gridBit g r c)
/-- Every row and every column. -/
def gridLines (g h w : Nat) : List (List Bool) :=
  (List.range h).map (gridRow g w) ++ (List.range w).map (gridCol g h)

/-- The N1 score of a maximal run of `n` equal cells. -/
def runPenalty (n : Nat) : Nat := if 5 ≤ n then 3 + (n - 5) else 0

/-- The N1 score of the rest of a line, after a run of `n` cells equal to `prev`. -/
def runsPenalty (prev : Bool) (n : Nat) (line : List Bool) : Nat :=
  match line with
  | [] => runPenalty n
  | b :: rest => if b = prev then runsPenalty prev (n + 1) rest else runPenalty n + runsPenalty b 1 rest

/-- The N1 score of a line. -/
def linePenalty1 (line : List Bool) : Nat :=
  match line with
  | [] => 0
  | b :: rest => runsPenalty b 1 rest

/-- The four cells of the 2 × 2 block at (y, x) are equal. -/
def blockEqual (g y x : Nat) : Bool :=
  gridBit g y x == gridBit g y (x + 1) && gridBit g y x == gridBit g (y + 1) x
    && gridBit g y x == gridBit g (y + 1) (x + 1)

/-- The N2 score. -/
def blockPenalty (g h w : Nat) : Nat :=
  3 * ((List.range (h - 1)).map (fun y => (List.range (w - 1)).countP (fun x => blockEqual g y x))).sum

/-- `white(L, a, b)` for the `n` cells from `a` on: inside the line and all 0. -/
def whiteRun (line : List Bool) (a n : Nat) : Bool :=
  decide (a + n ≤ line.length) && ((line.drop a).take n).all (fun b => !b)

/-- The N3 pattern stands at start `s` with a white side. -/
def finderLike (line : List Bool) (s : Nat) : Bool :=
  decide (s + 6 < line.length)
    && decide ((line.drop s).take 7 = [true, false, true, true, true, false, true])
    && ((decide (4 ≤ s) && whiteRun line (s - 4) 4) || whiteRun line (s + 7) 4)

/-- The N3 score of a line. -/
def linePenalty3 (line : List Bool) : Nat := 40 * (List.range line.length).countP (finderLike line)

/-- The number of dark cells. -/
def darkCount (g h w : Nat) : Nat := ((List.range h).map (fun r => (gridRow g w r).countP id)).sum

/-- The N4 score. -/
def balancePenalty (dark cells : Nat) : Nat :=
  10 * (((2 * dark - cells) + (cells - 2 * dark)) * 10 / cells)

/-- `penalty(G)` for a grid of `h` rows and `w` columns (rule R490). -/
def penalty (g h w : Nat) : Nat :=
  ((gridLines g h w).map linePenalty1).sum + blockPenalty g h w + ((gridLines g h w).map linePenalty3).sum
    + balancePenalty (darkCount g h w) (h * w)

/-! ### The commands -/

/-- The legality of FMT.ENC (rule R474). -/
def fmtEncLegal (r : Regs) : Bool := decide (r.a0.toNat ≤ 3) && decide (r.a1.toNat ≤ 7)

/-- FMT.ENC (rule R474). -/
def execFmtEnc (s : State) : Host.Outcome State Fault Refusal :=
  .next (
    if fmtEncLegal s.regs then
      State.complete { s with regs.r0 := BitVec.ofNat 32 (fmtWord s.regs.a0.toNat s.regs.a1.toNat) }
    else s.illegal)

/-- The legality of FMT.DEC (rule R476). -/
def fmtDecLegal (r : Regs) : Bool := decide (r.a0.toNat < 32768) && decide (r.a1.toNat < 32768)

/-- FMT.DEC (rule R476). -/
def execFmtDec (s : State) : Host.Outcome State Fault Refusal :=
  .next (
    if fmtDecLegal s.regs then
      match fmtNearest s.regs.a0.toNat s.regs.a1.toNat with
      | some d =>
        State.complete { s with
          regs.r0 := BitVec.ofNat 32 d
          regs.resEcl := BitVec.ofNat 2 (ecBits (d / 8))
          regs.resMask := BitVec.ofNat 3 (d % 8) }
      | none => s.raise .formatException .fmc 0 (writeSet .fmtDec)
    else s.illegal)

/-- The legality of VER.ENC (rule R479). -/
def verEncLegal (r : Regs) : Bool := decide (7 ≤ r.a0.toNat) && decide (r.a0.toNat ≤ 40)

/-- VER.ENC (rule R479). -/
def execVerEnc (s : State) : Host.Outcome State Fault Refusal :=
  .next (
    if verEncLegal s.regs then State.complete { s with regs.r0 := BitVec.ofNat 32 (verWord s.regs.a0.toNat) }
    else s.illegal)

/-- The legality of VER.DEC (rule R481). -/
def verDecLegal (r : Regs) : Bool := decide (r.a0.toNat < 262144)

/-- VER.DEC (rule R481). -/
def execVerDec (s : State) : Host.Outcome State Fault Refusal :=
  .next (
    if verDecLegal s.regs then
      match verNearest s.regs.a0.toNat with
      | some v => State.complete { s with regs.r0 := BitVec.ofNat 32 v }
      | none => s.raise .formatException .fmc 0 (writeSet .verDec)
    else s.illegal)

/-- The legality of PEN (rule R491). -/
def penLegal (r : Regs) : Bool := decide (1 ≤ r.gridH.toNat) && decide (1 ≤ r.gridW.toNat)

/-- PEN (rule R491). -/
def execPen (s : State) : Host.Outcome State Fault Refusal :=
  .next (
    if penLegal s.regs then
      State.complete { s with
        regs.resPen := BitVec.ofNat 32 (penalty s.symbol s.regs.gridH.toNat s.regs.gridW.toNat) }
    else s.illegal)

end Sys2Proof.Machine
end

