-- ==== Sys2Proof/Machine/Walk.lean ====
section
/-! DEFINITION. The Data Matrix placement walk MAP.DM and PAR.DM share cell for cell (42_mapper.md rule R313 to rule R316).
The walk gives, codeword by codeword, the addresses of the eight cells of its bits 1 to 8; what a command does with them is
its own file's. -/

namespace Sys2Proof.Machine

/-- The walk's registers: the anchor (row, col), the cells already used as a grid (RDM), and the cells of every codeword
placed so far, the latest codeword first; `p` is the number of them. -/
structure Walk where
  row : Int
  col : Int
  seen : Nat
  placed : List (List Nat)
deriving DecidableEq, Repr

/-- The two wraps of `module` (rule R313), in that order. -/
def wrapCell (nr nc : Nat) (row col : Int) : Int × Int :=
  let r1 := if row < 0 then row + nr else row
  let c1 := if row < 0 then col + 4 - ((nr + 4) % 8 : Nat) else col
  if c1 < 0 then (r1 + 4 - ((nc + 4) % 8 : Nat), c1 + nc) else (r1, c1)

/-- A position inside the matrix. -/
def inMatrix (nr nc : Nat) (row col : Int) : Bool :=
  decide (0 ≤ row) && decide (row < nr) && decide (0 ≤ col) && decide (col < nc)

/-- The cell `module` uses for a position (rule R313): none is the defect of rule R320 (outside the matrix, or used). -/
def moduleCell (nr nc seen : Nat) (row col : Int) : Option Nat :=
  let q := wrapCell nr nc row col
  if inMatrix nr nc q.1 q.2 then
    (if gridBit seen q.1.toNat q.2.toNat then none else some (cellAddr q.1.toNat q.2.toNat))
  else none

/-- The cells of one codeword's bits in order, with the cells used marked; none is the defect of rule R320. -/
def moduleCells (nr nc seen : Nat) (cells : List (Int × Int)) : Option (List Nat × Nat) :=
  match cells with
  | [] => some ([], seen)
  | q :: rest =>
    match moduleCell nr nc seen q.1 q.2 with
    | none => none
    | some a =>
      match moduleCells nr nc (seen ||| (1 <<< a)) rest with
      | none => none
      | some (as, seen') => some (a :: as, seen')

/-- `utah(row, col, p)` (rule R314). -/
def utahCells (row col : Int) : List (Int × Int) :=
  [(row - 2, col - 2), (row - 2, col - 1), (row - 1, col - 2), (row - 1, col - 1),
   (row - 1, col), (row, col - 2), (row, col - 1), (row, col)]

/-- The corner pattern that fires at (row, col), if one does: the four tests of rule R316 in order, the cells of rule R315.
The tests exclude each other for a given (row, col, nc). -/
def cornerCells (nr nc : Nat) (row col : Int) : Option (List (Int × Int)) :=
  let r : Int := nr
  let c : Int := nc
  if row = r ∧ col = 0 then
    some [(r - 1, 0), (r - 1, 1), (r - 1, 2), (0, c - 2), (0, c - 1), (1, c - 1), (2, c - 1), (3, c - 1)]
  else if row = r - 2 ∧ col = 0 ∧ nc % 4 ≠ 0 then
    some [(r - 3, 0), (r - 2, 0), (r - 1, 0), (0, c - 4), (0, c - 3), (0, c - 2), (0, c - 1), (1, c - 1)]
  else if row = r - 2 ∧ col = 0 ∧ nc % 8 = 4 then
    some [(r - 3, 0), (r - 2, 0), (r - 1, 0), (0, c - 2), (0, c - 1), (1, c - 1), (2, c - 1), (3, c - 1)]
  else if row = r + 4 ∧ col = 2 ∧ nc % 8 = 0 then
    some [(r - 1, 0), (r - 1, c - 1), (0, c - 3), (0, c - 2), (0, c - 1), (1, c - 3), (1, c - 2), (1, c - 1)]
  else none

/-- Place one codeword at the listed positions; none is a defect: a cell outside or used, or a codeword index at or beyond
`limit` (rule R316, 43_parser.md rule R354). -/
def placeCodeword (nr nc limit : Nat) (cells : List (Int × Int)) (w : Walk) : Option Walk :=
  if limit ≤ w.placed.length then none
  else
    match moduleCells nr nc w.seen cells with
    | none => none
    | some (as, seen) => some { w with seen := seen, placed := as :: w.placed }

/-- One sweep test that holds but for RDM: place a codeword where the anchor is free. An anchor outside the matrix is the
defect of 20_memory.md rule R81. -/
def placeIfFree (nr nc limit : Nat) (w : Walk) : Option Walk :=
  if inMatrix nr nc w.row w.col then
    (if gridBit w.seen w.row.toNat w.col.toNat then some w
     else placeCodeword nr nc limit (utahCells w.row w.col) w)
  else none

/-- The sweep up and to the right (rule R316). -/
def sweepUp (nr nc limit fuel : Nat) (w : Walk) : Option Walk :=
  match fuel with
  | 0 => none
  | fuel + 1 =>
    match (if w.row < nr ∧ 0 ≤ w.col then placeIfFree nr nc limit w else some w) with
    | none => none
    | some t =>
      let u : Walk := { t with row := t.row - 2, col := t.col + 2 }
      if 0 ≤ u.row ∧ u.col < nc then sweepUp nr nc limit fuel u else some u

/-- The sweep down and to the left (rule R316). -/
def sweepDown (nr nc limit fuel : Nat) (w : Walk) : Option Walk :=
  match fuel with
  | 0 => none
  | fuel + 1 =>
    match (if 0 ≤ w.row ∧ w.col < nc then placeIfFree nr nc limit w else some w) with
    | none => none
    | some t =>
      let u : Walk := { t with row := t.row + 2, col := t.col - 2 }
      if u.row < nr ∧ 0 ≤ u.col then sweepDown nr nc limit fuel u else some u

/-- One pass of the outer loop (rule R316): the corner tests, the two sweeps, the two moves. -/
def walkRound (nr nc limit : Nat) (w : Walk) : Option Walk :=
  match (match cornerCells nr nc w.row w.col with
         | some cells => placeCodeword nr nc limit cells w
         | none => some w) with
  | none => none
  | some w1 =>
    match sweepUp nr nc limit (nr + nc + 8) w1 with
    | none => none
    | some w2 =>
      match sweepDown nr nc limit (nr + nc + 8) { w2 with row := w2.row + 1, col := w2.col + 3 } with
      | none => none
      | some w3 => some { w3 with row := w3.row + 3, col := w3.col + 1 }

/-- The outer loop. `fuel` bounds its passes (70_reset_and_hazards.md rule R598); it does not run out (log entry 18). -/
def walkLoop (nr nc limit fuel : Nat) (w : Walk) : Option Walk :=
  match fuel with
  | 0 => none
  | fuel + 1 =>
    match walkRound nr nc limit w with
    | none => none
    | some t => if t.row < nr ∨ t.col < nc then walkLoop nr nc limit fuel t else some t

/-- `walk` (rule R316) over a matrix of `nr` rows and `nc` columns, for at most `limit` codewords. -/
def walk (nr nc limit : Nat) : Option Walk := walkLoop nr nc limit (nr + nc + 8) ⟨4, 0, 0, []⟩

end Sys2Proof.Machine
end

