-- ==== Sys2Proof/Machine/MapperDm.lean ====
section
/-! DEFINITION. U2 for Data Matrix: the command MAP.DM (42_mapper.md rule R310 to rule R322). -/

namespace Sys2Proof.Machine

/-- A cell of a grid set to a bit. -/
def gridPut (g a : Nat) (b : Bool) : Nat := if b then g ||| (1 <<< a) else (g ||| (1 <<< a)) ^^^ (1 <<< a)

/-- The cells of the listed addresses set to the listed bits. -/
def putBits (g : Nat) (as : List Nat) (bs : List Bool) : Nat :=
  match as, bs with
  | a :: as, b :: bs => putBits (gridPut g a b) as bs
  | _, _ => g

/-- Each codeword's bits 1 to 8, most significant first (rule R312), put at its eight cells. -/
def putCodewords (g : Nat) (cells : List (List Nat)) (cws : List Nat) : Nat :=
  match cells, cws with
  | as :: cells, w :: cws => putCodewords (putBits g as (bitsMsb w 8)) cells cws
  | _, _ => g

/-- The fixed pattern (rule R319), where the bottom-right cell is not used: the matrix and the used cells. -/
def fixedPattern (nr nc mm seen : Nat) : Nat × Nat :=
  if gridBit seen (nr - 1) (nc - 1) then (mm, seen)
  else
    (putBits mm [cellAddr (nr - 2) (nc - 2), cellAddr (nr - 2) (nc - 1), cellAddr (nr - 1) (nc - 2),
       cellAddr (nr - 1) (nc - 1)] [true, false, false, true],
     seen ||| rectBits (nc - 2) (nr - 2) 2 2)

/-- The symbol cell (R, C) of a mapping matrix with its alignment borders (rule R321). -/
def symbolCell (r : DmRow) (mm row col : Nat) : Bool :=
  let lr := row % (r.rh + 2)
  let lc := col % (r.rw + 2)
  if lr = r.rh + 1 then true
  else if lc = 0 then true
  else if lr = 0 then decide (col % 2 = 0)
  else if lc = r.rw + 1 then decide ((row / (r.rh + 2) * r.rh + (lr - 1)) % 2 = 0)
  else gridBit mm (row / (r.rh + 2) * r.rh + lr - 1) (col / (r.rw + 2) * r.rw + lc - 1)

/-- The mapping matrix of a row's codewords, with the walk that placed them (rule R316, rule R319, rule R320). -/
def dmMatrix (r : DmRow) (cws : List Nat) : Except Raise (Nat × Walk) :=
  match walk (dmNr r) (dmNc r) cws.length with
  | none => .error defectErr
  | some w =>
    if w.placed.length ≠ cws.length then .error defectErr
    else
      let q := fixedPattern (dmNr r) (dmNc r) (putCodewords 0 w.placed.reverse cws) w.seen
      if q.2 = rectBits 0 0 (dmNc r) (dmNr r) then .ok (q.1, { w with seen := q.2 }) else .error defectErr

/-- The state with a finished Data Matrix symbol (rule R310): MM, RDM, GRID, GRID_H, GRID_W; the walk's registers keep their
last values, which nothing reads (10_state.md rule R64). -/
def State.setDmSymbol (s : State) (r : DmRow) (mm : Nat) (w : Walk) : State :=
  { s with
    mem.mm := Buf.ofGrid s.draws (dmNr r) (dmNc r) mm
    mem.rdm := Buf.ofGrid (s.draws + 1) (dmNr r) (dmNc r) w.seen
    mem.grid := Buf.ofGrid (s.draws + 2) (dmSymH r) (dmSymW r) (gridOf (dmSymH r) (dmSymW r) (symbolCell r mm))
    regs.gridH := BitVec.ofNat 8 (dmSymH r)
    regs.gridW := BitVec.ofNat 8 (dmSymW r)
    work.row := w.row
    work.col := w.col
    work.cwpos := w.placed.length
    draws := s.draws + 3 }

/-- A row MAP.DM can draw: it keeps rule R107, it has cells, and its symbol fits GRID, GRID_H and GRID_W (10_state.md rule R44,
rule R70; 60_exceptions.md rule R547). That its codewords fit CW is a condition at issue (`mapDmLegal`). Every row of the default
table is one. -/
def dmDrawable (r : DmRow) : Bool :=
  dmRowOk r && decide (0 < dmNr r) && decide (0 < dmNc r)
    && decide (dmSymH r ≤ 255) && decide (dmSymW r ≤ 255)

/-- The body of MAP.DM for the row SYM names. -/
def mapDmBody (s : State) (r : DmRow) : Except Raise State :=
  if dmDrawable r then
    match dmMatrix r s.codewords with
    | .error e => .error e
    | .ok (mm, w) => .ok (s.setDmSymbol r mm w)
  else .error defectErr

/-- The legality of MAP.DM (rule R310): SYM names a row, and CW_LEN is that row's `data + ec` and in its range
(`cwLenLegal`). -/
def mapDmLegal (rom : Rom) (r : Regs) : Option DmRow :=
  match dmRow rom r.sym.toNat with
  | none => none
  | some row => if r.cwLen.toNat = dmTotal row ∧ cwLenLegal r = true then some row else none

/-- MAP.DM (rule R310). -/
def execMapDm (s : State) : Host.Outcome State Fault Refusal :=
  .next (
    match mapDmLegal s.rom s.regs with
    | none => s.illegal
    | some r => s.finish .map (writeSet .mapDm) (mapDmBody s r))

end Sys2Proof.Machine
end

