-- ==== Sys2Proof/Machine/QrGrid.lean ====
section
/-! DEFINITION. The geometry of a QR symbol that MAP.QR and PAR.QR share: the function-pattern mask fp(v)
(20_memory.md rule R105), the order of the data cells (42_mapper.md rule R333), the eight data masks (rule R334), and the
cells of the format and version words (rule R336, rule R337; 43_parser.md rule R374, rule R376). A QR cell (x, y) is
column x, row y. -/

namespace Sys2Proof.Machine

/-- The 5 × 5 block centred at (cx, cy), cut off at row 0 and column 0. -/
def blockBits (cx cy : Nat) : Nat := rectBits (cx - 2) (cy - 2) (cx + 3 - (cx - 2)) (cy + 3 - (cy - 2))

/-- The rectangles of fp(v) that do not depend on T_QRALIGN (20_memory.md rule R105): finders, separators, format cells, timing
lines, version blocks. -/
def fixedCells (v : Nat) : Nat :=
  let dim := qrDim v
  let fixed := rectBits 0 0 9 9 ||| rectBits (dim - 8) 0 8 9 ||| rectBits 0 (dim - 8) 9 8
    ||| rectBits 6 9 1 (dim - 17) ||| rectBits 9 6 (dim - 17) 1
  fixed ||| if 7 ≤ v then rectBits (dim - 11) 0 3 6 ||| rectBits 0 (dim - 11) 6 3 else 0

/-- `g` with the 5 × 5 blocks centred at `cs`. -/
def withBlocks (g : Nat) (cs : List (Nat × Nat)) : Nat := cs.foldl (fun g p => g ||| blockBits p.1 p.2) g

/-- `fp(v)` as a grid (20_memory.md rule R105): the cells of the symbol that lie in one of the rectangles. -/
def qrFp (rom : Rom) (v : Nat) : Nat :=
  let dim := qrDim v
  let centres := (qrCentres rom v).filter (fun p => decide (p.1 < dim + 2) && decide (p.2 < dim + 2))
  withBlocks (fixedCells v) centres &&& rectBits 0 0 dim dim

/-- The remainder bits rem(v) of a version (rule R105). -/
def qrRem (v : Nat) : Nat :=
  if v ≤ 1 then 0 else if v ≤ 6 then 7 else if v ≤ 13 then 0 else if v ≤ 20 then 3 else if v ≤ 27 then 4
  else if v ≤ 34 then 3 else 0

/-- The number of cells that are not function cells. -/
def qrFreeCells (rom : Rom) (v : Nat) : Nat :=
  ((List.range (qrDim v)).map (fun r => qrDim v - popCount (qrDim v) ((qrFp rom v >>> (256 * r)) % 2 ^ qrDim v))).sum

/-- The version keeps the invariant of rule R107: its row of T_QRCAP does (`qrCapOk`), and `8*total(v) + rem(v)` is the count of
the cells that are not function cells. -/
def qrRowOk (rom : Rom) (v : Nat) : Bool := qrCapOk rom v && decide (8 * qrTotal rom v + qrRem v = qrFreeCells rom v)

/-- `qrPick(nbits, e)` meets a version whose tables break rule R107. -/
def qrPickBroken (rom : Rom) (nbits e : Nat) : Bool :=
  scanBroken (qrRowOk rom) (fun v => decide ((nbits + 7) / 8 ≤ qrData rom v e)) versions

/-- The tables keep the invariant of rule R107, every row and every version: the premise a machine is built with. -/
def Rom.ok (rom : Rom) : Bool := rom.dmSym.all dmRowOk && versions.all (qrRowOk rom)

/-- The columns of the pairs, rightmost first (rule R333): from dim - 1 down by 2, column 6 skipped; `n` pairs from `x` on. -/
def pairColumns (x n : Nat) : List Nat :=
  match n with
  | 0 => []
  | n + 1 =>
    let c := if x = 6 then x - 1 else x
    c :: pairColumns (c - 2) n

/-- The cells (x, y) of the column pairs `cols`, the first pair read upwards when `up`, each right cell before its left. -/
def pairCells (dim : Nat) (up : Bool) (cols : List Nat) : List (Nat × Nat) :=
  match cols with
  | [] => []
  | x :: rest =>
    (List.range dim).flatMap (fun k =>
      let y := if up then dim - 1 - k else k
      [(x, y), (x - 1, y)]) ++ pairCells dim (!up) rest

/-- The cells that are not function cells, in the order the bit stream fills them (rule R333). -/
def dataCells (dim fp : Nat) : List (Nat × Nat) :=
  (pairCells dim true (pairColumns (dim - 1) ((dim - 1) / 2))).filter (fun p => !gridBit fp p.2 p.1)

/-- `mask(m, x, y)` (rule R334). -/
def qrMask (m x y : Nat) : Bool :=
  match m with
  | 0 => decide ((y + x) % 2 = 0)
  | 1 => decide (y % 2 = 0)
  | 2 => decide (x % 3 = 0)
  | 3 => decide ((y + x) % 3 = 0)
  | 4 => decide ((y / 2 + x / 3) % 2 = 0)
  | 5 => decide ((x * y) % 2 + (x * y) % 3 = 0)
  | 6 => decide (((x * y) % 2 + (x * y) % 3) % 2 = 0)
  | _ => decide (((x * y) % 3 + (x + y) % 2) % 2 = 0)

/-- The cells of bits 0 to 14 of the format word, first copy (rule R336). -/
def formatCells1 : List (Nat × Nat) :=
  [(8, 0), (8, 1), (8, 2), (8, 3), (8, 4), (8, 5), (8, 7), (8, 8), (7, 8), (5, 8), (4, 8), (3, 8), (2, 8), (1, 8), (0, 8)]

/-- The cells of bits 0 to 14 of the format word, second copy (rule R336). -/
def formatCells2 (dim : Nat) : List (Nat × Nat) :=
  (List.range 15).map (fun i => if i < 8 then (dim - 1 - i, 8) else (8, dim - 7 + (i - 8)))

/-- The cells of bits 0 to 17 of the version word in the 3 × 6 block at the top right (rule R337). -/
def versionCells1 (dim : Nat) : List (Nat × Nat) := (List.range 18).map (fun k => (dim - 11 + k % 3, k / 3))

/-- The cells of bits 0 to 17 of the version word in the 6 × 3 block at the bottom left (rule R337). -/
def versionCells2 (dim : Nat) : List (Nat × Nat) := (List.range 18).map (fun k => (k / 3, dim - 11 + k % 3))

/-- A word's bits, least significant first, put at the listed cells. -/
def putWord (g w : Nat) (cells : List (Nat × Nat)) : Nat :=
  match cells with
  | [] => g
  | p :: rest => putWord (gridPut g (cellAddr p.2 p.1) (decide (w % 2 = 1))) (w / 2) rest

end Sys2Proof.Machine
end

