-- ==== Sys2Proof/Machine/MapperQr.lean ====
section
/-! DEFINITION. U2 for QR: the command MAP.QR (42_mapper.md rule R330 to rule R339). -/

namespace Sys2Proof.Machine

/-- The dark cells of a finder whose top-left cell is (ox, oy) (rule R331). -/
def finderBits (ox oy : Nat) : Nat :=
  rectBits ox oy 7 1 ||| rectBits ox (oy + 6) 7 1 ||| rectBits ox oy 1 7 ||| rectBits (ox + 6) oy 1 7
    ||| rectBits (ox + 2) (oy + 2) 3 3

/-- The cell is a finder or separator cell (rule R331). -/
def isFinderCell (dim x y : Nat) : Bool :=
  (decide (x ≤ 7) && decide (y ≤ 7)) || (decide (dim - 8 ≤ x) && decide (y ≤ 7)) || (decide (x ≤ 7) && decide (dim - 8 ≤ y))

/-- The centres of the alignment blocks that are drawn (rule R331). -/
def drawnCentres (rom : Rom) (v : Nat) : List (Nat × Nat) :=
  (alignPairs (qrAlign rom v)).filter (fun p => !isFinderCell (qrDim v) p.1 p.2)

/-- Every alignment block lies inside the symbol; a cell outside is InternalDefect (60_exceptions.md rule R547). -/
def alignInside (rom : Rom) (v : Nat) : Bool :=
  (drawnCentres rom v).all (fun p => decide (2 ≤ p.1) && decide (2 ≤ p.2) && decide (p.1 + 2 < qrDim v)
    && decide (p.2 + 2 < qrDim v))

/-- `g` with the cells of `b` made light. -/
def lightened (g b : Nat) : Nat := (g ||| b) ^^^ b

/-- The dark cells of an alignment block centred at (cx, cy) (rule R331). -/
def alignBits (cx cy : Nat) : Nat :=
  rectBits (cx - 2) (cy - 2) 5 1 ||| rectBits (cx - 2) (cy + 2) 5 1 ||| rectBits (cx - 2) (cy - 2) 1 5
    ||| rectBits (cx + 2) (cy - 2) 1 5 ||| rectBits cx cy 1 1

/-- The dark cells of the two timing lines: even i from 8 to dim - 9 (rule R331). -/
def timingBits (dim : Nat) : Nat :=
  (List.range (dim - 16)).foldl (fun g k =>
    if k % 2 = 0 then g ||| rectBits (8 + k) 6 1 1 ||| rectBits 6 (8 + k) 1 1 else g) 0

/-- `drawFunction(dim)` as the set of its dark cells (rule R331); every other cell it draws is light. A block is drawn whole
over what was there; the timing lines leave the blocks alone. -/
def drawFunction (rom : Rom) (v : Nat) : Nat :=
  let dim := qrDim v
  let cs := drawnCentres rom v
  let blocks := withBlocks 0 cs
  cs.foldl (fun g p => lightened g (blockBits p.1 p.2) ||| alignBits p.1 p.2)
      (finderBits 0 0 ||| finderBits (dim - 7) 0 ||| finderBits 0 (dim - 7) ||| rectBits 8 (dim - 8) 1 1)
    ||| lightened (timingBits dim) blocks

/-- The function cells no pattern, format or version word draws. With the default tables there are none (rule R332); with others
there are where a centre that fp(v) counts falls on a finder or separator cell, so that rule R331 leaves its block out. -/
def undrawnCells (rom : Rom) (v : Nat) : Nat :=
  lightened (qrFp rom v) (withBlocks (fixedCells v) (drawnCentres rom v))

/-- What the undrawn function cells hold: the spec does not say, and it is the free value of draw `d`, one bit for each element
of GRID (DESIGN CHOICE; log entry 22). -/
def undrawnBits (rom : Rom) (v d : Nat) : Nat :=
  if undrawnCells rom v = 0 then 0 else undrawnCells rom v &&& (Config.freeValue Config.gridSize d 0).toNat

/-- Place the stream's bits at the data cells, masked; remainder cells take 0 before masking (rule R333). Gives the grid and
the bits left over. -/
def placeBits (m g : Nat) (cells : List (Nat × Nat)) (bits : List Bool) : Nat × List Bool :=
  match cells with
  | [] => (g, bits)
  | p :: rest =>
    let bit := (bits.headD false) ^^ qrMask m p.1 p.2
    placeBits m (gridPut g (cellAddr p.2 p.1) bit) rest bits.tail

/-- The function cells of a candidate with mask `m` at level `e`: patterns, format word, version word (rule R335), with the cells
of `u` that none of them draws. -/
def qrFrame (rom : Rom) (u v e m : Nat) : Nat :=
  let dim := qrDim v
  let g := putWord (putWord (drawFunction rom v ||| u) (fmtWord e m) formatCells1) (fmtWord e m) (formatCells2 dim)
  if 7 ≤ v then putWord (putWord g (verWord v) (versionCells1 dim)) (verWord v) (versionCells2 dim) else g

/-- `build(m)` (rule R335): the candidate symbol; none is the defect of rule R333 (bits left over). -/
def qrBuild (rom : Rom) (u v e m : Nat) (cells : List (Nat × Nat)) (bits : List Bool) : Option Nat :=
  let r := placeBits m (qrFrame rom u v e m) cells bits
  if r.2.isEmpty then some r.1 else none

/-- A mask, its symbol and its penalty. -/
structure Candidate where
  mask : Nat
  grid : Nat
  pen : Nat
deriving DecidableEq, Repr

/-- The candidate with mask `m`. -/
def qrCandidate (rom : Rom) (u v e m : Nat) (cells : List (Nat × Nat)) (bits : List Bool) : Option Candidate :=
  match qrBuild rom u v e m cells bits with
  | none => none
  | some g => some ⟨m, g, penalty g (qrDim v) (qrDim v)⟩

/-- The mask search (rule R335) over the masks left, with the best so far: only a strictly lower penalty replaces it. -/
def maskSearch (rom : Rom) (u v e : Nat) (cells : List (Nat × Nat)) (bits : List Bool) (best : Option Candidate)
    (masks : List Nat) : Option Candidate :=
  match masks with
  | [] => best
  | m :: rest =>
    match qrCandidate rom u v e m cells bits with
    | none => none
    | some c =>
      match best with
      | none => maskSearch rom u v e cells bits (some c) rest
      | some b => maskSearch rom u v e cells bits (some (if c.pen < b.pen then c else b)) rest

/-- The candidate MAP.QR ends with (rule R335): of the forced mask, or of the search; none is InternalDefect. -/
def qrChoose (rom : Rom) (u v e : Nat) (auto : Bool) (forced : Nat) (cws : List Nat) : Option Candidate :=
  let cells := dataCells (qrDim v) (qrFp rom v)
  let bits := cws.flatMap (fun w => bitsMsb w 8)
  if auto then maskSearch rom u v e cells bits none (List.range 8) else qrCandidate rom u v e forced cells bits

/-- The state with a finished QR symbol (rule R330). The walk's registers and the search's keep their last values, which
nothing reads (10_state.md rule R64, rule R66). -/
def State.setQrSymbol (s : State) (v : Nat) (c : Candidate) : State :=
  { s with
    mem.grid := Buf.ofGrid s.draws (qrDim v) (qrDim v) c.grid
    mem.rdm := Buf.ofGrid (s.draws + 1) (qrDim v) (qrDim v) (qrFp s.rom v)
    regs.gridH := BitVec.ofNat 8 (qrDim v)
    regs.gridW := BitVec.ofNat 8 (qrDim v)
    regs.resMask := BitVec.ofNat 3 c.mask
    regs.resPen := BitVec.ofNat 32 c.pen
    work.x := -1
    work.y := qrDim v - 1
    work.dirUp := true
    work.bitpos := 8 * s.regs.cwLen.toNat
    work.best := BitVec.ofNat 3 c.mask
    work.bestpen := c.pen
    draws := s.draws + 2 }

/-- The body of MAP.QR (rule R335). A version whose tables break rule R107, or whose alignment blocks leave the symbol, is
InternalDefect (60_exceptions.md rule R547). -/
def mapQrBody (s : State) : Except Raise State :=
  if qrRowOk s.rom s.regs.ver.toNat && alignInside s.rom s.regs.ver.toNat then
    match qrChoose s.rom (undrawnBits s.rom s.regs.ver.toNat s.draws) s.regs.ver.toNat s.regs.cfgQr.ecl.toNat
        s.regs.cfgQr.maskAuto s.regs.cfgQr.maskId.toNat s.codewords with
    | none => .error defectErr
    | some c => .ok (s.setQrSymbol s.regs.ver.toNat c)
  else .error defectErr

/-- The legality of MAP.QR (rule R330): VER is a version, and CW_LEN is that version's total and in its range (`cwLenLegal`). -/
def mapQrLegal (rom : Rom) (r : Regs) : Bool :=
  verLegal r.ver.toNat && decide (r.cwLen.toNat = qrTotal rom r.ver.toNat) && cwLenLegal r

/-- MAP.QR (rule R330). -/
def execMapQr (s : State) : Host.Outcome State Fault Refusal :=
  .next (if mapQrLegal s.rom s.regs then s.finish .map (writeSet .mapQr) (mapQrBody s) else s.illegal)

end Sys2Proof.Machine
end

