-- ==== Sys2Proof/Machine/ParserDm.lean ====
section
/-! DEFINITION. U3 for Data Matrix: the command PAR.DM (43_parser.md rule R350 to rule R358). -/

namespace Sys2Proof.Machine

/-- The mapping matrix of a symbol without its borders (rule R352). -/
def extractMatrix (r : DmRow) (g : Nat) : Nat :=
  gridOf (dmNr r) (dmNc r) (fun row col =>
    gridBit g (row / r.rh * (r.rh + 2) + 1 + row % r.rh) (col / r.rw * (r.rw + 2) + 1 + col % r.rw))

/-- The codeword whose bits 1 to 8 stand at the listed cells (rule R312, rule R354). -/
def codewordAt (mm : Nat) (as : List Nat) : Nat := bitsVal 0 (as.map mm.testBit)

/-- The read walk over a mapping matrix (rule R353 to rule R356): the codewords, with the walk. A codeword index beyond the total,
or beyond CW (10_state.md rule R70), is InternalDefect. -/
def dmReadWalk (r : DmRow) (mm : Nat) : Except Raise (List Nat × Walk) :=
  match walk (dmNr r) (dmNc r) (min (dmTotal r) Config.cwSize) with
  | none => .error defectErr
  | some w =>
    if w.placed.length ≠ dmTotal r then .error ⟨.formatException, 0⟩
    else .ok (w.placed.reverse.map (codewordAt mm), w)

/-- The state with the results of a completed read (rule R350, rule R355). -/
def State.setDmRead (s : State) (idx : Nat) (r : DmRow) (mm : Nat) (cws : List Nat) (w : Walk) : State :=
  let t := s.setCw cws
  { t with
    regs.sym := BitVec.ofNat 5 idx
    mem.mm := Buf.ofGrid t.draws (dmNr r) (dmNc r) mm
    mem.rdm := Buf.ofGrid (t.draws + 1) (dmNr r) (dmNc r) w.seen
    work.row := w.row
    work.col := w.col
    work.cwpos := w.placed.length
    draws := t.draws + 2 }

/-- The body of PAR.DM (rule R350 to rule R355). A broken row met on the way (60_exceptions.md rule R547), or one whose index SYM
cannot hold (10_state.md rule R42), is InternalDefect. -/
def parDmBody (s : State) : Except Raise State :=
  if dmByDimsBroken s.rom s.regs.gridH.toNat s.regs.gridW.toNat then .error defectErr
  else
    match dmByDims s.rom s.regs.gridH.toNat s.regs.gridW.toNat with
    | none => .error ⟨.formatException, 0⟩
    | some (idx, r) =>
      if 32 ≤ idx then .error defectErr
      else
        match dmReadWalk r (extractMatrix r s.symbol) with
        | .error e => .error e
        | .ok (cws, w) => .ok (s.setDmRead idx r (extractMatrix r s.symbol) cws w)

/-- PAR.DM (rule R350). It has no legality condition (47_commands.md rule R518). -/
def execParDm (s : State) : Host.Outcome State Fault Refusal :=
  .next (s.finish .par (writeSet .parDm) (parDmBody s))

end Sys2Proof.Machine
end

