-- ==== Sys2Proof/Machine/ParserQr.lean ====
section
/-! DEFINITION. U3 for QR: the command PAR.QR with MIRROR and RETRY (43_parser.md rule R370 to rule R379). -/

namespace Sys2Proof.Machine

/-- `cell(x, y)` (rule R371): plainly GRID[y][x], mirrored GRID[x][y]. -/
def qrCell (g : Nat) (mirrored : Bool) (x y : Nat) : Bool := if mirrored then gridBit g x y else gridBit g y x

/-- The word whose bits, most significant first, are the listed cells (x, y). -/
def readWord (g : Nat) (mirrored : Bool) (cells : List (Nat × Nat)) : Nat :=
  bitsVal 0 (cells.map (fun p => qrCell g mirrored p.1 p.2))

/-- The cells of w1 in reading order (rule R374). -/
def readFormat1 : List (Nat × Nat) :=
  [(0, 8), (1, 8), (2, 8), (3, 8), (4, 8), (5, 8), (7, 8), (8, 8), (8, 7), (8, 5), (8, 4), (8, 3), (8, 2), (8, 1), (8, 0)]

/-- The cells of w2 in reading order (rule R374). -/
def readFormat2 (dim : Nat) : List (Nat × Nat) :=
  (List.range 7).map (fun k => (8, dim - 1 - k)) ++ (List.range 8).map (fun k => (dim - 8 + k, 8))

/-- The cells of V1 in reading order (rule R376). -/
def readVersion1 (dim : Nat) : List (Nat × Nat) :=
  [5, 4, 3, 2, 1, 0].flatMap (fun y => [dim - 9, dim - 10, dim - 11].map (fun x => (x, y)))

/-- The cells of V2 in reading order (rule R376). -/
def readVersion2 (dim : Nat) : List (Nat × Nat) :=
  [5, 4, 3, 2, 1, 0].flatMap (fun x => [dim - 9, dim - 10, dim - 11].map (fun y => (x, y)))

/-- A version word decodes to a version whose dimension is the grid's (rule R375). -/
def versionOf (w dim : Nat) : Option Nat :=
  match verNearest w with
  | none => none
  | some v => if qrDim v = dim then some v else none

/-- `readVersion(dim)` (rule R375); none is FormatException. -/
def readVersion (g : Nat) (mirrored : Bool) (dim : Nat) : Option Nat :=
  if (dim - 17) / 4 ≤ 6 then some ((dim - 17) / 4)
  else
    match versionOf (readWord g mirrored (readVersion1 dim)) dim with
    | some v => some v
    | none => versionOf (readWord g mirrored (readVersion2 dim)) dim

/-- `readData(v, m)` (rule R377). A version whose tables break rule R107 is InternalDefect (60_exceptions.md rule R547). -/
def readData (rom : Rom) (g : Nat) (mirrored : Bool) (v m : Nat) : Except Raise (List Nat) :=
  if qrRowOk rom v then
    let bits := (dataCells (qrDim v) (qrFp rom v)).map (fun p => qrCell g mirrored p.1 p.2 ^^ qrMask m p.1 p.2)
    let out := bytesOfBits bits
    if qrTotal rom v < out.length then .error defectErr
    else if out.length ≠ qrTotal rom v then .error ⟨.formatException, 0⟩
    else .ok out
  else .error defectErr

/-- What a completed attempt found: the version, the row of T_FMT, the codewords. -/
structure QrRead where
  ver : Nat
  fmt : Nat
  cws : List Nat
deriving DecidableEq, Repr

/-- `attempt(mirrored)` (rule R373) on a grid of `h` rows and `w` columns. -/
def qrAttempt (rom : Rom) (g h w : Nat) (mirrored : Bool) : Except Raise QrRead :=
  if h ≠ w then .error ⟨.formatException, 0⟩
  else if w < 21 ∨ w % 4 ≠ 1 then .error ⟨.formatException, 0⟩
  else
    match fmtNearest (readWord g mirrored readFormat1) (readWord g mirrored (readFormat2 w)) with
    | none => .error ⟨.formatException, 0⟩
    | some d =>
      match readVersion g mirrored w with
      | none => .error ⟨.formatException, 0⟩
      | some v =>
        match readData rom g mirrored v (d % 8) with
        | .error e => .error e
        | .ok cws => .ok ⟨v, d, cws⟩

/-- The attempts of PAR.QR (rule R372): what was found and the orientation that completed. -/
def qrAttempts (rom : Rom) (g h w : Nat) (mirror retry : Bool) : Except Raise (QrRead × Bool) :=
  match qrAttempt rom g h w mirror with
  | .ok r => .ok (r, mirror)
  | .error e1 =>
    if e1.exn = .formatException ∧ retry = true then
      match qrAttempt rom g h w (!mirror) with
      | .ok r => .ok (r, !mirror)
      | .error e2 => if e2.exn = .internalDefect then .error e2 else .error e1
    else .error e1

/-- The state with the results of a completed attempt (rule R370, rule R373). -/
def State.setQrRead (s : State) (r : QrRead) (mirrored : Bool) : State :=
  let t := s.setCw r.cws
  { t with
    regs.ver := BitVec.ofNat 6 r.ver
    regs.resEcl := BitVec.ofNat 2 (ecBits (r.fmt / 8))
    regs.resMask := BitVec.ofNat 3 (r.fmt % 8)
    regs.status.mirrored := mirrored
    mem.rdm := Buf.ofGrid t.draws (qrDim r.ver) (qrDim r.ver) (qrFp s.rom r.ver)
    work.x := -1
    work.y := qrDim r.ver - 1
    work.dirUp := true
    work.bitpos := 8 * r.cws.length
    draws := t.draws + 1 }

/-- The body of PAR.QR. -/
def parQrBody (s : State) (mirror retry : Bool) : Except Raise State :=
  match qrAttempts s.rom s.symbol s.regs.gridH.toNat s.regs.gridW.toNat mirror retry with
  | .error e => .error e
  | .ok (r, mirrored) => .ok (s.setQrRead r mirrored)

/-- PAR.QR (rule R370, rule R372): MIRRORED is cleared first, and stays clear after a fault. -/
def execParQr (mirror retry : Bool) (s : State) : Host.Outcome State Fault Refusal :=
  let t : State := { s with regs.status.mirrored := false }
  .next (t.finish .par (writeSet (.parQr mirror retry)) (parQrBody t mirror retry))

end Sys2Proof.Machine
end

