-- ==== Sys2Proof/Machine/Lookahead.lean ====
section
/-! DEFINITION. U1's mode numbers (10_state.md rule R60) and its lookahead (40_tce_datamatrix.md rule R210 to rule R215).
Costs are in twelfths of a codeword. -/

namespace Sys2Proof.Machine

/-- The six modes (10_state.md rule R60). -/
inductive Mode where
  | ascii | c40 | text | x12 | edifact | base256
deriving DecidableEq, Repr

/-- The number of a mode (rule R60). -/
def Mode.num (m : Mode) : Nat :=
  match m with
  | .ascii => 0
  | .c40 => 1
  | .text => 2
  | .x12 => 3
  | .edifact => 4
  | .base256 => 5

/-- The mode of a number; 6 and 7 never occur (rule R60). -/
def modeOfNum (n : Nat) : Mode :=
  match n with
  | 1 => .c40
  | 2 => .text
  | 3 => .x12
  | 4 => .edifact
  | 5 => .base256
  | _ => .ascii

/-- The latch codeword of a mode (30_encoding.md rule R130); ASCII has none and is never latched. -/
def latch (m : Mode) : Nat :=
  match m with
  | .ascii => 0
  | .c40 => 230
  | .text => 239
  | .x12 => 238
  | .edifact => 240
  | .base256 => 231

/-- The six lookahead costs by mode, as the lookahead computes them: exact integers (00_scope.md rule R12). -/
structure Costs where
  ascii : Nat
  c40 : Nat
  text : Nat
  x12 : Nat
  edifact : Nat
  base256 : Nat
deriving DecidableEq, Repr

/-- The costs as the accumulators hold them; none exceeds 32 bits (10_state.md rule R63). -/
def Costs.regs (c : Costs) : CostRegs :=
  ⟨BitVec.ofNat 32 c.ascii, BitVec.ofNat 32 c.c40, BitVec.ofNat 32 c.text, BitVec.ofNat 32 c.x12,
   BitVec.ofNat 32 c.edifact, BitVec.ofNat 32 c.base256⟩

/-- What the accumulators hold. -/
def CostRegs.nums (c : CostRegs) : Costs :=
  ⟨c.ascii.toNat, c.c40.toNat, c.text.toNat, c.x12.toNat, c.edifact.toNat, c.base256.toNat⟩

/-- A cost rounded up to a whole number of codewords, in twelfths (00_scope.md rule R12). -/
def ceil12 (x : Nat) : Nat := (x + 11) / 12 * 12

/-- `cost[cur] = 0`. -/
def Costs.clear (c : Costs) (cur : Mode) : Costs :=
  match cur with
  | .ascii => { c with ascii := 0 }
  | .c40 => { c with c40 := 0 }
  | .text => { c with text := 0 }
  | .x12 => { c with x12 := 0 }
  | .edifact => { c with edifact := 0 }
  | .base256 => { c with base256 := 0 }

/-- `init(cur)` (rule R211). -/
def laInit (cur : Mode) : Costs :=
  if cur = .ascii then ⟨0, 12, 12, 12, 12, 15⟩ else Costs.clear ⟨12, 24, 24, 24, 24, 27⟩ cur

/-- The charge of one character against a mode: native, extended, or other. -/
def chargeBy (native ext : Bool) (a b c : Nat) : Nat := if native then a else if ext then b else c

/-- `charge(c)` (rule R212). A special Base256 byte would cost 48 more; none is special (30_encoding.md rule R131). -/
def charge (k : Costs) (c : Nat) : Costs where
  ascii := if isDigit c then k.ascii + 6 else if isExt c then ceil12 k.ascii + 24 else ceil12 k.ascii + 12
  c40 := k.c40 + chargeBy (natC40 c) (isExt c) 8 32 16
  text := k.text + chargeBy (natText c) (isExt c) 8 32 16
  x12 := k.x12 + chargeBy (natX12 c) (isExt c) 8 52 40
  edifact := k.edifact + chargeBy (natEdf c) (isExt c) 9 51 39
  base256 := k.base256 + (if isSpecialB256 c then 60 else 12)

/-- `ic[m]` of every mode: the whole codewords its cost comes to (rule R213). -/
def Costs.ceil (k : Costs) : Costs where
  ascii := ceil12 k.ascii / 12
  c40 := ceil12 k.c40 / 12
  text := ceil12 k.text / 12
  x12 := ceil12 k.x12 / 12
  edifact := ceil12 k.edifact / 12
  base256 := ceil12 k.base256 / 12

/-- `min`: the least of the six. -/
def Costs.least (c : Costs) : Nat :=
  min c.ascii (min c.c40 (min c.text (min c.x12 (min c.edifact c.base256))))

/-- `cnt == 1`: exactly one of the six is at the minimum. -/
def Costs.alone (c : Costs) : Bool :=
  decide (([c.ascii, c.c40, c.text, c.x12, c.edifact, c.base256].countP (fun x => decide (x = c.least))) = 1)

/-- `atEnd()` (rule R213). -/
def laAtEnd (k : Costs) : Mode :=
  let ic := k.ceil
  if ic.ascii = ic.least then .ascii
  else if ic.alone ∧ ic.base256 = ic.least then .base256
  else if ic.alone ∧ ic.edifact = ic.least then .edifact
  else if ic.alone ∧ ic.text = ic.least then .text
  else if ic.alone ∧ ic.x12 = ic.least then .x12
  else .c40

/-- The scan of the C40 = X12 case over the characters from `start + k + 1` on (rule R214). -/
def scanX12 (xs : List Nat) : Mode :=
  match xs with
  | [] => .c40
  | c :: rest => if x12Sep c then .x12 else if natX12 c then scanX12 rest else .c40

/-- `decide(start, k)` (rule R214); `unread` are the characters from `start + k` on. -/
def laDecide (k : Costs) (unread : List Nat) : Option Mode :=
  let ic := k.ceil
  if ic.ascii < ic.base256 ∧ ic.ascii < ic.c40 ∧ ic.ascii < ic.text ∧ ic.ascii < ic.x12 ∧ ic.ascii < ic.edifact then
    some .ascii
  else if ic.base256 < ic.ascii
      ∨ (ic.c40 ≠ ic.least ∧ ic.text ≠ ic.least ∧ ic.x12 ≠ ic.least ∧ ic.edifact ≠ ic.least) then
    some .base256
  else if ic.alone ∧ ic.edifact = ic.least then some .edifact
  else if ic.alone ∧ ic.text = ic.least then some .text
  else if ic.alone ∧ ic.x12 = ic.least then some .x12
  else if ic.c40 + 1 < ic.ascii ∧ ic.c40 + 1 < ic.base256 ∧ ic.c40 + 1 < ic.edifact ∧ ic.c40 + 1 < ic.text then
    (if ic.c40 < ic.x12 then some .c40
     else if ic.c40 = ic.x12 then some (scanX12 (unread.drop 1))
     else none)
  else none

/-- A lookahead's verdict, and what it leaves in cost[0..5] and k. -/
structure La where
  mode : Mode
  cost : Costs
  k : Nat
deriving DecidableEq, Repr

/-- The loop of `laCore` over the characters not read yet (rule R210). -/
def laLoop (cost : Costs) (k : Nat) (unread : List Nat) : La :=
  match unread with
  | [] => ⟨laAtEnd cost, cost, k⟩
  | c :: rest =>
    if 4 ≤ k + 1 then
      match laDecide (charge cost c) rest with
      | some m => ⟨m, charge cost c, k + 1⟩
      | none => laLoop (charge cost c) (k + 1) rest
    else laLoop (charge cost c) (k + 1) rest

/-- `guard(start, m)` (rule R215); `xs` are the characters from `start` to the end of the text. A verdict that is overruled is
ASCII, as the rule's pseudocode and rule R272 say; 92_eei_decisions.md D12 says that the estimator goes on there (DEDUCED: the rule
is followed; log entry 23). -/
def laGuard (xs : List Nat) (m : Mode) : Mode :=
  match m with
  | .x12 => if (xs.take 3).all natX12 then .x12 else .ascii
  | .edifact => if (xs.take 4).all natEdf then .edifact else .ascii
  | .ascii => .ascii
  | .c40 => .c40
  | .text => .text
  | .base256 => .base256

/-- `lookahead(start, cur)` (rule R210), on the characters from `start` to the end of the text; at the end of the text the
verdict is `cur` and cost and k are untouched. -/
def lookahead (xs : List Nat) (cur : Mode) (cost : Costs) (k : Nat) : La :=
  match xs with
  | [] => ⟨cur, cost, k⟩
  | c :: rest =>
    let v := laLoop (laInit cur) 0 (c :: rest)
    { v with mode := laGuard (c :: rest) v.mode }

end Sys2Proof.Machine
end

