-- ==== Sys2Proof/Machine/TceDm.lean ====
section
/-! DEFINITION. U1 for Data Matrix: the command ENC.DM (40_tce_datamatrix.md rule R200 to rule R274). Inside the command the
encoder's state is the record `Enc`; it is read from the registers and buffers and written back at every round. -/

namespace Sys2Proof.Machine

/-- What a run of ENC.DM reads and does not change: the text TXT[0 .. TXT_LEN), the configuration and the ROM tables. -/
structure EncIn where
  txt : List Nat
  regs : Regs
  rom : Rom
deriving DecidableEq, Repr

/-- The encoder's state: the working state of 10_state.md rule R60 to rule R63, and the codewords emitted, latest first. -/
structure Enc where
  mode : Mode
  pos : Nat
  skip : Nat
  new : Option Mode
  rev : List Nat
  vb : List Nat
  sz : List Nat
  cost : Costs
  k : Nat
deriving DecidableEq, Repr

/-- CW_LEN. -/
def Enc.len (e : Enc) : Nat := e.rev.length
/-- `emit(b)`. -/
def Enc.emit (e : Enc) (b : Nat) : Enc := { e with rev := b :: e.rev }
/-- `emit` of each codeword of a list in order. -/
def Enc.emitAll (e : Enc) (bs : List Nat) : Enc := { e with rev := bs.reverse ++ e.rev }
/-- What a lookahead leaves in cost and k. -/
def Enc.looked (e : Enc) (v : La) : Enc := { e with cost := v.cost, k := v.k }

/-- `total` (rule R202). -/
def encTotal (i : EncIn) (e : Enc) : Nat := i.txt.length - e.skip
/-- `more` (rule R202). -/
def encMore (i : EncIn) (e : Enc) : Bool := decide (e.pos < encTotal i e)
/-- The characters TXT[pos .. total). -/
def encRest (i : EncIn) (e : Enc) : List Nat := (i.txt.drop e.pos).take (encTotal i e - e.pos)
/-- `lookahead(pos, cur)`. -/
def encLook (i : EncIn) (e : Enc) (cur : Mode) : La := lookahead (i.txt.drop e.pos) cur e.cost e.k

/-- CapacityExceeded at `pos` (rule R270). -/
def capacityErr (e : Enc) : Raise := ⟨.capacityExceeded, e.pos⟩

/-- A codeword has been emitted past the end of CW with tables other than the default: InternalDefect (10_state.md rule R70). With
the default tables rule R70 knows no overflow: such a text fits no symbol (log entry 8). -/
def encOverflow (i : EncIn) (e : Enc) : Bool := decide (Config.cwSize < e.len) && !decide (i.rom = romDefault)

/-- The fault `r` found now, unless CW had overflowed before (the first `raise` in execution order: 60_exceptions.md
rule R549). -/
def encFault (i : EncIn) (e : Enc) (r : Raise) : Raise := if encOverflow i e then defectErr else r

/-- The capacity query (20_memory.md rule R102) for `n` codewords; a broken row it meets is InternalDefect (60_exceptions.md
rule R547), no row at all CapacityExceeded. -/
def capQuery (i : EncIn) (e : Enc) (n : Nat) : Except Raise (Nat × DmRow) :=
  if dmLookupBroken i.rom i.regs n then .error defectErr
  else
    match dmLookup i.rom i.regs n with
    | some p => .ok p
    | none => .error (encFault i e (capacityErr e))

/-- `capFor(n)` (20_memory.md rule R102). -/
def capFor (i : EncIn) (e : Enc) (n : Nat) : Except Raise Nat :=
  match capQuery i e n with
  | .ok p => .ok p.2.data
  | .error r => .error r

/-- `remCw` of the characters left (rule R202). -/
def remCw (xs : List Nat) : Nat :=
  match xs with
  | [] => 0
  | [c] => if isExt c then 2 else 1
  | c :: d :: rest =>
    if isDigit c && isDigit d then 1 + remCw rest
    else (if isExt c then 2 else 1) + remCw (d :: rest)

/-! ### Start (rule R203) -/

/-- The text is long enough and has the macro header `h` and the trailer. -/
def isMacroText (txt h : List Nat) : Bool :=
  decide (9 ≤ txt.length) && decide (txt.take 7 = h) && decide (txt.drop (txt.length - 2) = macroTrailer)

/-- The encoder at the start of ENC.DM; VB, SZ, cost and k are those `e` has. -/
def encStart (i : EncIn) (e : Enc) : Enc :=
  let z : Enc := { e with mode := .ascii, pos := 0, skip := 0, new := none, rev := [] }
  if isMacroText i.txt macroHeader05 then { z with rev := [236], skip := 2, pos := 7 }
  else if isMacroText i.txt macroHeader06 then { z with rev := [237], skip := 2, pos := 7 }
  else z

/-! ### ASCII mode (rule R220) -/

/-- `asciiStep`, on the characters from pos to the end of the text; pos < total, so there is one. -/
def asciiStep (i : EncIn) (e : Enc) : Enc :=
  match i.txt.drop e.pos with
  | [] => e
  | c :: rest =>
    if isDigit c && (rest.head?.map isDigit).getD false then
      { e.emit (130 + 10 * (c - 48) + (rest.headD 0 - 48)) with pos := e.pos + 2 }
    else
      let v := encLook i e .ascii
      let t := e.looked v
      if v.mode ≠ .ascii then { t.emit (latch v.mode) with new := some v.mode }
      else if isExt c then { (t.emit 235).emit (c - 127) with pos := t.pos + 1 }
      else { t.emit (c + 1) with pos := t.pos + 1 }

/-! ### C40 and Text (rule R230 to rule R233) -/

/-- `values(c)` of the mode of the run. -/
def c40TextValues (m : Mode) (c : Nat) : List Nat := if m = .text then textValues c else c40Values c

/-- `avail()` (rule R230). -/
def c40Avail (i : EncIn) (e : Enc) : Except Raise Nat :=
  let cur := e.len + 2 * (e.vb.length / 3)
  match capFor i e cur with
  | .ok cap => .ok (cap - cur)
  | .error r => .error r

/-- `back()` (rule R231). -/
def c40Back (e : Enc) : Enc :=
  { e with vb := e.vb.take (e.vb.length - e.sz.headD 0), sz := e.sz.tail, pos := e.pos - 1 }

/-- The code unit before pos is extended. -/
def lastIsExt (i : EncIn) (e : Enc) : Bool := isExt (i.txt[e.pos - 1]?.getD 0)

/-- The first test at the end of the text (rule R230): a rest of 2 that does not fill the symbol gives a character back. -/
def c40BackTwo (i : EncIn) (e : Enc) : Except Raise Enc :=
  if e.vb.length % 3 = 2 then
    match c40Avail i e with
    | .error r => .error r
    | .ok av => .ok (if av ≠ 2 then c40Back e else e)
  else .ok e

/-- The loop at the end of the text (rule R230). Each round removes one entry of SZ, so `fuel` = |SZ| is enough. -/
def c40BackOne (i : EncIn) (fuel : Nat) (e : Enc) : Except Raise Enc :=
  match fuel with
  | 0 => .ok e
  | fuel + 1 =>
    if e.vb.length % 3 = 1 then
      (if encMore i e || lastIsExt i e then c40BackOne i fuel (c40Back e)
       else
         match c40Avail i e with
         | .error r => .error r
         | .ok av => if av ≠ 1 then c40BackOne i fuel (c40Back e) else .ok e)
    else .ok e

/-- The loop of `c40Run` over the characters left (rule R230). A value past the end of VB is InternalDefect before the write
(10_state.md rule R70); no text of TXT_SIZE characters comes to that. -/
def c40Loop (i : EncIn) (m : Mode) (e : Enc) (chars : List Nat) : Except Raise Enc :=
  match chars with
  | [] => .ok e
  | c :: rest =>
    let vs := c40TextValues m c
    let t : Enc := { e with pos := e.pos + 1, vb := e.vb ++ vs, sz := vs.length :: e.sz }
    if Config.vbSize < t.vb.length then .error defectErr
    else if rest.isEmpty then
      match c40BackTwo i t with
      | .error r => .error r
      | .ok u => c40BackOne i u.sz.length u
    else if t.vb.length % 3 = 0 then
      let v := encLook i t m
      if v.mode ≠ m then .ok (t.looked v) else c40Loop i m (t.looked v) rest
    else c40Loop i m t rest

/-- The codewords of the whole triplets of a list of values (30_encoding.md rule R140). -/
def tripletCodewords (vs : List Nat) : List Nat :=
  match vs with
  | a :: b :: c :: rest => packTriplet a b c ++ tripletCodewords rest
  | _ => []

/-- `writeTriplets`; a leftover of one or two values is dropped. -/
def writeTriplets (e : Enc) : Enc := { e.emitAll (tripletCodewords e.vb) with vb := [] }

/-- `c40End(m)` (rule R232). -/
def c40End (i : EncIn) (e : Enc) : Except Raise Enc :=
  match c40Avail i e with
  | .error r => .error r
  | .ok av =>
    let more := encMore i e
    if e.vb.length % 3 = 2 then
      let t := writeTriplets { e with vb := e.vb ++ [0] }
      .ok { (if more then t.emit 254 else t) with new := some .ascii }
    else if e.vb.length % 3 = 1 then
      .ok { writeTriplets e with pos := e.pos - 1, new := some .ascii }
    else
      let t := writeTriplets e
      .ok { (if 0 < av ∨ more = true then t.emit 254 else t) with new := some .ascii }

/-- `c40Run(m)` (rule R230); VB and SZ start empty. -/
def c40Run (i : EncIn) (m : Mode) (e : Enc) : Except Raise Enc :=
  match c40Loop i m { e with vb := [], sz := [] } (encRest i e) with
  | .error r => .error r
  | .ok t => c40End i t

/-! ### X12 (rule R240, rule R241) -/

/-- IllegalCharacter at an index of TXT (60_exceptions.md rule R546). -/
def illegalCharErr (idx : Nat) : Raise := ⟨.illegalCharacter, idx⟩

/-- The loop of `x12Run` over the characters left (rule R240). -/
def x12Loop (i : EncIn) (e : Enc) (chars : List Nat) : Except Raise Enc :=
  match chars with
  | [] => .ok e
  | c :: rest =>
    match x12Value c with
    | none => .error (encFault i e (illegalCharErr e.pos))
    | some x =>
      let t : Enc := { e with pos := e.pos + 1, vb := e.vb ++ [x] }
      if t.vb.length = 3 then
        let u := writeTriplets t
        let v := encLook i u .x12
        if v.mode ≠ .x12 then .ok (u.looked v) else x12Loop i (u.looked v) rest
      else x12Loop i t rest

/-- `x12End` (rule R241). -/
def x12End (i : EncIn) (e : Enc) : Except Raise Enc :=
  match capFor i e e.len with
  | .error r => .error r
  | .ok cap =>
    let av := cap - e.len
    let t : Enc := { e with pos := e.pos - e.vb.length, vb := [] }
    let r := remCw (encRest i t)
    .ok { (if 1 < r ∨ 1 < av ∨ r ≠ av then t.emit 254 else t) with new := some .ascii }

/-- `x12Run` (rule R240); VB starts empty. -/
def x12Run (i : EncIn) (e : Enc) : Except Raise Enc :=
  match x12Loop i { e with vb := [], sz := [] } (encRest i e) with
  | .error r => .error r
  | .ok t => x12End i t

/-! ### EDIFACT (rule R250, rule R251) -/

/-- The loop of `edfRun` over the characters left (rule R250). -/
def edfLoop (i : EncIn) (e : Enc) (chars : List Nat) : Except Raise Enc :=
  match chars with
  | [] => .ok e
  | c :: rest =>
    match edfValue c with
    | none => .error (encFault i e (illegalCharErr e.pos))
    | some x =>
      let t : Enc := { e with pos := e.pos + 1, vb := e.vb ++ [x] }
      if t.vb.length = 4 then
        let u : Enc := { t.emitAll (edfPack t.vb) with vb := [] }
        let v := encLook i u .edifact
        if v.mode ≠ .edifact then .ok (u.looked v) else edfLoop i (u.looked v) rest
      else edfLoop i t rest

/-- The first part of `edfEnd` (rule R251), for a VB that holds the unlatch value alone: whether the end of the symbol stands
for the unlatch. -/
def edfEndsBySymbol (i : EncIn) (e : Enc) : Except Raise Bool :=
  let n := e.len
  match capFor i e n with
  | .error r => .error r
  | .ok cap =>
    let r := remCw (encRest i e)
    if cap - n < r then
      match capFor i e (n + 1) with
      | .error x => .error x
      | .ok cap1 => .ok (decide (r ≤ cap1 - n ∧ cap1 - n ≤ 2))
    else .ok (decide (cap - n ≤ 2))

/-- The second part of `edfEnd` (rule R251); VB holds the character values and the unlatch value. -/
def edfEndGroup (i : EncIn) (e : Enc) : Except Raise Enc :=
  let rest := e.vb.length - 1
  let t : Enc := { e with new := some .ascii }
  if rest ≤ 2 then
    match capFor i e (e.len + rest) with
    | .error r => .error r
    | .ok cap =>
      if encMore i e = false ∧ cap - e.len < 3 then .ok { t with pos := e.pos - rest }
      else .ok (t.emitAll (edfPack e.vb))
  else .ok (t.emitAll (edfPack e.vb))

/-- `edfEnd` (rule R251). -/
def edfEnd (i : EncIn) (e : Enc) : Except Raise Enc :=
  if e.vb.length = 1 then
    match edfEndsBySymbol i e with
    | .error r => .error r
    | .ok true => .ok { e with new := some .ascii }
    | .ok false => edfEndGroup i e
  else edfEndGroup i e

/-- `edfRun` (rule R250); VB starts empty, and ends with the unlatch value 31. -/
def edfRun (i : EncIn) (e : Enc) : Except Raise Enc :=
  match edfLoop i { e with vb := [], sz := [] } (encRest i e) with
  | .error r => .error r
  | .ok t => edfEnd i { t with vb := t.vb ++ [31] }

/-! ### Base256 (rule R260 to rule R262) -/

/-- The loop of `b256Run` over the characters left (rule R260). -/
def b256Loop (i : EncIn) (e : Enc) (chars : List Nat) : Enc :=
  match chars with
  | [] => e
  | c :: rest =>
    let t : Enc := { e with pos := e.pos + 1, vb := e.vb ++ [c] }
    let v := encLook i t .base256
    if v.mode ≠ .base256 then { t.looked v with new := some .ascii } else b256Loop i (t.looked v) rest

/-- The values of VB emitted, each randomised for its position (rule R262). -/
def emitRandom (e : Enc) (vs : List Nat) : Enc :=
  match vs with
  | [] => e
  | b :: rest => emitRandom (e.emit (rand255 b (e.len + 1))) rest

/-- The length field and payload of a run that needs a length field (rule R262); none is CapacityExceeded. -/
def b256Field (payload : List Nat) : Option (List Nat) :=
  let dc := payload.length
  if dc ≤ 249 then some (dc :: payload)
  else if dc ≤ 1555 then some ((dc / 250 + 249) :: (dc % 250) :: payload)
  else none

/-- `b256End` (rule R262); VB is the field's place and the payload. -/
def b256End (i : EncIn) (e : Enc) : Except Raise Enc :=
  let dc := e.vb.length - 1
  let cur := e.len + dc + 1
  match capFor i e cur with
  | .error r => .error r
  | .ok cap =>
    if encMore i e = true ∨ 0 < cap - cur then
      match b256Field e.vb.tail with
      | none => .error (capacityErr e)
      | some vs => .ok (emitRandom { e with vb := vs } vs)
    else .ok (emitRandom e e.vb)

/-- `b256Run` (rule R260); VB starts as [0]. As in `c40Loop`, more values than VB holds are InternalDefect. -/
def b256Run (i : EncIn) (e : Enc) : Except Raise Enc :=
  let t := b256Loop i { e with vb := [0], sz := [] } (encRest i e)
  if Config.vbSize ≤ t.vb.length then .error defectErr else b256End i t

/-! ### The main loop and the end -/

/-- `if new != none: mode <- new; new <- none` (rule R204). -/
def takeNew (e : Enc) : Enc :=
  match e.new with
  | none => e
  | some m => { e with mode := m, new := none }

/-- The sub-encoder of the current mode (rule R204). -/
def encDispatch (i : EncIn) (e : Enc) : Except Raise Enc :=
  match e.mode with
  | .ascii => .ok (asciiStep i e)
  | .c40 => c40Run i .c40 e
  | .text => c40Run i .text e
  | .x12 => x12Run i e
  | .edifact => edfRun i e
  | .base256 => b256Run i e

/-- One round of the main loop (rule R204). -/
def encRound (i : EncIn) (e : Enc) : Except Raise Enc :=
  match encDispatch i e with
  | .error r => .error r
  | .ok t => if encOverflow i t then .error defectErr else .ok (takeNew t)

/-- At most `fuel` rounds of the main loop; the flag says that the text is done. -/
def encLoop (i : EncIn) (fuel : Nat) (e : Enc) : Except Raise (Enc × Bool) :=
  match fuel with
  | 0 => .ok (e, !encMore i e)
  | fuel + 1 =>
    if encMore i e then
      match encRound i e with
      | .error r => .error r
      | .ok t => encLoop i fuel t
    else .ok (e, true)

/-- `n` randomised pads (rule R205). -/
def emitPads (n : Nat) (e : Enc) : Enc :=
  match n with
  | 0 => e
  | n + 1 => emitPads n (e.emit (rand253 (e.len + 1)))

/-- The row fits SYM, and its codewords fit CW (10_state.md rule R42, rule R70): so it is with the default table. -/
def symFits (idx : Nat) (row : DmRow) : Bool := decide (idx < 32) && decide (row.data ≤ Config.cwSize)

/-- `terminate` (rule R205), with the row SYM takes. -/
def encTerminate (i : EncIn) (e : Enc) : Except Raise (Enc × Nat) :=
  match capQuery i e e.len with
  | .error r => .error r
  | .ok (idx, row) =>
    if symFits idx row = false then .error defectErr
    else
      let t := if e.len < row.data ∧ e.mode ≠ .ascii ∧ e.mode ≠ .base256 ∧ e.mode ≠ .edifact then e.emit 254 else e
      let u := if t.len < row.data then t.emit 129 else t
      .ok ({ emitPads (row.data - u.len) u with new := none }, idx)

/-! ### The command -/

/-- What ENC.DM reads. -/
def State.encIn (s : State) : EncIn := ⟨s.text, s.regs, s.rom⟩

/-- The encoder's state as the registers, CW and the working state hold it (rule R53, rule R60 to rule R63). -/
def State.enc (s : State) : Enc where
  mode := modeOfNum s.regs.tceMode.toNat
  pos := s.regs.tcePos.toNat
  skip := s.regs.tceSkip.toNat
  new := if s.regs.tceNew.valid then some (modeOfNum s.regs.tceNew.mode.toNat) else none
  rev := s.codewords.reverse
  vb := s.work.vb.map BitVec.toNat
  sz := s.work.sz
  cost := s.work.cost.nums
  k := s.work.k.toNat

/-- TCE_NEW of a pending mode (10_state.md rule R53). -/
def newReg (m : Option Mode) : TceNewReg :=
  match m with
  | none => ⟨0, false⟩
  | some m => ⟨BitVec.ofNat 3 m.num, true⟩

/-- The encoder's state written back. A codeword past the end of CW is counted and not written: with other tables than the
default the round has ended in InternalDefect (`encOverflow`), and with the default tables such a stream is longer than every
symbol and ends in CapacityExceeded (log entry 8). -/
def State.setEnc (s : State) (e : Enc) : State :=
  { s with
    mem.cw := Buf.ofList s.mem.cw.gen ((e.rev.reverse.take Config.cwSize).map (BitVec.ofNat 8))
    regs.cwLen := BitVec.ofNat 16 e.len
    regs.tceMode := BitVec.ofNat 3 e.mode.num
    regs.tcePos := BitVec.ofNat 16 e.pos
    regs.tceNew := newReg e.new
    regs.tceSkip := BitVec.ofNat 2 e.skip
    work.vb := e.vb.map (BitVec.ofNat 8)
    work.sz := e.sz
    work.cost := e.cost.regs
    work.k := BitVec.ofNat 16 e.k }

/-- The legality of ENC.DM (rule R201). -/
def encDmLegal (r : Regs) : Bool := decide (r.cfgShape ≠ 3) && decide (r.txtLen.toNat ≤ Config.txtSize)

/-- ENC.DM begun (rule R203): the sequencer stands before the first round. CW takes a draw of its own for the elements the
command does not write (47_commands.md rule R520). -/
def State.encBegin (s : State) : State :=
  { (s.setEnc (encStart s.encIn s.enc)) with
    mem.cw := Buf.ofList s.draws ((encStart s.encIn s.enc).rev.map (BitVec.ofNat 8))
    phase := .encDm
    draws := s.draws + 1 }

/-- ENC.DM's registers at its end (rule R205). -/
def State.setEncResult (s : State) (e : Enc) (idx : Nat) : State :=
  { s.setEnc e with regs.sym := BitVec.ofNat 5 idx, regs.resMode := BitVec.ofNat 4 e.mode.num }

/-- ENC.DM carried on from a point of its main loop for at most `fuel` rounds: to its end, to a fault, or to a point where
the text is not done and the command is still busy (70_reset_and_hazards.md rule R598; log entry 7). -/
def State.encAdvance (s : State) (fuel : Nat) : State :=
  match encLoop s.encIn fuel s.enc with
  | .error r => s.raise r.exn .tce r.info (writeSet .encDm)
  | .ok (e, false) => { s.setEnc e with phase := .encDm }
  | .ok (e, true) =>
    match encTerminate s.encIn e with
    | .error r => s.raise r.exn .tce r.info (writeSet .encDm)
    | .ok (t, idx) => (s.setEncResult t idx).complete

/-- ENC.DM (rule R200), run for the fuel of one step. -/
def execEncDm (s : State) : Host.Outcome State Fault Refusal :=
  .next (
    if encDmLegal s.regs then s.encBegin.encAdvance (Config.fuelEncDm s.regs.txtLen.toNat) else s.illegal)

end Sys2Proof.Machine
end

