-- ==== Sys2Proof/Machine/TceQr.lean ====
section
/-! DEFINITION. U1 for QR: the command ENC.QR (41_tce_qr.md rule R280 to rule R292). -/

namespace Sys2Proof.Machine

/-- The four modes of the encoder by their indicators (rule R282). -/
inductive QrMode where
  | num | alnum | byte | kanji
deriving DecidableEq, Repr

/-- The mode indicator (30_encoding.md rule R150). -/
def QrMode.num4 (m : QrMode) : Nat :=
  match m with
  | .num => 1
  | .alnum => 2
  | .byte => 4
  | .kanji => 8

/-- A lead byte of the Kanji ranges (rule R282). -/
def kanjiLead (b : Nat) : Bool :=
  (decide (0x81 ≤ b) && decide (b ≤ 0x9F)) || (decide (0xE0 ≤ b) && decide (b ≤ 0xEB))

/-- `onlyKanjiLeads()` (rule R282): an even length, and every pair's first byte is a lead byte. -/
def onlyKanjiLeads (txt : List Nat) : Bool :=
  match txt with
  | [] => true
  | [_] => false
  | hi :: _ :: rest => kanjiLead hi && onlyKanjiLeads rest

/-- The scan of `classify` (rule R282). -/
def classifyScan (hasNum hasAln : Bool) (txt : List Nat) : QrMode :=
  match txt with
  | [] => if hasAln then .alnum else if hasNum then .num else .byte
  | c :: rest =>
    if isDigit c then classifyScan true hasAln rest
    else if (alnum c).isSome then classifyScan hasNum true rest
    else .byte

/-- `classify()` (rule R282). -/
def qrClassify (sjis : Bool) (txt : List Nat) : QrMode :=
  if sjis && onlyKanjiLeads txt then .kanji else classifyScan false false txt

/-- The header bits H (rule R283, rule R288). -/
def qrHeader (m : QrMode) (eci : CfgEciReg) : List Bool :=
  (if m = .byte ∧ eci.en = true then bitsMsb 7 4 ++ bitsMsb eci.value.toNat 8 else []) ++ bitsMsb m.num4 4

/-- Numeric data bits (30_encoding.md rule R152). -/
def numBits (txt : List Nat) : List Bool :=
  match txt with
  | [] => []
  | [a] => bitsMsb (a - 48) 4
  | [a, b] => bitsMsb (10 * (a - 48) + (b - 48)) 7
  | a :: b :: c :: rest => bitsMsb (100 * (a - 48) + 10 * (b - 48) + (c - 48)) 10 ++ numBits rest

/-- The value of a character the classification has found in ALNUM. -/
def alnumVal (c : Nat) : Nat := (alnum c).getD 0

/-- Alphanumeric data bits (30_encoding.md rule R153). -/
def alnumBits (txt : List Nat) : List Bool :=
  match txt with
  | [] => []
  | [a] => bitsMsb (alnumVal a) 6
  | a :: b :: rest => bitsMsb (45 * alnumVal a + alnumVal b) 11 ++ alnumBits rest

/-- Kanji data bits (30_encoding.md rule R155) of the pairs from index `idx` of TXT on; IllegalCharacter names the index of
the offending pair's first byte (60_exceptions.md rule R546). -/
def kanjiBits (idx : Nat) (txt : List Nat) : Except Raise (List Bool) :=
  match txt with
  | hi :: lo :: rest =>
    match kanjiGroup (256 * hi + lo) with
    | none => .error ⟨.illegalCharacter, idx⟩
    | some g =>
      match kanjiBits (idx + 2) rest with
      | .error r => .error r
      | .ok bs => .ok (bitsMsb g 13 ++ bs)
  | _ => .ok []

/-- The data bits D (rule R284). -/
def qrDataBits (m : QrMode) (txt : List Nat) : Except Raise (List Bool) :=
  match m with
  | .num => .ok (numBits txt)
  | .alnum => .ok (alnumBits txt)
  | .byte => .ok (txt.flatMap (fun c => bitsMsb c 8))
  | .kanji => kanjiBits 0 txt

/-- The character count (rule R284). -/
def qrCount (m : QrMode) (txt : List Nat) : Nat := if m = .kanji then txt.length / 2 else txt.length

/-- The pad codewords (rule R287). -/
def qrPads (n : Nat) (even : Bool) : List Nat :=
  match n with
  | 0 => []
  | n + 1 => (if even then 0xEC else 0x11) :: qrPads n (!even)

/-- The bits with the terminator, the fill to a codeword boundary, and the pads, as codewords (rule R287); `cap` is the
capacity in codewords. -/
def qrFill (cap : Nat) (bits : List Bool) : List Nat :=
  let b1 := bits ++ List.replicate (min 4 (8 * cap - bits.length)) false
  let b2 := b1 ++ List.replicate ((8 - b1.length % 8) % 8) false
  bytesOfBits b2 ++ qrPads (cap - b2.length / 8) true

/-- CapacityExceeded of ENC.QR: INFO 0 (60_exceptions.md rule R544). -/
def qrCapacityErr : Raise := ⟨.capacityExceeded, 0⟩

/-- The version query of ENC.QR (20_memory.md rule R109); a broken row it meets is InternalDefect (60_exceptions.md rule R547). -/
def qrQuery (rom : Rom) (nbits e : Nat) : Except Raise Nat :=
  if qrPickBroken rom nbits e then .error defectErr
  else
    match qrPick rom nbits e with
    | none => .error qrCapacityErr
    | some v => .ok v

/-- The version and codewords of header `h`, count `cnt` and data `d` in mode `m` at level `e` (rule R285 to rule R287). -/
def qrAssemble (rom : Rom) (m : QrMode) (e cnt : Nat) (h d : List Bool) : Except Raise (Nat × List Nat) :=
  let need (v : Nat) : Nat := h.length + ccBits m.num4 v + d.length
  match qrQuery rom (need 1) e with
  | .error r => .error r
  | .ok prov =>
    match qrQuery rom (need prov) e with
    | .error r => .error r
    | .ok v =>
      if 2 ^ ccBits m.num4 v ≤ cnt then .error qrCapacityErr
      else
        let bits := h ++ bitsMsb cnt (ccBits m.num4 v) ++ d
        if 8 * qrData rom v e < bits.length then .error qrCapacityErr
        else .ok (v, qrFill (qrData rom v e) bits)

/-- ENC.QR as a function of the tables, the configuration and the text: the mode, the version, the codewords. The data bits are formed
before the version is chosen, so IllegalCharacter comes before CapacityExceeded (log entry 9). -/
def qrEncode (rom : Rom) (cfg : CfgQrReg) (eci : CfgEciReg) (txt : List Nat) : Except Raise (QrMode × Nat × List Nat) :=
  let m := qrClassify cfg.sjis txt
  match qrDataBits m txt with
  | .error r => .error r
  | .ok d =>
    match qrAssemble rom m cfg.ecl.toNat (qrCount m txt) (qrHeader m eci) d with
    | .error r => .error r
    | .ok (v, cws) => .ok (m, v, cws)

/-- The body of ENC.QR. More data codewords than CW has elements are InternalDefect before the write (10_state.md rule R70); no
version of the default table has so many. -/
def encQrBody (s : State) : Except Raise State :=
  match qrEncode s.rom s.regs.cfgQr s.regs.cfgEci s.text with
  | .error r => .error r
  | .ok (m, v, cws) =>
    if Config.cwSize < cws.length then .error defectErr
    else .ok { s.setCw cws with regs.ver := BitVec.ofNat 6 v, regs.resMode := BitVec.ofNat 4 m.num4 }

/-- The legality of ENC.QR (rule R281). -/
def encQrLegal (r : Regs) : Bool := decide (r.txtLen.toNat ≤ Config.txtSize)

/-- ENC.QR (rule R280). -/
def execEncQr (s : State) : Host.Outcome State Fault Refusal :=
  .next (if encQrLegal s.regs then s.finish .tce (writeSet .encQr) (encQrBody s) else s.illegal)

end Sys2Proof.Machine
end

