-- ==== Sys2Proof/Machine/Dispatch.lean ====
section
/-! DEFINITION. The dispatch: one arm per constructor of Instr, each one call of the instruction's meaning. -/

namespace Sys2Proof.Machine

/-- The meaning of one instruction: a command from its decode to its end, or one element of the stream U4 decodes. -/
def exec (i : Instr) (s : State) : Host.Outcome State Fault Refusal :=
  match i with
  | .nop => Sys2Proof.Machine.execNop s
  | .encDm => Sys2Proof.Machine.execEncDm s
  | .encQr => Sys2Proof.Machine.execEncQr s
  | .mapDm => Sys2Proof.Machine.execMapDm s
  | .mapQr => Sys2Proof.Machine.execMapQr s
  | .parDm => Sys2Proof.Machine.execParDm s
  | .parQr mirror retry => Sys2Proof.Machine.execParQr mirror retry s
  | .decDm => Sys2Proof.Machine.execDecDm s
  | .decQr => Sys2Proof.Machine.execDecQr s
  | .fmtEnc => Sys2Proof.Machine.execFmtEnc s
  | .fmtDec => Sys2Proof.Machine.execFmtDec s
  | .verEnc => Sys2Proof.Machine.execVerEnc s
  | .verDec => Sys2Proof.Machine.execVerDec s
  | .pen => Sys2Proof.Machine.execPen s
  | .dmIll0 => Sys2Proof.Machine.execDmIll0 s
  | .dmAscii b => Sys2Proof.Machine.execDmAscii b s
  | .dmPad => Sys2Proof.Machine.execDmPad s
  | .dmDigits b => Sys2Proof.Machine.execDmDigits b s
  | .dmLatchC40 => Sys2Proof.Machine.execDmLatchC40 s
  | .dmLatchB256 => Sys2Proof.Machine.execDmLatchB256 s
  | .dmFnc1 => Sys2Proof.Machine.execDmFnc1 s
  | .dmSa => Sys2Proof.Machine.execDmSa s
  | .dmRp => Sys2Proof.Machine.execDmRp s
  | .dmUpshift => Sys2Proof.Machine.execDmUpshift s
  | .dmMacro05 => Sys2Proof.Machine.execDmMacro05 s
  | .dmMacro06 => Sys2Proof.Machine.execDmMacro06 s
  | .dmLatchX12 => Sys2Proof.Machine.execDmLatchX12 s
  | .dmLatchText => Sys2Proof.Machine.execDmLatchText s
  | .dmLatchEdf => Sys2Proof.Machine.execDmLatchEdf s
  | .dmEci => Sys2Proof.Machine.execDmEci s
  | .dmIll b => Sys2Proof.Machine.execDmIll b s
  | .dmUnlatch => Sys2Proof.Machine.execDmUnlatch s
  | .qrTerm => Sys2Proof.Machine.execQrTerm s
  | .qrNum => Sys2Proof.Machine.execQrNum s
  | .qrAlnum => Sys2Proof.Machine.execQrAlnum s
  | .qrSa => Sys2Proof.Machine.execQrSa s
  | .qrByte => Sys2Proof.Machine.execQrByte s
  | .qrFnc1First => Sys2Proof.Machine.execQrFnc1First s
  | .qrEci => Sys2Proof.Machine.execQrEci s
  | .qrKanji => Sys2Proof.Machine.execQrKanji s
  | .qrFnc1Second => Sys2Proof.Machine.execQrFnc1Second s
  | .qrHanzi => Sys2Proof.Machine.execQrHanzi s
  | .qrIll v => Sys2Proof.Machine.execQrIll v s

end Sys2Proof.Machine
end

