-- ==== Sys2Proof/Machine/HostPort.lean ====
section
/-! DEFINITION. What the world outside the instance can do to it: the four access primitives (20_memory.md rule R80,
rule R81; 47_commands.md rule R512 to rule R515) and the reset input (70_reset_and_hazards.md rule R580, rule R583). -/

namespace Sys2Proof.Machine

/-- The write set of the command CMD holds (47_commands.md rule R520): the running command's, while busy. -/
def State.runningWrites (s : State) : List Loc :=
  match decodeCommand s.regs.cmd with
  | .ok i => writeSet i
  | .error _ => []

/-- The location of a list that is the register with index `idx`. -/
def locOfReg (idx : Nat) (ls : List Loc) : Option Loc :=
  match ls with
  | [] => none
  | l :: rest => if l.regIndex = some idx then some l else locOfReg idx rest

/-- ERR as `any value`: the free values of draw `d`. -/
def freeErr (d : Nat) : ErrReg := ⟨Config.freeValue 8 d 0, Config.freeValue 4 d 1, Config.freeValue 16 d 2⟩

/-- A read gave `v`; `n` free draws were made for it. -/
def State.reading (s : State) (v : Word) (n : Nat) : State :=
  { s with readings := v :: s.readings, draws := s.draws + n }

/-- `RegRead` (rule R512, rule R513). Above 0x1F: any value (rule R81). While busy: any value for a register in the write set of
the running command, CMD and ERR among them, which are in every write set (rule R520; log entry 5 on CMD and 10_state.md rule R33),
of its fields for every register but CMD, of all 32 bits for CMD; STATUS and ID read true (93_implementation_defined.md I5); the
stored value for every other register. -/
def State.regRead (s : State) (idx : Nat) : State :=
  match s.regValue idx with
  | none => s.reading (s.free 32) 1
  | some v =>
    if s.busy then
      (if idx = 0x00 then s.reading (s.free 32) 1
       else if idx = 0x02 then s.reading (freeErr s.draws).word 1
       else
         match locOfReg idx s.runningWrites with
         | some l => s.reading (((s.havocLoc l).regValue idx).getD 0) 1
         | none => s.reading v 0)
    else s.reading v 0

/-- WRBUSY set (rule R514). -/
def State.setWrbusy (s : State) : State := { s with regs.status.wrbusy := true }

/-- `RegWrite` (rule R512, rule R514). While busy: dropped, WRBUSY set. While idle: CMD issues a command (rule R511), an RW
register takes its fields, the rest is dropped. An index above 0x1F is no register: the write is dropped (rule R81). -/
def State.regWrite (s : State) (idx : Nat) (v : Word) : State :=
  if 0x1F < idx then s
  else if s.busy then s.setWrbusy
  else if idx = 0x00 then s.issue v
  else s.regStore idx v

/-- `BufRead` (rule R512, rule R515): any value of the element's width while busy, and beyond the space (rule R81). -/
def State.bufRead (s : State) (sp : Space) (addr : Nat) : State :=
  if s.busy = true ∨ sp.size ≤ addr then s.reading ((s.free sp.width).setWidth 32) 1
  else s.reading (s.mem.read sp addr) 0

/-- The host may write the space (10_state.md rule R68, rule R512): every one but MM and RDM. -/
def Space.hostWritable (sp : Space) : Bool :=
  match sp with
  | .mm | .rdm => false
  | .txt | .cw | .grid | .out | .seg | .fnc => true

/-- `BufWrite` (rule R512, rule R514): beyond the space dropped (rule R81); while busy dropped, WRBUSY set; to MM or RDM
dropped. -/
def State.bufWrite (s : State) (sp : Space) (addr : Nat) (v : BitVec sp.width) : State :=
  if sp.size ≤ addr then s
  else if s.busy then s.setWrbusy
  else if sp.hostWritable then { s with mem := s.mem.write sp addr v }
  else s

/-- Reset (rule R580, rule R583): the reset state, with every buffer element unspecified anew. What the host still has to do
and what it has read are the host's; the ROM tables are what they are (rule R584). -/
def State.resetInput (s : State) : State :=
  { State.reset with
    rom := s.rom
    mem := Memory.unwritten s.draws
    host := s.host
    readings := s.readings
    draws := s.draws + 8 }

/-- One action of the host. -/
def hostAct (s : State) (a : HostAct) : State :=
  match a with
  | .regRead idx => s.regRead idx
  | .regWrite idx v => s.regWrite idx v
  | .bufRead sp addr => s.bufRead sp addr
  | .bufWrite sp addr v => s.bufWrite sp addr v
  | .reset => s.resetInput

end Sys2Proof.Machine
end

