-- ==== Sys2Proof/Machine/Sequencer.lean ====
section
/-! DEFINITION. The sequencer (47_commands.md rule R510, rule R518): what it does in one step when nothing of the host's
comes in between (`run`), in one round when something does (`round`), and with an action of the host pending (`hostStep`). -/

namespace Sys2Proof.Machine

/-- Fetch and run the next codeword of a Data Matrix stream in ASCII mode (44_bsp_datamatrix.md rule R393). -/
def runCodeword (s : State) : Host.Outcome State Fault Refusal :=
  match s.readBits 8 with
  | .error r => .next (s.streamEnd writesDecDm (.error r))
  | .ok (b, t) => exec (decodeCodeword (BitVec.ofNat 8 b)) t

/-- Fetch and run the next mode indicator of a QR stream with its segment (45_bsp_qr.md rule R432). -/
def runIndicator (s : State) : Host.Outcome State Fault Refusal :=
  exec (decodeIndicator (BitVec.ofNat 4 s.nextIndicator.1)) s.nextIndicator.2

/-- The sequencer's step: a command word just issued is decoded and its command runs to its end, or ends at once with
IllegalCommand (rule R518); a command stopped between two rounds goes on; idle, nothing happens (70_reset_and_hazards.md
rule R600). -/
def run (s : State) : Host.Outcome State Fault Refusal :=
  match s.phase with
  | .idle => .next s
  | .issued =>
    match decodeCommand s.regs.cmd with
    | .error _ => .next s.illegal
    | .ok i => exec i s
  | .encDm => .next (s.encAdvance (Config.fuelEncDm s.regs.txtLen.toNat))
  | .dmStream .ascii => runCodeword s
  | .dmStream seg => .next (s.streamEnd writesDecDm (dmSegmentThen seg s))
  | .qrStream => runIndicator s

/-- The first round of a command: the three with a main loop of rounds stop before it; every other runs to its end. -/
def firstRound (i : Instr) (s : State) : Host.Outcome State Fault Refusal :=
  if i = .encDm ∧ encDmLegal s.regs = true then .next s.encBegin
  else if i = .decDm ∧ decDmLegal s.regs = true then .next s.dmBegin
  else if i = .decQr ∧ decQrLegal s.regs = true then .next s.qrBegin
  else exec i s

/-- One round of the running command: one pass of the main loop of ENC.DM (40_tce_datamatrix.md rule R204), one element of the
stream of DEC.DM or DEC.QR; the other commands have no rounds. -/
def round (s : State) : Host.Outcome State Fault Refusal :=
  match s.phase with
  | .idle => .next s
  | .issued =>
    match decodeCommand s.regs.cmd with
    | .error _ => .next s.illegal
    | .ok i => firstRound i s
  | .encDm => .next (s.encAdvance 1)
  | .dmStream .ascii => runCodeword s
  | .dmStream seg => .next (s.streamEnd writesDecDm (dmSegmentThen seg s))
  | .qrStream => runIndicator s

/-- A step with the host's action `e` pending and `rest` behind it. It lands at once while the instance is idle. While it is
busy, an action that waits for the end lets the command run to it, and one that lands after `n` more rounds lets one round
pass (log entry 4). -/
def hostStep (e : HostEvent) (rest : List HostEvent) (s : State) : Host.Outcome State Fault Refusal :=
  if s.busy then
    match e.after with
    | none => run s
    | some 0 => .next (hostAct { s with host := rest } e.act)
    | some (n + 1) => round { s with host := ⟨e.act, some n⟩ :: rest }
  else .next (hostAct { s with host := rest } e.act)

/-! ### Where the next instruction is fetched -/

/-- The registers of a running command with the word `w` in CMD. -/
def Regs.running (r : Regs) (w : Word) : Regs :=
  { r with cmd := w, err := ⟨0, 0, 0⟩, status := { r.status with done := false, error := false } }

/-- `s` with an encoded instruction where the next step fetches it (log entry 14): a command word is issued; a codeword is the
whole stream of a running DEC.DM; a mode indicator, with zeros behind it, is the stream of a running DEC.QR. No action of the
host comes before it. -/
def State.placeEncoded (s : State) (e : Encoded) : State :=
  match e with
  | .cmd32 w => { s.issue w with host := [] }
  | .dmcw8 b =>
    { s with
      regs := { s.regs.running 0x40 with cwLen := 1 }
      mem.cw := s.mem.cw.write 0 b
      work.bp := 0
      work.upper := false
      phase := .dmStream .ascii
      host := [] }
  | .qrmi4 v =>
    { s with
      regs := { s.regs.running 0x41 with
        cwLen := 4
        ver := if verLegal s.regs.ver.toNat then s.regs.ver else 1 }
      mem.cw := (((s.mem.cw.write 0 (v ++ (0 : BitVec 4))).write 1 0).write 2 0).write 3 0
      work.bp := 0
      phase := .qrStream
      host := [] }

end Sys2Proof.Machine
end

