-- ==== Sys2Proof/Machine/Step.lean ====
section
/-! DEFINITION. One step of the machine: one action of the host, or the sequencer's work; and how an instruction is placed
where the next step fetches it. -/

namespace Sys2Proof.Machine

/-- One step: with no action of the host pending, the sequencer runs; else the first pending action lands, or the sequencer
works towards the moment it lands at. -/
def step (s : State) : Host.Outcome State Fault Refusal :=
  match s.host with
  | [] => run s
  | e :: rest => hostStep e rest s

/-- `s` with the instruction of `nbits` bits `w`, numbered as the opcode table numbers them, where `step` fetches its next
instruction; `s` itself where no format has that many bits. -/
def State.withFetchWord (s : State) (nbits w : Nat) : State :=
  match tableEncoding nbits w with
  | some e => s.placeEncoded e
  | none => s

end Sys2Proof.Machine
end

