-- ==== Sys2Proof/Safety.lean ====
section
/-! DEFINITION. The words statements about the machine use: how a command ended, what it left unchanged, and the invariant of
a well-formed state. The machine has no other notion of a safe run: no step stops (60_exceptions.md rule R540). -/

namespace Sys2Proof.Machine

/-! ### How a command ended -/

/-- The command completed (47_commands.md rule R517): idle, DONE, no ERROR, ERR 0. -/
def State.Completed (t : State) : Prop :=
  t.phase = .idle ∧ t.regs.status.done = true ∧ t.regs.status.error = false ∧ t.regs.err = ⟨0, 0, 0⟩

/-- The command ended by fault `x` of unit `u` with INFO `info` (60_exceptions.md rule R548): idle, DONE, ERROR, ERR. -/
def State.Faulted (t : State) (x : Exn) (u : UnitId) (info : Nat) : Prop :=
  t.phase = .idle ∧ t.regs.status.done = true ∧ t.regs.status.error = true
    ∧ t.regs.err = ⟨x.code, u.num, BitVec.ofNat 16 info⟩

/-- The state of an IllegalCommand (rule R545): DONE, ERROR and ERR = 0x00000005; nothing else has changed. -/
def State.refusedCommand (s : State) : State :=
  { s with
    regs.err := ⟨5, 0, 0⟩
    regs.status.done := true
    regs.status.error := true
    phase := .idle }

/-! ### The tables of the command word and of the registers, as the spec prints them -/

/-- The match and mask columns of the opcode map (30_encoding.md rule R122). -/
def opcodeRows : List (Word × Word) :=
  [(0x00, 0xFFFFFFFF), (0x10, 0xFFFFFFFF), (0x11, 0xFFFFFFFF), (0x20, 0xFFFFFFFF), (0x21, 0xFFFFFFFF),
   (0x30, 0xFFFFFFFF), (0x31, 0xFFFFFCFF)] ++
  [(0x40, 0xFFFFFFFF), (0x41, 0xFFFFFFFF), (0x50, 0xFFFFFFFF), (0x51, 0xFFFFFFFF), (0x52, 0xFFFFFFFF),
   (0x53, 0xFFFFFFFF), (0x54, 0xFFFFFFFF)]

/-- The word matches a row of the opcode map. -/
def matchesRow (w : Word) : Prop := ∃ r ∈ opcodeRows, w &&& r.2 = r.1

/-- The field bits of every RW register but CMD, by index (10_state.md rule R31). -/
def rwFields : List (Nat × Word) :=
  [(0x03, 0xFFFFFFFF), (0x04, 0xFFFFFFFF), (0x06, 0x3), (0x07, 0xFFFF), (0x08, 0xFFFF), (0x09, 0x1F3)] ++
  [(0x0A, 0x8000007F), (0x0B, 0xFFFF), (0x0C, 0xFFFF), (0x0D, 0x1F), (0x0E, 0x3F), (0x0F, 0xFF), (0x10, 0xFF)]

/-- The indexes of the RO registers (10_state.md rule R31). -/
def roIndexes : List Nat :=
  [0x01, 0x02, 0x05, 0x11, 0x12, 0x13, 0x14, 0x15, 0x16, 0x17, 0x18, 0x19, 0x1A, 0x1B, 0x1C, 0x1D, 0x1E, 0x1F]

/-! ### What a stream element of DEC.DM leaves -/

/-- Consecutive elements written from address `a` on. -/
def Buf.writeAll {w : Nat} (b : Buf w) (a : Nat) (vs : List (BitVec w)) : Buf w :=
  match vs with
  | [] => b
  | v :: rest => (b.write a v).writeAll (a + 1) rest

/-- `s` with code units appended to OUT (44_bsp_datamatrix.md rule R392). -/
def State.appended (s : State) (cs : List Byte) : State :=
  { s with
    mem.out := s.mem.out.writeAll s.regs.outLen.toNat cs
    regs.outLen := s.regs.outLen + BitVec.ofNat 16 cs.length }

/-- OUT has room for `n` more code units, and for the macro trailers where the stream ends here. -/
def State.hasRoom (s : State) (n : Nat) : Prop :=
  s.regs.outLen.toNat + n + (if s.avail = 0 then s.work.trl.length else 0) ≤ Config.outSize

/-- DEC.DM ended behind `s` (rule R392, rule R418): the macro trailers appended, RES_MOD from the ECI flag and the recorded
FNC1 positions, completion. -/
def State.dmEnded (s : State) : State :=
  State.complete { s.appended s.work.trl with
    regs.resMod := BitVec.ofNat 3 (dmModifier s.work.eci s.fncList) }

/-- DEC.DM behind a codeword that leaves it in ASCII mode (rule R392, rule R393): it ends where no bits are left. -/
def State.dmAfter (s : State) : State := if s.avail = 0 then s.dmEnded else { s with phase := .dmStream .ascii }

/-- One item of a C40 or Text segment: a character, or FNC1 (`none`). -/
abbrev SegItem : Type := Option Byte

/-- The values of an item (30_encoding.md rule R133, rule R134; FNC1 is value 27 behind shift 2: rule R135). -/
def itemValues (text : Bool) (x : SegItem) : List Nat :=
  match x with
  | some c => if text then textValues c.toNat else c40Values c.toNat
  | none => [1, 27]

/-- The three values of a pair of codewords whose 16 bits are `f`, 1 or more (44_bsp_datamatrix.md rule R407). -/
def pairValues (f : Nat) : List Nat := [(f - 1) / 1600, (f - 1) / 40 % 40, (f - 1) % 40]

/-- The value `v` has no meaning in a C40 or Text segment behind the shift values `pre` (44_bsp_datamatrix.md rule R406): 40 with no
shift pending, 28, 29 and 31 to 40 behind shift 2, 32 to 40 behind shift 3 of Text. -/
def badValue (text : Bool) (pre : List Nat) (v : Nat) : Prop :=
  (pre = [] ∧ 40 ≤ v) ∨ (pre = [1] ∧ (v = 28 ∨ v = 29 ∨ 31 ≤ v)) ∨ (pre = [2] ∧ text = true ∧ 32 ≤ v)

/-- What an item leaves (44_bsp_datamatrix.md rule R399, rule R406): the character in OUT, or FNC1's position in FNC and the
separator 29 in OUT. -/
def State.withItem (s : State) (x : SegItem) : State :=
  match x with
  | some c => s.appended [c]
  | none =>
    State.appended { s with
      mem.fnc := s.mem.fnc.write s.regs.fncCnt.toNat s.regs.outLen
      regs.fncCnt := s.regs.fncCnt + 1 } [29]

/-- What the items of a segment leave, in order. -/
def State.withItems (s : State) (xs : List SegItem) : State := xs.foldl State.withItem s

/-- Bytes randomised for their positions in the stream, the first at 1-based position `p` (30_encoding.md rule R139). -/
def randomised (p : Nat) (bs : List Nat) : List Nat :=
  match bs with
  | [] => []
  | b :: rest => rand255 b p :: randomised (p + 1) rest

/-- `f` is a Base256 length field for a payload of `n` bytes, with `left` codewords behind the field (30_encoding.md rule R138):
one byte, two bytes, or 0 for the rest of the stream. -/
def isB256Field (f : List Nat) (n left : Nat) : Prop :=
  (f = [n] ∧ 1 ≤ n ∧ n ≤ 249)
    ∨ (∃ d1 d2, f = [d1, d2] ∧ 250 ≤ d1 ∧ d1 ≤ 255 ∧ d2 < 256 ∧ n = 250 * (d1 - 249) + d2)
    ∨ (f = [0] ∧ n = left)

/-! ### A running ENC.DM -/

/-- Between two rounds ENC.DM is in X12 or EDIFACT mode only where the characters of its next group can be encoded in it
(40_tce_datamatrix.md rule R215, rule R272), and no mode is pending (rule R204). -/
def State.encGuarded (s : State) : Prop :=
  s.phase = .encDm → s.enc.new = none
    ∧ (s.enc.mode = .x12 → ∀ c ∈ (s.text.drop s.enc.pos).take 3, natX12 c = true)
    ∧ (s.enc.mode = .edifact → ∀ c ∈ (s.text.drop s.enc.pos).take 4, natEdf c = true)

/-- The padding of `terminate` (40_tce_datamatrix.md rule R205) from codeword `n` up to the capacity `cap`: the pad 129, then
randomised pads. -/
def State.padded (t : State) (n cap : Nat) : Prop :=
  (n < cap → t.cwAt n = 129) ∧ ∀ j, n < j → j < cap → t.cwAt j = rand253 (j + 1)

/-! ### ENC.QR -/

/-- The code unit TXT[k]. -/
def State.unitAt (s : State) (k : Nat) : Nat := (s.mem.txt.read k).toNat

/-- The two-byte code at TXT[k], high byte first (30_encoding.md rule R155). -/
def State.pairAt (s : State) (k : Nat) : Nat := 256 * s.unitAt k + s.unitAt (k + 1)

/-- The code lies in one of the two Kanji ranges (30_encoding.md rule R155). -/
def inKanjiRanges (code : Nat) : Prop := (0x8140 ≤ code ∧ code ≤ 0x9FFC) ∨ (0xE040 ≤ code ∧ code ≤ 0xEBBF)

/-- What follows the `e` bits of header, count and data in a stream of `cap` codewords (41_tce_qr.md rule R287): up to four 0 bits,
0 bits to the codeword boundary `p`, and the pads 0xEC and 0x11 in turn. -/
def State.qrPadded (t : State) (e cap : Nat) : Prop :=
  ∃ p, p = (e + min 4 (8 * cap - e) + 7) / 8 ∧ p ≤ cap ∧ (∀ k, e ≤ k → k < 8 * p → t.streamBit k = false)
    ∧ ∀ j, p ≤ j → j < cap → t.cwAt j = if (j - p) % 2 = 0 then 0xEC else 0x11

/-! ### Host actions pending -/

/-- No action of the host comes before the running command's end: none is pending, or the first one waits for the end. -/
def State.undisturbed (s : State) : Prop := ∀ e rest, s.host = e :: rest → e.after = none

/-- The host's next action is `a`, with `rest` behind it, and it lands in this step: the instance is idle, or the action was to
land now. -/
def State.landsNow (s : State) (a : HostAct) (rest : List HostEvent) : Prop :=
  ∃ e, s.host = e :: rest ∧ e.act = a ∧ (s.phase = .idle ∨ e.after = some 0)

/-! ### The stream of CW -/

/-- The stream bits from position `p` on are `bits`, inside CW[0 .. CW_LEN) (20_memory.md rule R85). -/
def State.streamHolds (s : State) (p : Nat) (bits : List Bool) : Prop :=
  p + bits.length ≤ 8 * s.regs.cwLen.toNat ∧ ∀ (k : Nat) (h : k < bits.length), s.streamBit (p + k) = bits[k]

/-- `s` behind a QR segment of `n` bits that wrote `cs` to OUT (45_bsp_qr.md rule R432). -/
def State.afterSegment (s : State) (n : Nat) (cs : List Byte) : State :=
  { (s.advance n).appended cs with phase := .qrStream }

/-! ### Grids -/

/-- The cell of GRID in row `r`, column `c` (20_memory.md rule R84). -/
def State.cell (s : State) (r c : Nat) : Bool := (s.mem.grid.read (cellAddr r c)).getLsbD 0

/-- A command word's instruction is a command, not an element of a stream (format CMD32, 30_encoding.md rule R122). -/
def isCommand (i : Instr) : Bool :=
  match i with
  | .nop | .encDm | .encQr | .mapDm | .mapQr | .parDm | .parQr _ _ | .decDm | .decQr | .fmtEnc | .fmtDec | .verEnc
  | .verDec | .pen => true
  | .dmIll0 | .dmAscii _ | .dmPad | .dmDigits _ | .dmLatchC40 | .dmLatchB256 | .dmFnc1 | .dmSa | .dmRp | .dmUpshift
  | .dmMacro05 | .dmMacro06 | .dmLatchX12 | .dmLatchText | .dmLatchEdf | .dmEci | .dmIll _ | .dmUnlatch
  | .qrTerm | .qrNum | .qrAlnum | .qrSa | .qrByte | .qrFnc1First | .qrEci | .qrKanji | .qrFnc1Second | .qrHanzi
  | .qrIll _ => false

/-- A register or operand the command reads holds a value outside its legal range (60_exceptions.md rule R545, 10_state.md
rule R41; the conditions of 40_tce_datamatrix.md rule R201, 41_tce_qr.md rule R281, 42_mapper.md rule R310 and rule R330,
44_bsp_datamatrix.md rule R391, 45_bsp_qr.md rule R431, 46_format_metadata_codec.md rule R474, R476, R479, R481 and R491). -/
def operandsIllegal (i : Instr) (rom : Rom) (r : Regs) : Prop :=
  match i with
  | .encDm => r.cfgShape = 3 ∨ 8192 < r.txtLen.toNat
  | .encQr => 8192 < r.txtLen.toNat
  | .mapDm => 4096 < r.cwLen.toNat ∨ ∀ row, rom.dmSym[r.sym.toNat]? = some row → r.cwLen.toNat ≠ row.data + row.ec
  | .mapQr => r.ver.toNat < 1 ∨ 40 < r.ver.toNat ∨ 4096 < r.cwLen.toNat ∨ r.cwLen.toNat ≠ qrTotal rom r.ver.toNat
  | .decDm => 4096 < r.cwLen.toNat
  | .decQr => r.ver.toNat < 1 ∨ 40 < r.ver.toNat ∨ 4096 < r.cwLen.toNat
  | .fmtEnc => 3 < r.a0.toNat ∨ 7 < r.a1.toNat
  | .fmtDec => 2 ^ 15 ≤ r.a0.toNat ∨ 2 ^ 15 ≤ r.a1.toNat
  | .verEnc => r.a0.toNat < 7 ∨ 40 < r.a0.toNat
  | .verDec => 2 ^ 18 ≤ r.a0.toNat
  | .pen => r.gridH.toNat < 1 ∨ r.gridW.toNat < 1
  | .nop | .parDm | .parQr _ _ => False
  | .dmIll0 | .dmAscii _ | .dmPad | .dmDigits _ | .dmLatchC40 | .dmLatchB256 | .dmFnc1 | .dmSa | .dmRp | .dmUpshift
  | .dmMacro05 | .dmMacro06 | .dmLatchX12 | .dmLatchText | .dmLatchEdf | .dmEci | .dmIll _ | .dmUnlatch
  | .qrTerm | .qrNum | .qrAlnum | .qrSa | .qrByte | .qrFnc1First | .qrEci | .qrKanji | .qrFnc1Second | .qrHanzi
  | .qrIll _ => False

/-- The distance of the nearer of two words to row `d` of T_FMT (46_format_metadata_codec.md rule R475). -/
def fmtDistance (w1 w2 d : Nat) : Nat := min (dist w1 ((tFmt[d]?).getD 0)) (dist w2 ((tFmt[d]?).getD 0))

/-- The distance of a word to the version word of version `v` (46_format_metadata_codec.md rule R480). -/
def verDistance (w v : Nat) : Nat := dist w (verWord v)

/-! ### What a command left unchanged -/

/-- A location of a write set holds the same in both states: every element of a buffer, read one by one. -/
def Loc.Same (l : Loc) (s t : State) : Prop :=
  match l with
  | .r0 => t.regs.r0 = s.regs.r0
  | .cwLen => t.regs.cwLen = s.regs.cwLen
  | .sym => t.regs.sym = s.regs.sym
  | .ver => t.regs.ver = s.regs.ver
  | .gridH => t.regs.gridH = s.regs.gridH
  | .gridW => t.regs.gridW = s.regs.gridW
  | .outLen => t.regs.outLen = s.regs.outLen
  | .segCnt => t.regs.segCnt = s.regs.segCnt
  | .fncCnt => t.regs.fncCnt = s.regs.fncCnt
  | .resMod => t.regs.resMod = s.regs.resMod
  | .resSa => t.regs.resSa = s.regs.resSa
  | .resEci => t.regs.resEci = s.regs.resEci
  | .resEcl => t.regs.resEcl = s.regs.resEcl
  | .resMask => t.regs.resMask = s.regs.resMask
  | .resPen => t.regs.resPen = s.regs.resPen
  | .resMode => t.regs.resMode = s.regs.resMode
  | .tceMode => t.regs.tceMode = s.regs.tceMode
  | .tcePos => t.regs.tcePos = s.regs.tcePos
  | .tceNew => t.regs.tceNew = s.regs.tceNew
  | .tceSkip => t.regs.tceSkip = s.regs.tceSkip
  | .buf sp => ∀ a, t.mem.read sp a = s.mem.read sp a
  | .tceWork => t.work.vb = s.work.vb ∧ t.work.sz = s.work.sz ∧ t.work.cost = s.work.cost ∧ t.work.k = s.work.k

/-- A location holds the free values of draw `d`, and nothing else (60_exceptions.md rule R548: any value; the draw is the model's
form, log entry 1). -/
def Loc.Free (l : Loc) (t : State) (d : Nat) : Prop :=
  match l with
  | .r0 => t.regs.r0 = Config.freeValue 32 d 0
  | .cwLen => t.regs.cwLen = Config.freeValue 16 d 0
  | .sym => t.regs.sym = Config.freeValue 5 d 0
  | .ver => t.regs.ver = Config.freeValue 6 d 0
  | .gridH => t.regs.gridH = Config.freeValue 8 d 0
  | .gridW => t.regs.gridW = Config.freeValue 8 d 0
  | .outLen => t.regs.outLen = Config.freeValue 16 d 0
  | .segCnt => t.regs.segCnt = Config.freeValue 16 d 0
  | .fncCnt => t.regs.fncCnt = Config.freeValue 16 d 0
  | .resMod => t.regs.resMod = Config.freeValue 3 d 0
  | .resSa => t.regs.resSa = ⟨Config.freeValue 8 d 0, Config.freeValue 8 d 1, (Config.freeValue 1 d 2).getLsbD 0⟩
  | .resEci => t.regs.resEci = ⟨Config.freeValue 20 d 0, (Config.freeValue 1 d 1).getLsbD 0⟩
  | .resEcl => t.regs.resEcl = Config.freeValue 2 d 0
  | .resMask => t.regs.resMask = Config.freeValue 3 d 0
  | .resPen => t.regs.resPen = Config.freeValue 32 d 0
  | .resMode => t.regs.resMode = Config.freeValue 4 d 0
  | .tceMode => t.regs.tceMode = Config.freeValue 3 d 0
  | .tcePos => t.regs.tcePos = Config.freeValue 16 d 0
  | .tceNew => t.regs.tceNew = ⟨Config.freeValue 3 d 0, (Config.freeValue 1 d 1).getLsbD 0⟩
  | .tceSkip => t.regs.tceSkip = Config.freeValue 2 d 0
  | .buf sp => ∀ a, t.mem.read sp a = (Config.freeValue sp.width d a).setWidth 32
  | .tceWork =>
    t.work.vb = (Config.freeBytes d).take Config.vbSize ∧ t.work.sz = Config.freeSizes d
      ∧ t.work.cost = ⟨Config.freeValue 32 d 0, Config.freeValue 32 d 1, Config.freeValue 32 d 2, Config.freeValue 32 d 3,
          Config.freeValue 32 d 4, Config.freeValue 32 d 5⟩
      ∧ t.work.k = Config.freeValue 16 d 6

/-- The registers no command writes: CMD, the operands, the configuration, TXT_LEN (47_commands.md rule R520), and WRBUSY
(rule R514). -/
def SameInputs (s t : State) : Prop :=
  t.regs.cmd = s.regs.cmd ∧ t.regs.a0 = s.regs.a0 ∧ t.regs.a1 = s.regs.a1 ∧ t.regs.cfgShape = s.regs.cfgShape
    ∧ t.regs.cfgMin = s.regs.cfgMin ∧ t.regs.cfgMax = s.regs.cfgMax ∧ t.regs.cfgQr = s.regs.cfgQr
    ∧ t.regs.cfgEci = s.regs.cfgEci ∧ t.regs.txtLen = s.regs.txtLen
    ∧ t.regs.status.wrbusy = s.regs.status.wrbusy

/-- What surrounds the instance is untouched: what the host still has to do, what it has read, and the ROM tables (20_memory.md
rule R100: never written). -/
def SameHost (s t : State) : Prop := t.host = s.host ∧ t.readings = s.readings ∧ t.rom = s.rom

/-- Nothing but the locations of `ws`, STATUS, ERR and the units' working state differs between `s` and `t` (47_commands.md
rule R520): every register and every buffer element outside `ws` holds what it held, and DEFECT is only ever set. -/
def Frame (ws : List Loc) (s t : State) : Prop :=
  SameInputs s t ∧ SameHost s t ∧ (s.regs.status.defect = true → t.regs.status.defect = true)
    ∧ ∀ l : Loc, l ∉ ws → l.Same s t

/-! ### The invariant -/

/-- Every buffer's unlisted elements come from a draw already made: a new draw is new to every buffer. -/
abbrev Memory.Fresh (m : Memory) (draws : Nat) : Prop :=
  m.txt.gen < draws ∧ m.cw.gen < draws ∧ m.grid.gen < draws ∧ m.mm.gen < draws ∧ m.rdm.gen < draws ∧ m.out.gen < draws
    ∧ m.seg.gen < draws ∧ m.fnc.gen < draws

/-- STATUS and ERR agree (10_state.md rule R34, rule R35; 60_exceptions.md rule R541, rule R545, rule R547): a running command
is not done; ERROR comes with DONE; without ERROR ERR is 0; with ERROR its code is one of 1, 3, 5, 6, 7; an IllegalCommand has
UNIT 0 and INFO 0; an InternalDefect has DEFECT. -/
abbrev StatusAgrees (r : Regs) (busy : Bool) : Prop :=
  (busy = true → r.status.done = false) ∧ (r.status.error = true → r.status.done = true)
    ∧ (r.status.error = false → r.err = ⟨0, 0, 0⟩)
    ∧ (r.status.error = true → r.err.code ∈ ([1, 3, 5, 6, 7] : List (BitVec 8)))
    ∧ (r.err.code = 5 → r.err.unit = 0 ∧ r.err.info = 0)
    ∧ (r.err.code = 7 → r.status.defect = true)

/-- The invariant of every state a step can reach: the memory has its canonical form, draws are fresh, STATUS and ERR
agree, and the tables keep 20_memory.md rule R107, the premise a machine is built with. -/
abbrev State.Inv (s : State) : Prop :=
  s.mem.wf = true ∧ s.mem.Fresh s.draws ∧ StatusAgrees s.regs s.busy ∧ s.rom.ok = true

end Sys2Proof.Machine
end

