-- ==== Sys2Proof/Certificates/Slice0/Obligations.lean ====
section
/-! DEFINITION. The statements for the provers, drawn from the numbered rules of the spec. -/

section Statements

open Sys2Proof Sys2Proof.Machine

/-! ### Encoding -/

/-- Decoding the encoding of a well-formed instruction gives it back, with every operand (30_encoding.md rule R122, rule R132,
rule R150). -/
def Obligations.DecodeEncodeAgree : Prop :=
  ∀ i : Instr, i.wf = true → decode (encode i) = .ok i

/-- Whatever decodes is well formed, and its encoding is what was decoded: no word of any format has two spellings. -/
def Obligations.EncodeDecodeAgree : Prop :=
  ∀ (e : Encoded) (i : Instr), decode e = .ok i → i.wf = true ∧ encode i = e

/-- A few words of the opcode map, the ASCII-mode alphabet and the mode indicators. -/
def Obligations.KnownWordsDecode : Prop :=
  decode (.cmd32 0x00000000) = .ok .nop ∧ decode (.cmd32 0x00000010) = .ok .encDm
    ∧ decode (.cmd32 0x00000331) = .ok (.parQr true true) ∧ decode (.cmd32 0x00000054) = .ok .pen
    ∧ decode (.dmcw8 66) = .ok (.dmAscii 66) ∧ decode (.dmcw8 142) = .ok (.dmDigits 142)
    ∧ decode (.dmcw8 230) = .ok .dmLatchC40 ∧ decode (.dmcw8 255) = .ok (.dmIll 255)
    ∧ decode (.qrmi4 4) = .ok .qrByte ∧ decode (.qrmi4 13) = .ok .qrHanzi ∧ decode (.qrmi4 6) = .ok (.qrIll 6)

/-- A command word decodes to a command exactly when it matches a row of the opcode map (30_encoding.md rule R122). -/
def Obligations.CommandWordsAreTheOpcodeMap : Prop :=
  ∀ w : Word, (∃ i, decodeCommand w = .ok i ∧ isCommand i = true) ↔ matchesRow w

/-- 30_encoding.md rule R123, 60_exceptions.md rule R545: a word that matches no row, or an operand outside its range, ends
the command with ERR = 5, DONE and ERROR; CMD holds the word and nothing else has changed. -/
def Obligations.IllegalCommandChangesNothingElse : Prop :=
  ∀ s : State, s.undisturbed → s.phase = .issued →
    (¬ matchesRow s.regs.cmd ∨ ∃ i, decodeCommand s.regs.cmd = .ok i ∧ operandsIllegal i s.rom s.regs) →
    ∃ t, step s = .next t
      ∧ t = { s with
          regs := { s.regs with
            err := ⟨5, 0, 0⟩
            status := { s.regs.status with done := true, error := true } }
          phase := .idle }
      ∧ t.regs.err.word = 0x00000005 ∧ t.regs.cmd = s.regs.cmd
      ∧ t.regs.status.defect = s.regs.status.defect ∧ t.regs.status.wrbusy = s.regs.status.wrbusy

/-! ### The command protocol -/

/-- 47_commands.md rule R511: a host write of `w` to CMD while idle issues it, and the sequencer then decodes it and runs its
command. MIRRORED is cleared by a word of the PAR.QR row only; DEFECT and WRBUSY are not touched. -/
def Obligations.HostWriteToCmdIssues : Prop :=
  ∀ (s : State) (w : Word) (rest : List HostEvent), s.phase = .idle → s.landsNow (.regWrite 0 w) rest →
    ∃ t, step s = .next t
      ∧ t = { s with
          regs := { s.regs with
            cmd := w
            err := ⟨0, 0, 0⟩
            status := { s.regs.status with
              done := false
              error := false
              mirrored := if w &&& 0xFFFFFCFF = 0x31 then false else s.regs.status.mirrored } }
          phase := .issued
          host := rest }
      ∧ t.busy = true
      ∧ (t.undisturbed → ∀ i, decodeCommand w = .ok i → step t = exec i t)

/-- What the sequencer fetches it runs, when no action of the host comes before: the issued command, the next codeword of a
Data Matrix stream in ASCII mode, the next mode indicator of a QR stream; a codeword that is not there is a FormatException;
an idle instance stays as it is (the host's actions are the model's form: log entry 4). -/
def Obligations.StepRunsWhatItFetches : Prop :=
  ∀ s : State, s.undisturbed →
    (s.phase = .issued → ∀ i, decode (.cmd32 s.regs.cmd) = .ok i → step s = exec i s)
    ∧ (s.phase = .dmStream .ascii → 8 ≤ s.avail →
        ∀ i, decode (.dmcw8 (BitVec.ofNat 8 (s.streamField 0 s.work.bp 8))) = .ok i → step s = exec i (s.advance 8))
    ∧ (s.phase = .dmStream .ascii → s.avail < 8 → ∃ t, step s = .next t ∧ t.Faulted .formatException .bsp s.bspInfo)
    ∧ (s.phase = .qrStream → 4 ≤ s.avail →
        ∀ i, decode (.qrmi4 (BitVec.ofNat 4 (s.streamField 0 s.work.bp 4))) = .ok i → step s = exec i (s.advance 4))
    ∧ (s.phase = .qrStream → s.avail < 4 → step s = exec .qrTerm s)
    ∧ (s.phase = .idle → s.host = [] → step s = .next s)

/-- 10_state.md rule R31: while idle, an RW register (CMD apart) stores the written bits of its fields and reads back so, its
reserved bits 0, and no other register, buffer or working state changes; a write to an RO register is dropped. -/
def Obligations.RegisterWriteStoresItsFields : Prop :=
  ∀ (s : State) (idx : Nat) (v : Word) (rest : List HostEvent), s.phase = .idle → s.landsNow (.regWrite idx v) rest →
    (∀ m, (idx, m) ∈ rwFields → ∃ t, step s = .next t ∧ t.regValue idx = some (v &&& m)
        ∧ (∀ j, j ≠ idx → t.regValue j = s.regValue j)
        ∧ t.mem = s.mem ∧ t.work = s.work ∧ t.phase = .idle ∧ t.host = rest)
    ∧ (idx ∈ roIndexes → step s = .next { s with host := rest })

/-- 47_commands.md rule R514: a host write to a register or buffer element while BUSY = 1 is dropped and sets WRBUSY; the
running command is not disturbed; WRBUSY stays set until reset. -/
def Obligations.BusyWritesAreDropped : Prop :=
  (∀ (s : State) (rest : List HostEvent), s.phase ≠ .idle →
    (∀ idx v, idx ≤ 0x1F → s.landsNow (.regWrite idx v) rest →
      step s = .next { s with
        regs := { s.regs with status := { s.regs.status with wrbusy := true } }
        host := rest })
    ∧ (∀ sp addr v, addr < sp.size → s.landsNow (.bufWrite sp addr v) rest →
      step s = .next { s with
        regs := { s.regs with status := { s.regs.status with wrbusy := true } }
        host := rest }))
  ∧ (∀ s t : State, step s = .next t → s.regs.status.wrbusy = true → (∀ rest, ¬ s.landsNow .reset rest) →
      t.regs.status.wrbusy = true)

/-- 47_commands.md rule R512: what the host may do while the instance is idle, and that no access but a write to CMD has a
side effect: a read changes nothing, a buffer write its one element, a write to MM, RDM or an RO register nothing. That a read
of a narrow element has zeros above the element's width is the model's choice (log entry 6). -/
def Obligations.IdleAccessesHaveNoSideEffect : Prop :=
  ∀ (s : State) (rest : List HostEvent), s.phase = .idle →
    (∀ idx, idx ≤ 0x1F → s.landsNow (.regRead idx) rest →
      ∃ v, s.regValue idx = some v ∧ step s = .next { s with host := rest, readings := v :: s.readings })
    ∧ (∀ sp addr, addr < sp.size → s.landsNow (.bufRead sp addr) rest →
      step s = .next { s with host := rest, readings := s.mem.read sp addr :: s.readings })
    ∧ (∀ (sp : Space) addr (v : BitVec sp.width), addr < sp.size → s.landsNow (.bufWrite sp addr v) rest →
      sp ≠ .mm → sp ≠ .rdm → ∃ m, step s = .next { s with host := rest, mem := m } ∧ m.read sp addr = v.setWidth 32
        ∧ ∀ sp' addr', (sp' ≠ sp ∨ addr' ≠ addr) → m.read sp' addr' = s.mem.read sp' addr')
    ∧ (∀ sp addr v, addr < sp.size → s.landsNow (.bufWrite sp addr v) rest → (sp = .mm ∨ sp = .rdm) →
      step s = .next { s with host := rest })
    ∧ (∀ idx v, idx ∈ roIndexes → s.landsNow (.regWrite idx v) rest → step s = .next { s with host := rest })

/-- 47_commands.md rule R513, R515: while busy, STATUS and ID read true; CMD, ERR and every other register of the running
command's write set read as any value (of all 32 bits for CMD, of its fields for the others), every other register as the stored
one; a buffer element reads as any value of its width; no read has another effect. That any value is the free value of a new draw,
with zeros above the width of a buffer element, is the model's form and choice (log entries 1 and 6); that CMD follows R513 and not
10_state.md rule R33 is log entry 5. -/
def Obligations.BusyReads : Prop :=
  (∀ (s : State) (idx : Nat) (rest : List HostEvent), s.phase ≠ .idle → idx ≤ 0x1F → s.landsNow (.regRead idx) rest →
    ∃ v n, step s = .next { s with host := rest, readings := v :: s.readings, draws := s.draws + n }
      ∧ (idx = 0x01 → v = statusWord true s.regs.status)
      ∧ (idx = 0x1F → v = 0x53434301)
      ∧ (idx = 0x00 → v = Config.freeValue 32 s.draws 0 ∧ n = 1)
      ∧ (idx = 0x02 → v = (freeErr s.draws).word ∧ n = 1)
      ∧ (∀ l ∈ s.runningWrites, l.regIndex = some idx → (s.havocLoc l).regValue idx = some v ∧ n = 1)
      ∧ (idx ≠ 0x00 → idx ≠ 0x02 → (∀ l ∈ s.runningWrites, l.regIndex ≠ some idx) → s.regValue idx = some v ∧ n = 0))
  ∧ (∀ (s : State) (sp : Space) (addr : Nat) (rest : List HostEvent), s.phase ≠ .idle → addr < sp.size →
    s.landsNow (.bufRead sp addr) rest →
    step s = .next { s with
      host := rest
      readings := (Config.freeValue sp.width s.draws 0).setWidth 32 :: s.readings
      draws := s.draws + 1 })

/-! ### Reset -/

/-- 70_reset_and_hazards.md rule R581: the reset value of every register. -/
def Obligations.ResetRegisterValues : Prop :=
  ∀ idx, idx < 32 → State.reset.regValue idx = some (if idx = 0x09 then 0x00000080 else if idx = 0x1F then 0x53434301 else 0)

/-- 70_reset_and_hazards.md rule R583 with rule R580: the reset input abandons a running command wherever it is; the registers
take their reset values, the sequencer is idle, the encoder's working state is reset, and no buffer element keeps a written
value (unwritten elements as free values are the model's form: log entry 2); the ROM tables stay (rule R584). -/
def Obligations.ResetAbandonsTheCommand : Prop :=
  ∀ (s : State) (rest : List HostEvent), s.landsNow .reset rest →
    ∃ t, step s = .next t ∧ t.phase = .idle ∧ t.regs = State.reset.regs ∧ t.work.vb = [] ∧ t.work.sz = []
      ∧ t.mem = Memory.unwritten s.draws ∧ t.host = rest ∧ t.readings = s.readings ∧ t.rom = s.rom

/-- The invariant holds right after reset: idle, STATUS and ERR agree (the registers are 0: rule R581), the default tables
keep 20_memory.md rule R107. Its two clauses about memory, the canonical form of the buffers and the freshness of draws, are
the model's own choices (log entries 1 and 2), not the spec's. -/
def Obligations.ResetStateIsWellFormed : Prop := State.reset.Inv

/-- 10_state.md rule R34, 70_reset_and_hazards.md rule R580: a step clears DEFECT or WRBUSY only where the reset input lands.
-/
def Obligations.OnlyResetClearsStickyBits : Prop :=
  ∀ s t : State, step s = .next t → (∀ rest, ¬ s.landsNow .reset rest) →
    (s.regs.status.defect = true → t.regs.status.defect = true)
      ∧ (s.regs.status.wrbusy = true → t.regs.status.wrbusy = true)

/-! ### Every step, every instruction -/

/-- Every step keeps the invariant: the memory's canonical form, the freshness of draws (both the model's own: log entries 1
and 2), the agreement of STATUS and ERR, and the premise of 20_memory.md rule R107 on the tables; and no step changes the ROM
tables (20_memory.md rule R100). -/
def Obligations.StepKeepsInvariant : Prop :=
  ∀ s t : State, step s = .next t → (s.Inv → t.Inv) ∧ t.rom = s.rom

/-- 60_exceptions.md rule R540: no step stops the machine. -/
def Obligations.StepAlwaysAnswers : Prop :=
  ∀ s : State, ∃ t, step s = .next t

/-- 47_commands.md rule R520: an instruction changes nothing outside its write set but STATUS and ERR (and the units' working
state); MIRRORED changes under PAR.QR only, and DEFECT is set by an InternalDefect only. -/
def Obligations.InstructionKeepsAllButItsWriteSet : Prop :=
  ∀ (i : Instr) (s : State), ∃ t, exec i s = .next t ∧ Frame (writeSet i) s t
    ∧ ((∀ m r, i ≠ .parQr m r) → t.regs.status.mirrored = s.regs.status.mirrored)
    ∧ (t.regs.status.defect = true ↔ s.regs.status.defect = true ∨ (t.phase = .idle ∧ t.regs.err.code = 7))

/-- 60_exceptions.md rule R540: every command other than ENC.DM (whose loop has no proved bound) ends in exactly one of two
ways, completion or a fault of rule R541 that some command may raise. -/
def Obligations.EveryCommandEnds : Prop :=
  ∀ (i : Instr) (s : State), isCommand i = true → i ≠ .encDm →
    ∃ t, exec i s = .next t ∧ (t.Completed ∨ ∃ x u info, t.Faulted x u info ∧ x ≠ .checksumException ∧ x ≠ .notFoundException)

/-- 60_exceptions.md rule R548: taking a fault writes ERR with code, unit and INFO, sets DONE and ERROR, ends the command,
sets DEFECT for an InternalDefect only and leaves WRBUSY and MIRRORED; nothing outside the write set changes; an
IllegalCommand changes no element of it; any other fault leaves every element of it, registers, buffers and U1's working
state, at the free values of a draw not used before (draws are the model's form: log entry 1). -/
def Obligations.TakingAFault : Prop :=
  ∀ (s : State) (x : Exn) (u : UnitId) (info : Nat) (ws : List Loc) (t : State), s.raise x u info ws = t →
    t.Faulted x u info ∧ Frame ws s t
      ∧ (t.regs.status.defect = true ↔ s.regs.status.defect = true ∨ x = .internalDefect)
      ∧ t.regs.status.wrbusy = s.regs.status.wrbusy ∧ t.regs.status.mirrored = s.regs.status.mirrored
      ∧ (x = .illegalCommand → ∀ l : Loc, l.Same s t)
      ∧ (x ≠ .illegalCommand → ∀ l ∈ ws, ∃ d, s.draws ≤ d ∧ d < t.draws ∧ l.Free t d)

/-- 10_state.md rule R70, 60_exceptions.md rule R547: with the default tables no command finds a table defect or overflows a
buffer, the decoders on streams no longer than the largest symbol's data (1558 and 2956 codewords): none ends in
InternalDefect. With any tables that keep 20_memory.md rule R107, ENC.QR does not either. -/
def Obligations.DefaultTablesNeverDefect : Prop :=
  (∀ (i : Instr) (s t : State), s.rom = romDefault → isCommand i = true →
    (i = .decDm → s.regs.cwLen.toNat ≤ 1558) → (i = .decQr → s.regs.cwLen.toNat ≤ 2956) →
    exec i s = .next t → t.phase = .idle → t.regs.err.code ≠ 7)
  ∧ (∀ s t : State, s.rom.ok = true → exec .encQr s = .next t → t.regs.err.code ≠ 7)

/-- 47_commands.md rule R521: NOP completes; STATUS = DONE with DEFECT, WRBUSY and MIRRORED as they were, ERR = 0; it reads
and writes nothing else. -/
def Obligations.NopCompletes : Prop :=
  ∀ s : State, exec .nop s = .next { s with
    regs := { s.regs with
      err := ⟨0, 0, 0⟩
      status := { s.regs.status with done := true, error := false } }
    phase := .idle }

/-! ### The format metadata codec -/

/-- 46_format_metadata_codec.md rule R474 and rule R479: the words FMT.ENC and VER.ENC write to R0, and the operands they
refuse. -/
def Obligations.FormatAndVersionWords : Prop :=
  (∀ s : State, s.regs.a0.toNat ≤ 3 → s.regs.a1.toNat ≤ 7 →
    ∃ t, exec .fmtEnc s = .next t ∧ t.Completed
      ∧ tFmt[8 * (([1, 0, 3, 2][s.regs.a0.toNat]?).getD 0) + s.regs.a1.toNat]? = some t.regs.r0.toNat
      ∧ t = State.complete { s with regs := { s.regs with r0 := t.regs.r0 } })
  ∧ (∀ s : State, 3 < s.regs.a0.toNat ∨ 7 < s.regs.a1.toNat → exec .fmtEnc s = .next s.refusedCommand)
  ∧ (∀ s : State, 7 ≤ s.regs.a0.toNat → s.regs.a0.toNat ≤ 40 →
    ∃ t, exec .verEnc s = .next t ∧ t.Completed ∧ tVer[s.regs.a0.toNat - 7]? = some t.regs.r0.toNat
      ∧ t = State.complete { s with regs := { s.regs with r0 := t.regs.r0 } })
  ∧ (∀ s : State, s.regs.a0.toNat < 7 ∨ 40 < s.regs.a0.toNat → exec .verEnc s = .next s.refusedCommand)

/-- 46_format_metadata_codec.md rule R470, R473, R478: the tables are the BCH words, and their rows are 7 and 8 bits apart. -/
def Obligations.FormatTablesAreBchWords : Prop :=
  (∀ d, d < 32 → tFmt[d]? = some (((d <<< 10) ||| bchRem d 0x537) ^^^ 0x5412))
    ∧ (∀ v, 7 ≤ v → v ≤ 40 → tVer[v - 7]? = some ((v <<< 12) ||| bchRem v 0x1F25))
    ∧ (∀ a, a < 32 → ∀ b, b < 32 → a ≠ b → 7 ≤ Machine.dist ((tFmt[a]?).getD 0) ((tFmt[b]?).getD 0))
    ∧ (∀ a, a < 34 → ∀ b, b < 34 → a ≠ b → 8 ≤ Machine.dist ((tVer[a]?).getD 0) ((tVer[b]?).getD 0))

/-- 46_format_metadata_codec.md rule R475, R476, R480, R481: FMT.DEC gives the table row nearest to either word, the first of
them, VER.DEC the version whose word is nearest, each up to distance 3; beyond that they end in a FormatException of U5. -/
def Obligations.CodecDecodersFindTheNearest : Prop :=
  (∀ s : State, s.regs.a0.toNat < 2 ^ 15 → s.regs.a1.toNat < 2 ^ 15 →
    (∀ d, d < 32 → fmtDistance s.regs.a0.toNat s.regs.a1.toNat d ≤ 3 →
      (∀ b, b < 32 → fmtDistance s.regs.a0.toNat s.regs.a1.toNat d ≤ fmtDistance s.regs.a0.toNat s.regs.a1.toNat b) →
      (∀ b, b < d → fmtDistance s.regs.a0.toNat s.regs.a1.toNat d < fmtDistance s.regs.a0.toNat s.regs.a1.toNat b) →
      exec .fmtDec s = .next (State.complete { s with
        regs := { s.regs with
          r0 := BitVec.ofNat 32 d
          resEcl := BitVec.ofNat 2 (([1, 0, 3, 2][d / 8]?).getD 0)
          resMask := BitVec.ofNat 3 (d % 8) } }))
    ∧ ((∀ d, d < 32 → 3 < fmtDistance s.regs.a0.toNat s.regs.a1.toNat d) →
      ∃ t, exec .fmtDec s = .next t ∧ t.Faulted .formatException .fmc 0))
  ∧ (∀ s : State, s.regs.a0.toNat < 2 ^ 18 →
    (∀ v, 7 ≤ v → v ≤ 40 → verDistance s.regs.a0.toNat v ≤ 3 →
      exec .verDec s = .next (State.complete { s with regs := { s.regs with r0 := BitVec.ofNat 32 v } }))
    ∧ ((∀ v, 7 ≤ v → v ≤ 40 → 3 < verDistance s.regs.a0.toNat v) →
      ∃ t, exec .verDec s = .next t ∧ t.Faulted .formatException .fmc 0))

/-- 46_format_metadata_codec.md rule R491: PEN completes on every grid that is not empty and writes the penalty to RES_PEN; an
empty one it refuses. Rule R490 on a grid whose cells are all light: every row and column is one run (N1), every block is
equal (N2), no finder pattern (N3), the balance is off by half (N4). -/
def Obligations.PenWritesThePenalty : Prop :=
  (∀ s : State,
    (1 ≤ s.regs.gridH.toNat → 1 ≤ s.regs.gridW.toNat →
      exec .pen s = .next (State.complete { s with
        regs := { s.regs with resPen := BitVec.ofNat 32 (penalty s.symbol s.regs.gridH.toNat s.regs.gridW.toNat) } }))
    ∧ (s.regs.gridH.toNat < 1 ∨ s.regs.gridW.toNat < 1 → exec .pen s = .next s.refusedCommand))
  ∧ (∀ s : State, 1 ≤ s.regs.gridH.toNat → 1 ≤ s.regs.gridW.toNat →
    (∀ r, r < s.regs.gridH.toNat → ∀ c, c < s.regs.gridW.toNat → s.cell r c = false) →
    ∃ t, exec .pen s = .next t ∧ t.Completed
      ∧ t.regs.resPen.toNat =
          s.regs.gridH.toNat * (if 5 ≤ s.regs.gridW.toNat then 3 + (s.regs.gridW.toNat - 5) else 0)
          + s.regs.gridW.toNat * (if 5 ≤ s.regs.gridH.toNat then 3 + (s.regs.gridH.toNat - 5) else 0)
          + 3 * ((s.regs.gridH.toNat - 1) * (s.regs.gridW.toNat - 1)) + 100)

/-! ### The mapper and the parser -/

/-- 42_mapper.md rule R310, R316, R319, R321, with the default table: MAP.DM completes for every row of the symbol table whose
codeword count CW_LEN is; the symbol has the row's size; the borders are as rule R321 says and every other cell is its cell of
the mapping matrix; bit j + 1 of codeword k stands at the cell the placement walk gives it; where the matrix has four cells no
codeword uses they hold the fixed pattern; RDM is all 1. -/
def Obligations.MapDmDrawsTheSymbol : Prop :=
  ∀ (s : State) (r : DmRow), s.rom = romDefault → tDmSym[s.regs.sym.toNat]? = some r → s.regs.cwLen.toNat = r.data + r.ec →
    ∃ t, exec .mapDm s = .next t ∧ t.Completed
      ∧ t.regs.gridH.toNat = r.vr * (r.rh + 2) ∧ t.regs.gridW.toNat = r.hr * (r.rw + 2)
      ∧ (∀ row, row < r.vr * (r.rh + 2) → ∀ col, col < r.hr * (r.rw + 2) →
          t.cell row col =
            if row % (r.rh + 2) = r.rh + 1 then true
            else if col % (r.rw + 2) = 0 then true
            else if row % (r.rh + 2) = 0 then decide (col % 2 = 0)
            else if col % (r.rw + 2) = r.rw + 1 then
              decide ((row / (r.rh + 2) * r.rh + (row % (r.rh + 2) - 1)) % 2 = 0)
            else (t.mem.mm.read (cellAddr (row / (r.rh + 2) * r.rh + row % (r.rh + 2) - 1)
              (col / (r.rw + 2) * r.rw + col % (r.rw + 2) - 1))).getLsbD 0)
      ∧ (∀ row, row < r.vr * r.rh → ∀ col, col < r.hr * r.rw → t.mem.rdm.read (cellAddr row col) = 1)
      ∧ (r.vr * r.rh * (r.hr * r.rw) % 8 = 4 →
          ∀ i, i < 2 → ∀ j, j < 2 →
            t.mem.mm.read (cellAddr (r.vr * r.rh - 2 + i) (r.hr * r.rw - 2 + j)) = BitVec.ofBool (decide (i = j)))
      ∧ (∃ w, walk (r.vr * r.rh) (r.hr * r.rw) (r.data + r.ec) = some w ∧ w.placed.length = r.data + r.ec
          ∧ ∀ k (hk : k < w.placed.reverse.length) j (hj : j < w.placed.reverse[k].length),
              (t.mem.mm.read (w.placed.reverse[k][j])).getLsbD 0 = (s.mem.cw.read k).getMsbD j)

/-- 43_parser.md rule R357: PAR.DM on the symbol MAP.DM drew gives the same row and the same codewords, for all 30 sizes of
the default table. -/
def Obligations.ParDmReadsWhatMapDmDrew : Prop :=
  ∀ (s t : State) (r : DmRow), s.rom = romDefault → tDmSym[s.regs.sym.toNat]? = some r →
    s.regs.cwLen.toNat = r.data + r.ec → exec .mapDm s = .next t →
    ∃ u, exec .parDm t = .next u ∧ u.Completed ∧ u.regs.sym = s.regs.sym ∧ u.regs.cwLen = s.regs.cwLen
      ∧ ∀ k, k < s.regs.cwLen.toNat → u.mem.cw.read k = s.mem.cw.read k

/-- 43_parser.md rule R351, with the default table: PAR.DM looks the grid's size up in the symbol table, whatever its cells
hold: a row's size completes with that row and its codeword count; any other is a FormatException of U3. -/
def Obligations.ParDmLooksUpTheSize : Prop :=
  ∀ s : State, s.rom = romDefault →
    (∀ idx r, tDmSym[idx]? = some r → s.regs.gridH.toNat = r.vr * (r.rh + 2) → s.regs.gridW.toNat = r.hr * (r.rw + 2) →
      ∃ t, exec .parDm s = .next t ∧ t.Completed ∧ t.regs.sym.toNat = idx ∧ t.regs.cwLen.toNat = r.data + r.ec)
    ∧ ((∀ r ∈ tDmSym, s.regs.gridH.toNat ≠ r.vr * (r.rh + 2) ∨ s.regs.gridW.toNat ≠ r.hr * (r.rw + 2)) →
      ∃ t, exec .parDm s = .next t ∧ t.Faulted .formatException .par 0)

/-- 42_mapper.md rule R330, R333, R335, with the default tables: MAP.QR completes for every version with its codeword count;
the symbol has the version's size, RDM is the function-pattern mask, a forced mask is used, RES_PEN is the penalty of the
symbol, and the k-th data cell holds the k-th stream bit (0 beyond the stream) under the mask. -/
def Obligations.MapQrDrawsTheSymbol : Prop :=
  ∀ s : State, s.rom = romDefault → 1 ≤ s.regs.ver.toNat → s.regs.ver.toNat ≤ 40 →
    s.regs.cwLen.toNat = qrTotal s.rom s.regs.ver.toNat →
    ∃ t, exec .mapQr s = .next t ∧ t.Completed
      ∧ t.regs.gridH.toNat = 17 + 4 * s.regs.ver.toNat ∧ t.regs.gridW.toNat = 17 + 4 * s.regs.ver.toNat
      ∧ (s.regs.cfgQr.maskAuto = false → t.regs.resMask = s.regs.cfgQr.maskId)
      ∧ t.regs.resPen = BitVec.ofNat 32 (penalty t.symbol t.regs.gridH.toNat t.regs.gridW.toNat)
      ∧ (∀ r, r < qrDim s.regs.ver.toNat → ∀ c, c < qrDim s.regs.ver.toNat →
          t.mem.rdm.read (cellAddr r c) = BitVec.ofBool (gridBit (qrFp s.rom s.regs.ver.toNat) r c))
      ∧ (∀ k (hk : k < (dataCells (qrDim s.regs.ver.toNat) (qrFp s.rom s.regs.ver.toNat)).length),
          let p := (dataCells (qrDim s.regs.ver.toNat) (qrFp s.rom s.regs.ver.toNat))[k]
          t.cell p.2 p.1 =
            ((decide (k < 8 * s.regs.cwLen.toNat) && s.streamBit k) ^^ qrMask t.regs.resMask.toNat p.1 p.2))

/-- 42_mapper.md rule R331, R336, R337, with the default tables: what MAP.QR puts in the function cells of every version: the
three finders, their separators, the dark module, the alignment blocks but for the three centres on finders, the timing lines,
both copies of the format word, and from version 7 on both copies of the version word. A cell is named row first. -/
def Obligations.MapQrDrawsTheFunctionPatterns : Prop :=
  ∀ (s t : State) (v d : Nat), s.rom = romDefault → v = s.regs.ver.toNat → 1 ≤ v → v ≤ 40 → d = 17 + 4 * v →
    s.regs.cwLen.toNat = qrTotal s.rom v → exec .mapQr s = .next t →
    (∀ p ∈ [(0, 0), (d - 7, 0), (0, d - 7)], ∀ i, i < 7 → ∀ j, j < 7 →
      t.cell (p.2 + j) (p.1 + i) = decide (i = 0 ∨ i = 6 ∨ j = 0 ∨ j = 6 ∨ (2 ≤ i ∧ i ≤ 4 ∧ 2 ≤ j ∧ j ≤ 4)))
    ∧ (∀ i, i < 8 → t.cell 7 i = false ∧ t.cell 7 (d - 8 + i) = false ∧ t.cell (d - 8) i = false)
    ∧ (∀ i, i < 7 → t.cell i 7 = false ∧ t.cell i (d - 8) = false ∧ t.cell (d - 7 + i) 7 = false)
    ∧ t.cell (d - 8) 8 = true
    ∧ (∀ cs, tQrAlign[v - 1]? = some cs → ∀ cx ∈ cs, ∀ cy ∈ cs, (cx, cy) ∉ [(6, 6), (d - 7, 6), (6, d - 7)] →
      ∀ i, i < 5 → ∀ j, j < 5 →
        t.cell (cy - 2 + j) (cx - 2 + i) = decide (i = 0 ∨ i = 4 ∨ j = 0 ∨ j = 4 ∨ (i = 2 ∧ j = 2)))
    ∧ (∀ i, 8 ≤ i → i + 9 ≤ d → t.cell 6 i = decide (i % 2 = 0) ∧ t.cell i 6 = decide (i % 2 = 0))
    ∧ (∀ i w, i < 15 →
      tFmt[8 * (([1, 0, 3, 2][s.regs.cfgQr.ecl.toNat]?).getD 0) + t.regs.resMask.toNat]? = some w →
      (∀ p, [(8, 0), (8, 1), (8, 2), (8, 3), (8, 4), (8, 5), (8, 7), (8, 8), (7, 8), (5, 8), (4, 8), (3, 8), (2, 8), (1, 8),
          (0, 8)][i]? = some p → t.cell p.2 p.1 = w.testBit i)
      ∧ (if i < 8 then t.cell 8 (d - 1 - i) else t.cell (d - 7 + (i - 8)) 8) = w.testBit i)
    ∧ (7 ≤ v → ∀ k w, k < 18 → tVer[v - 7]? = some w →
      t.cell (d - 11 + k % 3) (k / 3) = w.testBit k ∧ t.cell (k / 3) (d - 11 + k % 3) = w.testBit k)

/-- 42_mapper.md rule R335, with the default tables: with MASK_AUTO the mask of least penalty is used, the least mask id among
equals, and the symbol is the one that mask gives when it is forced. -/
def Obligations.MapQrChoosesTheLeastPenalty : Prop :=
  ∀ s t : State, s.rom = romDefault → 1 ≤ s.regs.ver.toNat → s.regs.ver.toNat ≤ 40 →
    s.regs.cwLen.toNat = qrTotal s.rom s.regs.ver.toNat → s.regs.cfgQr.maskAuto = true → exec .mapQr s = .next t →
    ∀ (m : BitVec 3) (u : State),
      exec .mapQr { s with regs := { s.regs with cfgQr := { s.regs.cfgQr with maskAuto := false, maskId := m } } } = .next u →
      penalty t.symbol (qrDim s.regs.ver.toNat) (qrDim s.regs.ver.toNat)
          ≤ penalty u.symbol (qrDim s.regs.ver.toNat) (qrDim s.regs.ver.toNat)
        ∧ (m.toNat < t.regs.resMask.toNat →
            penalty t.symbol (qrDim s.regs.ver.toNat) (qrDim s.regs.ver.toNat)
              < penalty u.symbol (qrDim s.regs.ver.toNat) (qrDim s.regs.ver.toNat))
        ∧ (m = t.regs.resMask → ∀ r, r < qrDim s.regs.ver.toNat → ∀ c, c < qrDim s.regs.ver.toNat → u.cell r c = t.cell r c)

/-- 43_parser.md rule R373, R375: a grid that is not square, or whose size is no version's (below 21, above 177, or not 1 more
than a multiple of 4), is a FormatException of U3, with or without a retry, and MIRRORED is 0. -/
def Obligations.ParQrRefusesOtherSizes : Prop :=
  ∀ (s : State) (mirror retry : Bool),
    (s.regs.gridH ≠ s.regs.gridW ∨ s.regs.gridW.toNat < 21 ∨ s.regs.gridW.toNat % 4 ≠ 1 ∨ 177 < s.regs.gridW.toNat) →
    ∃ t, exec (.parQr mirror retry) s = .next t ∧ t.Faulted .formatException .par 0 ∧ t.regs.status.mirrored = false

/-- 43_parser.md rule R372: PAR.QR with RETRY is PAR.QR without it where that completes or finds an InternalDefect; after a
FormatException it is the other orientation's attempt where that completes or finds an InternalDefect, else the first's fault.
An attempt that completes writes what it read, with MIRRORED = its orientation. -/
def Obligations.ParQrRetriesOnce : Prop :=
  (∀ (s t1 t2 : State) (m : Bool), exec (.parQr m false) s = .next t1 → exec (.parQr (!m) false) s = .next t2 →
    exec (.parQr m true) s = .next (
      if t1.regs.status.error = false then t1
      else if t1.regs.err.code ≠ 1 then t1
      else if t2.regs.status.error = false then t2
      else if t2.regs.err.code = 7 then t2
      else t1))
  ∧ (∀ (s : State) (m y : Bool) (r : QrRead),
    qrAttempt s.rom s.symbol s.regs.gridH.toNat s.regs.gridW.toNat m = .ok r →
    ∃ t, exec (.parQr m y) s = .next t ∧ t.Completed ∧ t.regs.status.mirrored = m ∧ t.regs.ver = BitVec.ofNat 6 r.ver
      ∧ t.regs.resEcl = BitVec.ofNat 2 (([1, 0, 3, 2][r.fmt / 8]?).getD 0) ∧ t.regs.resMask = BitVec.ofNat 3 (r.fmt % 8)
      ∧ t.regs.cwLen = BitVec.ofNat 16 (qrTotal s.rom r.ver)
      ∧ ∀ k (hk : k < r.cws.length), t.mem.cw.read k = BitVec.ofNat 8 r.cws[k])

/-- 43_parser.md rule R371: mirrored reading is plain reading of the transposed grid. -/
def Obligations.MirroredReadingIsTransposedReading : Prop :=
  ∀ s s' t t' : State, s'.rom = s.rom →
    s'.regs.gridH = s.regs.gridW → s'.regs.gridW = s.regs.gridH →
    (∀ r, r < s.regs.gridH.toNat → ∀ c, c < s.regs.gridW.toNat → s'.cell c r = s.cell r c) →
    exec (.parQr true false) s = .next t → exec (.parQr false false) s' = .next t' →
    t.regs.err = t'.regs.err
      ∧ (t.Completed → t.regs.status.mirrored = true ∧ t'.regs.status.mirrored = false ∧ t.regs.ver = t'.regs.ver
        ∧ t.regs.resEcl = t'.regs.resEcl ∧ t.regs.resMask = t'.regs.resMask ∧ t.regs.cwLen = t'.regs.cwLen
        ∧ ∀ k, k < t.regs.cwLen.toNat → t.mem.cw.read k = t'.mem.cw.read k)

/-- With the default tables PAR.QR on the symbol MAP.QR drew gives the version, the level, the mask and the codewords back,
for every version, level and mask (43_parser.md rule R370 with 42_mapper.md rule R330). -/
def Obligations.ParQrReadsWhatMapQrDrew : Prop :=
  ∀ (s t : State) (retry : Bool), s.rom = romDefault → 1 ≤ s.regs.ver.toNat → s.regs.ver.toNat ≤ 40 →
    s.regs.cwLen.toNat = qrTotal s.rom s.regs.ver.toNat → exec .mapQr s = .next t →
    ∃ u, exec (.parQr false retry) t = .next u ∧ u.Completed ∧ u.regs.ver = s.regs.ver
      ∧ u.regs.resEcl = s.regs.cfgQr.ecl ∧ u.regs.resMask = t.regs.resMask ∧ u.regs.status.mirrored = false
      ∧ u.regs.cwLen = s.regs.cwLen ∧ ∀ k, k < s.regs.cwLen.toNat → u.mem.cw.read k = s.mem.cw.read k

/-! ### The encoders -/

/-- 40_tce_datamatrix.md rule R203 to R205 and R220, with the default table, on a text of digit pairs (the empty text too),
plain and in the envelope of macro 05 or 06 (30_encoding.md rule R142): ENC.DM completes with the macro's codeword, one
codeword for each pair, the pad 129 and randomised pads up to the capacity of the row `dmLookup` gives, in ASCII mode. That it
is done within one step rests on the fuel of log entry 7. -/
def Obligations.EncDmEncodesDigitPairs : Prop :=
  (∀ (s : State) (k idx : Nat) (row : DmRow), s.rom = romDefault → s.regs.cfgShape ≠ 3 → s.regs.txtLen.toNat = 2 * k →
    (∀ j, j < 2 * k → 48 ≤ (s.mem.txt.read j).toNat ∧ (s.mem.txt.read j).toNat ≤ 57) →
    dmLookup s.rom s.regs k = some (idx, row) →
    ∃ t, exec .encDm s = .next t ∧ t.Completed ∧ t.regs.sym.toNat = idx ∧ t.regs.cwLen.toNat = row.data
      ∧ t.regs.resMode = 0
      ∧ (∀ j, j < k → t.cwAt j
          = 130 + 10 * ((s.mem.txt.read (2 * j)).toNat - 48) + ((s.mem.txt.read (2 * j + 1)).toNat - 48))
      ∧ t.padded k row.data)
  ∧ (∀ (s : State) (k idx m : Nat) (six : Byte) (row : DmRow), (m = 236 ∧ six = 0x35 ∨ m = 237 ∧ six = 0x36) →
    s.rom = romDefault → s.regs.cfgShape ≠ 3 → s.regs.txtLen.toNat = 2 * k + 9 →
    s.mem.txt.take 7 = [0x5B, 0x29, 0x3E, 0x1E, 0x30, six, 0x1D] →
    s.mem.txt.read (2 * k + 7) = 0x1E → s.mem.txt.read (2 * k + 8) = 0x04 →
    (∀ j, j < 2 * k → 48 ≤ (s.mem.txt.read (7 + j)).toNat ∧ (s.mem.txt.read (7 + j)).toNat ≤ 57) →
    dmLookup s.rom s.regs (k + 1) = some (idx, row) →
    ∃ t, exec .encDm s = .next t ∧ t.Completed ∧ t.regs.sym.toNat = idx ∧ t.regs.cwLen.toNat = row.data
      ∧ t.regs.resMode = 0 ∧ t.cwAt 0 = m
      ∧ (∀ j, j < k → t.cwAt (1 + j)
          = 130 + 10 * ((s.mem.txt.read (7 + 2 * j)).toNat - 48) + ((s.mem.txt.read (8 + 2 * j)).toNat - 48))
      ∧ t.padded (k + 1) row.data)

/-- 40_tce_datamatrix.md rule R205, R210 to R215, R230, R232, R240, R241 with 30_encoding.md rule R133, R134, R136, R140, with
the default table, on a text of 3k upper-case letters, lower-case letters or X12 separators (k ≥ 2): the lookahead latches to
C40, Text or X12; every three characters are two codewords; the unlatch 254 follows where the symbol has room, then the
padding. That it is done within one step rests on the fuel of log entry 7. -/
def Obligations.EncDmEncodesTripletRuns : Prop :=
  ∀ (s : State) (k idx : Nat) (row : DmRow) (p : Nat × (Nat → Bool) × (Nat → Nat)),
    p ∈ [(230, (fun c => decide (65 ≤ c) && decide (c ≤ 90)), fun c => c - 51),
      (239, (fun c => decide (97 ≤ c) && decide (c ≤ 122)), fun c => c - 83),
      (238, (fun c => decide (c = 13) || decide (c = 42) || decide (c = 62)),
        fun c => if c = 13 then 0 else if c = 42 then 1 else 2)] →
    s.rom = romDefault → s.regs.cfgShape ≠ 3 → s.regs.txtLen.toNat = 3 * k → 2 ≤ k →
    (∀ j, j < 3 * k → p.2.1 (s.mem.txt.read j).toNat = true) →
    dmLookup s.rom s.regs (2 * k + 1) = some (idx, row) →
    ∃ t, exec .encDm s = .next t ∧ t.Completed ∧ t.regs.sym.toNat = idx ∧ t.regs.cwLen.toNat = row.data
      ∧ t.regs.resMode = 0 ∧ t.cwAt 0 = p.1
      ∧ (∀ j, j < k → 256 * t.cwAt (2 * j + 1) + t.cwAt (2 * j + 2)
          = 1600 * p.2.2 (s.mem.txt.read (3 * j)).toNat + 40 * p.2.2 (s.mem.txt.read (3 * j + 1)).toNat
            + p.2.2 (s.mem.txt.read (3 * j + 2)).toNat + 1)
      ∧ (2 * k + 1 < row.data → t.cwAt (2 * k + 1) = 254) ∧ t.padded (2 * k + 2) row.data

/-- 40_tce_datamatrix.md rule R205, R210 to R215, R250, R251, R260, R262 with 30_encoding.md rule R137 to R139, R141, with the
default table. On a text of 4k characters native to EDIFACT only (k ≥ 2): the latch 240, three codewords for every four
characters, the unlatch value 31 where three codewords or more are left. On a text of n extended bytes (n ≥ 3): the latch 231,
the length field (0 where the payload fills the symbol) and the bytes, all randomised. Then the padding. That it is done
within one step rests on the fuel of log entry 7. -/
def Obligations.EncDmEncodesEdifactAndBase256Runs : Prop :=
  (∀ (s : State) (k idx : Nat) (row : DmRow), s.rom = romDefault → s.regs.cfgShape ≠ 3 → s.regs.txtLen.toNat = 4 * k →
    2 ≤ k →
    (∀ j, j < 4 * k → let c := (s.mem.txt.read j).toNat
      (33 ≤ c ∧ c ≤ 47 ∧ c ≠ 42) ∨ (58 ≤ c ∧ c ≤ 64 ∧ c ≠ 62) ∨ (91 ≤ c ∧ c ≤ 94)) →
    dmLookup s.rom s.regs (3 * k + 1) = some (idx, row) →
    ∃ t, exec .encDm s = .next t ∧ t.Completed ∧ t.regs.sym.toNat = idx ∧ t.regs.cwLen.toNat = row.data
      ∧ t.regs.resMode = 0 ∧ t.cwAt 0 = 240
      ∧ (∀ j, j < k → 65536 * t.cwAt (3 * j + 1) + 256 * t.cwAt (3 * j + 2) + t.cwAt (3 * j + 3)
          = 262144 * ((s.mem.txt.read (4 * j)).toNat % 64) + 4096 * ((s.mem.txt.read (4 * j + 1)).toNat % 64)
            + 64 * ((s.mem.txt.read (4 * j + 2)).toNat % 64) + (s.mem.txt.read (4 * j + 3)).toNat % 64)
      ∧ (3 * k + 4 ≤ row.data → t.cwAt (3 * k + 1) = 4 * 31)
      ∧ t.padded (if 3 * k + 4 ≤ row.data then 3 * k + 2 else 3 * k + 1) row.data)
  ∧ (∀ (s : State) (n idx : Nat) (row : DmRow) (f : List Nat), s.rom = romDefault → s.regs.cfgShape ≠ 3 →
    s.regs.txtLen.toNat = n → 3 ≤ n → (∀ j, j < n → 128 ≤ (s.mem.txt.read j).toNat) →
    dmLookup s.rom s.regs (n + 2) = some (idx, row) →
    f = (if n + 2 = row.data then [0] else if n ≤ 249 then [n] else [n / 250 + 249, n % 250]) →
    ∃ t, exec .encDm s = .next t ∧ t.Completed ∧ t.regs.sym.toNat = idx ∧ t.regs.cwLen.toNat = row.data
      ∧ t.regs.resMode = 5 ∧ t.cwAt 0 = 231
      ∧ (∀ j, j < f.length + n → (randomised 2 (f ++ s.text))[j]? = some (t.cwAt (1 + j)))
      ∧ t.padded (1 + f.length + n) row.data)

/-- 40_tce_datamatrix.md rule R200, R205 with 20_memory.md rule R102: where ENC.DM completes, `e` being the encoder's state
behind the last round of the main loop, SYM is the first row the shape and size constraints permit that has room for the
codewords of `e`, those before padding; CW_LEN is that row's data capacity, and CW begins with the codewords of `e`. -/
def Obligations.EncDmFillsItsSymbol : Prop :=
  ∀ s t : State, exec .encDm s = .next t → t.Completed →
    ∃ e row,
      encLoop s.encBegin.encIn (Config.fuelEncDm s.regs.txtLen.toNat) s.encBegin.enc = .ok (e, true)
      ∧ s.rom.dmSym[t.regs.sym.toNat]? = some row
      ∧ dmPermitted s.regs.cfgShape s.regs.cfgMin s.regs.cfgMax row = true ∧ e.len ≤ row.data
      ∧ (∀ k r, k < t.regs.sym.toNat → s.rom.dmSym[k]? = some r →
          dmPermitted s.regs.cfgShape s.regs.cfgMin s.regs.cfgMax r = true → r.data < e.len)
      ∧ t.regs.cwLen.toNat = row.data
      ∧ ∀ j (hj : j < e.rev.reverse.length), t.mem.cw.read j = BitVec.ofNat 8 e.rev.reverse[j]

/-- 40_tce_datamatrix.md rule R272: ENC.DM never raises IllegalCharacter: not from its start, and not at a later step or round
of a run, since a run stands in X12 or EDIFACT mode only where its next group can be encoded (`encGuarded`): so it is behind
the start and behind every step of the machine. -/
def Obligations.EncDmNeverRaisesIllegalCharacter : Prop :=
  (∀ s t : State, exec .encDm s = .next t → (t.phase = .idle → t.regs.err.code ≠ 6) ∧ t.encGuarded)
  ∧ (∀ s t : State, s.encGuarded → step s = .next t → t.encGuarded)
  ∧ (∀ s t : State, s.encGuarded → step s = .next t →
      (s.phase = .encDm ∨ (s.phase = .issued ∧ decodeCommand s.regs.cmd = .ok .encDm)) →
      t.phase = .idle → t.regs.err.code ≠ 6)

/-- 41_tce_qr.md rule R282 to R288 with 30_encoding.md rule R152 to R155, R159, with the default tables: how ENC.QR classifies
a text, and what it makes of one in every mode: the version of the two-pass choice of rule R285; in CW the ECI header (byte
mode with CFG_ECI.EN only), the indicator, the count, the data, a terminator of up to four 0 bits, 0 bits to a codeword
boundary, and the pads 0xEC and 0x11 in turn up to the version's data capacity. In Kanji mode every pair must be in one of the
two ranges. -/
def Obligations.EncQrEncodesEveryMode : Prop :=
  (∀ (sjis : Bool) (txt : List Nat),
    (qrClassify sjis txt = .kanji ↔ sjis = true ∧ txt.length % 2 = 0
      ∧ ∀ k b, txt[2 * k]? = some b → (0x81 ≤ b ∧ b ≤ 0x9F) ∨ (0xE0 ≤ b ∧ b ≤ 0xEB))
    ∧ (qrClassify sjis txt ≠ .kanji →
      (qrClassify sjis txt = .num ↔ txt ≠ [] ∧ ∀ c ∈ txt, 48 ≤ c ∧ c ≤ 57)
      ∧ (qrClassify sjis txt = .alnum ↔ (∀ c ∈ txt, (alnum c).isSome = true) ∧ ∃ c ∈ txt, c < 48 ∨ 57 < c)))
  ∧ (∀ (s : State) (m : QrMode) (len cnt h n prov v e : Nat), s.rom = romDefault → len = s.regs.txtLen.toNat → len ≤ 8192 →
    m = qrClassify s.regs.cfgQr.sjis s.text → h = (if m = .byte ∧ s.regs.cfgEci.en = true then 16 else 4) →
    cnt = (if m = .kanji then len / 2 else len) →
    n = (match m with
      | .num => 10 * (len / 3) + (if len % 3 = 0 then 0 else if len % 3 = 1 then 4 else 7)
      | .alnum => 11 * (len / 2) + 6 * (len % 2)
      | .byte => 8 * len
      | .kanji => 13 * (len / 2)) →
    (m = .kanji → ∀ j, j < cnt → inKanjiRanges (s.pairAt (2 * j))) →
    qrPick s.rom (h + ccBits m.num4 1 + n) s.regs.cfgQr.ecl.toNat = some prov →
    qrPick s.rom (h + ccBits m.num4 prov + n) s.regs.cfgQr.ecl.toNat = some v → e = h + ccBits m.num4 v →
    ∃ t, exec .encQr s = .next t ∧ t.Completed ∧ t.regs.resMode.toNat = m.num4 ∧ t.regs.ver.toNat = v
      ∧ t.regs.cwLen.toNat = qrData s.rom v s.regs.cfgQr.ecl.toNat
      ∧ (h = 16 → t.streamField 0 0 4 = 7 ∧ t.streamField 0 4 8 = s.regs.cfgEci.value.toNat)
      ∧ t.streamField 0 (h - 4) 4 = m.num4 ∧ t.streamField 0 h (ccBits m.num4 v) = cnt
      ∧ (match m with
        | .num =>
          (∀ j, j < len / 3 → t.streamField 0 (e + 10 * j) 10
              = 100 * (s.unitAt (3 * j) - 48) + 10 * (s.unitAt (3 * j + 1) - 48) + (s.unitAt (3 * j + 2) - 48))
          ∧ (len % 3 = 1 → t.streamField 0 (e + 10 * (len / 3)) 4 = s.unitAt (len - 1) - 48)
          ∧ (len % 3 = 2 → t.streamField 0 (e + 10 * (len / 3)) 7
              = 10 * (s.unitAt (len - 2) - 48) + (s.unitAt (len - 1) - 48))
        | .alnum =>
          (∀ j, j < len / 2 → t.streamField 0 (e + 11 * j) 11
              = 45 * (alnum (s.unitAt (2 * j))).getD 0 + (alnum (s.unitAt (2 * j + 1))).getD 0)
          ∧ (len % 2 = 1 → t.streamField 0 (e + 11 * (len / 2)) 6 = (alnum (s.unitAt (len - 1))).getD 0)
        | .byte => ∀ j, j < len → t.streamField 0 (e + 8 * j) 8 = s.unitAt j
        | .kanji => ∀ j x, j < cnt →
          x = s.pairAt (2 * j) - (if s.pairAt (2 * j) ≤ 0x9FFC then 0x8140 else 0xC140) →
          t.streamField 0 (e + 13 * j) 13 = x / 256 * 0xC0 + x % 256)
      ∧ t.qrPadded (e + n) t.regs.cwLen.toNat)

/-- Where ENC.QR completes on a text (CFG_QR.SJIS off), DEC.QR on its codewords completes with that text: numeric,
alphanumeric and byte mode, every level, with or without an ECI header. (With SJIS on, 41_tce_qr.md rule R292 is at odds with
rule R284 on some pairs: log entry 21.) -/
def Obligations.DecQrReadsWhatEncQrWrote : Prop :=
  ∀ s t : State, s.regs.cfgQr.sjis = false → exec .encQr s = .next t → t.Completed →
    ∃ u, exec .decQr t = .next u ∧ u.Completed ∧ u.regs.outLen = s.regs.txtLen
      ∧ ∀ j, j < s.regs.txtLen.toNat → u.mem.out.read j = s.mem.txt.read j

/-- 40_tce_datamatrix.md rule R206 on texts of digit pairs, the empty one with the default table: DEC.DM on what ENC.DM wrote
gives the text back. -/
def Obligations.DecDmReadsDigitPairsBack : Prop :=
  ∀ (s t : State) (k : Nat), s.regs.txtLen.toNat = 2 * k → (1 ≤ k ∨ s.rom = romDefault) →
    (∀ j, j < 2 * k → 48 ≤ (s.mem.txt.read j).toNat ∧ (s.mem.txt.read j).toNat ≤ 57) →
    exec .encDm s = .next t → t.Completed →
    ∃ u, exec .decDm t = .next u ∧ u.Completed ∧ u.regs.outLen = s.regs.txtLen
      ∧ ∀ j, j < 2 * k → u.mem.out.read j = s.mem.txt.read j

/-- 40_tce_datamatrix.md rule R206, with the default table, for every text, shape and size constraint: where ENC.DM completes,
DEC.DM on its codewords completes with the text. The spec has tested this and not proved it. -/
def Obligations.DecDmReadsWhatEncDmWrote : Prop :=
  ∀ s t : State, s.rom = romDefault → exec .encDm s = .next t → t.Completed →
    ∃ u, exec .decDm t = .next u ∧ u.Completed ∧ u.regs.outLen = s.regs.txtLen
      ∧ ∀ j, j < s.regs.txtLen.toNat → u.mem.out.read j = s.mem.txt.read j

/-- 40_tce_datamatrix.md rule R270, 41_tce_qr.md rule R290, 60_exceptions.md rule R544, R546, R570, with the default tables:
when the encoders fault. ENC.DM: where the configuration permits no row it ends in CapacityExceeded only; a text of digits, of
a run native to one mode, or of extended bytes, whose codewords no permitted row holds, is CapacityExceeded with the length of
the text as the position. ENC.QR: a Kanji pair outside the two ranges is IllegalCharacter with the index of the first such
pair (before any CapacityExceeded: the model's choice, log entry 9); no version in either pass of rule R285 is
CapacityExceeded with INFO 0. That a run of ENC.DM ends within one step rests on the fuel of log entry 7. -/
def Obligations.EncodersFault : Prop :=
  (∀ s t : State, s.rom = romDefault → s.regs.cfgShape ≠ 3 → s.regs.txtLen.toNat ≤ 8192 → dmLookup s.rom s.regs 0 = none →
    exec .encDm s = .next t → t.phase = .idle → ∃ info, t.Faulted .capacityExceeded .tce info)
  ∧ (∀ (s : State) (n : Nat), s.rom = romDefault → s.regs.cfgShape ≠ 3 → s.regs.txtLen.toNat = n → n ≤ 8192 →
    ((∀ j, j < n → 48 ≤ s.unitAt j ∧ s.unitAt j ≤ 57) ∧ dmLookup s.rom s.regs (n / 2 + n % 2) = none
      ∨ (∀ j, j < n → 128 ≤ s.unitAt j) ∧ 3 ≤ n ∧ dmLookup s.rom s.regs (n + 2) = none) →
    ∃ t, exec .encDm s = .next t ∧ t.Faulted .capacityExceeded .tce n)
  ∧ (∀ (s : State) (k : Nat), s.rom = romDefault → s.regs.cfgShape ≠ 3 → s.regs.txtLen.toNat ≤ 8192 → 2 ≤ k →
    (s.regs.txtLen.toNat = 3 * k ∧ dmLookup s.rom s.regs (2 * k + 1) = none
        ∧ ((∀ j, j < 3 * k → 65 ≤ s.unitAt j ∧ s.unitAt j ≤ 90) ∨ (∀ j, j < 3 * k → 97 ≤ s.unitAt j ∧ s.unitAt j ≤ 122)
          ∨ (∀ j, j < 3 * k → s.unitAt j = 13 ∨ s.unitAt j = 42 ∨ s.unitAt j = 62))
      ∨ s.regs.txtLen.toNat = 4 * k ∧ dmLookup s.rom s.regs (3 * k + 1) = none
        ∧ (∀ j, j < 4 * k → (33 ≤ s.unitAt j ∧ s.unitAt j ≤ 47 ∧ s.unitAt j ≠ 42)
          ∨ (58 ≤ s.unitAt j ∧ s.unitAt j ≤ 64 ∧ s.unitAt j ≠ 62) ∨ (91 ≤ s.unitAt j ∧ s.unitAt j ≤ 94))) →
    ∃ t, exec .encDm s = .next t ∧ t.Faulted .capacityExceeded .tce s.regs.txtLen.toNat)
  ∧ (∀ (s : State) (j : Nat), s.regs.txtLen.toNat ≤ 8192 → qrClassify s.regs.cfgQr.sjis s.text = .kanji →
    2 * j < s.regs.txtLen.toNat → ¬ inKanjiRanges (s.pairAt (2 * j)) →
    (∀ i, i < j → inKanjiRanges (s.pairAt (2 * i))) →
    ∃ t, exec .encQr s = .next t ∧ t.Faulted .illegalCharacter .tce (2 * j))
  ∧ (∀ (s : State) (m : QrMode) (len h n : Nat), s.rom = romDefault → len = s.regs.txtLen.toNat → len ≤ 8192 →
    m = qrClassify s.regs.cfgQr.sjis s.text → h = (if m = .byte ∧ s.regs.cfgEci.en = true then 16 else 4) →
    n = (match m with
      | .num => 10 * (len / 3) + (if len % 3 = 0 then 0 else if len % 3 = 1 then 4 else 7)
      | .alnum => 11 * (len / 2) + 6 * (len % 2)
      | .byte => 8 * len
      | .kanji => 13 * (len / 2)) →
    (m = .kanji → ∀ j, 2 * j < len → inKanjiRanges (s.pairAt (2 * j))) →
    (qrPick s.rom (h + ccBits m.num4 1 + n) s.regs.cfgQr.ecl.toNat = none
      ∨ ∃ prov, qrPick s.rom (h + ccBits m.num4 1 + n) s.regs.cfgQr.ecl.toNat = some prov
        ∧ qrPick s.rom (h + ccBits m.num4 prov + n) s.regs.cfgQr.ecl.toNat = none) →
    ∃ t, exec .encQr s = .next t ∧ t.Faulted .capacityExceeded .tce 0)

/-! ### The Data Matrix bit-stream parser -/

/-- 44_bsp_datamatrix.md rule R395, R397: DM.ASCII writes code unit b - 1, or b - 1 + 128 under a pending upper shift, which
it ends; DM.DIGITS writes two digits and leaves a pending shift; then the stream goes on or ends. -/
def Obligations.DmCharactersAndDigits : Prop :=
  (∀ (s : State) (b : Byte), 1 ≤ b.toNat → b.toNat ≤ 128 → s.hasRoom 1 →
    exec (.dmAscii b) s = .next (State.dmAfter (State.appended { s with work := { s.work with upper := false } }
      [BitVec.ofNat 8 (b.toNat - 1 + (if s.work.upper = true then 128 else 0))])))
  ∧ (∀ (s : State) (b : Byte), 130 ≤ b.toNat → b.toNat ≤ 229 → s.hasRoom 2 →
    exec (.dmDigits b) s = .next (State.dmAfter (s.appended
      [BitVec.ofNat 8 (48 + (b.toNat - 130) / 10), BitVec.ofNat 8 (48 + (b.toNat - 130) % 10)])))

/-- 44_bsp_datamatrix.md rule R396, R418: DM.PAD ends the data whatever follows: the trailers are written, the command
completes, and RES_MOD is the modifier of the ECI flag and the FNC1 positions. -/
def Obligations.DmPadEndsTheData : Prop :=
  ∀ s : State, s.regs.outLen.toNat + s.work.trl.length ≤ 16384 →
    ∃ t, exec .dmPad s = .next t ∧ t = s.dmEnded ∧ t.Completed
      ∧ t.regs.outLen.toNat = s.regs.outLen.toNat + s.work.trl.length
      ∧ (∀ k (hk : k < s.work.trl.length), t.mem.out.read (s.regs.outLen.toNat + k) = s.work.trl[k])
      ∧ t.regs.resMod =
          (if s.work.eci = true then
            (if (∃ k, k < s.regs.fncCnt.toNat ∧ (s.mem.fnc.read k = 0 ∨ s.mem.fnc.read k = 4)) then 5
             else if (∃ k, k < s.regs.fncCnt.toNat ∧ (s.mem.fnc.read k = 1 ∨ s.mem.fnc.read k = 5)) then 6 else 4)
          else
            (if (∃ k, k < s.regs.fncCnt.toNat ∧ (s.mem.fnc.read k = 0 ∨ s.mem.fnc.read k = 4)) then 2
             else if (∃ k, k < s.regs.fncCnt.toNat ∧ (s.mem.fnc.read k = 1 ∨ s.mem.fnc.read k = 5)) then 3 else 1))

/-- 44_bsp_datamatrix.md rule R398, R403, R404: a latch, or the ECI codeword, names the decoder of the next segment and drops
a pending upper shift; as the last codeword of the stream it ends the command. DM.UNLATCH in ASCII mode is ignored as the last
codeword of the stream, and a FormatException anywhere else. -/
def Obligations.DmLatchesAndUnlatch : Prop :=
  (∀ (s : State) (p : Instr × DmSeg),
    p ∈ [(Instr.dmLatchC40, DmSeg.c40), (.dmLatchB256, .base256), (.dmLatchX12, .x12), (.dmLatchText, .text),
      (.dmLatchEdf, .edifact), (.dmEci, .eci)] →
    (0 < s.avail → exec p.1 s = .next { s with phase := .dmStream p.2, work := { s.work with upper := false } })
    ∧ (s.avail = 0 → s.hasRoom 0 → exec p.1 s = .next s.dmEnded))
  ∧ (∀ s : State, (s.avail = 0 → s.hasRoom 0 → exec .dmUnlatch s = .next s.dmEnded)
    ∧ (0 < s.avail → ∃ t, exec .dmUnlatch s = .next t ∧ t.Faulted .formatException .bsp (s.work.bp / 8)))

/-- 44_bsp_datamatrix.md rule R399, R400, R401, R402: DM.FNC1 appends the current OUT_LEN to FNC and writes the code unit 29;
DM.SA and DM.RP are ignored; DM.UPSHIFT sets the pending upper shift; a macro codeword writes its seven-unit header at once
and puts the trailer 0x1E 0x04 at the front of the trailers; the stream goes on, or ends. -/
def Obligations.DmFnc1MacrosIgnoredAndUpperShift : Prop :=
  (∀ s : State, s.regs.fncCnt.toNat < 2048 → s.hasRoom 1 →
    exec .dmFnc1 s = .next (State.dmAfter (State.appended { s with
      mem := { s.mem with fnc := s.mem.fnc.write s.regs.fncCnt.toNat s.regs.outLen }
      regs := { s.regs with fncCnt := s.regs.fncCnt + 1 } } [29])))
  ∧ (∀ s : State, s.hasRoom 0 →
    exec .dmSa s = .next s.dmAfter ∧ exec .dmRp s = .next s.dmAfter
      ∧ exec .dmUpshift s = .next (State.dmAfter { s with work := { s.work with upper := true } }))
  ∧ (∀ s : State, State.hasRoom { s with work := { s.work with trl := [0x1E, 0x04] ++ s.work.trl } } 7 →
    exec .dmMacro05 s = .next (State.dmAfter (State.appended
      { s with work := { s.work with trl := [0x1E, 0x04] ++ s.work.trl } } [0x5B, 0x29, 0x3E, 0x1E, 0x30, 0x35, 0x1D]))
    ∧ exec .dmMacro06 s = .next (State.dmAfter (State.appended
      { s with work := { s.work with trl := [0x1E, 0x04] ++ s.work.trl } } [0x5B, 0x29, 0x3E, 0x1E, 0x30, 0x36, 0x1D])))

/-- 44_bsp_datamatrix.md rule R391, R394, 45_bsp_qr.md rule R431, R432: a codeword or a mode indicator without a meaning is a
FormatException of U4 with the index of the codeword that holds the next unread bit; an empty stream is a FormatException for
DEC.DM, and completes with empty results for DEC.QR. -/
def Obligations.MeaninglessElementsAndEmptyStreams : Prop :=
  (∀ (s : State) (b : Byte) (v : BitVec 4),
    (∃ t, exec .dmIll0 s = .next t ∧ t.Faulted .formatException .bsp (s.work.bp / 8))
    ∧ (∃ t, exec (.dmIll b) s = .next t ∧ t.Faulted .formatException .bsp (s.work.bp / 8))
    ∧ (∃ t, exec (.qrIll v) s = .next t ∧ t.Faulted .formatException .bsp (s.work.bp / 8)))
  ∧ (∀ s : State, s.regs.cwLen = 0 →
    (∃ t, exec .decDm s = .next t ∧ t.Faulted .formatException .bsp 0)
    ∧ (1 ≤ s.regs.ver.toNat → s.regs.ver.toNat ≤ 40 → ∃ t, exec .decQr s = .next t ∧ t.Completed ∧ t.regs.outLen = 0
        ∧ t.regs.segCnt = 0 ∧ t.regs.fncCnt = 0 ∧ t.regs.resMod = 1 ∧ t.regs.resEci = ⟨0, false⟩
        ∧ t.regs.resSa = ⟨0, 0, false⟩))

/-- 44_bsp_datamatrix.md rule R392 to R396 on a stream of plain characters, up to its end or to a pad: DEC.DM completes with
the characters and nothing else, whatever stands behind the pad. -/
def Obligations.DecDmDecodesPlainCharacters : Prop :=
  ∀ (s : State) (n : Nat), 1 ≤ s.regs.cwLen.toNat → s.regs.cwLen.toNat ≤ 4096 → n ≤ s.regs.cwLen.toNat →
    (∀ j, j < n → 1 ≤ (s.mem.cw.read j).toNat ∧ (s.mem.cw.read j).toNat ≤ 128) →
    (n < s.regs.cwLen.toNat → (s.mem.cw.read n).toNat = 129) →
    ∃ t, exec .decDm s = .next t ∧ t.Completed ∧ t.regs.outLen.toNat = n
      ∧ (∀ j, j < n → (t.mem.out.read j).toNat = (s.mem.cw.read j).toNat - 1)
      ∧ t.regs.segCnt = 0 ∧ t.regs.fncCnt = 0 ∧ t.regs.resMod = 1 ∧ t.regs.resEci = ⟨0, false⟩ ∧ t.regs.resSa = ⟨0, 0, false⟩

/-- 44_bsp_datamatrix.md rule R406, R408: the last pair of codewords of a C40, Text or X12 segment with three native
characters of the segment's mode decodes to them, and the command ends behind it. An X12 segment of any number of pairs
decodes to its characters; it ends where the stream ends, at a lone last codeword (rule R405), or behind an unlatch; a pair
that is 0, or whose first value is 40, is a FormatException. -/
def Obligations.NativeTripletsDecode : Prop :=
  (∀ (s : State) (x y z : Byte) (a b c : Nat), s.undisturbed → s.avail = 16 →
    s.streamField 0 s.work.bp 16 = 1600 * a + 40 * b + c + 1 →
    s.regs.outLen.toNat + 3 + s.work.trl.length ≤ 16384 →
    (s.phase = .dmStream .c40 → c40Values x.toNat = [a] → c40Values y.toNat = [b] → c40Values z.toNat = [c] →
      step s = .next (State.dmEnded (State.appended
        { s.advance 16 with work := { (s.advance 16).work with upper := false, shift := 0 } } [x, y, z])))
    ∧ (s.phase = .dmStream .text → textValues x.toNat = [a] → textValues y.toNat = [b] → textValues z.toNat = [c] →
      step s = .next (State.dmEnded (State.appended
        { s.advance 16 with work := { (s.advance 16).work with upper := false, shift := 0 } } [x, y, z])))
    ∧ (s.phase = .dmStream .x12 → x12Value x.toNat = some a → x12Value y.toNat = some b → x12Value z.toNat = some c →
      step s = .next (State.dmEnded (State.appended
        { s.advance 16 with work := { (s.advance 16).work with upper := false } } [x, y, z]))))
  ∧ (∀ (s : State) (cs : List Byte) (vs : List Nat) (n : Nat), s.undisturbed → s.phase = .dmStream .x12 →
    cs.map (fun c => x12Value c.toNat) = vs.map some → vs.length % 3 = 0 → n = 16 * (vs.length / 3) →
    s.streamHolds s.work.bp ((tripletCodewords vs).flatMap (fun b => bitsMsb b 8)) →
    s.regs.outLen.toNat + cs.length + s.work.trl.length ≤ 16384 →
    ((s.avail = n ∧ cs ≠ [] ∨ s.avail = n + 8) →
      step s = .next (State.dmAfter { (s.advance n).appended cs with work := { (s.advance n).work with upper := false } }))
    ∧ (n + 8 < s.avail → s.streamField 0 (s.work.bp + n) 8 = 254 →
      step s = .next (State.dmAfter { (s.advance (n + 8)).appended cs with
        work := { (s.advance (n + 8)).work with upper := false } }))
    ∧ (n + 16 ≤ s.avail → ∀ f, f = s.streamField 0 (s.work.bp + n) 16 → (f = 0 ∨ 64001 ≤ f ∧ f / 256 ≠ 254) →
      ∃ t, step s = .next t ∧ t.Faulted .formatException .bsp ((s.work.bp + n + 16) / 8)))

/-- 44_bsp_datamatrix.md rule R405, R406, R407, R408 with 30_encoding.md rule R133, R134, R135. A C40 or Text segment of
characters and FNC1s, each in its one, two, three or four values with the shifts and the upper shift, and at most one value 0
behind them, decodes to them; it ends where the stream ends, at a lone last codeword, or behind an unlatch. Behind right
values, in any place of a pair and whatever shift is left pending by them, a value of 40 or one the pending shift has no
meaning for is a FormatException, and so is a pair that is 0. -/
def Obligations.DmC40AndTextSegments : Prop :=
  (∀ (s : State) (text : Bool) (xs : List SegItem) (pad vs : List Nat) (n : Nat), s.undisturbed →
    s.phase = .dmStream (if text = true then .text else .c40) → (pad = [] ∨ pad = [0]) →
    vs = xs.flatMap (itemValues text) ++ pad → vs.length % 3 = 0 → n = 16 * (vs.length / 3) →
    s.streamHolds s.work.bp ((tripletCodewords vs).flatMap (fun b => bitsMsb b 8)) →
    s.regs.outLen.toNat + xs.length + s.work.trl.length ≤ 16384 → s.regs.fncCnt.toNat + xs.length ≤ 2048 →
    ((s.avail = n ∧ xs ≠ [] ∨ s.avail = n + 8) →
      step s = .next (State.dmAfter { (s.advance n).withItems xs with
        work := { (s.advance n).work with upper := false, shift := pad.length } }))
    ∧ (n + 8 < s.avail → s.streamField 0 (s.work.bp + n) 8 = 254 →
      step s = .next (State.dmAfter { (s.advance (n + 8)).withItems xs with
        work := { (s.advance (n + 8)).work with upper := false, shift := pad.length } })))
  ∧ (∀ (s : State) (text : Bool) (xs : List SegItem) (up pre before : List Nat) (j f : Nat), s.undisturbed →
    s.phase = .dmStream (if text = true then .text else .c40) → (up = [] ∨ up = [1, 30]) → before.length = 3 * j →
    s.streamHolds s.work.bp ((tripletCodewords before).flatMap (fun b => bitsMsb b 8)) →
    s.regs.outLen.toNat + xs.length ≤ 16384 → s.regs.fncCnt.toNat + xs.length ≤ 2048 → 16 * j + 16 ≤ s.avail →
    f = s.streamField 0 (s.work.bp + 16 * j) 16 → f / 256 ≠ 254 →
    (f = 0 ∧ before = xs.flatMap (itemValues text) ++ up ++ pre ∧ pre ∈ [[], [0], [1], [2]]
      ∨ 1 ≤ f ∧ ∃ us v ws, pairValues f = us ++ v :: ws ∧ before ++ us = xs.flatMap (itemValues text) ++ up ++ pre
        ∧ badValue text pre v) →
    ∃ t, step s = .next t ∧ t.Faulted .formatException .bsp ((s.work.bp + 16 * j + 16) / 8))

/-- 44_bsp_datamatrix.md rule R409: an EDIFACT segment decodes its six-bit values, four to a group; it ends where 16 bits or
fewer are left before a group, or behind the unlatch value 31 and the rest of its codeword. Rule R410 with 30_encoding.md rule
R138, R139: a Base256 segment gives its bytes and an entry in SEG, for every form of the length field; one that the stream
cuts short is a FormatException. Rule R416: the ECI segment is one codeword, reported in RES_ECI. -/
def Obligations.DmEdifactBase256AndEciSegments : Prop :=
  (∀ (s : State) (cs : List Byte) (n : Nat), s.undisturbed → s.phase = .dmStream .edifact →
    (∀ c ∈ cs, 32 ≤ c.toNat ∧ c.toNat ≤ 94) → s.regs.outLen.toNat + cs.length + s.work.trl.length ≤ 16384 →
    (cs.length % 4 = 0 ∧ n = 6 * cs.length
        ∧ s.streamHolds s.work.bp (cs.flatMap (fun c => bitsMsb (c.toNat % 64) 6)) ∧ s.avail ≤ n + 16
      ∨ s.work.bp % 8 = 0 ∧ n = 8 * ((6 * cs.length + 13) / 8)
        ∧ s.streamHolds s.work.bp (cs.flatMap (fun c => bitsMsb (c.toNat % 64) 6) ++ bitsMsb 31 6)
        ∧ 6 * (cs.length - cs.length % 4) + 16 < s.avail) →
    step s = .next (State.dmAfter { (s.advance n).appended cs with work := { (s.advance n).work with upper := false } }))
  ∧ (∀ (s : State) (cs : List Byte) (f : List Nat) (n : Nat), s.undisturbed → s.phase = .dmStream .base256 →
    s.work.bp % 8 = 0 → isB256Field f cs.length (s.avail / 8 - 1) → n = 8 * (f.length + cs.length) →
    s.streamHolds s.work.bp
      ((randomised (s.work.bp / 8 + 1) (f ++ cs.map BitVec.toNat)).flatMap (fun b => bitsMsb b 8)) →
    s.regs.outLen.toNat + cs.length + s.work.trl.length ≤ 16384 → s.regs.segCnt.toNat < 2048 →
    step s = .next (State.dmAfter { (s.advance n).appended cs with
      mem := { ((s.advance n).appended cs).mem with
        seg := s.mem.seg.write s.regs.segCnt.toNat (BitVec.ofNat 32 (s.regs.outLen.toNat + 65536 * cs.length)) }
      regs := { ((s.advance n).appended cs).regs with segCnt := s.regs.segCnt + 1 }
      work := { (s.advance n).work with upper := false } }))
  ∧ (∀ (s : State) (f : List Nat) (n : Nat), s.undisturbed → s.phase = .dmStream .base256 → s.work.bp % 8 = 0 →
    isB256Field f n 0 → s.avail < 8 * (f.length + n) → s.regs.outLen.toNat + s.avail / 8 ≤ 16384 →
    s.streamHolds s.work.bp ((randomised (s.work.bp / 8 + 1) f).flatMap (fun b => bitsMsb b 8)) →
    ∃ t, step s = .next t ∧ t.Faulted .formatException .bsp s.regs.cwLen.toNat)
  ∧ (∀ s : State, s.undisturbed → s.phase = .dmStream .base256 →
    (s.avail < 8 → ∃ t, step s = .next t ∧ t.Faulted .formatException .bsp (s.work.bp / 8))
    ∧ (8 ≤ s.avail → s.avail < 16 → 250 ≤ unrand255 (s.streamField 0 s.work.bp 8) (s.work.bp / 8 + 1) →
      ∃ t, step s = .next t ∧ t.Faulted .formatException .bsp ((s.work.bp + 8) / 8)))
  ∧ (∀ s : State, s.undisturbed → s.phase = .dmStream .eci →
    (8 ≤ s.avail → (s.advance 8).hasRoom 0 →
      step s = .next (State.dmAfter { s.advance 8 with
        work := { (s.advance 8).work with eci := true, upper := false }
        regs := { s.regs with resEci := ⟨BitVec.ofNat 20 (s.streamField 0 s.work.bp 8), true⟩ } }))
    ∧ (s.avail < 8 → ∃ t, step s = .next t ∧ t.Faulted .formatException .bsp (s.work.bp / 8)))

/-- 30_encoding.md rule R133 to R141, R151, R155: what the encoders' tables and packings make of a character or a byte, the
decoders' give back: the C40 and Text values behind each shift, the X12 and EDIFACT values, the packed triplets and
quadruples, the Base256 length field and randomised bytes, the QR alphanumeric values, and the Kanji groups of second bytes
from 0x40 on (a pair with a lower second byte decodes to another pair: log entry 21). -/
def Obligations.CodeTablesAreMutuallyInverse : Prop :=
  (∀ a b c, a < 40 → b < 40 → c < 40 →
    ∃ h l, packTriplet a b c = [h, l] ∧ h < 256 ∧ l < 256 ∧ unpackTriplet h l = some [a, b, c])
  ∧ (∀ c, c < 128 →
    ((∃ v, c40Values c = [v] ∧ 3 ≤ v ∧ v < 40 ∧ c40Basic false v = c)
      ∨ (c40Values c = [0, c] ∧ c < 32)
      ∨ (∃ v, c40Values c = [1, v] ∧ v < 27 ∧ shift2Char v = c)
      ∨ (∃ v, c40Values c = [2, v] ∧ v < 32 ∧ v + 96 = c))
    ∧ ((∃ v, textValues c = [v] ∧ 3 ≤ v ∧ v < 40 ∧ c40Basic true v = c)
      ∨ (textValues c = [0, c] ∧ c < 32)
      ∨ (∃ v, textValues c = [1, v] ∧ v < 27 ∧ shift2Char v = c)
      ∨ (∃ v, textValues c = [2, v] ∧ v < 32 ∧ textShift3 v = c))
    ∧ c40Values (c + 128) = [1, 30] ++ c40Values c ∧ textValues (c + 128) = [1, 30] ++ textValues c)
  ∧ (∀ b p, b < 256 → rand255 b p < 256 ∧ unrand255 (rand255 b p) p = b)
  ∧ (∀ bs : List Nat, 1 ≤ bs.length →
    (bs.length ≤ 249 → b256Field bs = some (bs.length :: bs))
    ∧ (250 ≤ bs.length → bs.length ≤ 1555 → ∃ d1 d2, b256Field bs = some (d1 :: d2 :: bs) ∧ 250 ≤ d1 ∧ d1 ≤ 255 ∧ d2 < 250
        ∧ 250 * (d1 - 249) + d2 = bs.length)
    ∧ (1555 < bs.length → b256Field bs = none))
  ∧ (∀ c x, x12Value c = some x → x < 40 ∧ x12Char x = some c)
  ∧ (∀ c x, edfValue c = some x → x < 64 ∧ x ≠ 31 ∧ edfChar x = c)
  ∧ (∀ a b c d, a < 64 → b < 64 → c < 64 → d < 64 →
    ∃ x y z, edfPack [a, b, c, d] = [x, y, z] ∧ edfPack [a, b, c] = [x, y, z - d] ∧ x < 256 ∧ y < 256 ∧ z < 256
      ∧ bitsMsb x 8 ++ bitsMsb y 8 ++ bitsMsb z 8 = bitsMsb a 6 ++ bitsMsb b 6 ++ bitsMsb c 6 ++ bitsMsb d 6
      ∧ edfPack [a, b] = [x, y / 16 * 16] ∧ edfPack [a] = [x / 4 * 4])
  ∧ (∀ c x, alnum c = some x → x < 45 ∧ alnumChar x = c)
  ∧ (∀ hi lo g, lo < 256 → kanjiGroup (256 * hi + lo) = some g →
      g < 8192 ∧ kanjiCode g = if 0x40 ≤ lo then 256 * hi + lo else 256 * hi + lo + 0x40)

/-! ### The QR bit-stream parser -/

/-- 45_bsp_qr.md rule R432, R446: QR.TERM ends the command with the modifier of the ECI flag and the FNC1 state in RES_MOD; an
FNC1 indicator sets that state and the stream goes on. Rule R436, R437 with 30_encoding.md rule R157: QR.SA reads sequence and
parity; QR.ECI reads a designator of one, two or three bytes, whose leading bits (0, 10, 110) are not part of the value; a
missing byte, or a first byte with three leading ones, is a FormatException. A first byte of 208 to 223 makes a value of 2^20
or more, which the 20 bits of RES_ECI.VALUE (10_state.md rule R50) do not hold: the segment is read all the same, and that the
field is then any value is the model's choice (log entry 20). -/
def Obligations.QrTerminatorFnc1SaAndEci : Prop :=
  (∀ s : State,
    exec .qrTerm s = .next (State.complete { s with
      regs := { s.regs with
        resMod :=
          if s.work.eci = true then (if s.work.fnc1 = 1 then 4 else if s.work.fnc1 = 2 then 6 else 2)
          else (if s.work.fnc1 = 1 then 3 else if s.work.fnc1 = 2 then 5 else 1) } })
    ∧ exec .qrFnc1First s = .next { s with phase := .qrStream, work := { s.work with fnc1 := 1 } }
    ∧ exec .qrFnc1Second s = .next { s with phase := .qrStream, work := { s.work with fnc1 := 2 } })
  ∧ (∀ s : State,
    (16 ≤ s.avail → exec .qrSa s = .next { s.advance 16 with
      regs := { s.regs with resSa :=
        ⟨BitVec.ofNat 8 (s.streamField 0 s.work.bp 8), BitVec.ofNat 8 (s.streamField 0 (s.work.bp + 8) 8), true⟩ }
      phase := .qrStream })
    ∧ (s.avail < 16 → ∃ t, exec .qrSa s = .next t ∧ t.Faulted .formatException .bsp (s.work.bp / 8))
    ∧ (∀ f n tag, f = s.streamField 0 s.work.bp 8 →
        n = (if f < 128 then 8 else if f < 192 then 16 else 24) →
        tag = (if f < 128 then 0 else if f < 192 then 2 ^ 15 else 3 * 2 ^ 22) →
        (f < 208 → n ≤ s.avail → exec .qrEci s = .next { s.advance n with
          regs := { s.regs with resEci := ⟨BitVec.ofNat 20 (s.streamField 0 s.work.bp n - tag), true⟩ }
          work := { (s.advance n).work with
            eci := true
            eciValue := BitVec.ofNat 20 (s.streamField 0 s.work.bp n - tag) }
          phase := .qrStream })
        ∧ (208 ≤ f → f < 224 → n ≤ s.avail → ∃ x : BitVec 20, exec .qrEci s = .next { s.advance n with
          regs := { s.regs with resEci := ⟨x, true⟩ }
          work := { (s.advance n).work with eci := true, eciValue := x }
          phase := .qrStream
          draws := s.draws + 1 })
        ∧ (8 ≤ s.avail → (224 ≤ f ∨ s.avail < n) →
          ∃ t, exec .qrEci s = .next t ∧ t.Faulted .formatException .bsp ((s.work.bp + 8) / 8)))
    ∧ (s.avail < 8 → ∃ t, exec .qrEci s = .next t ∧ t.Faulted .formatException .bsp (s.work.bp / 8)))

/-- 45_bsp_qr.md rule R438, R439 with 30_encoding.md rule R152, R153: a numeric segment decodes to the digits whose bits it
holds; an alphanumeric one to its characters, with the FNC1 escape applied to them where FNC1 is in effect: `%%` gives one
`%`, a single `%` the separator 29. Behind groups that are right, a group whose bits are not all there, or whose number is out
of its range, is a FormatException. -/
def Obligations.QrNumericAndAlphanumericSegments : Prop :=
  (∀ (s : State) (cs : List Byte), (∀ c ∈ cs, 48 ≤ c.toNat ∧ c.toNat ≤ 57) → cs.length < 2 ^ ccBits 1 s.regs.ver.toNat →
    s.streamHolds s.work.bp (bitsMsb cs.length (ccBits 1 s.regs.ver.toNat) ++ numBits (cs.map BitVec.toNat)) →
    s.regs.outLen.toNat + cs.length ≤ 16384 →
    exec .qrNum s = .next (s.afterSegment (ccBits 1 s.regs.ver.toNat + (numBits (cs.map BitVec.toNat)).length) cs))
  ∧ (∀ (s : State) (cs : List Byte), (∀ c ∈ cs, (alnum c.toNat).isSome = true) → cs.length < 2 ^ ccBits 2 s.regs.ver.toNat →
    s.streamHolds s.work.bp (bitsMsb cs.length (ccBits 2 s.regs.ver.toNat) ++ alnumBits (cs.map BitVec.toNat)) →
    s.regs.outLen.toNat + cs.length ≤ 16384 →
    let out := if s.work.fnc1 = 0 then cs else fncEscape cs
    ∃ t, exec .qrAlnum s = .next t ∧ t.phase = .qrStream
      ∧ t.work.bp = s.work.bp + ccBits 2 s.regs.ver.toNat + (alnumBits (cs.map BitVec.toNat)).length
      ∧ t.regs.outLen.toNat = s.regs.outLen.toNat + out.length
      ∧ (∀ k (hk : k < out.length), t.mem.out.read (s.regs.outLen.toNat + k) = out[k])
      ∧ (∀ a, a < s.regs.outLen.toNat → t.mem.out.read a = s.mem.out.read a))
  ∧ (∀ (s : State) (cs : List Byte) (n p g lim : Nat), (∀ c ∈ cs, 48 ≤ c.toNat ∧ c.toNat ≤ 57) → cs.length % 3 = 0 →
    cs.length < n → n < 2 ^ ccBits 1 s.regs.ver.toNat →
    s.streamHolds s.work.bp (bitsMsb n (ccBits 1 s.regs.ver.toNat) ++ numBits (cs.map BitVec.toNat)) →
    s.regs.outLen.toNat + cs.length ≤ 16384 → p = s.work.bp + ccBits 1 s.regs.ver.toNat + 10 * (cs.length / 3) →
    g = (if cs.length + 3 ≤ n then 10 else if cs.length + 2 = n then 7 else 4) →
    lim = (if cs.length + 3 ≤ n then 1000 else if cs.length + 2 = n then 100 else 10) →
    (8 * s.regs.cwLen.toNat < p + g → ∃ t, exec .qrNum s = .next t ∧ t.Faulted .formatException .bsp (p / 8))
    ∧ (p + g ≤ 8 * s.regs.cwLen.toNat → lim ≤ s.streamField 0 p g →
      ∃ t, exec .qrNum s = .next t ∧ t.Faulted .formatException .bsp ((p + g) / 8)))
  ∧ (∀ (s : State) (cs : List Byte) (n p g lim : Nat), (∀ c ∈ cs, (alnum c.toNat).isSome = true) → cs.length % 2 = 0 →
    cs.length < n → n < 2 ^ ccBits 2 s.regs.ver.toNat →
    s.streamHolds s.work.bp (bitsMsb n (ccBits 2 s.regs.ver.toNat) ++ alnumBits (cs.map BitVec.toNat)) →
    s.regs.outLen.toNat + cs.length ≤ 16384 → p = s.work.bp + ccBits 2 s.regs.ver.toNat + 11 * (cs.length / 2) →
    g = (if cs.length + 2 ≤ n then 11 else 6) → lim = (if cs.length + 2 ≤ n then 2025 else 45) →
    (8 * s.regs.cwLen.toNat < p + g → ∃ t, exec .qrAlnum s = .next t ∧ t.Faulted .formatException .bsp (p / 8))
    ∧ (p + g ≤ 8 * s.regs.cwLen.toNat → lim ≤ s.streamField 0 p g →
      ∃ t, exec .qrAlnum s = .next t ∧ t.Faulted .formatException .bsp ((p + g) / 8)))
  ∧ (fncEscape [] = [] ∧ fncEscape [37] = [29]
    ∧ ∀ (c : Byte) (cs : List Byte), (c ≠ 37 → fncEscape (c :: cs) = c :: fncEscape cs)
      ∧ fncEscape (37 :: 37 :: cs) = 37 :: fncEscape cs
      ∧ (c ≠ 37 → fncEscape (37 :: c :: cs) = 29 :: c :: fncEscape cs))

/-- 45_bsp_qr.md rule R440: a byte segment gives its bytes verbatim and an entry (offset, length) in SEG; one with too few
bits left is a FormatException. -/
def Obligations.QrByteSegment : Prop :=
  (∀ (s : State) (cs : List Byte), cs.length < 2 ^ ccBits 4 s.regs.ver.toNat →
    s.streamHolds s.work.bp (bitsMsb cs.length (ccBits 4 s.regs.ver.toNat) ++ cs.flatMap (fun c => bitsMsb c.toNat 8)) →
    s.regs.outLen.toNat + cs.length ≤ 16384 → s.regs.segCnt.toNat < 2048 →
    exec .qrByte s = .next { s.afterSegment (ccBits 4 s.regs.ver.toNat + 8 * cs.length) cs with
      mem := { (s.afterSegment (ccBits 4 s.regs.ver.toNat + 8 * cs.length) cs).mem with
        seg := s.mem.seg.write s.regs.segCnt.toNat (BitVec.ofNat 32 (s.regs.outLen.toNat + 65536 * cs.length)) }
      regs := { (s.afterSegment (ccBits 4 s.regs.ver.toNat + 8 * cs.length) cs).regs with segCnt := s.regs.segCnt + 1 } })
  ∧ (∀ s : State, ccBits 4 s.regs.ver.toNat ≤ s.avail →
    s.avail - ccBits 4 s.regs.ver.toNat < 8 * s.streamField 0 s.work.bp (ccBits 4 s.regs.ver.toNat) →
    ∃ t, exec .qrByte s = .next t
      ∧ t.Faulted .formatException .bsp ((s.work.bp + ccBits 4 s.regs.ver.toNat) / 8))

/-- 45_bsp_qr.md rule R441, R442: a Kanji or Hanzi segment gives the two bytes of every 13-bit group, the high one first (the
code is that of 30_encoding.md rule R155 and R156); groups that are not all there, or a Hanzi subset other than 1, are a
FormatException, and so is a subset or count field that is cut short, in these and in the other counted segments (rule R432).
-/
def Obligations.QrKanjiAndHanziSegments : Prop :=
  (∀ (s : State) (gs : List Nat), (∀ g ∈ gs, g < 8192) → gs.length < 2 ^ ccBits 8 s.regs.ver.toNat →
    s.streamHolds s.work.bp (bitsMsb gs.length (ccBits 8 s.regs.ver.toNat) ++ gs.flatMap (fun g => bitsMsb g 13)) →
    s.regs.outLen.toNat + 2 * gs.length ≤ 16384 →
    exec .qrKanji s = .next (s.afterSegment (ccBits 8 s.regs.ver.toNat + 13 * gs.length)
      (gs.flatMap (fun g => [BitVec.ofNat 8 (kanjiCode g / 256), BitVec.ofNat 8 (kanjiCode g % 256)]))))
  ∧ (∀ (s : State) (gs : List Nat), (∀ g ∈ gs, g < 8192) → gs.length < 2 ^ ccBits 13 s.regs.ver.toNat →
    s.streamHolds s.work.bp
      (bitsMsb 1 4 ++ bitsMsb gs.length (ccBits 13 s.regs.ver.toNat) ++ gs.flatMap (fun g => bitsMsb g 13)) →
    s.regs.outLen.toNat + 2 * gs.length ≤ 16384 →
    exec .qrHanzi s = .next (s.afterSegment (4 + ccBits 13 s.regs.ver.toNat + 13 * gs.length)
      (gs.flatMap (fun g => [BitVec.ofNat 8 (hanziCode g / 256), BitVec.ofNat 8 (hanziCode g % 256)]))))
  ∧ (∀ s : State, 4 + ccBits 13 s.regs.ver.toNat ≤ s.avail → s.streamField 0 s.work.bp 4 ≠ 1 →
    ∃ t, exec .qrHanzi s = .next t
      ∧ t.Faulted .formatException .bsp ((s.work.bp + 4 + ccBits 13 s.regs.ver.toNat) / 8))
  ∧ (∀ (s : State) (m : Nat) (p : Instr × Nat), m = s.regs.ver.toNat →
    (p = (.qrKanji, ccBits 8 m) ∨ p = (.qrHanzi, 4 + ccBits 13 m) ∧ s.streamField 0 s.work.bp 4 = 1) → p.2 ≤ s.avail →
    s.avail < p.2 + 13 * s.streamField 0 (s.work.bp + p.2 - ccBits 8 m) (ccBits 8 m) →
    ∃ t, exec p.1 s = .next t ∧ t.Faulted .formatException .bsp ((s.work.bp + p.2) / 8))
  ∧ (∀ (s : State) (p : Instr × Nat),
    p ∈ [(Instr.qrNum, 1), (.qrAlnum, 2), (.qrByte, 4), (.qrKanji, 8)] → s.avail < ccBits p.2 s.regs.ver.toNat →
    ∃ t, exec p.1 s = .next t ∧ t.Faulted .formatException .bsp (s.work.bp / 8))
  ∧ (∀ s : State, s.avail < 4 + ccBits 13 s.regs.ver.toNat →
    ∃ t, exec .qrHanzi s = .next t
      ∧ t.Faulted .formatException .bsp ((if s.avail < 4 then s.work.bp else s.work.bp + 4) / 8))
  ∧ (∀ g, g < 8192 →
    kanjiCode g = (if g / 0xC0 * 256 + g % 0xC0 < 0x1F00 then g / 0xC0 * 256 + g % 0xC0 + 0x8140
      else g / 0xC0 * 256 + g % 0xC0 + 0xC140)
    ∧ hanziCode g = (if g / 0x60 * 256 + g % 0x60 < 0x0A00 then g / 0x60 * 256 + g % 0x60 + 0xA1A1
      else g / 0x60 * 256 + g % 0x60 + 0xA6A1))

end Statements
end

