-- ==== Sys2Proof/Laws/Memory.lean ====
section
/-! SUPPORT. The laws of the buffers: a read behind a write, the reads of a buffer made from a list or a grid, and that
every memory operation keeps the canonical form (`Buf.wf`, `Memory.wf`). -/

namespace Sys2Proof.Machine

set_option Elab.async false

variable {w : Nat}

/-! ### One element -/

theorem cellAt_put (a b : Nat) (v : BitVec w) (cells : List (Nat × BitVec w)) :
    cellAt b (cellPut a v cells) = if b = a then some v else cellAt b cells := by
  induction cells with
  | nil => simp [cellPut, cellAt]
  | cons c rest ih =>
    obtain ⟨k, u⟩ := c
    simp only [cellPut]
    split
    · simp [cellAt]
    · split
      · subst k; simp only [cellAt]; split <;> rfl
      · simp only [cellAt, ih]; split
        · rename_i h1; subst h1; rw [if_neg (by omega)]
        · rfl

@[simp] theorem Buf.write_gen (b : Buf w) (a : Nat) (v : BitVec w) : (b.write a v).gen = b.gen := rfl

/-- Read after write: the element written reads as the value, every other as before. -/
theorem Buf.read_write (b : Buf w) (a c : Nat) (v : BitVec w) :
    (b.write a v).read c = if c = a then v else b.read c := by
  simp only [Buf.read, Buf.write, cellAt_put, Buf.unlisted]
  split <;> rfl

@[simp] theorem Buf.read_write_self (b : Buf w) (a : Nat) (v : BitVec w) : (b.write a v).read a = v := by
  simp [Buf.read_write]

theorem Buf.read_write_ne (b : Buf w) {a c : Nat} (v : BitVec w) (h : c ≠ a) : (b.write a v).read c = b.read c := by
  simp [Buf.read_write, h]

/-! ### A run of elements -/

theorem Buf.writeAll_gen (vs : List (BitVec w)) (b : Buf w) (a : Nat) : (b.writeAll a vs).gen = b.gen := by
  induction vs generalizing b a with
  | nil => rfl
  | cons v rest ih => simp [Buf.writeAll, ih]

/-- Below the run, every element reads as before. -/
theorem Buf.read_writeAll_lt (vs : List (BitVec w)) (b : Buf w) {a c : Nat} (h : c < a) :
    (b.writeAll a vs).read c = b.read c := by
  induction vs generalizing b a with
  | nil => rfl
  | cons v rest ih => rw [Buf.writeAll, ih _ (by omega), Buf.read_write_ne _ _ (by omega)]

/-- Beyond the run, every element reads as before. -/
theorem Buf.read_writeAll_ge (vs : List (BitVec w)) (b : Buf w) {a c : Nat} (h : a + vs.length ≤ c) :
    (b.writeAll a vs).read c = b.read c := by
  induction vs generalizing b a with
  | nil => rfl
  | cons v rest ih =>
    simp only [List.length_cons] at h
    rw [Buf.writeAll, ih _ (by omega), Buf.read_write_ne _ _ (by omega)]

/-- Inside the run, the elements read as the values. -/
theorem Buf.read_writeAll_get (vs : List (BitVec w)) (b : Buf w) (a k : Nat) (h : k < vs.length) :
    (b.writeAll a vs).read (a + k) = vs[k] := by
  induction vs generalizing b a k with
  | nil => simp at h
  | cons v rest ih =>
    cases k with
    | zero => rw [Buf.writeAll, Buf.read_writeAll_lt _ _ (by omega)]; simp
    | succ n =>
      rw [Buf.writeAll, show a + (n + 1) = (a + 1) + n from by omega, ih _ _ _ (by simpa using h)]
      simp

/-! ### The canonical form -/

theorem cellsWf_mono {lo lo' size : Nat} (h : lo' ≤ lo) (cells : List (Nat × BitVec w)) (hw : cellsWf lo size cells = true) :
    cellsWf lo' size cells = true := by
  cases cells with
  | nil => rfl
  | cons c rest => simp only [cellsWf, Bool.and_eq_true, decide_eq_true_eq] at *; exact ⟨⟨by omega, hw.1.2⟩, hw.2⟩

theorem cellsWf_put {size : Nat} (a : Nat) (v : BitVec w) (ha : a < size) (cells : List (Nat × BitVec w)) (lo : Nat)
    (hlo : lo ≤ a) (hw : cellsWf lo size cells = true) : cellsWf lo size (cellPut a v cells) = true := by
  induction cells generalizing lo with
  | nil => simp [cellPut, cellsWf, hlo, ha]
  | cons c rest ih =>
    obtain ⟨k, u⟩ := c
    simp only [cellsWf, Bool.and_eq_true, decide_eq_true_eq] at hw
    simp only [cellPut]
    split
    · simp only [cellsWf, Bool.and_eq_true, decide_eq_true_eq]
      exact ⟨⟨hlo, ha⟩, ⟨by omega, hw.1.2⟩, hw.2⟩
    · split
      · subst k; simp only [cellsWf, Bool.and_eq_true, decide_eq_true_eq]; exact ⟨⟨hlo, ha⟩, hw.2⟩
      · simp only [cellsWf, Bool.and_eq_true, decide_eq_true_eq]
        exact ⟨hw.1, ih _ (by omega) hw.2⟩

theorem cellsWf_filter {size : Nat} (f : Nat × BitVec w → Bool) (cells : List (Nat × BitVec w)) (lo : Nat)
    (hw : cellsWf lo size cells = true) : cellsWf lo size (cells.filter f) = true := by
  induction cells generalizing lo with
  | nil => rfl
  | cons c rest ih =>
    simp only [cellsWf, Bool.and_eq_true, decide_eq_true_eq] at hw
    rw [List.filter_cons]
    split
    · simp only [cellsWf, Bool.and_eq_true, decide_eq_true_eq]; exact ⟨hw.1, ih _ hw.2⟩
    · exact ih _ (cellsWf_mono (by omega) _ hw.2)

theorem Buf.write_wf {size : Nat} (b : Buf w) {a : Nat} (v : BitVec w) (ha : a < size) (hb : b.wf size = true) :
    (b.write a v).wf size = true := cellsWf_put a v ha _ _ (Nat.zero_le _) hb

theorem Buf.writeAll_wf {size : Nat} (vs : List (BitVec w)) (b : Buf w) {a : Nat} (ha : a + vs.length ≤ size)
    (hb : b.wf size = true) : (b.writeAll a vs).wf size = true := by
  induction vs generalizing b a with
  | nil => exact hb
  | cons v rest ih =>
    simp only [List.length_cons] at ha
    exact ih _ (by omega) (Buf.write_wf b v (by omega) hb)

theorem Buf.blank_wf (size gen : Nat) : (Buf.blank gen : Buf w).wf size = true := rfl

theorem Buf.forget_wf {size : Nat} (b : Buf w) (lo hi : Nat) (hb : b.wf size = true) : (b.forget lo hi).wf size = true :=
  cellsWf_filter _ _ _ hb

theorem cellsWf_zipIdx {size : Nat} (vals : List (BitVec w)) (lo : Nat) (h : lo + vals.length ≤ size) :
    cellsWf lo size ((vals.zipIdx lo).map (fun p => (p.2, p.1))) = true := by
  induction vals generalizing lo with
  | nil => rfl
  | cons v rest ih =>
    simp only [List.length_cons] at h
    simp only [List.zipIdx_cons, List.map_cons, cellsWf, Bool.and_eq_true, decide_eq_true_eq]
    exact ⟨⟨by omega, by omega⟩, ih _ (by omega)⟩

theorem Buf.ofList_wf {size : Nat} (gen : Nat) (vals : List (BitVec w)) (h : vals.length ≤ size) :
    (Buf.ofList gen vals).wf size = true := cellsWf_zipIdx vals 0 (by omega)

/-- A list of cells in canonical form, from addresses that rise strictly. -/
theorem cellsWf_of_sorted {size : Nat} (f : Nat → BitVec w) (as : List Nat) (lo : Nat)
    (hs : as.Pairwise (· < ·)) (hlo : ∀ a ∈ as, lo ≤ a) (hsz : ∀ a ∈ as, a < size) :
    cellsWf lo size (as.map (fun a => (a, f a))) = true := by
  induction as generalizing lo with
  | nil => rfl
  | cons a rest ih =>
    rw [List.pairwise_cons] at hs
    simp only [List.map_cons, cellsWf, Bool.and_eq_true, decide_eq_true_eq]
    exact ⟨⟨hlo a (by simp), hsz a (by simp)⟩,
      ih _ hs.2 (fun b hb => hs.1 b hb) (fun b hb => hsz b (by simp [hb]))⟩

theorem mem_cellAddrs {h w a : Nat} : a ∈ cellAddrs h w ↔ ∃ r < h, ∃ c < w, a = cellAddr r c := by
  simp only [cellAddrs, List.mem_flatMap, List.mem_range, List.mem_map]
  constructor
  · rintro ⟨r, hr, c, hc, rfl⟩; exact ⟨r, hr, c, hc, rfl⟩
  · rintro ⟨r, hr, c, hc, rfl⟩; exact ⟨r, hr, c, hc, rfl⟩

theorem cellAddrs_sorted (h w : Nat) (hw : w ≤ 256) : (cellAddrs h w).Pairwise (· < ·) := by
  have key : ∀ l : List Nat, l.Pairwise (· < ·) →
      (l.flatMap (fun r => (List.range w).map (fun c => cellAddr r c))).Pairwise (· < ·) := by
    intro l hl
    induction l with
    | nil => simp
    | cons r rest ih =>
      rw [List.pairwise_cons] at hl
      rw [List.flatMap_cons, List.pairwise_append]
      refine ⟨?_, ih hl.2, ?_⟩
      · rw [List.pairwise_map]
        exact List.pairwise_lt_range.imp (fun {a b} hab => by simp only [cellAddr]; omega)
      · intro a ha b hb
        simp only [List.mem_map, List.mem_range, List.mem_flatMap] at ha hb
        obtain ⟨c, hc, rfl⟩ := ha
        obtain ⟨r', hr', c', hc', rfl⟩ := hb
        have := hl.1 r' hr'
        simp only [cellAddr]; omega
  exact key _ List.pairwise_lt_range

theorem Buf.ofGrid_wf (gen : Nat) {h w : Nat} (g : Nat) (hh : h ≤ 256) (hw : w ≤ 256) :
    (Buf.ofGrid gen h w g).wf Config.gridSize = true := by
  refine cellsWf_of_sorted _ _ 0 (cellAddrs_sorted h w hw) (fun _ _ => Nat.zero_le _) ?_
  intro a ha
  obtain ⟨r, hr, c, hc, rfl⟩ := mem_cellAddrs.mp ha
  simp only [cellAddr, Config.gridSize]; omega

/-! ### The elements of a buffer made whole -/

theorem cellAt_zipIdx (vals : List (BitVec w)) (lo k : Nat) (h : k < vals.length) :
    cellAt (lo + k) ((vals.zipIdx lo).map (fun p => (p.2, p.1))) = some vals[k] := by
  induction vals generalizing lo k with
  | nil => simp at h
  | cons v rest ih =>
    simp only [List.zipIdx_cons, List.map_cons, cellAt]
    cases k with
    | zero => simp
    | succ n =>
      rw [if_neg (by omega), show lo + (n + 1) = lo + 1 + n from by omega, ih _ _ (by simpa using h)]
      simp

/-- The elements of a buffer made from a list. -/
theorem Buf.read_ofList (gen : Nat) (vals : List (BitVec w)) (k : Nat) (h : k < vals.length) :
    (Buf.ofList gen vals).read k = vals[k] := by
  have := cellAt_zipIdx vals 0 k h
  rw [Nat.zero_add] at this
  simp only [Buf.read, Buf.ofList]
  rw [this]; rfl

/-- The list a buffer was made from, read back. -/
theorem Buf.take_ofList (gen : Nat) (vals : List (BitVec w)) : (Buf.ofList gen vals).take vals.length = vals := by
  apply List.ext_getElem
  · simp [Buf.take]
  · intro k h1 h2
    simp only [Buf.take, List.getElem_map, List.getElem_range]
    exact Buf.read_ofList gen vals k h2

theorem cellAt_map (f : Nat → BitVec w) (as : List Nat) (a : Nat) (h : a ∈ as) :
    cellAt a (as.map (fun a => (a, f a))) = some (f a) := by
  induction as with
  | nil => simp at h
  | cons b rest ih =>
    simp only [List.map_cons, cellAt]
    split
    · rename_i hb; rw [hb]
    · exact ih (by simpa [‹¬ a = b›] using h)

/-- The cells of a buffer made from a grid. -/
theorem Buf.read_ofGrid (gen g : Nat) {h w r c : Nat} (hr : r < h) (hc : c < w) :
    (Buf.ofGrid gen h w g).read (cellAddr r c) = BitVec.ofBool (gridBit g r c) := by
  simp only [Buf.read, Buf.ofGrid]
  rw [cellAt_map (fun a => BitVec.ofBool (g.testBit a)) _ _ (mem_cellAddrs.mpr ⟨r, hr, c, hc, rfl⟩)]
  rfl

theorem cellAddr_inj {r c r' c' : Nat} (hc : c < 256) (hc' : c' < 256) (h : cellAddr r c = cellAddr r' c') :
    r = r' ∧ c = c' := by
  simp only [cellAddr] at h; omega

/-- Setting one cell in a grid. -/
theorem testBit_setCell (g a b : Nat) : (g ||| (1 <<< a)).testBit b = (g.testBit b || decide (b = a)) := by
  rw [Nat.testBit_or, Nat.one_shiftLeft, Nat.testBit_two_pow]
  simp only [eq_comm]

theorem gridRow_fold (f : Nat → Bool) (r0 r c : Nat) (hc : c < 256) (l : List Nat) (hl : ∀ x ∈ l, x < 256) (g : Nat) :
    gridBit (l.foldl (fun g c => if f c then g ||| (1 <<< cellAddr r0 c) else g) g) r c
      = (gridBit g r c || (decide (r = r0) && decide (c ∈ l) && f c)) := by
  induction l generalizing g with
  | nil => simp
  | cons x xs ih =>
    rw [List.foldl_cons, ih (fun y hy => hl y (by simp [hy]))]
    have hx := hl x (by simp)
    have hstep : gridBit (if f x then g ||| (1 <<< cellAddr r0 x) else g) r c
        = (gridBit g r c || (decide (r = r0) && decide (c = x) && f x)) := by
      by_cases hf : f x = true
      · rw [if_pos hf]
        simp only [gridBit, testBit_setCell, hf, Bool.and_true, ← Bool.decide_and]
        congr 1
        refine decide_eq_decide.mpr ⟨cellAddr_inj hc hx, fun h => by rw [h.1, h.2]⟩
      · simp [hf]
    rw [hstep]
    by_cases hcx : c = x
    · subst hcx; by_cases hf : f c = true <;> by_cases hr : r = r0 <;> simp [hf, hr]
    · simp [hcx]

theorem gridOf_fold (f : Nat → Nat → Bool) (w r c : Nat) (hw : w ≤ 256) (hc : c < 256) (l : List Nat) (g : Nat) :
    gridBit (l.foldl (fun g r =>
        (List.range w).foldl (fun g c => if f r c then g ||| (1 <<< cellAddr r c) else g) g) g) r c
      = (gridBit g r c || (decide (r ∈ l) && decide (c < w) && f r c)) := by
  induction l generalizing g with
  | nil => simp
  | cons x xs ih =>
    rw [List.foldl_cons, ih, gridRow_fold (f x) x r c hc _ (fun y hy => by have := List.mem_range.mp hy; omega)]
    by_cases hrx : r = x
    · subst hrx; by_cases hf : f r c = true <;> by_cases hr : c < w <;> simp [hf, hr]
    · simp [hrx]

/-- A bit of the grid of a function over `h` rows and `w` columns. -/
theorem gridBit_gridOf (h w : Nat) (f : Nat → Nat → Bool) {r c : Nat} (hw : w ≤ 256) (hc : c < 256) :
    gridBit (gridOf h w f) r c = (decide (r < h) && decide (c < w) && f r c) := by
  rw [gridOf, gridOf_fold f w r c hw hc]
  simp [gridBit]

/-- A cell of a buffer read as a grid. -/
theorem gridBit_grid (b : Buf 1) {h w r c : Nat} (hw : w ≤ 256) (hr : r < h) (hc : c < w) :
    gridBit (b.grid h w) r c = (b.read (cellAddr r c)).getLsbD 0 := by
  rw [Buf.grid, gridBit_gridOf _ _ _ hw (by omega)]
  simp [hr, hc]

/-- A grid written to a buffer and read back keeps its cells. -/
theorem gridBit_grid_ofGrid (gen g : Nat) {h w r c : Nat} (hw : w ≤ 256) (hr : r < h) (hc : c < w) :
    gridBit ((Buf.ofGrid gen h w g).grid h w) r c = gridBit g r c := by
  rw [gridBit_grid _ hw hr hc, Buf.read_ofGrid gen g hr hc]
  cases gridBit g r c <;> rfl

/-! ### The memory as a whole -/

theorem Memory.wf_iff (m : Memory) :
    m.wf = true ↔ m.txt.wf Config.txtSize = true ∧ m.cw.wf Config.cwSize = true ∧ m.grid.wf Config.gridSize = true
      ∧ m.mm.wf Config.gridSize = true ∧ m.rdm.wf Config.gridSize = true ∧ m.out.wf Config.outSize = true
      ∧ m.seg.wf Config.segSize = true ∧ m.fnc.wf Config.fncSize = true := by
  simp only [Memory.wf, Bool.and_eq_true, and_assoc]

/-- A write of one element inside its space keeps the canonical form. -/
theorem Memory.write_wf (m : Memory) (sp : Space) (a : Nat) (v : BitVec sp.width) (ha : a < sp.size) (hm : m.wf = true) :
    (m.write sp a v).wf = true := by
  rw [Memory.wf_iff] at *
  obtain ⟨h1, h2, h3, h4, h5, h6, h7, h8⟩ := hm
  cases sp
  · exact ⟨Buf.write_wf _ _ ha h1, h2, h3, h4, h5, h6, h7, h8⟩
  · exact ⟨h1, Buf.write_wf _ _ ha h2, h3, h4, h5, h6, h7, h8⟩
  · exact ⟨h1, h2, Buf.write_wf _ _ ha h3, h4, h5, h6, h7, h8⟩
  · exact ⟨h1, h2, h3, Buf.write_wf _ _ ha h4, h5, h6, h7, h8⟩
  · exact ⟨h1, h2, h3, h4, Buf.write_wf _ _ ha h5, h6, h7, h8⟩
  · exact ⟨h1, h2, h3, h4, h5, Buf.write_wf _ _ ha h6, h7, h8⟩
  · exact ⟨h1, h2, h3, h4, h5, h6, Buf.write_wf _ _ ha h7, h8⟩
  · exact ⟨h1, h2, h3, h4, h5, h6, h7, Buf.write_wf _ _ ha h8⟩

/-- A space left `any value` has its canonical form. -/
theorem Memory.blankSpace_wf (m : Memory) (sp : Space) (gen : Nat) (hm : m.wf = true) :
    (m.blankSpace sp gen).wf = true := by
  rw [Memory.wf_iff] at *
  obtain ⟨h1, h2, h3, h4, h5, h6, h7, h8⟩ := hm
  cases sp
  · exact ⟨rfl, h2, h3, h4, h5, h6, h7, h8⟩
  · exact ⟨h1, rfl, h3, h4, h5, h6, h7, h8⟩
  · exact ⟨h1, h2, rfl, h4, h5, h6, h7, h8⟩
  · exact ⟨h1, h2, h3, rfl, h5, h6, h7, h8⟩
  · exact ⟨h1, h2, h3, h4, rfl, h6, h7, h8⟩
  · exact ⟨h1, h2, h3, h4, h5, rfl, h7, h8⟩
  · exact ⟨h1, h2, h3, h4, h5, h6, rfl, h8⟩
  · exact ⟨h1, h2, h3, h4, h5, h6, h7, rfl⟩

theorem Memory.unwritten_wf (d : Nat) : (Memory.unwritten d).wf = true := rfl

theorem reset_memory_wf : State.reset.mem.wf = true := rfl

/-- Read after write by name: the element, as a word. -/
@[simp] theorem Memory.read_write_self (m : Memory) (sp : Space) (a : Nat) (v : BitVec sp.width) :
    (m.write sp a v).read sp a = v.setWidth 32 := by
  cases sp <;> exact congrArg (BitVec.setWidth 32) (Buf.read_write_self _ a v)

/-- Read after write by name: every other element as before. -/
theorem Memory.read_write_ne (m : Memory) {sp sp' : Space} {a a' : Nat} (v : BitVec sp.width) (h : sp' ≠ sp ∨ a' ≠ a) :
    (m.write sp a v).read sp' a' = m.read sp' a' := by
  cases sp <;> cases sp' <;> first
    | rfl
    | exact congrArg (BitVec.setWidth 32) (Buf.read_write_ne _ v (h.resolve_left (fun e => e rfl)))

/-- A space left `any value` reads as the free values of its draw. -/
@[simp] theorem Memory.read_blankSpace_self (m : Memory) (sp : Space) (gen a : Nat) :
    (m.blankSpace sp gen).read sp a = (Config.freeValue sp.width gen a).setWidth 32 := by
  cases sp <;> rfl

theorem Memory.read_blankSpace_ne (m : Memory) {sp sp' : Space} (gen a : Nat) (h : sp' ≠ sp) :
    (m.blankSpace sp gen).read sp' a = m.read sp' a := by
  cases sp <;> cases sp' <;> simp_all [Memory.blankSpace, Memory.read]

end Sys2Proof.Machine
end

