-- ==== Sys2Proof/Laws/State.lean ====
section
/-! SUPPORT. One lemma per component of State for every named update of it: what the update makes of the tables, the
registers, the memory, the working state, the phase, the host's side and the draws. -/

namespace Sys2Proof.Machine

set_option Elab.async false

variable (s : State)

/-! ### A completion: `State.complete` -/

@[simp] theorem State.complete_rom : s.complete.rom = s.rom := rfl
@[simp] theorem State.complete_regs : s.complete.regs =
    { s.regs with err := ⟨0, 0, 0⟩, status := s.regs.status.atCompletion } := rfl
@[simp] theorem State.complete_mem : s.complete.mem = s.mem := rfl
@[simp] theorem State.complete_work : s.complete.work = s.work := rfl
@[simp] theorem State.complete_phase : s.complete.phase = .idle := rfl
@[simp] theorem State.complete_host : s.complete.host = s.host := rfl
@[simp] theorem State.complete_readings : s.complete.readings = s.readings := rfl
@[simp] theorem State.complete_draws : s.complete.draws = s.draws := rfl

/-! ### A refused command: `State.illegal` -/

@[simp] theorem State.illegal_rom : s.illegal.rom = s.rom := rfl
@[simp] theorem State.illegal_regs : s.illegal.regs =
    { s.regs with err := ⟨5, 0, 0⟩, status := s.regs.status.atFault .illegalCommand } := rfl
@[simp] theorem State.illegal_mem : s.illegal.mem = s.mem := rfl
@[simp] theorem State.illegal_work : s.illegal.work = s.work := rfl
@[simp] theorem State.illegal_phase : s.illegal.phase = .idle := rfl
@[simp] theorem State.illegal_host : s.illegal.host = s.host := rfl
@[simp] theorem State.illegal_readings : s.illegal.readings = s.readings := rfl
@[simp] theorem State.illegal_draws : s.illegal.draws = s.draws := rfl

/-! ### An issue: `State.issue` -/

@[simp] theorem State.issue_rom (w : Word) : (s.issue w).rom = s.rom := rfl
@[simp] theorem State.issue_regs (w : Word) : (s.issue w).regs =
    { s.regs with cmd := w, err := ⟨0, 0, 0⟩, status := s.regs.status.atIssue (isParQrWord w) } := rfl
@[simp] theorem State.issue_mem (w : Word) : (s.issue w).mem = s.mem := rfl
@[simp] theorem State.issue_work (w : Word) : (s.issue w).work = s.work := rfl
@[simp] theorem State.issue_phase (w : Word) : (s.issue w).phase = .issued := rfl
@[simp] theorem State.issue_host (w : Word) : (s.issue w).host = s.host := rfl
@[simp] theorem State.issue_readings (w : Word) : (s.issue w).readings = s.readings := rfl
@[simp] theorem State.issue_draws (w : Word) : (s.issue w).draws = s.draws := rfl

/-! ### The cursor moved on: `State.advance` -/

@[simp] theorem State.advance_rom (n : Nat) : (s.advance n).rom = s.rom := rfl
@[simp] theorem State.advance_regs (n : Nat) : (s.advance n).regs = s.regs := rfl
@[simp] theorem State.advance_mem (n : Nat) : (s.advance n).mem = s.mem := rfl
@[simp] theorem State.advance_work (n : Nat) : (s.advance n).work = { s.work with bp := s.work.bp + n } := rfl
@[simp] theorem State.advance_phase (n : Nat) : (s.advance n).phase = s.phase := rfl
@[simp] theorem State.advance_host (n : Nat) : (s.advance n).host = s.host := rfl
@[simp] theorem State.advance_readings (n : Nat) : (s.advance n).readings = s.readings := rfl
@[simp] theorem State.advance_draws (n : Nat) : (s.advance n).draws = s.draws := rfl

/-! ### A shift set: `State.setShift` -/

@[simp] theorem State.setShift_rom (n : Nat) : (s.setShift n).rom = s.rom := rfl
@[simp] theorem State.setShift_regs (n : Nat) : (s.setShift n).regs = s.regs := rfl
@[simp] theorem State.setShift_mem (n : Nat) : (s.setShift n).mem = s.mem := rfl
@[simp] theorem State.setShift_work (n : Nat) : (s.setShift n).work = { s.work with shift := n } := rfl
@[simp] theorem State.setShift_phase (n : Nat) : (s.setShift n).phase = s.phase := rfl
@[simp] theorem State.setShift_host (n : Nat) : (s.setShift n).host = s.host := rfl
@[simp] theorem State.setShift_readings (n : Nat) : (s.setShift n).readings = s.readings := rfl
@[simp] theorem State.setShift_draws (n : Nat) : (s.setShift n).draws = s.draws := rfl

/-! ### An ECI value found: `State.setEci` -/

@[simp] theorem State.setEci_rom (v : Nat) : (s.setEci v).rom = s.rom := rfl
@[simp] theorem State.setEci_regs (v : Nat) : (s.setEci v).regs =
    { s.regs with resEci := ⟨eciField s.draws v, true⟩ } := rfl
@[simp] theorem State.setEci_mem (v : Nat) : (s.setEci v).mem = s.mem := rfl
@[simp] theorem State.setEci_work (v : Nat) : (s.setEci v).work =
    { s.work with eci := true, eciValue := eciField s.draws v } := rfl
@[simp] theorem State.setEci_phase (v : Nat) : (s.setEci v).phase = s.phase := rfl
@[simp] theorem State.setEci_host (v : Nat) : (s.setEci v).host = s.host := rfl
@[simp] theorem State.setEci_readings (v : Nat) : (s.setEci v).readings = s.readings := rfl
@[simp] theorem State.setEci_draws (v : Nat) : (s.setEci v).draws = if v < 2 ^ 20 then s.draws else s.draws + 1 := rfl

/-- A designator that fits RES_ECI is stored (10_state.md rule R50). -/
theorem eciField_of_lt (d : Nat) {v : Nat} (h : v < 2 ^ 20) : eciField d v = BitVec.ofNat 20 v := if_pos h

/-- A designator that does not fit RES_ECI leaves a free value (log entry 20). -/
theorem eciField_of_ge (d : Nat) {v : Nat} (h : 2 ^ 20 ≤ v) : eciField d v = Config.freeValue 20 d 0 :=
  if_neg (Nat.not_lt.mpr h)

/-! ### The stream goes on: `State.qrNext` -/

@[simp] theorem State.qrNext_rom : s.qrNext.rom = s.rom := rfl
@[simp] theorem State.qrNext_regs : s.qrNext.regs = s.regs := rfl
@[simp] theorem State.qrNext_mem : s.qrNext.mem = s.mem := rfl
@[simp] theorem State.qrNext_work : s.qrNext.work = s.work := rfl
@[simp] theorem State.qrNext_phase : s.qrNext.phase = .qrStream := rfl
@[simp] theorem State.qrNext_host : s.qrNext.host = s.host := rfl
@[simp] theorem State.qrNext_readings : s.qrNext.readings = s.readings := rfl
@[simp] theorem State.qrNext_draws : s.qrNext.draws = s.draws := rfl

/-! ### CW replaced: `State.setCw` -/

@[simp] theorem State.setCw_rom (cws : List Nat) : (s.setCw cws).rom = s.rom := rfl
@[simp] theorem State.setCw_regs (cws : List Nat) : (s.setCw cws).regs =
    { s.regs with cwLen := BitVec.ofNat 16 cws.length } := rfl
@[simp] theorem State.setCw_mem (cws : List Nat) : (s.setCw cws).mem =
    { s.mem with cw := Buf.ofList s.draws (cws.map (BitVec.ofNat 8)) } := rfl
@[simp] theorem State.setCw_work (cws : List Nat) : (s.setCw cws).work = s.work := rfl
@[simp] theorem State.setCw_phase (cws : List Nat) : (s.setCw cws).phase = s.phase := rfl
@[simp] theorem State.setCw_host (cws : List Nat) : (s.setCw cws).host = s.host := rfl
@[simp] theorem State.setCw_readings (cws : List Nat) : (s.setCw cws).readings = s.readings := rfl
@[simp] theorem State.setCw_draws (cws : List Nat) : (s.setCw cws).draws = s.draws + 1 := rfl

/-! ### A read: `State.reading` -/

@[simp] theorem State.reading_rom (v : Word) (n : Nat) : (s.reading v n).rom = s.rom := rfl
@[simp] theorem State.reading_regs (v : Word) (n : Nat) : (s.reading v n).regs = s.regs := rfl
@[simp] theorem State.reading_mem (v : Word) (n : Nat) : (s.reading v n).mem = s.mem := rfl
@[simp] theorem State.reading_work (v : Word) (n : Nat) : (s.reading v n).work = s.work := rfl
@[simp] theorem State.reading_phase (v : Word) (n : Nat) : (s.reading v n).phase = s.phase := rfl
@[simp] theorem State.reading_host (v : Word) (n : Nat) : (s.reading v n).host = s.host := rfl
@[simp] theorem State.reading_readings (v : Word) (n : Nat) : (s.reading v n).readings = v :: s.readings := rfl
@[simp] theorem State.reading_draws (v : Word) (n : Nat) : (s.reading v n).draws = s.draws + n := rfl

/-! ### WRBUSY set: `State.setWrbusy` -/

@[simp] theorem State.setWrbusy_rom : s.setWrbusy.rom = s.rom := rfl
@[simp] theorem State.setWrbusy_regs : s.setWrbusy.regs =
    { s.regs with status := { s.regs.status with wrbusy := true } } := rfl
@[simp] theorem State.setWrbusy_mem : s.setWrbusy.mem = s.mem := rfl
@[simp] theorem State.setWrbusy_work : s.setWrbusy.work = s.work := rfl
@[simp] theorem State.setWrbusy_phase : s.setWrbusy.phase = s.phase := rfl
@[simp] theorem State.setWrbusy_host : s.setWrbusy.host = s.host := rfl
@[simp] theorem State.setWrbusy_readings : s.setWrbusy.readings = s.readings := rfl
@[simp] theorem State.setWrbusy_draws : s.setWrbusy.draws = s.draws := rfl

/-! ### The reset input: `State.resetInput` -/

@[simp] theorem State.resetInput_rom : s.resetInput.rom = s.rom := rfl
@[simp] theorem State.resetInput_regs : s.resetInput.regs = Regs.reset := rfl
@[simp] theorem State.resetInput_mem : s.resetInput.mem = Memory.unwritten s.draws := rfl
@[simp] theorem State.resetInput_work : s.resetInput.work = Work.reset := rfl
@[simp] theorem State.resetInput_phase : s.resetInput.phase = .idle := rfl
@[simp] theorem State.resetInput_host : s.resetInput.host = s.host := rfl
@[simp] theorem State.resetInput_readings : s.resetInput.readings = s.readings := rfl
@[simp] theorem State.resetInput_draws : s.resetInput.draws = s.draws + 8 := rfl

/-! ### DEC.DM begun: `State.dmBegin` -/

@[simp] theorem State.dmBegin_rom : s.dmBegin.rom = s.rom := rfl
@[simp] theorem State.dmBegin_regs : s.dmBegin.regs =
    { s.regs with outLen := 0, segCnt := 0, fncCnt := 0, resEci := ⟨0, false⟩, resSa := ⟨0, 0, false⟩ } := rfl
@[simp] theorem State.dmBegin_mem : s.dmBegin.mem =
    { s.mem with out := Buf.blank s.draws, seg := Buf.blank (s.draws + 1), fnc := Buf.blank (s.draws + 2) } := rfl
@[simp] theorem State.dmBegin_work : s.dmBegin.work =
    { s.work with trl := [], eci := false, bp := 0, upper := false } := rfl
@[simp] theorem State.dmBegin_phase : s.dmBegin.phase = .dmStream .ascii := rfl
@[simp] theorem State.dmBegin_host : s.dmBegin.host = s.host := rfl
@[simp] theorem State.dmBegin_readings : s.dmBegin.readings = s.readings := rfl
@[simp] theorem State.dmBegin_draws : s.dmBegin.draws = s.draws + 3 := rfl

/-! ### DEC.QR begun: `State.qrBegin` -/

@[simp] theorem State.qrBegin_rom : s.qrBegin.rom = s.rom := rfl
@[simp] theorem State.qrBegin_regs : s.qrBegin.regs =
    { s.regs with outLen := 0, segCnt := 0, fncCnt := 0, resSa := ⟨0, 0, false⟩, resEci := ⟨0, false⟩ } := rfl
@[simp] theorem State.qrBegin_mem : s.qrBegin.mem =
    { s.mem with out := Buf.blank s.draws, seg := Buf.blank (s.draws + 1) } := rfl
@[simp] theorem State.qrBegin_work : s.qrBegin.work = { s.work with fnc1 := 0, eci := false, bp := 0 } := rfl
@[simp] theorem State.qrBegin_phase : s.qrBegin.phase = .qrStream := rfl
@[simp] theorem State.qrBegin_host : s.qrBegin.host = s.host := rfl
@[simp] theorem State.qrBegin_readings : s.qrBegin.readings = s.readings := rfl
@[simp] theorem State.qrBegin_draws : s.qrBegin.draws = s.draws + 2 := rfl

/-! ### OUT grown: `State.appended` -/

@[simp] theorem State.appended_rom (cs : List Byte) : (s.appended cs).rom = s.rom := rfl
@[simp] theorem State.appended_regs (cs : List Byte) : (s.appended cs).regs =
    { s.regs with outLen := s.regs.outLen + BitVec.ofNat 16 cs.length } := rfl
@[simp] theorem State.appended_mem (cs : List Byte) : (s.appended cs).mem =
    { s.mem with out := s.mem.out.writeAll s.regs.outLen.toNat cs } := rfl
@[simp] theorem State.appended_work (cs : List Byte) : (s.appended cs).work = s.work := rfl
@[simp] theorem State.appended_phase (cs : List Byte) : (s.appended cs).phase = s.phase := rfl
@[simp] theorem State.appended_host (cs : List Byte) : (s.appended cs).host = s.host := rfl
@[simp] theorem State.appended_readings (cs : List Byte) : (s.appended cs).readings = s.readings := rfl
@[simp] theorem State.appended_draws (cs : List Byte) : (s.appended cs).draws = s.draws := rfl

/-! ### DEC.DM ended: `State.dmEnded` -/

@[simp] theorem State.dmEnded_rom : s.dmEnded.rom = s.rom := rfl
@[simp] theorem State.dmEnded_regs : s.dmEnded.regs =
    { (s.appended s.work.trl).regs with
      resMod := BitVec.ofNat 3 (dmModifier s.work.eci s.fncList)
      err := ⟨0, 0, 0⟩
      status := s.regs.status.atCompletion } := rfl
@[simp] theorem State.dmEnded_mem : s.dmEnded.mem = (s.appended s.work.trl).mem := rfl
@[simp] theorem State.dmEnded_work : s.dmEnded.work = s.work := rfl
@[simp] theorem State.dmEnded_phase : s.dmEnded.phase = .idle := rfl
@[simp] theorem State.dmEnded_host : s.dmEnded.host = s.host := rfl
@[simp] theorem State.dmEnded_readings : s.dmEnded.readings = s.readings := rfl
@[simp] theorem State.dmEnded_draws : s.dmEnded.draws = s.draws := rfl

/-! ### DEC.QR ended: `State.qrFinish` -/

@[simp] theorem State.qrFinish_rom : s.qrFinish.rom = s.rom := rfl
@[simp] theorem State.qrFinish_regs : s.qrFinish.regs =
    { s.regs with
      resMod := BitVec.ofNat 3 (qrModifier s.work.eci s.work.fnc1)
      err := ⟨0, 0, 0⟩
      status := s.regs.status.atCompletion } := rfl
@[simp] theorem State.qrFinish_mem : s.qrFinish.mem = s.mem := rfl
@[simp] theorem State.qrFinish_work : s.qrFinish.work = s.work := rfl
@[simp] theorem State.qrFinish_phase : s.qrFinish.phase = .idle := rfl
@[simp] theorem State.qrFinish_host : s.qrFinish.host = s.host := rfl
@[simp] theorem State.qrFinish_readings : s.qrFinish.readings = s.readings := rfl
@[simp] theorem State.qrFinish_draws : s.qrFinish.draws = s.draws := rfl

/-! ### The encoder written back: `State.setEnc` -/

@[simp] theorem State.setEnc_rom (e : Enc) : (s.setEnc e).rom = s.rom := rfl
@[simp] theorem State.setEnc_regs (e : Enc) : (s.setEnc e).regs =
    { s.regs with
      cwLen := BitVec.ofNat 16 e.len
      tceMode := BitVec.ofNat 3 e.mode.num
      tcePos := BitVec.ofNat 16 e.pos
      tceNew := newReg e.new
      tceSkip := BitVec.ofNat 2 e.skip } := rfl
@[simp] theorem State.setEnc_mem (e : Enc) : (s.setEnc e).mem =
    { s.mem with
      cw := Buf.ofList s.mem.cw.gen ((e.rev.reverse.take Config.cwSize).map (BitVec.ofNat 8)) } := rfl
@[simp] theorem State.setEnc_work (e : Enc) : (s.setEnc e).work =
    { s.work with
      vb := e.vb.map (BitVec.ofNat 8)
      sz := e.sz
      cost := e.cost.regs
      k := BitVec.ofNat 16 e.k } := rfl
@[simp] theorem State.setEnc_phase (e : Enc) : (s.setEnc e).phase = s.phase := rfl
@[simp] theorem State.setEnc_host (e : Enc) : (s.setEnc e).host = s.host := rfl
@[simp] theorem State.setEnc_readings (e : Enc) : (s.setEnc e).readings = s.readings := rfl
@[simp] theorem State.setEnc_draws (e : Enc) : (s.setEnc e).draws = s.draws := rfl

/-! ### ENC.DM's results: `State.setEncResult` -/

@[simp] theorem State.setEncResult_rom (e : Enc) (idx : Nat) : (s.setEncResult e idx).rom = s.rom := rfl
@[simp] theorem State.setEncResult_regs (e : Enc) (idx : Nat) : (s.setEncResult e idx).regs =
    { (s.setEnc e).regs with sym := BitVec.ofNat 5 idx, resMode := BitVec.ofNat 4 e.mode.num } := rfl
@[simp] theorem State.setEncResult_mem (e : Enc) (idx : Nat) : (s.setEncResult e idx).mem = (s.setEnc e).mem := rfl
@[simp] theorem State.setEncResult_work (e : Enc) (idx : Nat) : (s.setEncResult e idx).work = (s.setEnc e).work := rfl
@[simp] theorem State.setEncResult_phase (e : Enc) (idx : Nat) : (s.setEncResult e idx).phase = s.phase := rfl
@[simp] theorem State.setEncResult_host (e : Enc) (idx : Nat) : (s.setEncResult e idx).host = s.host := rfl
@[simp] theorem State.setEncResult_readings (e : Enc) (idx : Nat) : (s.setEncResult e idx).readings =
    s.readings := rfl
@[simp] theorem State.setEncResult_draws (e : Enc) (idx : Nat) : (s.setEncResult e idx).draws = s.draws := rfl

/-! ### ENC.DM begun: `State.encBegin` -/

@[simp] theorem State.encBegin_rom : s.encBegin.rom = s.rom := rfl
@[simp] theorem State.encBegin_regs : s.encBegin.regs = (s.setEnc (encStart s.encIn s.enc)).regs := rfl
@[simp] theorem State.encBegin_mem : s.encBegin.mem =
    { s.mem with cw := Buf.ofList s.draws ((encStart s.encIn s.enc).rev.map (BitVec.ofNat 8)) } := rfl
@[simp] theorem State.encBegin_work : s.encBegin.work = (s.setEnc (encStart s.encIn s.enc)).work := rfl
@[simp] theorem State.encBegin_phase : s.encBegin.phase = .encDm := rfl
@[simp] theorem State.encBegin_host : s.encBegin.host = s.host := rfl
@[simp] theorem State.encBegin_readings : s.encBegin.readings = s.readings := rfl
@[simp] theorem State.encBegin_draws : s.encBegin.draws = s.draws + 1 := rfl

/-! ### A Data Matrix symbol: `State.setDmSymbol` -/

@[simp] theorem State.setDmSymbol_rom (r : DmRow) (mm : Nat) (w : Walk) : (s.setDmSymbol r mm w).rom = s.rom := rfl
@[simp] theorem State.setDmSymbol_regs (r : DmRow) (mm : Nat) (w : Walk) : (s.setDmSymbol r mm w).regs =
    { s.regs with gridH := BitVec.ofNat 8 (dmSymH r), gridW := BitVec.ofNat 8 (dmSymW r) } := rfl
@[simp] theorem State.setDmSymbol_mem (r : DmRow) (mm : Nat) (w : Walk) : (s.setDmSymbol r mm w).mem =
    { s.mem with
      mm := Buf.ofGrid s.draws (dmNr r) (dmNc r) mm
      rdm := Buf.ofGrid (s.draws + 1) (dmNr r) (dmNc r) w.seen
      grid := Buf.ofGrid (s.draws + 2) (dmSymH r) (dmSymW r) (gridOf (dmSymH r) (dmSymW r) (symbolCell r mm)) } := rfl
@[simp] theorem State.setDmSymbol_work (r : DmRow) (mm : Nat) (w : Walk) : (s.setDmSymbol r mm w).work =
    { s.work with row := w.row, col := w.col, cwpos := w.placed.length } := rfl
@[simp] theorem State.setDmSymbol_phase (r : DmRow) (mm : Nat) (w : Walk) : (s.setDmSymbol r mm w).phase =
    s.phase := rfl
@[simp] theorem State.setDmSymbol_host (r : DmRow) (mm : Nat) (w : Walk) : (s.setDmSymbol r mm w).host = s.host := rfl
@[simp] theorem State.setDmSymbol_readings (r : DmRow) (mm : Nat) (w : Walk) : (s.setDmSymbol r mm w).readings =
    s.readings := rfl
@[simp] theorem State.setDmSymbol_draws (r : DmRow) (mm : Nat) (w : Walk) : (s.setDmSymbol r mm w).draws =
    s.draws + 3 := rfl

/-! ### The results of PAR.DM: `State.setDmRead` -/

@[simp] theorem State.setDmRead_rom (idx : Nat) (r : DmRow) (mm : Nat) (cws : List Nat) (w : Walk) :
    (s.setDmRead idx r mm cws w).rom = s.rom := rfl
@[simp] theorem State.setDmRead_regs (idx : Nat) (r : DmRow) (mm : Nat) (cws : List Nat) (w : Walk) :
    (s.setDmRead idx r mm cws w).regs =
      { s.regs with cwLen := BitVec.ofNat 16 cws.length, sym := BitVec.ofNat 5 idx } := rfl
@[simp] theorem State.setDmRead_mem (idx : Nat) (r : DmRow) (mm : Nat) (cws : List Nat) (w : Walk) :
    (s.setDmRead idx r mm cws w).mem =
      { s.mem with
        cw := Buf.ofList s.draws (cws.map (BitVec.ofNat 8))
        mm := Buf.ofGrid (s.draws + 1) (dmNr r) (dmNc r) mm
        rdm := Buf.ofGrid (s.draws + 2) (dmNr r) (dmNc r) w.seen } := rfl
@[simp] theorem State.setDmRead_work (idx : Nat) (r : DmRow) (mm : Nat) (cws : List Nat) (w : Walk) :
    (s.setDmRead idx r mm cws w).work = { s.work with row := w.row, col := w.col, cwpos := w.placed.length } := rfl
@[simp] theorem State.setDmRead_phase (idx : Nat) (r : DmRow) (mm : Nat) (cws : List Nat) (w : Walk) :
    (s.setDmRead idx r mm cws w).phase = s.phase := rfl
@[simp] theorem State.setDmRead_host (idx : Nat) (r : DmRow) (mm : Nat) (cws : List Nat) (w : Walk) :
    (s.setDmRead idx r mm cws w).host = s.host := rfl
@[simp] theorem State.setDmRead_readings (idx : Nat) (r : DmRow) (mm : Nat) (cws : List Nat) (w : Walk) :
    (s.setDmRead idx r mm cws w).readings = s.readings := rfl
@[simp] theorem State.setDmRead_draws (idx : Nat) (r : DmRow) (mm : Nat) (cws : List Nat) (w : Walk) :
    (s.setDmRead idx r mm cws w).draws = s.draws + 3 := rfl

/-! ### A QR symbol: `State.setQrSymbol` -/

@[simp] theorem State.setQrSymbol_rom (v : Nat) (c : Candidate) : (s.setQrSymbol v c).rom = s.rom := rfl
@[simp] theorem State.setQrSymbol_regs (v : Nat) (c : Candidate) : (s.setQrSymbol v c).regs =
    { s.regs with
      gridH := BitVec.ofNat 8 (qrDim v)
      gridW := BitVec.ofNat 8 (qrDim v)
      resMask := BitVec.ofNat 3 c.mask
      resPen := BitVec.ofNat 32 c.pen } := rfl
@[simp] theorem State.setQrSymbol_mem (v : Nat) (c : Candidate) : (s.setQrSymbol v c).mem =
    { s.mem with
      grid := Buf.ofGrid s.draws (qrDim v) (qrDim v) c.grid
      rdm := Buf.ofGrid (s.draws + 1) (qrDim v) (qrDim v) (qrFp s.rom v) } := rfl
@[simp] theorem State.setQrSymbol_work (v : Nat) (c : Candidate) : (s.setQrSymbol v c).work =
    { s.work with
      x := -1
      y := qrDim v - 1
      dirUp := true
      bitpos := 8 * s.regs.cwLen.toNat
      best := BitVec.ofNat 3 c.mask
      bestpen := c.pen } := rfl
@[simp] theorem State.setQrSymbol_phase (v : Nat) (c : Candidate) : (s.setQrSymbol v c).phase = s.phase := rfl
@[simp] theorem State.setQrSymbol_host (v : Nat) (c : Candidate) : (s.setQrSymbol v c).host = s.host := rfl
@[simp] theorem State.setQrSymbol_readings (v : Nat) (c : Candidate) : (s.setQrSymbol v c).readings =
    s.readings := rfl
@[simp] theorem State.setQrSymbol_draws (v : Nat) (c : Candidate) : (s.setQrSymbol v c).draws = s.draws + 2 := rfl

/-! ### The results of PAR.QR: `State.setQrRead` -/

@[simp] theorem State.setQrRead_rom (r : QrRead) (mirrored : Bool) : (s.setQrRead r mirrored).rom = s.rom := rfl
@[simp] theorem State.setQrRead_regs (r : QrRead) (mirrored : Bool) : (s.setQrRead r mirrored).regs =
    { s.regs with
      cwLen := BitVec.ofNat 16 r.cws.length
      ver := BitVec.ofNat 6 r.ver
      resEcl := BitVec.ofNat 2 (ecBits (r.fmt / 8))
      resMask := BitVec.ofNat 3 (r.fmt % 8)
      status := { s.regs.status with mirrored := mirrored } } := rfl
@[simp] theorem State.setQrRead_mem (r : QrRead) (mirrored : Bool) : (s.setQrRead r mirrored).mem =
    { s.mem with
      cw := Buf.ofList s.draws (r.cws.map (BitVec.ofNat 8))
      rdm := Buf.ofGrid (s.draws + 1) (qrDim r.ver) (qrDim r.ver) (qrFp s.rom r.ver) } := rfl
@[simp] theorem State.setQrRead_work (r : QrRead) (mirrored : Bool) : (s.setQrRead r mirrored).work =
    { s.work with
      x := -1
      y := qrDim r.ver - 1
      dirUp := true
      bitpos := 8 * r.cws.length } := rfl
@[simp] theorem State.setQrRead_phase (r : QrRead) (mirrored : Bool) : (s.setQrRead r mirrored).phase = s.phase := rfl
@[simp] theorem State.setQrRead_host (r : QrRead) (mirrored : Bool) : (s.setQrRead r mirrored).host = s.host := rfl
@[simp] theorem State.setQrRead_readings (r : QrRead) (mirrored : Bool) : (s.setQrRead r mirrored).readings =
    s.readings := rfl
@[simp] theorem State.setQrRead_draws (r : QrRead) (mirrored : Bool) : (s.setQrRead r mirrored).draws =
    s.draws + 2 := rfl

/-! ### Equations of the derived views -/

/-- BUSY is 0 exactly in the idle phase (10_state.md rule R34). -/
theorem State.busy_iff : s.busy = true ↔ s.phase ≠ .idle := by simp [State.busy]

theorem State.not_busy_iff : s.busy = false ↔ s.phase = .idle := by simp [State.busy]

theorem State.avail_eq : s.avail = 8 * s.regs.cwLen.toNat - s.work.bp := rfl

/-- Moving the cursor leaves fewer bits. -/
theorem State.avail_advance (n : Nat) : (s.advance n).avail = s.avail - n := by
  simp only [State.avail_eq, State.advance_regs, State.advance_work]; omega

/-- Two moves of the cursor are one. -/
theorem State.advance_advance (m n : Nat) : (s.advance m).advance n = s.advance (m + n) := by
  simp only [State.advance, Nat.add_assoc]

theorem State.illegal_eq_refusedCommand : s.illegal = s.refusedCommand := by
  simp [State.illegal, State.raise, State.refusedCommand, Status.atFault, Exn.code, UnitId.num]

end Sys2Proof.Machine
end

