-- ==== Sys2Proof/Laws/Ops.lean ====
section
/-! SUPPORT. One lemma per shared operation of the machine: what it answers and when. -/

namespace Sys2Proof.Machine

set_option Elab.async false

/-! ### The results of a stream element or a command -/

@[simp] theorem State.streamEnd_ok (s t : State) (ws : List Loc) : s.streamEnd ws (.ok t) = t := rfl

@[simp] theorem State.streamEnd_error (s : State) (ws : List Loc) (r : Raise) :
    s.streamEnd ws (.error r) = s.raise r.exn .bsp r.info ws := rfl

@[simp] theorem State.finish_ok (s t : State) (u : UnitId) (ws : List Loc) : s.finish u ws (.ok t) = t.complete := rfl

@[simp] theorem State.finish_error (s : State) (u : UnitId) (ws : List Loc) (r : Raise) :
    s.finish u ws (.error r) = s.raise r.exn u r.info ws := rfl

@[simp] theorem dmNextOf_ok (t : State) : dmNextOf (.ok t) = t.dmNext := rfl
@[simp] theorem dmNextOf_error (r : Raise) : dmNextOf (.error r) = .error r := rfl
@[simp] theorem qrNextOf_ok (t : State) : qrNextOf (.ok t) = .ok t.qrNext := rfl
@[simp] theorem qrNextOf_error (r : Raise) : qrNextOf (.error r) = .error r := rfl

/-! ### `readBits` (20_memory.md rule R85) -/

theorem State.readBits_ok {s : State} {n : Nat} (h : n ≤ s.avail) :
    s.readBits n = .ok (s.streamField 0 s.work.bp n, s.advance n) := by
  rw [State.readBits, if_neg (by omega)]

theorem State.readBits_error {s : State} {n : Nat} (h : s.avail < n) : s.readBits n = .error s.formatErr := by
  rw [State.readBits, if_pos h]

/-- Everything `readBits` can answer. -/
theorem State.readBits_cases (s : State) (n : Nat) :
    (n ≤ s.avail ∧ s.readBits n = .ok (s.streamField 0 s.work.bp n, s.advance n))
      ∨ (s.avail < n ∧ s.readBits n = .error s.formatErr) := by
  by_cases h : n ≤ s.avail
  · exact .inl ⟨h, State.readBits_ok h⟩
  · exact .inr ⟨by omega, State.readBits_error (by omega)⟩

theorem State.streamField_lt (s : State) (n : Nat) : ∀ acc p m, acc < 2 ^ m → s.streamField acc p n < 2 ^ (m + n) := by
  induction n with
  | zero => intro acc p m h; exact h
  | succ n ih =>
    intro acc p m h
    rw [State.streamField, show m + (n + 1) = (m + 1) + n from by omega]
    refine ih _ _ _ ?_
    have : flagNat (s.streamBit p) ≤ 1 := by unfold flagNat; split <;> omega
    rw [Nat.pow_succ]; omega

/-- A field of `n` bits is below `2 ^ n`. -/
theorem State.field_lt (s : State) (p n : Nat) : s.streamField 0 p n < 2 ^ n := by
  have := s.streamField_lt n 0 p 0 (by simp)
  rwa [Nat.zero_add] at this

theorem State.streamField_split (s : State) (n : Nat) : ∀ acc p m,
    s.streamField acc p (n + m) = s.streamField (s.streamField acc p n) (p + n) m := by
  induction n with
  | zero => intro acc p m; simp [State.streamField]
  | succ n ih =>
    intro acc p m
    rw [show n + 1 + m = (n + m) + 1 from by omega, State.streamField, ih, State.streamField,
      show p + 1 + n = p + (n + 1) from by omega]

theorem State.streamField_acc (s : State) (n : Nat) : ∀ acc p, s.streamField acc p n = acc * 2 ^ n + s.streamField 0 p n := by
  induction n with
  | zero => intro acc p; simp [State.streamField]
  | succ n ih =>
    intro acc p
    rw [State.streamField, State.streamField, ih, ih (2 * 0 + _), Nat.pow_succ]
    ring

/-- Eight bits from a codeword boundary are that codeword (20_memory.md rule R85). -/
theorem State.field_codeword (s : State) (i : Nat) : s.streamField 0 (8 * i) 8 = s.cwAt i := by
  have hbit : ∀ k, k < 8 → s.streamBit (8 * i + k) = (s.mem.cw.read i).getMsbD k := by
    intro k hk
    simp only [State.streamBit]
    rw [show (8 * i + k) / 8 = i from by omega, show (8 * i + k) % 8 = k from by omega]
  have h0 := hbit 0 (by omega)
  rw [Nat.add_zero] at h0
  simp only [State.streamField, State.cwAt, h0, hbit 1 (by omega), hbit 2 (by omega), hbit 3 (by omega), hbit 4 (by omega),
    hbit 5 (by omega), hbit 6 (by omega), hbit 7 (by omega), Nat.add_assoc]
  generalize s.mem.cw.read i = b
  revert b
  decide +kernel

/-! ### U4's output -/

theorem State.appended_nil (s : State) : s.appended [] = s := by
  simp [State.appended, Buf.writeAll]

/-- Appending twice is appending once. -/
theorem State.appended_append (s : State) (cs ds : List Byte)
    (h : s.regs.outLen.toNat + cs.length < 65536) : (s.appended cs).appended ds = s.appended (cs ++ ds) := by
  have hw : ∀ (xs ys : List Byte) (b : Buf 8) (a : Nat),
      (b.writeAll a xs).writeAll (a + xs.length) ys = b.writeAll a (xs ++ ys) := by
    intro xs
    induction xs with
    | nil => intro ys b a; simp [Buf.writeAll]
    | cons x xs ih =>
      intro ys b a
      rw [Buf.writeAll, List.length_cons, show a + (xs.length + 1) = a + 1 + xs.length from by omega, ih]
      rfl
  have hlen : (s.regs.outLen + BitVec.ofNat 16 cs.length).toNat = s.regs.outLen.toNat + cs.length := by
    simp only [BitVec.toNat_add, BitVec.toNat_ofNat]; omega
  simp only [State.appended, hlen, hw, List.length_append]
  congr 2
  rw [BitVec.add_assoc]
  congr 1
  apply BitVec.eq_of_toNat_eq
  simp only [BitVec.toNat_add, BitVec.toNat_ofNat]
  omega

/-- `out` where OUT has room. -/
theorem State.out_ok {s : State} (c : Byte) (h : s.regs.outLen.toNat < Config.outSize) :
    s.out c = .ok (s.appended [c]) := by
  rw [State.out, if_pos h]; rfl

/-- `out` where OUT is full. -/
theorem State.out_error {s : State} (c : Byte) (h : Config.outSize ≤ s.regs.outLen.toNat) :
    s.out c = .error defectErr := by
  rw [State.out, if_neg (by omega)]

/-- `out` of a list where OUT has room. -/
theorem State.outAll_ok (cs : List Byte) : ∀ {s : State}, s.regs.outLen.toNat + cs.length ≤ Config.outSize →
    s.outAll cs = .ok (s.appended cs) := by
  induction cs with
  | nil => intro s _; rw [State.appended_nil]; rfl
  | cons c rest ih =>
    intro s h
    simp only [List.length_cons, Config.outSize] at h
    rw [State.outAll, State.out_ok c (by simp only [Config.outSize]; omega)]
    have hlen : (s.appended [c]).regs.outLen.toNat = s.regs.outLen.toNat + 1 := by
      simp only [State.appended_regs, List.length_cons, List.length_nil, BitVec.toNat_add, BitVec.toNat_ofNat]
      omega
    simp only
    rw [ih (by rw [hlen]; simp only [Config.outSize]; omega), State.appended_append _ _ _ (by simp; omega)]
    rfl

/-- `out` of a list where OUT has not enough room. -/
theorem State.outAll_error (cs : List Byte) : ∀ {s : State}, Config.outSize < s.regs.outLen.toNat + cs.length →
    cs ≠ [] → s.outAll cs = .error defectErr := by
  induction cs with
  | nil => intro s _ h; exact absurd rfl h
  | cons c rest ih =>
    intro s h _
    simp only [List.length_cons] at h
    by_cases hr : s.regs.outLen.toNat < Config.outSize
    · rw [State.outAll, State.out_ok c hr]
      simp only [Config.outSize] at hr h
      refine ih ?_ ?_
      · simp only [State.appended_regs, List.length_cons, List.length_nil, BitVec.toNat_add, BitVec.toNat_ofNat,
          Config.outSize]
        omega
      · rintro rfl; simp only [List.length_nil] at h; omega
    · rw [State.outAll, State.out_error c (by omega)]

/-- Everything `out` of a list can answer. -/
theorem State.outAll_cases (s : State) (cs : List Byte) :
    s.outAll cs = .ok (s.appended cs) ∨ s.outAll cs = .error defectErr := by
  by_cases h : s.regs.outLen.toNat + cs.length ≤ Config.outSize
  · exact .inl (State.outAll_ok cs h)
  · cases cs with
    | nil => left; rw [State.appended_nil]; rfl
    | cons c rest => exact .inr (State.outAll_error _ (by omega) (by simp))

/-- What `addSegment` leaves. -/
def State.withSegment (s : State) (off len : Nat) : State :=
  { s with
    mem.seg := s.mem.seg.write s.regs.segCnt.toNat (BitVec.ofNat 32 (off + 65536 * len))
    regs.segCnt := s.regs.segCnt + 1 }

theorem State.addSegment_ok {s : State} (off len : Nat) (h : s.regs.segCnt.toNat < Config.segSize) :
    s.addSegment off len = .ok (s.withSegment off len) := by
  rw [State.addSegment, if_pos h]; rfl

theorem State.addSegment_cases (s : State) (off len : Nat) :
    (s.regs.segCnt.toNat < Config.segSize ∧ s.addSegment off len = .ok (s.withSegment off len))
      ∨ (Config.segSize ≤ s.regs.segCnt.toNat ∧ s.addSegment off len = .error defectErr) := by
  by_cases h : s.regs.segCnt.toNat < Config.segSize
  · exact .inl ⟨h, State.addSegment_ok off len h⟩
  · exact .inr ⟨by omega, by rw [State.addSegment, if_neg h]⟩

/-- An FNC1 recorded: its position in FNC, before the separator goes to OUT (44_bsp_datamatrix.md rule R399). -/
def State.withFnc1 (s : State) : State :=
  { s with
    mem.fnc := s.mem.fnc.write s.regs.fncCnt.toNat s.regs.outLen
    regs.fncCnt := s.regs.fncCnt + 1 }

theorem State.addFnc1_ok {s : State} (hf : s.regs.fncCnt.toNat < Config.fncSize)
    (ho : s.regs.outLen.toNat < Config.outSize) : s.addFnc1 = .ok (s.withFnc1.appended [29]) := by
  rw [State.addFnc1, if_pos hf]
  exact State.out_ok 29 (s := s.withFnc1) ho

theorem State.addFnc1_cases (s : State) :
    (s.regs.fncCnt.toNat < Config.fncSize ∧ s.addFnc1 = .ok (s.withFnc1.appended [29]))
      ∨ s.addFnc1 = .error defectErr := by
  by_cases hf : s.regs.fncCnt.toNat < Config.fncSize
  · rw [State.addFnc1, if_pos hf]
    by_cases ho : s.regs.outLen.toNat < Config.outSize
    · exact .inl ⟨hf, State.out_ok 29 (s := s.withFnc1) ho⟩
    · exact .inr (State.out_error 29 (s := s.withFnc1) (by simpa [State.withFnc1] using ho))
  · exact .inr (by rw [State.addFnc1, if_neg hf])

/-! ### The end of DEC.DM -/

/-- The end of DEC.DM where OUT has room for the macro trailers. -/
theorem State.dmFinish_ok {s : State} (h : s.regs.outLen.toNat + s.work.trl.length ≤ Config.outSize) :
    s.dmFinish = .ok s.dmEnded := by
  rw [State.dmFinish, State.outAll_ok _ h]; rfl

theorem State.dmFinish_cases (s : State) : s.dmFinish = .ok s.dmEnded ∨ s.dmFinish = .error defectErr := by
  rw [State.dmFinish]
  rcases s.outAll_cases s.work.trl with h | h <;> rw [h]
  · exact .inl rfl
  · exact .inr rfl

/-- `dmNext` where OUT has room for the trailers, if they are due. -/
theorem State.dmNext_ok {s : State} (h : s.hasRoom 0) : s.dmNext = .ok s.dmAfter := by
  rw [State.dmNext, State.dmAfter]
  split
  · refine State.dmFinish_ok ?_
    simpa [State.hasRoom, *] using h
  · rfl

theorem State.dmNext_cases (s : State) : s.dmNext = .ok s.dmAfter ∨ s.dmNext = .error defectErr := by
  rw [State.dmNext, State.dmAfter]
  split
  · exact s.dmFinish_cases
  · exact .inl rfl

theorem State.hasRoom_appended {s : State} (cs : List Byte) (n : Nat) (h : s.hasRoom (cs.length + n)) :
    (s.appended cs).hasRoom n := by
  simp only [State.hasRoom, Config.outSize, State.avail_eq, State.appended_regs, State.appended_work, BitVec.toNat_add,
    BitVec.toNat_ofNat] at *
  by_cases hz : 8 * s.regs.cwLen.toNat - s.work.bp = 0 <;> simp only [hz, ↓reduceIte] at h ⊢ <;> omega

/-! ### Leaving a location `any value`, and taking a fault -/

@[simp] theorem State.havoc_nil (s : State) : s.havoc [] = s := rfl
@[simp] theorem State.havoc_cons (s : State) (l : Loc) (ls : List Loc) : s.havoc (l :: ls) = (s.havocLoc l).havoc ls := rfl

@[simp] theorem State.havocLoc_draws (s : State) (l : Loc) : (s.havocLoc l).draws = s.draws + 1 := by cases l <;> rfl
@[simp] theorem State.havocLoc_phase (s : State) (l : Loc) : (s.havocLoc l).phase = s.phase := by cases l <;> rfl
@[simp] theorem State.havocLoc_rom (s : State) (l : Loc) : (s.havocLoc l).rom = s.rom := by cases l <;> rfl
@[simp] theorem State.havocLoc_host (s : State) (l : Loc) : (s.havocLoc l).host = s.host := by cases l <;> rfl
@[simp] theorem State.havocLoc_readings (s : State) (l : Loc) : (s.havocLoc l).readings = s.readings := by cases l <;> rfl
@[simp] theorem State.havocLoc_status (s : State) (l : Loc) : (s.havocLoc l).regs.status = s.regs.status := by
  cases l <;> rfl
@[simp] theorem State.havocLoc_err (s : State) (l : Loc) : (s.havocLoc l).regs.err = s.regs.err := by cases l <;> rfl

theorem State.havoc_draws (ls : List Loc) : ∀ s : State, (s.havoc ls).draws = s.draws + ls.length := by
  induction ls with
  | nil => intro s; rfl
  | cons l rest ih => intro s; rw [State.havoc_cons, ih, State.havocLoc_draws, List.length_cons]; omega
theorem State.havoc_rom (ls : List Loc) : ∀ s : State, (s.havoc ls).rom = s.rom := by
  induction ls with
  | nil => intro s; rfl
  | cons l rest ih => intro s; rw [State.havoc_cons, ih, State.havocLoc_rom]
theorem State.havoc_host (ls : List Loc) : ∀ s : State, (s.havoc ls).host = s.host := by
  induction ls with
  | nil => intro s; rfl
  | cons l rest ih => intro s; rw [State.havoc_cons, ih, State.havocLoc_host]
theorem State.havoc_readings (ls : List Loc) : ∀ s : State, (s.havoc ls).readings = s.readings := by
  induction ls with
  | nil => intro s; rfl
  | cons l rest ih => intro s; rw [State.havoc_cons, ih, State.havocLoc_readings]
theorem State.havoc_status (ls : List Loc) : ∀ s : State, (s.havoc ls).regs.status = s.regs.status := by
  induction ls with
  | nil => intro s; rfl
  | cons l rest ih => intro s; rw [State.havoc_cons, ih, State.havocLoc_status]

@[simp] theorem State.raise_phase (s : State) (x : Exn) (u : UnitId) (n : Nat) (ws : List Loc) :
    (s.raise x u n ws).phase = .idle := rfl
@[simp] theorem State.raise_err (s : State) (x : Exn) (u : UnitId) (n : Nat) (ws : List Loc) :
    (s.raise x u n ws).regs.err = ⟨x.code, u.num, BitVec.ofNat 16 n⟩ := rfl
@[simp] theorem State.raise_status (s : State) (x : Exn) (u : UnitId) (n : Nat) (ws : List Loc) :
    (s.raise x u n ws).regs.status = s.regs.status.atFault x := by
  simp only [State.raise]; split
  · rfl
  · rw [State.havoc_status]
theorem State.raise_rom (s : State) (x : Exn) (u : UnitId) (n : Nat) (ws : List Loc) :
    (s.raise x u n ws).rom = s.rom := by
  simp only [State.raise]; split
  · rfl
  · rw [State.havoc_rom]
theorem State.raise_host (s : State) (x : Exn) (u : UnitId) (n : Nat) (ws : List Loc) :
    (s.raise x u n ws).host = s.host := by
  simp only [State.raise]; split
  · rfl
  · rw [State.havoc_host]

/-- A command that takes a fault ends with it in ERR and STATUS (60_exceptions.md rule R548). -/
theorem State.raise_faulted (s : State) (x : Exn) (u : UnitId) (n : Nat) (ws : List Loc) :
    (s.raise x u n ws).Faulted x u n :=
  ⟨rfl, by simp [Status.atFault], by simp [Status.atFault], rfl⟩

/-- A command that completes ends with DONE, without ERROR (47_commands.md rule R517). -/
theorem State.complete_completed (s : State) : s.complete.Completed := ⟨rfl, rfl, rfl, rfl⟩

/-! ### The locations that are registers (what a busy read looks up) -/

/-- A register index belongs to one location only. -/
theorem Loc.regIndex_unique {idx : Nat} {a l : Loc} (ha : a.regIndex = some idx) (hl : l.regIndex = some idx) : a = l := by
  revert ha hl
  cases a <;> cases l <;> simp [Loc.regIndex] <;> omega

/-- CMD, STATUS, ERR and ID are no location of a write set's table (47_commands.md rule R520). -/
theorem Loc.regIndex_control (l : Loc) :
    l.regIndex ≠ some 0x00 ∧ l.regIndex ≠ some 0x01 ∧ l.regIndex ≠ some 0x02 ∧ l.regIndex ≠ some 0x1F := by
  cases l <;> simp [Loc.regIndex]

theorem locOfReg_of_mem {idx : Nat} {ls : List Loc} {l : Loc} (h : l ∈ ls) (hi : l.regIndex = some idx) :
    locOfReg idx ls = some l := by
  induction ls with
  | nil => cases h
  | cons a rest ih =>
    by_cases ha : a.regIndex = some idx
    · rw [Loc.regIndex_unique ha hi]; simp [locOfReg, hi]
    · rcases List.mem_cons.1 h with rfl | h
      · contradiction
      · simp [locOfReg, ha, ih h]

theorem locOfReg_eq_none {idx : Nat} {ls : List Loc} (h : ∀ l ∈ ls, l.regIndex ≠ some idx) : locOfReg idx ls = none := by
  induction ls with
  | nil => rfl
  | cons a rest ih => simp [locOfReg, h a (by simp), ih (fun l hl => h l (by simp [hl]))]

end Sys2Proof.Machine
end

