-- ==== Sys2Proof/Laws/Keeps.lean ====
section
/-! SUPPORT. What an operation changes and what it keeps, said once per operation: `Keeps ws s t` is the frame of
47_commands.md rule R520 with the canonical form of the memory and the freshness of draws; `Steady` adds that STATUS, ERR and
the phase are untouched; `Good` says it of a result that may be a fault. -/

namespace Sys2Proof.Machine

set_option Elab.async false

/-- Only the locations of `ws`, STATUS, ERR and the units' working state differ, and the invariants of memory carry over. -/
structure Keeps (ws : List Loc) (s t : State) : Prop where
  inputs : SameInputs s t
  host : SameHost s t
  loc : ∀ l : Loc, l ∉ ws → l.Same s t
  defect : s.regs.status.defect = true → t.regs.status.defect = true
  wf : s.mem.wf = true → t.mem.wf = true
  fresh : s.mem.Fresh s.draws → t.mem.Fresh t.draws

/-- As `Keeps`, and STATUS, ERR and the phase are untouched. -/
structure Steady (ws : List Loc) (s t : State) : Prop where
  keeps : Keeps ws s t
  status : t.regs.status = s.regs.status
  err : t.regs.err = s.regs.err
  phase : t.phase = s.phase

/-- The faults a unit's rule can find (60_exceptions.md rule R541): every one but IllegalCommand and the reserved two. -/
def isUnitFault (x : Exn) : Prop :=
  x = .formatException ∨ x = .capacityExceeded ∨ x = .illegalCharacter ∨ x = .internalDefect

/-- A result started in `s` is a steady state, or a fault of a unit. -/
def Good (ws : List Loc) (s : State) (r : Except Raise State) : Prop :=
  match r with
  | .ok t => Steady ws s t
  | .error e => isUnitFault e.exn

theorem Loc.Same.refl (l : Loc) (s : State) : l.Same s s := by
  cases l <;> first | rfl | exact fun _ => rfl | exact ⟨rfl, rfl, rfl, rfl⟩

theorem Loc.Same.trans {l : Loc} {s t u : State} (h : l.Same s t) (k : l.Same t u) : l.Same s u := by
  cases l with
  | buf sp => exact fun a => (k a).trans (h a)
  | tceWork => exact ⟨k.1.trans h.1, k.2.1.trans h.2.1, k.2.2.1.trans h.2.2.1, k.2.2.2.trans h.2.2.2⟩
  | _ => exact Eq.trans k h

theorem SameInputs.refl (s : State) : SameInputs s s := ⟨rfl, rfl, rfl, rfl, rfl, rfl, rfl, rfl, rfl, rfl⟩

theorem SameInputs.trans {s t u : State} (h : SameInputs s t) (k : SameInputs t u) : SameInputs s u := by
  obtain ⟨h1, h2, h3, h4, h5, h6, h7, h8, h9, h10⟩ := h
  obtain ⟨k1, k2, k3, k4, k5, k6, k7, k8, k9, k10⟩ := k
  exact ⟨k1.trans h1, k2.trans h2, k3.trans h3, k4.trans h4, k5.trans h5, k6.trans h6, k7.trans h7, k8.trans h8,
    k9.trans h9, k10.trans h10⟩

theorem Keeps.refl (ws : List Loc) (s : State) : Keeps ws s s :=
  ⟨SameInputs.refl s, ⟨rfl, rfl, rfl⟩, fun l _ => Loc.Same.refl l s, id, id, id⟩

theorem Keeps.trans {ws : List Loc} {s t u : State} (h : Keeps ws s t) (k : Keeps ws t u) : Keeps ws s u :=
  ⟨h.inputs.trans k.inputs, ⟨k.host.1.trans h.host.1, k.host.2.1.trans h.host.2.1, k.host.2.2.trans h.host.2.2⟩,
    fun l hl => (h.loc l hl).trans (k.loc l hl), fun x => k.defect (h.defect x), fun x => k.wf (h.wf x),
    fun x => k.fresh (h.fresh x)⟩

theorem Keeps.mono {ws ws' : List Loc} {s t : State} (h : Keeps ws s t) (hs : ∀ l ∈ ws, l ∈ ws') : Keeps ws' s t :=
  ⟨h.inputs, h.host, fun l hl => h.loc l (fun hm => hl (hs l hm)), h.defect, h.wf, h.fresh⟩

theorem Keeps.frame {ws : List Loc} {s t : State} (h : Keeps ws s t) : Frame ws s t :=
  ⟨h.inputs, h.host, h.defect, h.loc⟩

theorem Steady.refl (ws : List Loc) (s : State) : Steady ws s s := ⟨Keeps.refl ws s, rfl, rfl, rfl⟩

theorem Steady.trans {ws : List Loc} {s t u : State} (h : Steady ws s t) (k : Steady ws t u) : Steady ws s u :=
  ⟨h.keeps.trans k.keeps, k.status.trans h.status, k.err.trans h.err, k.phase.trans h.phase⟩

theorem Steady.mono {ws ws' : List Loc} {s t : State} (h : Steady ws s t) (hs : ∀ l ∈ ws, l ∈ ws') : Steady ws' s t :=
  ⟨h.keeps.mono hs, h.status, h.err, h.phase⟩

/-- A steady step, then a good result. -/
theorem Good.after {ws : List Loc} {s t : State} {r : Except Raise State} (h : Steady ws s t) (k : Good ws t r) :
    Good ws s r := by
  cases r with
  | ok u => exact h.trans k
  | error e => exact k

/-- A good result, then a continuation that is good from wherever it got to. -/
theorem Good.bind {ws : List Loc} {s : State} {r : Except Raise State} {f : State → Except Raise State} (h : Good ws s r)
    (k : ∀ t, Steady ws s t → Good ws t (f t)) :
    Good ws s (match (generalizing := false) r with | .error e => .error e | .ok t => f t) := by
  cases r with
  | ok t => exact Good.after h (k t h)
  | error e => exact h

theorem Good.mono {ws ws' : List Loc} {s : State} {r : Except Raise State} (h : Good ws s r) (hs : ∀ l ∈ ws, l ∈ ws') :
    Good ws' s r := by
  cases r with
  | ok t => exact Steady.mono h hs
  | error e => exact h

/-! ### Updates of the working state -/

/-- A change of the working state that leaves U1's part alone. -/
theorem Steady.work (ws : List Loc) (s : State) (wk : Work)
    (h : wk.vb = s.work.vb ∧ wk.sz = s.work.sz ∧ wk.cost = s.work.cost ∧ wk.k = s.work.k) :
    Steady ws s { s with work := wk } := by
  refine ⟨⟨SameInputs.refl s, ⟨rfl, rfl, rfl⟩, ?_, id, id, id⟩, rfl, rfl, rfl⟩
  intro l _
  cases l <;> first | rfl | exact fun _ => rfl | exact h

theorem Steady.advance (ws : List Loc) (s : State) (n : Nat) : Steady ws s (s.advance n) :=
  Steady.work ws s _ ⟨rfl, rfl, rfl, rfl⟩

theorem Steady.setShift (ws : List Loc) (s : State) (n : Nat) : Steady ws s (s.setShift n) :=
  Steady.work ws s _ ⟨rfl, rfl, rfl, rfl⟩

theorem isUnitFault_format (n : Nat) : isUnitFault (Raise.exn ⟨.formatException, n⟩) := .inl rfl
theorem isUnitFault_defect (n : Nat) : isUnitFault (Raise.exn ⟨.internalDefect, n⟩) := .inr (.inr (.inr rfl))

/-- `readBits`, then a continuation. -/
theorem Good.readBits {ws : List Loc} (s : State) (n : Nat) {f : Nat → State → Except Raise State}
    (k : ∀ v, Good ws (s.advance n) (f v (s.advance n))) :
    Good ws s (match s.readBits n with | .error r => .error r | .ok (v, t) => f v t) := by
  rcases s.readBits_cases n with ⟨_, h⟩ | ⟨_, h⟩ <;> rw [h]
  · exact Good.after (Steady.advance ws s n) (k _)
  · exact isUnitFault_format _

/-! ### U4's output operations -/

theorem Steady.appended (s : State) (cs : List Byte) (h : s.regs.outLen.toNat + cs.length ≤ Config.outSize) :
    Steady [.buf .out, .outLen] s (s.appended cs) := by
  refine ⟨⟨SameInputs.refl s, ⟨rfl, rfl, rfl⟩, ?_, id, ?_, ?_⟩, rfl, rfl, rfl⟩
  · intro l hl
    cases l with
    | buf sp => cases sp <;> first | exact fun _ => rfl | exact absurd (by decide) hl
    | _ => first | exact absurd (by decide) hl | exact rfl | exact ⟨rfl, rfl, rfl, rfl⟩
  · intro hw
    rw [Memory.wf_iff] at hw ⊢
    obtain ⟨h1, h2, h3, h4, h5, h6, h7, h8⟩ := hw
    exact ⟨h1, h2, h3, h4, h5, Buf.writeAll_wf cs _ h h6, h7, h8⟩
  · intro hf
    obtain ⟨h1, h2, h3, h4, h5, h6, h7, h8⟩ := hf
    exact ⟨h1, h2, h3, h4, h5, by simpa [Buf.writeAll_gen] using h6, h7, h8⟩

theorem Good.outAll (s : State) (cs : List Byte) : Good [.buf .out, .outLen] s (s.outAll cs) := by
  by_cases h : s.regs.outLen.toNat + cs.length ≤ Config.outSize
  · rw [State.outAll_ok cs h]; exact Steady.appended s cs h
  · by_cases hn : cs = []
    · subst hn; exact Steady.refl _ s
    · rw [State.outAll_error cs (by omega) hn]; exact isUnitFault_defect 0

theorem Good.out (s : State) (c : Byte) : Good [.buf .out, .outLen] s (s.out c) := by
  by_cases h : s.regs.outLen.toNat < Config.outSize
  · rw [State.out_ok c h]; exact Steady.appended s [c] h
  · rw [State.out_error c (by omega)]; exact isUnitFault_defect 0

theorem Good.addSegment (s : State) (off len : Nat) : Good [.buf .seg, .segCnt] s (s.addSegment off len) := by
  rcases s.addSegment_cases off len with ⟨hlt, h⟩ | ⟨_, h⟩ <;> rw [h]
  · refine ⟨⟨SameInputs.refl s, ⟨rfl, rfl, rfl⟩, ?_, id, ?_, id⟩, rfl, rfl, rfl⟩
    · intro l hl
      cases l with
      | buf sp => cases sp <;> first | exact fun _ => rfl | exact absurd (by decide) hl
      | _ => first | exact absurd (by decide) hl | exact rfl | exact ⟨rfl, rfl, rfl, rfl⟩
    · intro hw
      rw [Memory.wf_iff] at hw ⊢
      obtain ⟨h1, h2, h3, h4, h5, h6, h7, h8⟩ := hw
      exact ⟨h1, h2, h3, h4, h5, h6, Buf.write_wf _ _ hlt h7, h8⟩
  · exact isUnitFault_defect 0

theorem Good.addFnc1 (s : State) : Good [.buf .out, .outLen, .buf .fnc, .fncCnt] s s.addFnc1 := by
  rw [State.addFnc1]
  split
  · rename_i hlt
    refine Good.after (t := s.withFnc1) ?_ (Good.mono (Good.out s.withFnc1 29) (by decide))
    refine ⟨⟨SameInputs.refl s, ⟨rfl, rfl, rfl⟩, ?_, id, ?_, id⟩, rfl, rfl, rfl⟩
    · intro l hl
      cases l with
      | buf sp => cases sp <;> first | exact fun _ => rfl | exact absurd (by decide) hl
      | _ => first | exact absurd (by decide) hl | exact rfl | exact ⟨rfl, rfl, rfl, rfl⟩
    · intro hw
      rw [Memory.wf_iff] at hw ⊢
      obtain ⟨h1, h2, h3, h4, h5, h6, h7, h8⟩ := hw
      exact ⟨h1, h2, h3, h4, h5, h6, h7, Buf.write_wf _ _ hlt h8⟩
  · exact isUnitFault_defect 0

/-! ### Ends of a command -/

theorem Keeps.complete (ws : List Loc) (s : State) : Keeps ws s s.complete := by
  refine ⟨SameInputs.refl s, ⟨rfl, rfl, rfl⟩, ?_, id, id, id⟩
  intro l _
  cases l <;> first | rfl | exact fun _ => rfl | exact ⟨rfl, rfl, rfl, rfl⟩

theorem Memory.fresh_mono {m : Memory} {d d' : Nat} (h : d ≤ d') (hf : m.Fresh d) : m.Fresh d' := by
  obtain ⟨h1, h2, h3, h4, h5, h6, h7, h8⟩ := hf
  exact ⟨by omega, by omega, by omega, by omega, by omega, by omega, by omega, by omega⟩

theorem Memory.fresh_blankSpace {m : Memory} (sp : Space) {d : Nat} (hf : m.Fresh d) :
    (m.blankSpace sp d).Fresh (d + 1) := by
  obtain ⟨h1, h2, h3, h4, h5, h6, h7, h8⟩ := hf
  cases sp <;> (simp only [Memory.Fresh, Memory.blankSpace, Buf.blank]; omega)

theorem Keeps.havocLoc (s : State) (l : Loc) : Keeps [l] s (s.havocLoc l) := by
  refine ⟨by cases l <;> exact SameInputs.refl s, by cases l <;> exact ⟨rfl, rfl, rfl⟩, ?_, by simp, ?_, ?_⟩
  · intro k hk
    rw [List.mem_singleton] at hk
    cases k with
    | buf sp =>
      intro a
      cases l with
      | buf sp' => exact Memory.read_blankSpace_ne _ _ _ (fun h => hk (by rw [h]))
      | _ => rfl
    | tceWork => cases l <;> first | exact ⟨rfl, rfl, rfl, rfl⟩ | exact absurd rfl hk
    | _ => cases l <;> first | rfl | exact absurd rfl hk
  · intro hw
    cases l with
    | buf sp => exact Memory.blankSpace_wf _ _ _ hw
    | _ => exact hw
  · intro hf
    rw [State.havocLoc_draws]
    cases l with
    | buf sp => exact Memory.fresh_blankSpace sp hf
    | _ => exact Memory.fresh_mono (Nat.le_succ _) hf

theorem Keeps.havoc (ws : List Loc) : ∀ (ls : List Loc) (s : State), (∀ l ∈ ls, l ∈ ws) → Keeps ws s (s.havoc ls) := by
  intro ls
  induction ls with
  | nil => intro s _; exact Keeps.refl ws s
  | cons l rest ih =>
    intro s h
    exact (Keeps.mono (Keeps.havocLoc s l) (by simpa using h l (by simp))).trans (ih _ (fun k hk => h k (by simp [hk])))

theorem Keeps.raise (ws : List Loc) (s : State) (x : Exn) (u : UnitId) (n : Nat) : Keeps ws s (s.raise x u n ws) := by
  have key : Keeps ws s (if x = .illegalCommand then s else s.havoc ws) := by
    split
    · exact Keeps.refl ws s
    · exact Keeps.havoc ws ws s (fun _ h => h)
  refine key.trans ⟨SameInputs.refl _, ⟨rfl, rfl, rfl⟩, ?_, ?_, id, id⟩
  · intro l _
    cases l <;> first | rfl | exact fun _ => rfl | exact ⟨rfl, rfl, rfl, rfl⟩
  · intro h; simp only [State.raise, Status.atFault]; simp [h]

/-- A command, or an element of its stream, has ended: completed, or by fault `x` of a unit, DEFECT being set by an
InternalDefect; or it goes on with STATUS and ERR untouched. -/
def Ends (s t : State) : Prop :=
  (t.Completed ∧ t.regs.status = s.regs.status.atCompletion)
    ∨ (∃ x u n, isUnitFault x ∧ t.Faulted x u n ∧ (t.regs.status = s.regs.status.atFault x))
    ∨ (t.phase ≠ .idle ∧ t.regs.status = s.regs.status ∧ t.regs.err = s.regs.err)

theorem Ends.complete {s : State} {ws : List Loc} {t : State} (h : Steady ws s t) : Ends s t.complete :=
  .inl ⟨State.complete_completed t, by simp [h.status]⟩

theorem Ends.raise (s : State) {x : Exn} (hx : isUnitFault x) (u : UnitId) (n : Nat) (ws : List Loc) :
    Ends s (s.raise x u n ws) := .inr (.inl ⟨x, u, n, hx, State.raise_faulted s x u n ws, State.raise_status s x u n ws⟩)

/-- A command whose rule gave a good result. -/
theorem Good.finish {ws : List Loc} {s : State} {r : Except Raise State} (u : UnitId) (h : Good ws s r) :
    Keeps ws s (s.finish u ws r) ∧ Ends s (s.finish u ws r) := by
  cases r with
  | ok t => exact ⟨(Steady.keeps h).trans (Keeps.complete ws t), Ends.complete h⟩
  | error e => exact ⟨Keeps.raise ws s e.exn u e.info, Ends.raise s h u e.info ws⟩

end Sys2Proof.Machine
end

