-- ==== Sys2Proof/Laws/Streams.lean ====
section
/-! SUPPORT. What the decoders of U4 keep: every segment decoder is good (`Good`), and every stream element of DEC.DM and
DEC.QR keeps all but its command's write set and ends well (`GoodEnd`). -/

namespace Sys2Proof.Machine

set_option Elab.async false

/-- A result that may have ended the command: it keeps all but `ws` and ends well, or is a fault of a unit. -/
def GoodEnd (ws : List Loc) (s : State) (r : Except Raise State) : Prop :=
  match r with
  | .ok t => Keeps ws s t ∧ Ends s t
  | .error e => isUnitFault e.exn

theorem Ends.after {ws : List Loc} {s t u : State} (h : Steady ws s t) (k : Ends t u) : Ends s u := by
  rcases k with ⟨hc, hd⟩ | ⟨x, v, n, hx, hf, hs⟩ | ⟨hp, hs, he⟩
  · exact .inl ⟨hc, hd.trans (by rw [h.status])⟩
  · exact .inr (.inl ⟨x, v, n, hx, hf, hs.trans (by rw [h.status])⟩)
  · exact .inr (.inr ⟨hp, hs.trans h.status, he.trans h.err⟩)

theorem GoodEnd.after {ws : List Loc} {s t : State} {r : Except Raise State} (h : Steady ws s t) (k : GoodEnd ws t r) :
    GoodEnd ws s r := by
  cases r with
  | ok u => exact ⟨h.keeps.trans k.1, Ends.after h k.2⟩
  | error e => exact k

/-- A good result, then a continuation that ends well. -/
theorem GoodEnd.bind {ws : List Loc} {s : State} {r : Except Raise State} {f : State → Except Raise State} (h : Good ws s r)
    (k : ∀ t, GoodEnd ws t (f t)) :
    GoodEnd ws s (match (generalizing := false) r with | .error e => .error e | .ok t => f t) := by
  cases r with
  | ok t => exact GoodEnd.after h (k t)
  | error e => exact h

/-- The element's end, a fault taken. -/
theorem GoodEnd.streamEnd {ws : List Loc} {s : State} {r : Except Raise State} (h : GoodEnd ws s r) :
    Keeps ws s (s.streamEnd ws r) ∧ Ends s (s.streamEnd ws r) := by
  cases r with
  | ok t => exact h
  | error e => exact ⟨Keeps.raise ws s e.exn .bsp e.info, Ends.raise s h .bsp e.info ws⟩

/-- A steady state that goes on in another busy phase. -/
theorem GoodEnd.goOn {ws : List Loc} {s t : State} (h : Steady ws s t) (p : Phase) (hp : p ≠ .idle) :
    GoodEnd ws s (.ok { t with phase := p }) := by
  refine ⟨h.keeps.trans ⟨SameInputs.refl _, ⟨rfl, rfl, rfl⟩, ?_, id, id, id⟩, .inr (.inr ⟨hp, h.status, h.err⟩)⟩
  intro l _
  cases l <;> first | rfl | exact fun _ => rfl | exact ⟨rfl, rfl, rfl, rfl⟩

/-! ### Data Matrix -/

theorem Good.resMod (ws : List Loc) (hw : Loc.resMod ∈ ws) (s : State) (v : BitVec 3) :
    Steady ws s { s with regs := { s.regs with resMod := v } } := by
  refine ⟨⟨SameInputs.refl s, ⟨rfl, rfl, rfl⟩, ?_, id, id, id⟩, rfl, rfl, rfl⟩
  intro l hl
  cases l <;> first | rfl | exact fun _ => rfl | exact ⟨rfl, rfl, rfl, rfl⟩ | exact absurd hw hl

theorem GoodEnd.dmFinish (s : State) : GoodEnd writesDecDm s s.dmFinish := by
  rw [State.dmFinish]
  refine GoodEnd.bind (Good.mono (ws' := writesDecDm) (Good.outAll s s.work.trl) (by decide)) (fun t => ?_)
  have h := Good.resMod writesDecDm (by decide) t (BitVec.ofNat 3 (dmModifier t.work.eci t.fncList))
  exact ⟨h.keeps.trans (Keeps.complete _ _), Ends.complete h⟩

theorem GoodEnd.dmNext (s : State) : GoodEnd writesDecDm s s.dmNext := by
  rw [State.dmNext]
  split
  · exact GoodEnd.dmFinish s
  · exact GoodEnd.goOn (Steady.refl _ s) _ (by simp)

theorem GoodEnd.dmNextOf {s : State} {r : Except Raise State} (h : Good writesDecDm s r) :
    GoodEnd writesDecDm s (dmNextOf r) := GoodEnd.bind h GoodEnd.dmNext

theorem GoodEnd.dmLatch (s : State) (seg : DmSeg) : GoodEnd writesDecDm s (s.dmLatch seg) := by
  rw [State.dmLatch]
  split
  · exact GoodEnd.dmFinish s
  · exact GoodEnd.goOn (Steady.work _ s { s.work with upper := false } ⟨rfl, rfl, rfl, rfl⟩) _ (by simp)

theorem GoodEnd.formatErr (ws : List Loc) (s t : State) : GoodEnd ws s (.error t.formatErr) := isUnitFault_format _

theorem GoodEnd.dmAsciiBody (b : Byte) (s : State) : GoodEnd writesDecDm s (dmAsciiBody b s) :=
  GoodEnd.dmNextOf (Good.after (Steady.work _ s { s.work with upper := false } ⟨rfl, rfl, rfl, rfl⟩)
    (Good.mono (Good.out _ _) (by decide)))

theorem GoodEnd.dmDigitsBody (b : Byte) (s : State) : GoodEnd writesDecDm s (dmDigitsBody b s) :=
  GoodEnd.dmNextOf (Good.mono (Good.outAll _ _) (by decide))

theorem GoodEnd.dmFnc1Body (s : State) : GoodEnd writesDecDm s (dmFnc1Body s) :=
  GoodEnd.dmNextOf (Good.mono (Good.addFnc1 _) (by decide))

theorem GoodEnd.dmUpshiftBody (s : State) : GoodEnd writesDecDm s (dmUpshiftBody s) :=
  GoodEnd.after (Steady.work _ s { s.work with upper := true } ⟨rfl, rfl, rfl, rfl⟩) (GoodEnd.dmNext _)

theorem GoodEnd.dmMacroBody (header : List Nat) (s : State) : GoodEnd writesDecDm s (dmMacroBody header s) :=
  GoodEnd.dmNextOf (Good.after
    (Steady.work _ s { s.work with trl := macroTrailer.map (BitVec.ofNat 8) ++ s.work.trl } ⟨rfl, rfl, rfl, rfl⟩)
    (Good.mono (Good.outAll _ _) (by decide)))

theorem GoodEnd.dmUnlatchBody (s : State) : GoodEnd writesDecDm s (dmUnlatchBody s) := by
  rw [Machine.dmUnlatchBody]
  split
  · exact GoodEnd.dmNext s
  · exact GoodEnd.formatErr _ s s

theorem GoodEnd.ite {ws : List Loc} {s : State} {c : Prop} [Decidable c] {a b : Except Raise State}
    (ha : GoodEnd ws s a) (hb : GoodEnd ws s b) : GoodEnd ws s (if c then a else b) := by
  split <;> assumption

theorem GoodEnd.asciiCodeword (b : Byte) (s : State) : GoodEnd writesDecDm s (asciiCodeword b s) :=
  .ite (GoodEnd.formatErr _ s s) <| .ite (GoodEnd.dmAsciiBody b s) <| .ite (GoodEnd.dmFinish s) <|
  .ite (GoodEnd.dmDigitsBody b s) <| .ite (GoodEnd.dmLatch s _) <| .ite (GoodEnd.dmLatch s _) <|
  .ite (GoodEnd.dmFnc1Body s) <| .ite (GoodEnd.dmNext s) <| .ite (GoodEnd.dmNext s) <|
  .ite (GoodEnd.dmUpshiftBody s) <| .ite (GoodEnd.dmMacroBody _ s) <| .ite (GoodEnd.dmMacroBody _ s) <|
  .ite (GoodEnd.dmLatch s _) <| .ite (GoodEnd.dmLatch s _) <| .ite (GoodEnd.dmLatch s _) <|
  .ite (GoodEnd.dmLatch s _) <| .ite (GoodEnd.dmUnlatchBody s) (GoodEnd.formatErr _ s s)

theorem Good.put (s : State) (c : Nat) : Good writesDecDm s (s.put c) :=
  Good.after (Steady.work _ s { s.work with upper := false } ⟨rfl, rfl, rfl, rfl⟩) (Good.mono (Good.out _ _) (by decide))

theorem Good.c40Value (text : Bool) (v : Nat) (s : State) : Good writesDecDm s (c40Value text v s) := by
  unfold Machine.c40Value
  repeat' split
  all_goals first
    | exact isUnitFault_format _
    | exact Steady.setShift _ s _
    | exact Good.put s _
    | exact Good.after (Steady.setShift _ s 0) (Good.put _ _)
    | exact Good.after (Steady.setShift _ s 0) (Good.mono (Good.addFnc1 _) (by decide))
    | exact Steady.work _ s _ ⟨rfl, rfl, rfl, rfl⟩

theorem Good.c40ValuesIn (text : Bool) (vs : List Nat) : ∀ s : State, Good writesDecDm s (c40ValuesIn text vs s) := by
  induction vs with
  | nil => exact fun s => Steady.refl _ s
  | cons v rest ih => exact fun s => Good.bind (Good.c40Value text v s) (fun t _ => ih t)

theorem Good.x12ValuesIn (vs : List Nat) : ∀ s : State, Good writesDecDm s (x12ValuesIn vs s) := by
  induction vs with
  | nil => exact fun s => Steady.refl _ s
  | cons v rest ih =>
    intro s
    rw [Machine.x12ValuesIn]
    split
    · exact isUnitFault_format _
    · exact Good.bind (Good.mono (Good.out s _) (by decide)) (fun t _ => ih t)

theorem Good.pairSeg {vals : List Nat → State → Except Raise State} (hv : ∀ vs s, Good writesDecDm s (vals vs s))
    (fuel : Nat) : ∀ s : State, Good writesDecDm s (pairSeg vals fuel s) := by
  induction fuel with
  | zero => exact fun s => Steady.refl _ s
  | succ fuel ih =>
    intro s
    rw [Machine.pairSeg]
    split
    · exact Steady.refl _ s
    · refine Good.readBits s 8 (fun a => ?_)
      split
      · exact Steady.refl _ _
      · refine Good.readBits _ 8 (fun b => ?_)
        split
        · exact isUnitFault_format _
        · refine Good.bind (hv _ _) (fun w _ => ?_)
          split
          · exact Steady.refl _ w
          · exact ih w

theorem Good.c40Seg (text : Bool) (s : State) : Good writesDecDm s (c40Seg text s) :=
  Good.after (Steady.work _ s { s.work with upper := false, shift := 0 } ⟨rfl, rfl, rfl, rfl⟩)
    (Good.pairSeg (Good.c40ValuesIn text) _ _)

theorem Good.x12Seg (s : State) : Good writesDecDm s (x12Seg s) := Good.pairSeg Good.x12ValuesIn _ s

/-- As `Good`, for a result with a flag. -/
def GoodFlag (ws : List Loc) (s : State) (r : Except Raise (State × Bool)) : Prop :=
  match r with
  | .ok (t, _) => Steady ws s t
  | .error e => isUnitFault e.exn

theorem Good.edfGroup (n : Nat) : ∀ s : State, GoodFlag writesDecDm s (edfGroup n s) := by
  induction n with
  | zero => exact fun s => Steady.refl _ s
  | succ n ih =>
    intro s
    rw [Machine.edfGroup]
    rcases s.readBits_cases 6 with ⟨_, h⟩ | ⟨_, h⟩ <;> rw [h]
    · simp only
      have ha := Steady.advance writesDecDm s 6
      split
      · split
        · exact ha
        · rcases (s.advance 6).readBits_cases (8 - (s.advance 6).work.bp % 8) with ⟨_, h2⟩ | ⟨_, h2⟩ <;> rw [h2]
          · exact ha.trans (Steady.advance _ _ _)
          · exact isUnitFault_format _
      · have ho := Good.mono (ws' := writesDecDm)
          (Good.out (s.advance 6) (BitVec.ofNat 8 (edfChar (s.streamField 0 s.work.bp 6)))) (by decide)
        split
        · rename_i he; rw [he] at ho; exact ho
        · rename_i u he
          rw [he] at ho
          have := ih u
          revert this
          cases Machine.edfGroup n u with
          | ok p => exact fun h => (ha.trans ho).trans h
          | error e => exact id
    · exact isUnitFault_format _

theorem Good.edfGroups (fuel : Nat) : ∀ s : State, Good writesDecDm s (edfGroups fuel s) := by
  induction fuel with
  | zero => exact fun s => Steady.refl _ s
  | succ fuel ih =>
    intro s
    rw [Machine.edfGroups]
    split
    · exact Steady.refl _ s
    · have h := Good.edfGroup 4 s
      revert h
      cases Machine.edfGroup 4 s with
      | error e => exact id
      | ok p =>
        obtain ⟨t, b⟩ := p
        cases b with
        | true => exact id
        | false =>
          intro h
          simp only
          split
          · exact h
          · exact Good.after h (ih t)

theorem Good.b256Bytes (n : Nat) : ∀ (p : Nat) (s : State), Good writesDecDm s (b256Bytes n p s) := by
  induction n with
  | zero => exact fun _ s => Steady.refl _ s
  | succ n ih =>
    intro p s
    rw [Machine.b256Bytes]
    exact Good.readBits s 8 (fun r => Good.bind (Good.mono (Good.out _ _) (by decide)) (fun u _ => ih _ u))

theorem Good.b256Payload (count p : Nat) (s : State) : Good writesDecDm s (b256Payload count p s) :=
  Good.bind (Good.b256Bytes count p s) (fun t _ => Good.mono (Good.addSegment t _ _) (by decide))

theorem Good.b256Seg (s : State) : Good writesDecDm s (b256Seg s) := by
  rw [Machine.b256Seg]
  refine Good.readBits s 8 (fun r1 => ?_)
  simp only
  split
  · exact Good.b256Payload _ _ _
  · split
    · exact Good.b256Payload _ _ _
    · exact Good.readBits _ 8 (fun r2 => Good.b256Payload _ _ _)

/-- A change of RES_ECI beside the working state. -/
theorem Steady.resEci (ws : List Loc) (hw : Loc.resEci ∈ ws) (s : State) (r : EciReg) (wk : Work)
    (h : wk.vb = s.work.vb ∧ wk.sz = s.work.sz ∧ wk.cost = s.work.cost ∧ wk.k = s.work.k) :
    Steady ws s { s with work := wk, regs := { s.regs with resEci := r } } := by
  refine ⟨⟨SameInputs.refl s, ⟨rfl, rfl, rfl⟩, ?_, id, id, id⟩, rfl, rfl, rfl⟩
  intro l hl
  cases l <;> first | rfl | exact fun _ => rfl | exact h | exact absurd hw hl

theorem Good.eciSeg (s : State) : Good writesDecDm s (eciSeg s) := by
  rw [Machine.eciSeg]
  exact Good.readBits s 8 (fun c => Steady.resEci _ (by decide) _ _ _ ⟨rfl, rfl, rfl, rfl⟩)

theorem Good.dmSegment (seg : DmSeg) (s : State) : Good writesDecDm s (dmSegment seg s) := by
  cases seg
  · exact Steady.refl _ s
  · exact Good.c40Seg false s
  · exact Good.c40Seg true s
  · exact Good.x12Seg s
  · exact Good.edfGroups _ s
  · exact Good.b256Seg s
  · exact Good.eciSeg s

theorem GoodEnd.dmSegmentThen (seg : DmSeg) (s : State) : GoodEnd writesDecDm s (dmSegmentThen seg s) :=
  GoodEnd.bind (Good.dmSegment seg s) (fun t =>
    GoodEnd.after (Steady.work _ t { t.work with upper := false } ⟨rfl, rfl, rfl, rfl⟩) (GoodEnd.dmNext _))

/-! ### QR -/

theorem Good.numGroup (bits limit : Nat) (digits : Nat → List Nat) (s : State) :
    Good writesDecQr s (numGroup bits limit digits s) := by
  rw [Machine.numGroup]
  refine Good.readBits s bits (fun v => ?_)
  split
  · exact isUnitFault_format _
  · exact Good.mono (Good.outAll _ _) (by decide)

theorem Good.numSeg : ∀ (n : Nat) (s : State), Good writesDecQr s (numSeg n s)
  | 0, s => Steady.refl _ s
  | 1, s => Good.numGroup _ _ _ s
  | 2, s => Good.numGroup _ _ _ s
  | n + 3, s => Good.bind (Good.numGroup _ _ _ s) (fun t _ => Good.numSeg n t)

theorem Good.alnumChars : ∀ (n : Nat) (s : State), Good writesDecQr s (alnumChars n s)
  | 0, s => Steady.refl _ s
  | 1, s => Good.numGroup _ _ _ s
  | n + 2, s => Good.bind (Good.numGroup _ _ _ s) (fun t _ => Good.alnumChars n t)

/-- OUT_LEN set back and OUT's tail forgotten. -/
theorem Steady.outShape (s : State) (n : BitVec 16) (b : Buf 8) (hg : b.gen = s.mem.out.gen)
    (hw : s.mem.out.wf Config.outSize = true → b.wf Config.outSize = true) :
    Steady writesDecQr s { s with mem := { s.mem with out := b }, regs := { s.regs with outLen := n } } := by
  refine ⟨⟨SameInputs.refl s, ⟨rfl, rfl, rfl⟩, ?_, id, ?_, ?_⟩, rfl, rfl, rfl⟩
  · intro l hl
    cases l with
    | buf sp => cases sp <;> first | exact fun _ => rfl | exact absurd (by decide) hl
    | _ => first | exact absurd (by decide) hl | exact rfl | exact ⟨rfl, rfl, rfl, rfl⟩
  · intro h
    rw [Memory.wf_iff] at h ⊢
    obtain ⟨h1, h2, h3, h4, h5, h6, h7, h8⟩ := h
    exact ⟨h1, h2, h3, h4, h5, hw h6, h7, h8⟩
  · intro hf
    obtain ⟨h1, h2, h3, h4, h5, h6, h7, h8⟩ := hf
    exact ⟨h1, h2, h3, h4, h5, by rw [hg]; exact h6, h7, h8⟩

theorem Good.escapeFrom (s : State) (start : Nat) : Good writesDecQr s (s.escapeFrom start) := by
  rw [State.escapeFrom]
  have h0 := Steady.outShape s (BitVec.ofNat 16 start) s.mem.out rfl id
  refine Good.bind (f := fun t => .ok { t with mem.out := t.mem.out.forget t.regs.outLen.toNat s.regs.outLen.toNat })
    (Good.after h0 (Good.mono (Good.outAll _ _) (by decide))) (fun t _ => ?_)
  exact Steady.outShape t t.regs.outLen _ rfl (Buf.forget_wf _ _ _)

theorem Good.alnumSeg (n : Nat) (s : State) : Good writesDecQr s (alnumSeg n s) := by
  rw [Machine.alnumSeg]
  refine Good.bind (f := fun t => if t.work.fnc1 = 0 then .ok t else t.escapeFrom s.regs.outLen.toNat)
    (Good.alnumChars n s) (fun t _ => ?_)
  split
  · exact Steady.refl _ t
  · exact Good.escapeFrom t _

theorem Good.byteChars (n : Nat) : ∀ s : State, Good writesDecQr s (byteChars n s) := by
  induction n with
  | zero => exact fun s => Steady.refl _ s
  | succ n ih =>
    intro s
    rw [Machine.byteChars]
    exact Good.readBits s 8 (fun r => Good.bind (Good.mono (Good.out _ _) (by decide)) (fun u _ => ih u))

theorem Good.byteSeg (n : Nat) (s : State) : Good writesDecQr s (byteSeg n s) := by
  rw [Machine.byteSeg]
  split
  · exact isUnitFault_format _
  · exact Good.bind (Good.byteChars n s) (fun t _ => Good.mono (Good.addSegment t _ _) (by decide))

theorem Good.doubleBytes (code : Nat → Nat) (n : Nat) : ∀ s : State, Good writesDecQr s (doubleBytes code n s) := by
  induction n with
  | zero => exact fun s => Steady.refl _ s
  | succ n ih =>
    intro s
    rw [Machine.doubleBytes]
    exact Good.readBits s 13 (fun r => Good.bind (Good.mono (Good.outAll _ _) (by decide)) (fun u _ => ih u))

theorem Good.doubleByteSeg (code : Nat → Nat) (n : Nat) (s : State) : Good writesDecQr s (doubleByteSeg code n s) := by
  rw [Machine.doubleByteSeg]
  split
  · exact isUnitFault_format _
  · exact Good.doubleBytes code n s

theorem Good.counted (m : Nat) {body : Nat → State → Except Raise State} (h : ∀ n s, Good writesDecQr s (body n s))
    (s : State) : Good writesDecQr s (s.counted m body) := by
  rw [State.counted]
  exact Good.readBits s _ (fun n => h n _)

theorem Good.hanziSeg (s : State) : Good writesDecQr s (hanziSeg s) := by
  rw [Machine.hanziSeg]
  refine Good.readBits s 4 (fun sub => Good.counted 13 (fun n u => ?_) _)
  split
  · exact Good.doubleByteSeg _ _ _
  · exact isUnitFault_format _

theorem Good.qrSaBody (s : State) : Good writesDecQr s (qrSaBody s) := by
  rw [Machine.qrSaBody]
  split
  · exact isUnitFault_format _
  · refine ⟨⟨SameInputs.refl s, ⟨rfl, rfl, rfl⟩, ?_, id, id, id⟩, rfl, rfl, rfl⟩
    intro l hl
    cases l <;> first | rfl | exact fun _ => rfl | exact ⟨rfl, rfl, rfl, rfl⟩ | exact absurd (by decide) hl

/-- Draws made and not used. -/
theorem Steady.draws (ws : List Loc) (s : State) {d : Nat} (h : s.draws ≤ d) : Steady ws s { s with draws := d } := by
  refine ⟨⟨SameInputs.refl s, ⟨rfl, rfl, rfl⟩, ?_, id, id, Memory.fresh_mono h⟩, rfl, rfl, rfl⟩
  intro l _
  cases l <;> first | rfl | exact fun _ => rfl | exact ⟨rfl, rfl, rfl, rfl⟩

theorem Steady.setEci (s : State) (v : Nat) : Steady writesDecQr s (s.setEci v) := by
  have h := Steady.resEci writesDecQr (by decide) s ⟨eciField s.draws v, true⟩
    { s.work with eci := true, eciValue := eciField s.draws v } ⟨rfl, rfl, rfl, rfl⟩
  refine h.trans (Steady.draws _ _ (d := (s.setEci v).draws) ?_)
  rw [State.setEci_draws]
  split
  · exact Nat.le_refl _
  · exact Nat.le_succ _

theorem Good.qrEciBody (s : State) : Good writesDecQr s (qrEciBody s) := by
  rw [Machine.qrEciBody]
  refine Good.readBits s 8 (fun f => ?_)
  split
  · exact Steady.setEci _ _
  · split
    · exact Good.readBits _ 8 (fun g => Steady.setEci _ _)
    · split
      · exact Good.readBits _ 16 (fun g => Steady.setEci _ _)
      · exact isUnitFault_format _

theorem GoodEnd.qrFinish (s : State) : GoodEnd writesDecQr s (.ok s.qrFinish) := by
  have h := Good.resMod writesDecQr (by decide) s (BitVec.ofNat 3 (qrModifier s.work.eci s.work.fnc1))
  exact ⟨h.keeps.trans (Keeps.complete _ _), Ends.complete h⟩

theorem GoodEnd.qrNext {s t : State} (h : Steady writesDecQr s t) : GoodEnd writesDecQr s (.ok t.qrNext) :=
  GoodEnd.goOn h _ (by simp)

theorem GoodEnd.qrNextOf {s : State} {r : Except Raise State} (h : Good writesDecQr s r) :
    GoodEnd writesDecQr s (qrNextOf r) := by
  cases r with
  | ok t => exact GoodEnd.qrNext h
  | error e => exact h

theorem GoodEnd.qrIndicator (m : Nat) (s : State) : GoodEnd writesDecQr s (qrIndicator m s) := by
  unfold Machine.qrIndicator
  split
  · exact GoodEnd.qrFinish s
  · exact GoodEnd.qrNext (Steady.work _ s { s.work with fnc1 := 1 } ⟨rfl, rfl, rfl, rfl⟩)
  · exact GoodEnd.qrNext (Steady.work _ s { s.work with fnc1 := 2 } ⟨rfl, rfl, rfl, rfl⟩)
  · exact GoodEnd.qrNextOf (Good.qrSaBody s)
  · exact GoodEnd.qrNextOf (Good.qrEciBody s)
  · exact GoodEnd.qrNextOf (Good.hanziSeg s)
  · exact GoodEnd.qrNextOf (Good.counted 1 Good.numSeg s)
  · exact GoodEnd.qrNextOf (Good.counted 2 Good.alnumSeg s)
  · exact GoodEnd.qrNextOf (Good.counted 4 Good.byteSeg s)
  · exact GoodEnd.qrNextOf (Good.counted 8 (Good.doubleByteSeg kanjiCode) s)
  · exact GoodEnd.formatErr _ s s

end Sys2Proof.Machine
end

