-- ==== Sys2Proof/Laws/Commands.lean ====
section
/-! SUPPORT. What every command and every stream element keeps, and how it ends: one lemma per meaning, and one for the
dispatch. No meaning stops. -/

namespace Sys2Proof.Machine

set_option Elab.async false

/-- What is known of the state a meaning answers with: all but its write set is kept, and it ended well, or was refused. -/
def EndsIn (ws : List Loc) (s t : State) : Prop := Keeps ws s t ∧ (Ends s t ∨ t = s.refusedCommand)

theorem Keeps.refused (ws : List Loc) (s : State) : Keeps ws s s.refusedCommand := by
  refine ⟨SameInputs.refl s, ⟨rfl, rfl, rfl⟩, ?_, id, id, id⟩
  intro l _
  cases l <;> first | rfl | exact fun _ => rfl | exact ⟨rfl, rfl, rfl, rfl⟩

theorem EndsIn.illegal (ws : List Loc) (s : State) : EndsIn ws s s.illegal := by
  rw [State.illegal_eq_refusedCommand]
  exact ⟨Keeps.refused ws s, .inr rfl⟩

theorem EndsIn.of {ws : List Loc} {s t : State} (h : Keeps ws s t ∧ Ends s t) : EndsIn ws s t := ⟨h.1, .inl h.2⟩

theorem EndsIn.complete {ws : List Loc} {s t : State} (h : Steady ws s t) : EndsIn ws s t.complete :=
  .of ⟨h.keeps.trans (Keeps.complete ws t), Ends.complete h⟩

theorem EndsIn.raise (ws : List Loc) (s : State) {x : Exn} (hx : isUnitFault x) (u : UnitId) (n : Nat) :
    EndsIn ws s (s.raise x u n ws) := .of ⟨Keeps.raise ws s x u n, Ends.raise s hx u n ws⟩

theorem EndsIn.ite {ws : List Loc} {s : State} {c : Prop} [Decidable c] {a b : State} (ha : EndsIn ws s a)
    (hb : EndsIn ws s b) : EndsIn ws s (if c then a else b) := by
  split <;> assumption

/-! ### The Data Matrix stream -/

theorem Steady.dmBegin (s : State) :
    Keeps writesDecDm s s.dmBegin ∧ s.dmBegin.regs.status = s.regs.status ∧ s.dmBegin.regs.err = s.regs.err := by
  refine ⟨⟨SameInputs.refl s, ⟨rfl, rfl, rfl⟩, ?_, id, ?_, ?_⟩, rfl, rfl⟩
  · intro l hl
    cases l with
    | buf sp => cases sp <;> first | exact fun _ => rfl | exact absurd (by decide) hl
    | _ => first | exact absurd (by decide) hl | exact rfl | exact ⟨rfl, rfl, rfl, rfl⟩
  · intro h
    rw [Memory.wf_iff] at h ⊢
    obtain ⟨h1, h2, h3, h4, h5, h6, h7, h8⟩ := h
    exact ⟨h1, h2, h3, h4, h5, rfl, rfl, rfl⟩
  · intro h
    obtain ⟨h1, h2, h3, h4, h5, h6, h7, h8⟩ := h
    simp only [Memory.Fresh, State.dmBegin_mem, State.dmBegin_draws, Buf.blank]
    omega

/-- One element of the stream, from a state behind nothing: it keeps and ends well. -/
theorem State.dmRound_ends (s : State) : (Keeps writesDecDm s s.dmRound ∧ Ends s s.dmRound) ∨ s.dmRound = s := by
  rw [State.dmRound]
  split
  · rcases s.readBits_cases 8 with ⟨_, h⟩ | ⟨_, h⟩ <;> rw [h]
    · left
      have h1 := GoodEnd.streamEnd (GoodEnd.asciiCodeword (BitVec.ofNat 8 (s.streamField 0 s.work.bp 8)) (s.advance 8))
      have h2 := Steady.advance writesDecDm s 8
      exact ⟨h2.keeps.trans h1.1, Ends.after h2 h1.2⟩
    · exact .inl (GoodEnd.streamEnd (r := .error s.formatErr) (isUnitFault_format _))
  · exact .inl (GoodEnd.streamEnd (GoodEnd.dmSegmentThen _ s))
  all_goals exact .inr rfl

theorem Ends.trans_of_goOn {s t u : State} (h : Ends s t) (hp : t.phase ≠ .idle) (k : Ends t u) : Ends s u := by
  rcases h with ⟨hc, _⟩ | ⟨_, _, _, _, hf, _⟩ | ⟨_, hs, he⟩
  · exact absurd hc.1 hp
  · exact absurd hf.1 hp
  · rcases k with ⟨hc, hd⟩ | ⟨x, v, n, hx, hf, hs'⟩ | ⟨hp', hs', he'⟩
    · exact .inl ⟨hc, hd.trans (by rw [hs])⟩
    · exact .inr (.inl ⟨x, v, n, hx, hf, hs'.trans (by rw [hs])⟩)
    · exact .inr (.inr ⟨hp', hs'.trans hs, he'.trans he⟩)

theorem dmLoop_ends (fuel : Nat) : ∀ (s t : State), Keeps writesDecDm s t → Ends s t →
    Keeps writesDecDm s (dmLoop fuel t) ∧ Ends s (dmLoop fuel t) := by
  induction fuel with
  | zero => exact fun s t hk he => ⟨hk, he⟩
  | succ fuel ih =>
    intro s t hk he
    rw [dmLoop]
    split
    · rename_i seg hseg
      rcases t.dmRound_ends with ⟨k1, e1⟩ | h
      · exact ih s _ (hk.trans k1) (he.trans_of_goOn (by rw [hseg]; simp) e1)
      · rw [h]; exact ih s t hk he
    all_goals exact ⟨hk, he⟩

theorem execDecDm_ends (s : State) : ∃ t, execDecDm s = .next t ∧ EndsIn writesDecDm s t := by
  refine ⟨_, rfl, EndsIn.ite ?_ (EndsIn.illegal _ s)⟩
  obtain ⟨hk, hs, he⟩ := Steady.dmBegin s
  exact .of (dmLoop_ends _ s s.dmBegin hk (.inr (.inr ⟨by simp, hs, he⟩)))

/-- The codeword decoder and the case table of rule R393 give the same effect. -/
theorem exec_decodeCodeword (b : Byte) (s : State) :
    exec (decodeCodeword b) s = .next (s.streamEnd writesDecDm (asciiCodeword b s)) := by
  have hb : ∀ P : Byte → Prop, (∀ n : Fin 256, P (BitVec.ofFin n)) → P b := fun P h => h b.toFin
  refine hb (fun b => exec (decodeCodeword b) s = .next (s.streamEnd writesDecDm (asciiCodeword b s))) (fun n => ?_)
  clear hb
  fin_cases n <;> rfl

/-! ### The QR stream -/

theorem Steady.qrBegin (s : State) :
    Keeps writesDecQr s s.qrBegin ∧ s.qrBegin.regs.status = s.regs.status ∧ s.qrBegin.regs.err = s.regs.err := by
  refine ⟨⟨SameInputs.refl s, ⟨rfl, rfl, rfl⟩, ?_, id, ?_, ?_⟩, rfl, rfl⟩
  · intro l hl
    cases l with
    | buf sp => cases sp <;> first | exact fun _ => rfl | exact absurd (by decide) hl
    | _ => first | exact absurd (by decide) hl | exact rfl | exact ⟨rfl, rfl, rfl, rfl⟩
  · intro h
    rw [Memory.wf_iff] at h ⊢
    obtain ⟨h1, h2, h3, h4, h5, h6, h7, h8⟩ := h
    exact ⟨h1, h2, h3, h4, h5, rfl, rfl, h8⟩
  · intro h
    obtain ⟨h1, h2, h3, h4, h5, h6, h7, h8⟩ := h
    simp only [Memory.Fresh, State.qrBegin_mem, State.qrBegin_draws, Buf.blank]
    omega

theorem State.nextIndicator_steady (s : State) (ws : List Loc) : Steady ws s s.nextIndicator.2 := by
  rw [State.nextIndicator]
  split
  · exact Steady.refl ws s
  · exact Steady.advance ws s 4

theorem State.nextIndicator_lt (s : State) : s.nextIndicator.1 < 16 := by
  rw [State.nextIndicator]
  split
  · simp
  · exact s.field_lt _ 4

theorem State.qrRound_ends (s : State) : Keeps writesDecQr s s.qrRound ∧ Ends s s.qrRound := by
  have h1 := GoodEnd.streamEnd (GoodEnd.qrIndicator s.nextIndicator.1 s.nextIndicator.2)
  have h2 := s.nextIndicator_steady writesDecQr
  exact ⟨h2.keeps.trans h1.1, Ends.after h2 h1.2⟩

theorem qrLoop_ends (fuel : Nat) : ∀ (s t : State), Keeps writesDecQr s t → Ends s t →
    Keeps writesDecQr s (qrLoop fuel t) ∧ Ends s (qrLoop fuel t) := by
  induction fuel with
  | zero => exact fun s t hk he => ⟨hk, he⟩
  | succ fuel ih =>
    intro s t hk he
    rw [qrLoop]
    split
    · rename_i hseg
      obtain ⟨k1, e1⟩ := t.qrRound_ends
      exact ih s _ (hk.trans k1) (he.trans_of_goOn (by rw [hseg]; simp) e1)
    all_goals exact ⟨hk, he⟩

theorem execDecQr_ends (s : State) : ∃ t, execDecQr s = .next t ∧ EndsIn writesDecQr s t := by
  refine ⟨_, rfl, EndsIn.ite ?_ (EndsIn.illegal _ s)⟩
  obtain ⟨hk, hs, he⟩ := Steady.qrBegin s
  exact .of (qrLoop_ends _ s s.qrBegin hk (.inr (.inr ⟨by simp, hs, he⟩)))

/-- The indicator decoder and the case table of rule R432 give the same effect. -/
theorem exec_decodeIndicator (v : BitVec 4) (s : State) :
    exec (decodeIndicator v) s = .next (s.streamEnd writesDecQr (qrIndicator v.toNat s)) := by
  have hb : ∀ P : BitVec 4 → Prop, (∀ n : Fin 16, P (BitVec.ofFin n)) → P v := fun P h => h v.toFin
  refine hb (fun v => exec (decodeIndicator v) s = .next (s.streamEnd writesDecQr (qrIndicator v.toNat s))) (fun n => ?_)
  clear hb
  fin_cases n <;> rfl

/-! ### The encoders -/

theorem Enc.len_nil_le (n : Nat) : ([] : List Nat).length ≤ n := Nat.zero_le n

theorem Keeps.setEnc (s : State) (e : Enc) : Steady writesEncDm s (s.setEnc e) := by
  refine ⟨⟨SameInputs.refl s, ⟨rfl, rfl, rfl⟩, ?_, id, ?_, id⟩, rfl, rfl, rfl⟩
  · intro l hl
    cases l with
    | buf sp => cases sp <;> first | exact fun _ => rfl | exact absurd (by decide) hl
    | _ => first | exact absurd (by decide) hl | exact rfl
  · intro h
    rw [Memory.wf_iff] at h ⊢
    obtain ⟨h1, h2, h3, h4, h5, h6, h7, h8⟩ := h
    exact ⟨h1, Buf.ofList_wf _ _ (by simp), h3, h4, h5, h6, h7, h8⟩

theorem encStart_len (i : EncIn) (e : Enc) : (encStart i e).rev.length ≤ 1 := by
  simp only [encStart]
  split
  · simp
  · split <;> simp

theorem State.encBegin_steady (s : State) :
    Keeps writesEncDm s s.encBegin ∧ s.encBegin.regs.status = s.regs.status ∧ s.encBegin.regs.err = s.regs.err := by
  refine ⟨⟨SameInputs.refl s, ⟨rfl, rfl, rfl⟩, ?_, id, ?_, ?_⟩, rfl, rfl⟩
  · intro l hl
    unfold State.encBegin
    generalize encStart s.encIn s.enc = e
    cases l with
    | buf sp => cases sp <;> first | exact fun _ => rfl | exact absurd (by decide) hl
    | _ => first | exact absurd (by decide) hl | exact rfl
  · intro h
    rw [Memory.wf_iff] at h ⊢
    obtain ⟨h1, h2, h3, h4, h5, h6, h7, h8⟩ := h
    have hl : ((encStart s.encIn s.enc).rev.map (BitVec.ofNat 8)).length ≤ Config.cwSize := by
      rw [List.length_map]; exact (encStart_len _ _).trans (by decide)
    rw [State.encBegin_mem]
    exact ⟨h1, Buf.ofList_wf _ _ hl, h3, h4, h5, h6, h7, h8⟩
  · intro h
    obtain ⟨h1, h2, h3, h4, h5, h6, h7, h8⟩ := h
    simp only [Memory.Fresh, State.encBegin_mem, State.encBegin_draws, Buf.ofList]
    omega

theorem isUnitFault_defectErr : isUnitFault defectErr.exn := isUnitFault_defect 0

/-- A fault of a unit found where CW may have overflowed. -/
theorem encFault_fault {i : EncIn} {e : Enc} {r : Raise} (h : isUnitFault r.exn) : isUnitFault (encFault i e r).exn := by
  unfold encFault
  split
  · exact isUnitFault_defectErr
  · exact h

theorem illegalCharErr_fault (n : Nat) : isUnitFault (illegalCharErr n).exn := .inr (.inr (.inl rfl))

theorem capacityErr_fault (e : Enc) : isUnitFault (capacityErr e).exn := .inr (.inl rfl)

theorem capQuery_fault {i : EncIn} {e : Enc} {n : Nat} {r : Raise} (h : capQuery i e n = .error r) :
    isUnitFault r.exn := by
  unfold capQuery at h
  split at h
  · cases h; exact isUnitFault_defectErr
  · split at h
    · cases h
    · cases h; exact encFault_fault (capacityErr_fault e)

/-- Every fault of ENC.DM is one of U1's. -/
theorem capFor_fault {i : EncIn} {e : Enc} {n : Nat} {r : Raise} (h : capFor i e n = .error r) : isUnitFault r.exn := by
  unfold capFor at h
  split at h
  · cases h
  · rename_i hc; cases h; exact capQuery_fault hc

theorem c40Avail_fault {i : EncIn} {e : Enc} {r : Raise} (h : c40Avail i e = .error r) : isUnitFault r.exn := by
  unfold c40Avail at h
  dsimp only at h
  split at h
  · cases h
  · rename_i hc; cases h; exact capFor_fault hc

theorem c40BackOne_fault {i : EncIn} {r : Raise} (fuel : Nat) : ∀ e : Enc, c40BackOne i fuel e = .error r → isUnitFault r.exn := by
  induction fuel with
  | zero => intro e h; cases h
  | succ fuel ih =>
    intro e h
    rw [c40BackOne] at h
    split at h
    · split at h
      · exact ih _ h
      · split at h
        · rename_i hc; cases h; exact c40Avail_fault hc
        · split at h
          · exact ih _ h
          · cases h
    · cases h

theorem c40Loop_fault {i : EncIn} {m : Mode} {r : Raise} (cs : List Nat) : ∀ e : Enc, c40Loop i m e cs = .error r → isUnitFault r.exn := by
  induction cs with
  | nil => intro e h; cases h
  | cons c rest ih =>
    intro e h
    rw [c40Loop] at h
    dsimp only at h
    split at h
    · cases h; exact isUnitFault_defectErr
    split at h
    · split at h
      · rename_i hc
        cases h
        unfold c40BackTwo at hc
        split at hc
        · split at hc
          · rename_i hd; cases hc; exact c40Avail_fault hd
          · cases hc
        · cases hc
      · exact c40BackOne_fault _ _ h
    · split at h
      · split at h
        · cases h
        · exact ih _ h
      · exact ih _ h

theorem c40Run_fault {i : EncIn} {m : Mode} {e : Enc} {r : Raise} (h : c40Run i m e = .error r) : isUnitFault r.exn := by
  unfold c40Run at h
  split at h
  · rename_i hc; cases h; exact c40Loop_fault _ _ hc
  · unfold c40End at h
    split at h
    · rename_i hc; cases h; exact c40Avail_fault hc
    · dsimp only at h
      split at h
      · cases h
      · split at h <;> cases h

theorem x12Loop_fault {i : EncIn} {r : Raise} (cs : List Nat) : ∀ e : Enc, x12Loop i e cs = .error r → isUnitFault r.exn := by
  induction cs with
  | nil => intro e h; cases h
  | cons c rest ih =>
    intro e h
    rw [x12Loop] at h
    split at h
    · cases h; exact encFault_fault (illegalCharErr_fault _)
    · dsimp only at h
      split at h
      · split at h
        · cases h
        · exact ih _ h
      · exact ih _ h

theorem x12Run_fault {i : EncIn} {e : Enc} {r : Raise} (h : x12Run i e = .error r) : isUnitFault r.exn := by
  unfold x12Run at h
  split at h
  · rename_i hc; cases h; exact x12Loop_fault _ _ hc
  · unfold x12End at h
    split at h
    · rename_i hc; cases h; exact capFor_fault hc
    · cases h

theorem edfLoop_fault {i : EncIn} {r : Raise} (cs : List Nat) : ∀ e : Enc, edfLoop i e cs = .error r → isUnitFault r.exn := by
  induction cs with
  | nil => intro e h; cases h
  | cons c rest ih =>
    intro e h
    rw [edfLoop] at h
    split at h
    · cases h; exact encFault_fault (illegalCharErr_fault _)
    · dsimp only at h
      split at h
      · split at h
        · cases h
        · exact ih _ h
      · exact ih _ h

theorem edfEndGroup_fault {i : EncIn} {e : Enc} {r : Raise} (h : edfEndGroup i e = .error r) : isUnitFault r.exn := by
  unfold edfEndGroup at h
  dsimp only at h
  split at h
  · split at h
    · rename_i hc; cases h; exact capFor_fault hc
    · split at h <;> cases h
  · cases h

theorem edfRun_fault {i : EncIn} {e : Enc} {r : Raise} (h : edfRun i e = .error r) : isUnitFault r.exn := by
  unfold edfRun at h
  split at h
  · rename_i hc; cases h; exact edfLoop_fault _ _ hc
  · unfold edfEnd at h
    split at h
    · split at h
      · rename_i hc
        cases h
        unfold edfEndsBySymbol at hc
        dsimp only at hc
        split at hc
        · rename_i hd; cases hc; exact capFor_fault hd
        · split at hc
          · split at hc
            · rename_i hd; cases hc; exact capFor_fault hd
            · cases hc
          · cases hc
      · cases h
      · exact edfEndGroup_fault h
    · exact edfEndGroup_fault h

theorem b256Run_fault {i : EncIn} {e : Enc} {r : Raise} (h : b256Run i e = .error r) : isUnitFault r.exn := by
  unfold b256Run b256End at h
  dsimp only at h
  split at h
  · cases h; exact isUnitFault_defectErr
  split at h
  · rename_i hc; cases h; exact capFor_fault hc
  · split at h
    · split at h
      · cases h; exact capacityErr_fault _
      · cases h
    · cases h

theorem encRound_fault {i : EncIn} {e : Enc} {r : Raise} (h : encRound i e = .error r) : isUnitFault r.exn := by
  unfold encRound at h
  split at h
  · rename_i hc
    cases h
    unfold encDispatch at hc
    split at hc
    · cases hc
    · exact c40Run_fault hc
    · exact c40Run_fault hc
    · exact x12Run_fault hc
    · exact edfRun_fault hc
    · exact b256Run_fault hc
  · split at h
    · cases h; exact isUnitFault_defectErr
    · cases h

theorem encLoop_fault {i : EncIn} {r : Raise} (fuel : Nat) : ∀ e : Enc, encLoop i fuel e = .error r → isUnitFault r.exn := by
  induction fuel with
  | zero => intro e h; cases h
  | succ fuel ih =>
    intro e h
    rw [encLoop] at h
    split at h
    · split at h
      · rename_i hc; cases h; exact encRound_fault hc
      · exact ih _ h
    · cases h

theorem encTerminate_fault {i : EncIn} {e : Enc} {r : Raise} (h : encTerminate i e = .error r) : isUnitFault r.exn := by
  unfold encTerminate at h
  split at h
  · rename_i hc; cases h; exact capQuery_fault hc
  · split at h
    · cases h; exact isUnitFault_defectErr
    · cases h

theorem State.encAdvance_ends (s : State) (fuel : Nat) :
    Keeps writesEncDm s (s.encAdvance fuel) ∧ Ends s (s.encAdvance fuel) := by
  unfold State.encAdvance
  split
  · rename_i h; exact ⟨Keeps.raise _ s _ _ _, Ends.raise s (encLoop_fault _ _ h) _ _ _⟩
  · rename_i e h
    exact (GoodEnd.goOn (Keeps.setEnc s e) .encDm (by simp) : GoodEnd writesEncDm s _)
  · split
    · rename_i h; exact ⟨Keeps.raise _ s _ _ _, Ends.raise s (encTerminate_fault h) _ _ _⟩
    · rename_i t idx h
      have h1 := Keeps.setEnc s t
      have h2 : Steady writesEncDm (s.setEnc t) (s.setEncResult t idx) := by
        refine ⟨⟨SameInputs.refl _, ⟨rfl, rfl, rfl⟩, ?_, id, id, id⟩, rfl, rfl, rfl⟩
        intro l hl
        cases l with
        | buf sp => exact fun _ => rfl
        | _ => first | exact absurd (by decide) hl | exact rfl
      have h3 := h1.trans h2
      exact ⟨h3.keeps.trans (Keeps.complete _ _), Ends.complete h3⟩

theorem execEncDm_ends (s : State) : ∃ t, execEncDm s = .next t ∧ EndsIn writesEncDm s t := by
  refine ⟨_, rfl, EndsIn.ite ?_ (EndsIn.illegal _ s)⟩
  obtain ⟨hk, hs, he⟩ := s.encBegin_steady
  obtain ⟨k1, e1⟩ := s.encBegin.encAdvance_ends (Config.fuelEncDm s.regs.txtLen.toNat)
  exact .of ⟨hk.trans k1, Ends.trans_of_goOn (.inr (.inr ⟨by simp, hs, he⟩)) (by simp) e1⟩

theorem Steady.setCw (s : State) (cws : List Nat) (h : cws.length ≤ Config.cwSize) :
    Steady [.buf .cw, .cwLen] s (s.setCw cws) := by
  refine ⟨⟨SameInputs.refl s, ⟨rfl, rfl, rfl⟩, ?_, id, ?_, ?_⟩, rfl, rfl, rfl⟩
  · intro l hl
    cases l with
    | buf sp => cases sp <;> first | exact fun _ => rfl | exact absurd (by decide) hl
    | _ => first | exact absurd (by decide) hl | exact rfl | exact ⟨rfl, rfl, rfl, rfl⟩
  · intro hw
    rw [Memory.wf_iff] at hw ⊢
    obtain ⟨h1, h2, h3, h4, h5, h6, h7, h8⟩ := hw
    exact ⟨h1, Buf.ofList_wf _ _ (by simpa using h), h3, h4, h5, h6, h7, h8⟩
  · intro hf
    obtain ⟨h1, h2, h3, h4, h5, h6, h7, h8⟩ := hf
    simp only [Memory.Fresh, State.setCw_mem, State.setCw_draws, Buf.ofList]
    omega

end Sys2Proof.Machine
end

