-- ==== Sys2Proof/Laws/Symbols.lean ====
section
/-! SUPPORT. What the remaining commands keep and how they end (ENC.QR, the mapper, the parser, the format metadata codec), and
the dispatch as a whole: every instruction answers a next state that keeps all but its write set and ends well. -/

namespace Sys2Proof.Machine

set_option Elab.async false

/-! ### Rows of the tables -/

theorem dmFindDims_mem {h w : Nat} {p : Nat × DmRow} (rows : List DmRow) : ∀ idx, dmFindDims h w idx rows = some p →
    p.2 ∈ rows ∧ dmSymH p.2 = h ∧ dmSymW p.2 = w ∧ idx ≤ p.1 ∧ rows[p.1 - idx]? = some p.2 := by
  induction rows with
  | nil => intro idx hp; cases hp
  | cons r rest ih =>
    intro idx hp
    rw [dmFindDims] at hp
    split at hp
    · rename_i hd; cases hp; exact ⟨by simp, hd.1, hd.2, Nat.le_refl _, by simp⟩
    · obtain ⟨h1, h2, h3, h4, h5⟩ := ih _ hp
      refine ⟨by simp [h1], h2, h3, by omega, ?_⟩
      rw [show p.1 - idx = (p.1 - (idx + 1)) + 1 from by omega, List.getElem?_cons_succ]
      exact h5

/-- A row found by its size is a row of the table, of that size, under its index (20_memory.md rule R108). -/
theorem dmByDims_some {rom : Rom} {h w idx : Nat} {r : DmRow} (hd : dmByDims rom h w = some (idx, r)) :
    dmRow rom idx = some r ∧ dmSymH r = h ∧ dmSymW r = w := by
  rw [dmByDims] at hd
  split at hd
  · cases hd
  · obtain ⟨_, h2, h3, _, h5⟩ := dmFindDims_mem _ _ hd
    exact ⟨h5, h2, h3⟩

theorem dmScan_some {shape : BitVec 2} {cmin cmax : SizeReg} {n : Nat} {p : Nat × DmRow} (rows : List DmRow) :
    ∀ idx, dmScan shape cmin cmax n idx rows = some p →
      idx ≤ p.1 ∧ rows[p.1 - idx]? = some p.2 ∧ dmPermitted shape cmin cmax p.2 = true ∧ n ≤ p.2.data := by
  induction rows with
  | nil => intro idx hp; cases hp
  | cons r rest ih =>
    intro idx hp
    rw [dmScan] at hp
    split at hp
    · rename_i hd
      cases hp
      simp only [Bool.and_eq_true, decide_eq_true_eq] at hd
      exact ⟨Nat.le_refl _, by simp, hd.1, hd.2⟩
    · obtain ⟨h1, h2, h3, h4⟩ := ih _ hp
      refine ⟨by omega, ?_, h3, h4⟩
      rw [show p.1 - idx = (p.1 - (idx + 1)) + 1 from by omega, List.getElem?_cons_succ]
      exact h2

/-- A row `dmLookup` gives is a row of the table, permitted, with room (20_memory.md rule R102). -/
theorem dmLookup_some {rom : Rom} {r : Regs} {n idx : Nat} {row : DmRow} (h : dmLookup rom r n = some (idx, row)) :
    dmRow rom idx = some row ∧ dmPermitted r.cfgShape r.cfgMin r.cfgMax row = true ∧ n ≤ row.data := by
  obtain ⟨_, h2, h3, h4⟩ := dmScan_some _ _ h
  exact ⟨h2, h3, h4⟩

/-- A row MAP.DM draws fits GRID and its registers. -/
theorem dmDrawable_iff (r : DmRow) :
    dmDrawable r = true ↔ dmRowOk r = true ∧ 0 < dmNr r ∧ 0 < dmNc r
      ∧ dmSymH r ≤ 255 ∧ dmSymW r ≤ 255 := by
  simp only [dmDrawable, Bool.and_eq_true, decide_eq_true_eq, and_assoc]

/-- A mapping matrix is no larger than its symbol. -/
theorem dmMatrix_le (r : DmRow) : dmNr r ≤ dmSymH r ∧ dmNc r ≤ dmSymW r :=
  ⟨Nat.mul_le_mul_left _ (Nat.le_add_right _ _), Nat.mul_le_mul_left _ (Nat.le_add_right _ _)⟩

theorem qrDim_le {v : Nat} (h : verLegal v = true) : qrDim v ≤ 177 := by
  simp only [verLegal, Bool.and_eq_true, decide_eq_true_eq] at h
  simp only [qrDim]; omega

theorem sum_le_of_forall_le {l : List Nat} {b : Nat} (h : ∀ x ∈ l, x ≤ b) : l.sum ≤ l.length * b := by
  induction l with
  | nil => simp
  | cons x rest ih =>
    have h1 := h x (by simp)
    have h2 := ih (fun y hy => h y (by simp [hy]))
    simp only [List.sum_cons, List.length_cons, Nat.add_mul]; omega

/-- A version that keeps rule R107 has no more codewords than its symbol has cells for. -/
theorem qrTotal_le {rom : Rom} {v : Nat} (h : qrRowOk rom v = true) : 8 * qrTotal rom v ≤ qrDim v * qrDim v := by
  simp only [qrRowOk, Bool.and_eq_true, decide_eq_true_eq] at h
  have hs : qrFreeCells rom v ≤ qrDim v * qrDim v := by
    refine (sum_le_of_forall_le (b := qrDim v) ?_).trans (by simp)
    intro x hx
    obtain ⟨r, _, rfl⟩ := List.mem_map.mp hx
    exact Nat.sub_le _ _
  omega

theorem nearer_or (best : Option Nat × Nat) (d x : Nat) : nearer best d x = best ∨ (nearer best d x).1 = some d := by
  unfold nearer
  split
  · exact .inr rfl
  · exact .inl rfl

theorem verScan_bounds {w u : Nat} (rows : List Nat) : ∀ (v : Nat) (best : Option Nat × Nat),
    (∀ b, best.1 = some b → 7 ≤ b ∧ b < v) → 7 ≤ v → verScan w v best rows = some u → 7 ≤ u ∧ u < v + rows.length := by
  induction rows with
  | nil =>
    intro v best hb _ h
    rw [verScan] at h
    split at h
    · exact hb u h
    · cases h
  | cons t rest ih =>
    intro v best hb hv h
    rw [verScan] at h
    split at h
    · cases h; exact ⟨hv, by simp⟩
    · obtain ⟨h1, h2⟩ := ih (v + 1) _ (fun b hn => by
        rcases nearer_or best v (dist w t) with e | e
        · rw [e] at hn; exact ⟨(hb b hn).1, Nat.lt_succ_of_lt (hb b hn).2⟩
        · rw [e] at hn; cases hn; exact ⟨hv, Nat.lt_succ_self _⟩) (by omega) h
      exact ⟨h1, by rw [List.length_cons]; omega⟩

/-- A version word decodes to a version from 7 to 40 (46_format_metadata_codec.md rule R480). -/
theorem verNearest_bounds {w u : Nat} (h : verNearest w = some u) : 7 ≤ u ∧ u ≤ 40 := by
  obtain ⟨h1, h2⟩ := verScan_bounds tVer 7 (none, 99) (fun b hb => by cases hb) (Nat.le_refl _) h
  exact ⟨h1, by have : tVer.length = 34 := rfl; omega⟩

/-! ### The placement walk places at most `limit` codewords -/

theorem placeCodeword_le {nr nc limit : Nat} {cells : List (Int × Int)} {w t : Walk}
    (h : placeCodeword nr nc limit cells w = some t) : t.placed.length ≤ limit := by
  unfold placeCodeword at h
  split at h
  · cases h
  · split at h
    · cases h
    · cases h; simp only [List.length_cons]; omega

theorem placeIfFree_le {nr nc limit : Nat} {w t : Walk} (hw : w.placed.length ≤ limit)
    (h : placeIfFree nr nc limit w = some t) : t.placed.length ≤ limit := by
  unfold placeIfFree at h
  split at h
  · split at h
    · cases h; exact hw
    · exact placeCodeword_le h
  · cases h

theorem sweepUp_le {nr nc limit : Nat} {t : Walk} (fuel : Nat) : ∀ w : Walk, w.placed.length ≤ limit →
    sweepUp nr nc limit fuel w = some t → t.placed.length ≤ limit := by
  induction fuel with
  | zero => intro w _ h; cases h
  | succ fuel ih =>
    intro w hw h
    rw [sweepUp] at h
    split at h
    · cases h
    · rename_i u hu
      have hl : u.placed.length ≤ limit := by
        split at hu
        · exact placeIfFree_le hw hu
        · cases hu; exact hw
      dsimp only at h
      split at h
      · exact ih { u with row := u.row - 2, col := u.col + 2 } hl h
      · cases h; exact hl

theorem sweepDown_le {nr nc limit : Nat} {t : Walk} (fuel : Nat) : ∀ w : Walk, w.placed.length ≤ limit →
    sweepDown nr nc limit fuel w = some t → t.placed.length ≤ limit := by
  induction fuel with
  | zero => intro w _ h; cases h
  | succ fuel ih =>
    intro w hw h
    rw [sweepDown] at h
    split at h
    · cases h
    · rename_i u hu
      have hl : u.placed.length ≤ limit := by
        split at hu
        · exact placeIfFree_le hw hu
        · cases hu; exact hw
      dsimp only at h
      split at h
      · exact ih { u with row := u.row + 2, col := u.col - 2 } hl h
      · cases h; exact hl

theorem walkRound_le {nr nc limit : Nat} {w t : Walk} (hw : w.placed.length ≤ limit)
    (h : walkRound nr nc limit w = some t) : t.placed.length ≤ limit := by
  unfold walkRound at h
  split at h
  · cases h
  · rename_i w1 h1
    have l1 : w1.placed.length ≤ limit := by
      split at h1
      · exact placeCodeword_le h1
      · cases h1; exact hw
    split at h
    · cases h
    · rename_i w2 h2
      have l2 := sweepUp_le _ _ l1 h2
      split at h
      · cases h
      · rename_i w3 h3
        have l3 := sweepDown_le (limit := limit) _ _ (by exact l2) h3
        cases h; exact l3

theorem walkLoop_le {nr nc limit : Nat} {t : Walk} (fuel : Nat) : ∀ w : Walk, w.placed.length ≤ limit →
    walkLoop nr nc limit fuel w = some t → t.placed.length ≤ limit := by
  induction fuel with
  | zero => intro w _ h; cases h
  | succ fuel ih =>
    intro w hw h
    rw [walkLoop] at h
    split at h
    · cases h
    · rename_i u hu
      have hl := walkRound_le hw hu
      split at h
      · exact ih _ hl h
      · cases h; exact hl

/-- The walk places no codeword beyond its limit. -/
theorem walk_le {nr nc limit : Nat} {w : Walk} (h : walk nr nc limit = some w) : w.placed.length ≤ limit :=
  walkLoop_le _ _ (Nat.zero_le _) h

/-! ### ENC.QR -/

theorem bytesOfBits_length (n : Nat) : ∀ bits : List Bool, bits.length / 8 = n → (bytesOfBits bits).length = n := by
  induction n with
  | zero =>
    intro bits h
    match bits with
    | [] | [_] | [_, _] | [_, _, _] | [_, _, _, _] | [_, _, _, _, _] | [_, _, _, _, _, _] | [_, _, _, _, _, _, _] => rfl
    | _ :: _ :: _ :: _ :: _ :: _ :: _ :: _ :: rest => simp only [List.length_cons] at h; omega
  | succ n ih =>
    intro bits h
    match bits with
    | [] | [_] | [_, _] | [_, _, _] | [_, _, _, _] | [_, _, _, _, _] | [_, _, _, _, _, _] | [_, _, _, _, _, _, _] =>
      simp at h
    | b1 :: b2 :: b3 :: b4 :: b5 :: b6 :: b7 :: b8 :: rest =>
      simp only [List.length_cons] at h
      rw [bytesOfBits, List.length_cons, ih rest (by omega)]

theorem qrPads_length (n : Nat) : ∀ even, (qrPads n even).length = n := by
  induction n with
  | zero => intro _; rfl
  | succ n ih => intro even; rw [qrPads, List.length_cons, ih]

/-- ENC.QR's stream fills the symbol's data capacity exactly (41_tce_qr.md rule R287). -/
theorem qrFill_length {cap : Nat} {bits : List Bool} (h : bits.length ≤ 8 * cap) : (qrFill cap bits).length = cap := by
  unfold qrFill
  dsimp only
  rw [List.length_append, qrPads_length, bytesOfBits_length _ _ rfl]
  simp only [List.length_append, List.length_replicate]
  omega

theorem qrAssemble_length {rom : Rom} {m : QrMode} {e cnt v : Nat} {h d : List Bool} {cws : List Nat}
    (ha : qrAssemble rom m e cnt h d = .ok (v, cws)) : cws.length = qrData rom v e := by
  unfold qrAssemble at ha
  dsimp only at ha
  split at ha
  · cases ha
  · split at ha
    · cases ha
    · split at ha
      · cases ha
      · split at ha
        · cases ha
        · rename_i hn; cases ha; exact qrFill_length (by omega)

theorem kanjiBits_fault {r : Raise} : ∀ (txt : List Nat) (idx : Nat), kanjiBits idx txt = .error r → isUnitFault r.exn
  | [], _, h => by simp [kanjiBits] at h
  | [_], _, h => by simp [kanjiBits] at h
  | hi :: lo :: rest, idx, h => by
    rw [kanjiBits] at h
    split at h
    · cases h; exact .inr (.inr (.inl rfl))
    · split at h
      · rename_i hc; cases h; exact kanjiBits_fault rest _ hc
      · cases h

theorem qrQuery_fault {rom : Rom} {n e : Nat} {r : Raise} (h : qrQuery rom n e = .error r) : isUnitFault r.exn := by
  unfold qrQuery at h
  split at h
  · cases h; exact isUnitFault_defectErr
  · split at h
    · cases h; exact .inr (.inl rfl)
    · cases h

theorem qrAssemble_fault {rom : Rom} {m : QrMode} {e cnt : Nat} {h d : List Bool} {r : Raise}
    (ha : qrAssemble rom m e cnt h d = .error r) : isUnitFault r.exn := by
  unfold qrAssemble at ha
  dsimp only at ha
  split at ha
  · rename_i hq; cases ha; exact qrQuery_fault hq
  · split at ha
    · rename_i hq; cases ha; exact qrQuery_fault hq
    · split at ha
      · cases ha; exact .inr (.inl rfl)
      · split at ha
        · cases ha; exact .inr (.inl rfl)
        · cases ha

theorem qrEncode_fault {rom : Rom} {cfg : CfgQrReg} {eci : CfgEciReg} {txt : List Nat} {r : Raise}
    (h : qrEncode rom cfg eci txt = .error r) : isUnitFault r.exn := by
  unfold qrEncode at h
  dsimp only at h
  split at h
  · rename_i hc
    cases h
    unfold qrDataBits at hc
    split at hc
    · cases hc
    · cases hc
    · cases hc
    · exact kanjiBits_fault _ _ hc
  · split at h
    · rename_i hc; cases h; exact qrAssemble_fault hc
    · cases h

theorem qrEncode_length {rom : Rom} {cfg : CfgQrReg} {eci : CfgEciReg} {txt : List Nat} {m : QrMode} {v : Nat}
    {cws : List Nat} (h : qrEncode rom cfg eci txt = .ok (m, v, cws)) : cws.length = qrData rom v cfg.ecl.toNat := by
  unfold qrEncode at h
  dsimp only at h
  split at h
  · cases h
  · split at h
    · cases h
    · rename_i hc; cases h; exact qrAssemble_length hc

/-- A change of registers in `ws` alone. -/
theorem Steady.regs {ws : List Loc} {s : State} {rg : Regs} (hi : SameInputs s { s with regs := rg })
    (hl : ∀ l : Loc, l ∉ ws → l.Same s { s with regs := rg }) (hs : rg.status = s.regs.status) (he : rg.err = s.regs.err) :
    Steady ws s { s with regs := rg } :=
  ⟨⟨hi, ⟨rfl, rfl, rfl⟩, hl, fun h => by simpa [hs] using h, id, id⟩, hs, he, rfl⟩

theorem Good.encQrBody (s : State) : Good writesEncQr s (encQrBody s) := by
  unfold Machine.encQrBody
  split
  · rename_i h; exact qrEncode_fault h
  · rename_i m v cws h
    split
    · exact isUnitFault_defectErr
    rename_i hl
    refine Steady.trans (Steady.mono (Steady.setCw s cws (Nat.not_lt.mp hl)) (by decide)) ?_
    refine Steady.regs (SameInputs.refl _) ?_ rfl rfl
    intro l hl
    cases l <;> first | rfl | exact fun _ => rfl | exact ⟨rfl, rfl, rfl, rfl⟩ | exact absurd (by decide) hl

theorem execEncQr_ends (s : State) : ∃ t, execEncQr s = .next t ∧ EndsIn writesEncQr s t :=
  ⟨_, rfl, EndsIn.ite (.of (Good.finish .tce (Good.encQrBody s))) (EndsIn.illegal _ s)⟩

/-! ### The mapper -/

theorem Steady.setDmSymbol (s : State) {r : DmRow} (b1 : dmSymH r ≤ 255) (b2 : dmSymW r ≤ 255) (mm : Nat) (w : Walk) :
    Steady writesMapDm s (s.setDmSymbol r mm w) := by
  obtain ⟨b3, b4⟩ := dmMatrix_le r
  refine ⟨⟨SameInputs.refl s, ⟨rfl, rfl, rfl⟩, ?_, id, ?_, ?_⟩, rfl, rfl, rfl⟩
  · intro l hl
    cases l with
    | buf sp => cases sp <;> first | exact fun _ => rfl | exact absurd (by decide) hl
    | _ => first | exact absurd (by decide) hl | exact rfl | exact ⟨rfl, rfl, rfl, rfl⟩
  · intro hw
    rw [Memory.wf_iff] at hw ⊢
    obtain ⟨h1, h2, h3, h4, h5, h6, h7, h8⟩ := hw
    rw [State.setDmSymbol_mem]
    exact ⟨h1, h2, Buf.ofGrid_wf _ _ (by omega) (by omega), Buf.ofGrid_wf _ _ (by omega) (by omega),
      Buf.ofGrid_wf _ _ (by omega) (by omega), h6, h7, h8⟩
  · intro hf
    obtain ⟨h1, h2, h3, h4, h5, h6, h7, h8⟩ := hf
    simp only [Memory.Fresh, State.setDmSymbol_mem, State.setDmSymbol_draws, Buf.ofGrid]
    omega

theorem dmMatrix_fault {r : DmRow} {cws : List Nat} {e : Raise} (h : dmMatrix r cws = .error e) : isUnitFault e.exn := by
  unfold dmMatrix at h
  split at h
  · cases h; exact isUnitFault_defectErr
  · split at h
    · cases h; exact isUnitFault_defectErr
    · dsimp only at h
      split at h
      · cases h
      · cases h; exact isUnitFault_defectErr

theorem Good.mapDmBody (s : State) (r : DmRow) : Good writesMapDm s (mapDmBody s r) := by
  unfold Machine.mapDmBody
  split
  · rename_i hd
    obtain ⟨_, _, _, b1, b2⟩ := (dmDrawable_iff r).mp hd
    split
    · rename_i h; exact dmMatrix_fault h
    · exact Steady.setDmSymbol s b1 b2 _ _
  · exact isUnitFault_defectErr

theorem execMapDm_ends (s : State) : ∃ t, execMapDm s = .next t ∧ EndsIn writesMapDm s t := by
  refine ⟨_, rfl, ?_⟩
  split
  · exact EndsIn.illegal _ s
  · exact .of (Good.finish .map (Good.mapDmBody s _))

theorem Steady.setQrSymbol (s : State) {v : Nat} (hv : qrDim v ≤ 256) (c : Candidate) :
    Steady writesMapQr s (s.setQrSymbol v c) := by
  refine ⟨⟨SameInputs.refl s, ⟨rfl, rfl, rfl⟩, ?_, id, ?_, ?_⟩, rfl, rfl, rfl⟩
  · intro l hl
    cases l with
    | buf sp => cases sp <;> first | exact fun _ => rfl | exact absurd (by decide) hl
    | _ => first | exact absurd (by decide) hl | exact rfl | exact ⟨rfl, rfl, rfl, rfl⟩
  · intro hw
    rw [Memory.wf_iff] at hw ⊢
    obtain ⟨h1, h2, h3, h4, h5, h6, h7, h8⟩ := hw
    rw [State.setQrSymbol_mem]
    exact ⟨h1, h2, Buf.ofGrid_wf _ _ hv hv, h4, Buf.ofGrid_wf _ _ hv hv, h6, h7, h8⟩
  · intro hf
    obtain ⟨h1, h2, h3, h4, h5, h6, h7, h8⟩ := hf
    simp only [Memory.Fresh, State.setQrSymbol_mem, State.setQrSymbol_draws, Buf.ofGrid]
    omega

theorem execMapQr_ends (s : State) : ∃ t, execMapQr s = .next t ∧ EndsIn writesMapQr s t := by
  refine ⟨_, rfl, ?_⟩
  split
  · rename_i hl
    refine .of (Good.finish .map ?_)
    unfold mapQrBody
    split
    · split
      · exact isUnitFault_defectErr
      · simp only [mapQrLegal, Bool.and_eq_true] at hl
        exact Steady.setQrSymbol s ((qrDim_le hl.1.1).trans (by decide)) _
    · exact isUnitFault_defectErr
  · exact EndsIn.illegal _ s

/-! ### The parser -/

/-- What the read walk gives: the row's number of codewords, and CW has room for them. -/
theorem dmReadWalk_ok {r : DmRow} {mm : Nat} {cws : List Nat} {w : Walk} (h : dmReadWalk r mm = .ok (cws, w)) :
    cws.length = dmTotal r ∧ dmTotal r ≤ Config.cwSize := by
  unfold dmReadWalk at h
  split at h
  · cases h
  · rename_i u hu
    have hle := walk_le hu
    split at h
    · cases h
    · rename_i hp
      cases h
      simp only [Decidable.not_not] at hp
      exact ⟨by simpa using hp, by omega⟩

theorem dmReadWalk_fault {r : DmRow} {mm : Nat} {e : Raise} (h : dmReadWalk r mm = .error e) : isUnitFault e.exn := by
  unfold dmReadWalk at h
  split at h
  · cases h; exact isUnitFault_defectErr
  · split at h
    · cases h; exact isUnitFault_format 0
    · cases h

theorem Steady.setDmRead (s : State) (idx : Nat) {r : DmRow} (b1 : dmNr r ≤ 256) (b2 : dmNc r ≤ 256) (mm : Nat)
    {cws : List Nat} (hl : cws.length ≤ Config.cwSize) (w : Walk) : Steady writesParDm s (s.setDmRead idx r mm cws w) := by
  refine ⟨⟨SameInputs.refl _, ⟨rfl, rfl, rfl⟩, ?_, id, ?_, ?_⟩, rfl, rfl, rfl⟩
  · intro l hl
    cases l with
    | buf sp => cases sp <;> first | exact fun _ => rfl | exact absurd (by decide) hl
    | _ => first | exact absurd (by decide) hl | exact rfl | exact ⟨rfl, rfl, rfl, rfl⟩
  · intro hw
    rw [Memory.wf_iff] at hw ⊢
    obtain ⟨h1, h2, h3, h4, h5, h6, h7, h8⟩ := hw
    rw [State.setDmRead_mem]
    exact ⟨h1, Buf.ofList_wf _ _ (by simpa using hl), h3, Buf.ofGrid_wf _ _ b1 b2, Buf.ofGrid_wf _ _ b1 b2, h6, h7, h8⟩
  · intro hf
    obtain ⟨h1, h2, h3, h4, h5, h6, h7, h8⟩ := hf
    simp only [Memory.Fresh, State.setDmRead_draws, State.setDmRead_mem, Buf.ofList, Buf.ofGrid]
    omega

theorem Good.parDmBody (s : State) : Good writesParDm s (parDmBody s) := by
  unfold Machine.parDmBody
  split
  · exact isUnitFault_defectErr
  · split
    · exact isUnitFault_format 0
    · rename_i idx r hd
      split
      · exact isUnitFault_defectErr
      · split
        · rename_i h; exact dmReadWalk_fault h
        · rename_i cws w h
          obtain ⟨h1, h2⟩ := dmReadWalk_ok h
          obtain ⟨_, hh, hw⟩ := dmByDims_some hd
          obtain ⟨b1, b2⟩ := dmMatrix_le r
          have g1 := s.regs.gridH.isLt
          have g2 := s.regs.gridW.isLt
          exact Steady.setDmRead s idx (by omega) (by omega) _ (h1 ▸ h2) w

theorem execParDm_ends (s : State) : ∃ t, execParDm s = .next t ∧ EndsIn writesParDm s t :=
  ⟨_, rfl, .of (Good.finish .par (Good.parDmBody s))⟩

/-- A fault of one attempt of PAR.QR (43_parser.md rule R373). -/
theorem qrAttempt_fault {rom : Rom} {g h w : Nat} {m : Bool} {r : Raise} (ha : qrAttempt rom g h w m = .error r) : isUnitFault r.exn := by
  unfold qrAttempt at ha
  split at ha
  · cases ha; exact isUnitFault_format 0
  · split at ha
    · cases ha; exact isUnitFault_format 0
    · split at ha
      · cases ha; exact isUnitFault_format 0
      · split at ha
        · cases ha; exact isUnitFault_format 0
        · split at ha
          · rename_i hd
            cases ha
            unfold readData at hd
            split at hd
            · dsimp only at hd
              split at hd
              · cases hd; exact isUnitFault_defectErr
              · split at hd
                · cases hd; exact isUnitFault_format 0
                · cases hd
            · cases hd; exact isUnitFault_defectErr
          · cases ha

theorem readVersion_ok {g w v : Nat} {m : Bool} (hw : 21 ≤ w) (hm : w % 4 = 1) (h : readVersion g m w = some v) :
    qrDim v = w ∧ 1 ≤ v ∧ v ≤ 40 := by
  have hver : ∀ {x u : Nat}, versionOf x w = some u → qrDim u = w ∧ 1 ≤ u ∧ u ≤ 40 := by
    intro x u hx
    unfold versionOf at hx
    split at hx
    · cases hx
    · rename_i z hz
      split at hx
      · rename_i hq
        cases hx
        obtain ⟨h1, h2⟩ := verNearest_bounds hz
        exact ⟨hq, by omega, h2⟩
      · cases hx
  unfold readVersion at h
  split at h
  · cases h; simp only [qrDim]; omega
  · split at h
    · rename_i hx; cases h; exact hver hx
    · exact hver h

theorem readData_ok {rom : Rom} {g v k : Nat} {m : Bool} {cws : List Nat} (h : readData rom g m v k = .ok cws) :
    qrRowOk rom v = true ∧ cws.length = qrTotal rom v := by
  unfold readData at h
  split at h
  · rename_i hr
    dsimp only at h
    split at h
    · cases h
    · split at h
      · cases h
      · rename_i hl; cases h; exact ⟨hr, by simpa using hl⟩
  · cases h

/-- What a completed attempt has found: a version of the grid's size, 1 to 40, and as many codewords as it holds. -/
theorem qrAttempt_ok {rom : Rom} {g h w : Nat} {m : Bool} {r : QrRead} (ha : qrAttempt rom g h w m = .ok r) :
    h = w ∧ qrDim r.ver = w ∧ (1 ≤ r.ver ∧ r.ver ≤ 40) ∧ qrRowOk rom r.ver = true ∧ r.cws.length = qrTotal rom r.ver := by
  unfold qrAttempt at ha
  split at ha
  · cases ha
  · rename_i hw
    split at ha
    · cases ha
    · rename_i hdim
      split at ha
      · cases ha
      · split at ha
        · cases ha
        · rename_i v hv
          split at ha
          · cases ha
          · rename_i cws hd
            cases ha
            obtain ⟨h1, h2⟩ := readVersion_ok (by omega) (by omega) hv
            obtain ⟨h3, h4⟩ := readData_ok hd
            exact ⟨by omega, h1, h2, h3, h4⟩

theorem qrAttempts_fault {rom : Rom} {g h w : Nat} {m y : Bool} {r : Raise} (ha : qrAttempts rom g h w m y = .error r) :
    isUnitFault r.exn := by
  unfold qrAttempts at ha
  split at ha
  · cases ha
  · rename_i e1 h1
    split at ha
    · split at ha
      · cases ha
      · rename_i e2 h2
        split at ha
        · cases ha; exact qrAttempt_fault h2
        · cases ha; exact qrAttempt_fault h1
    · cases ha; exact qrAttempt_fault h1

theorem qrAttempts_ok {rom : Rom} {g h w : Nat} {m y o : Bool} {r : QrRead} (ha : qrAttempts rom g h w m y = .ok (r, o)) :
    qrAttempt rom g h w o = .ok r := by
  unfold qrAttempts at ha
  split at ha
  · rename_i h1; cases ha; exact h1
  · split at ha
    · split at ha
      · rename_i h1; cases ha; exact h1
      · split at ha <;> cases ha
    · cases ha

/-- The state PAR.QR starts its attempts from. -/
def State.clearMirrored (s : State) : State := { s with regs.status.mirrored := false }

/-- PAR.QR keeps all but its write set and MIRRORED, and ends well. -/
theorem execParQr_ends (mirror retry : Bool) (s : State) :
    ∃ t, execParQr mirror retry s = .next t ∧ Keeps writesParQr s t
      ∧ ∃ o, Ends { s with regs.status.mirrored := o } t := by
  refine ⟨_, rfl, ?_⟩
  have hk : ∀ o, Keeps writesParQr s { s with regs.status.mirrored := o } := by
    intro o
    refine ⟨SameInputs.refl s, ⟨rfl, rfl, rfl⟩, ?_, id, id, id⟩
    intro l _
    cases l <;> first | rfl | exact fun _ => rfl | exact ⟨rfl, rfl, rfl, rfl⟩
  generalize hr : parQrBody s.clearMirrored mirror retry = r
  change Keeps writesParQr s (s.clearMirrored.finish .par writesParQr (parQrBody s.clearMirrored mirror retry)) ∧
    ∃ o, Ends { s with regs.status.mirrored := o } (s.clearMirrored.finish .par writesParQr
      (parQrBody s.clearMirrored mirror retry))
  rw [hr]
  unfold parQrBody at hr
  split at hr
  · rename_i e he
    subst hr
    exact ⟨(hk false).trans (Keeps.raise _ _ _ _ _), false, Ends.raise _ (qrAttempts_fault he) _ _ _⟩
  · rename_i q o ho
    subst hr
    obtain ⟨_, _, h2, h3, h4⟩ := qrAttempt_ok (qrAttempts_ok ho)
    have hdim : qrDim q.ver ≤ 177 := qrDim_le (by simp [verLegal, h2])
    have hlen : q.cws.length ≤ Config.cwSize := by
      have h5 := qrTotal_le h3
      have h6 := Nat.mul_le_mul hdim hdim
      simp only [Config.cwSize]; omega
    have hst : Keeps writesParQr s (s.clearMirrored.setQrRead q o) := by
      refine (hk false).trans ((Steady.mono (Steady.setCw s.clearMirrored q.cws hlen) (by decide)).keeps.trans ?_)
      refine ⟨SameInputs.refl _, ⟨rfl, rfl, rfl⟩, ?_, id, ?_, ?_⟩
      · intro l hl
        cases l with
        | buf sp => cases sp <;> first | exact fun _ => rfl | exact absurd (by decide) hl
        | _ => first | exact absurd (by decide) hl | exact rfl | exact ⟨rfl, rfl, rfl, rfl⟩
      · intro hw
        rw [Memory.wf_iff] at hw ⊢
        obtain ⟨g1, g2, g3, g4, g5, g6, g7, g8⟩ := hw
        exact ⟨g1, g2, g3, g4, Buf.ofGrid_wf _ _ (hdim.trans (by decide)) (hdim.trans (by decide)), g6, g7, g8⟩
      · intro hf
        obtain ⟨g1, g2, g3, g4, g5, g6, g7, g8⟩ := hf
        simp only [Memory.Fresh, State.setCw_draws, State.setCw_mem, State.setQrRead_mem, State.setQrRead_draws,
          Buf.ofGrid, Buf.ofList] at *
        omega
    exact ⟨hst.trans (Keeps.complete _ _), o, .inl ⟨State.complete_completed _, rfl⟩⟩

/-! ### The format metadata codec, NOP -/

theorem Steady.fmc {ws : List Loc} (s : State) (rg : Regs) (h : SameInputs s { s with regs := rg })
    (hl : ∀ l : Loc, l ∉ ws → l.Same s { s with regs := rg }) (hs : rg.status = s.regs.status) (he : rg.err = s.regs.err) :
    EndsIn ws s (State.complete { s with regs := rg }) := EndsIn.complete (Steady.regs h hl hs he)

theorem execFmtEnc_ends (s : State) : ∃ t, execFmtEnc s = .next t ∧ EndsIn [.r0] s t := by
  refine ⟨_, rfl, EndsIn.ite (Steady.fmc s _ (SameInputs.refl s) ?_ rfl rfl) (EndsIn.illegal _ s)⟩
  intro l hl
  cases l <;> first | rfl | exact fun _ => rfl | exact ⟨rfl, rfl, rfl, rfl⟩ | exact absurd (by decide) hl

theorem execFmtDec_ends (s : State) : ∃ t, execFmtDec s = .next t ∧ EndsIn [.r0, .resEcl, .resMask] s t := by
  refine ⟨_, rfl, EndsIn.ite ?_ (EndsIn.illegal _ s)⟩
  split
  · refine Steady.fmc s _ (SameInputs.refl s) ?_ rfl rfl
    intro l hl
    cases l <;> first | rfl | exact fun _ => rfl | exact ⟨rfl, rfl, rfl, rfl⟩ | exact absurd (by decide) hl
  · exact EndsIn.raise _ s (.inl rfl) _ _

theorem execVerEnc_ends (s : State) : ∃ t, execVerEnc s = .next t ∧ EndsIn [.r0] s t := by
  refine ⟨_, rfl, EndsIn.ite (Steady.fmc s _ (SameInputs.refl s) ?_ rfl rfl) (EndsIn.illegal _ s)⟩
  intro l hl
  cases l <;> first | rfl | exact fun _ => rfl | exact ⟨rfl, rfl, rfl, rfl⟩ | exact absurd (by decide) hl

theorem execVerDec_ends (s : State) : ∃ t, execVerDec s = .next t ∧ EndsIn [.r0] s t := by
  refine ⟨_, rfl, EndsIn.ite ?_ (EndsIn.illegal _ s)⟩
  split
  · refine Steady.fmc s _ (SameInputs.refl s) ?_ rfl rfl
    intro l hl
    cases l <;> first | rfl | exact fun _ => rfl | exact ⟨rfl, rfl, rfl, rfl⟩ | exact absurd (by decide) hl
  · exact EndsIn.raise _ s (.inl rfl) _ _

theorem execPen_ends (s : State) : ∃ t, execPen s = .next t ∧ EndsIn [.resPen] s t := by
  refine ⟨_, rfl, EndsIn.ite (Steady.fmc s _ (SameInputs.refl s) ?_ rfl rfl) (EndsIn.illegal _ s)⟩
  intro l hl
  cases l <;> first | rfl | exact fun _ => rfl | exact ⟨rfl, rfl, rfl, rfl⟩ | exact absurd (by decide) hl

/-! ### The dispatch -/

/-- A stream element's meaning. -/
theorem EndsIn.stream {ws : List Loc} {s : State} {r : Except Raise State} (h : GoodEnd ws s r) :
    ∃ t, (.next (s.streamEnd ws r) : Host.Outcome State Fault Refusal) = .next t ∧ EndsIn ws s t :=
  ⟨_, rfl, .of (GoodEnd.streamEnd h)⟩

/-- What is known of the outcome of any instruction: a next state that keeps all but the write set; it ends well or was refused,
where PAR.QR may also have written MIRRORED. -/
theorem exec_ends (i : Instr) (s : State) :
    ∃ t, exec i s = .next t ∧ Keeps (writeSet i) s t
      ∧ ((∃ o, Ends { s with regs.status.mirrored := o } t ∧ ((∀ a b, i ≠ .parQr a b) → o = s.regs.status.mirrored))
        ∨ t = s.refusedCommand) := by
  have lift : ∀ {ws : List Loc}, (∃ t, exec i s = .next t ∧ EndsIn ws s t) → writeSet i = ws →
      ∃ t, exec i s = .next t ∧ Keeps (writeSet i) s t
        ∧ ((∃ o, Ends { s with regs.status.mirrored := o } t ∧ ((∀ a b, i ≠ .parQr a b) → o = s.regs.status.mirrored))
          ∨ t = s.refusedCommand) := by
    rintro ws ⟨t, h1, h2, h3⟩ rfl
    refine ⟨t, h1, h2, ?_⟩
    rcases h3 with h3 | h3
    · exact .inl ⟨s.regs.status.mirrored, h3, fun _ => rfl⟩
    · exact .inr h3
  cases i with
  | nop => exact lift ⟨_, rfl, EndsIn.complete (Steady.refl [] s)⟩ rfl
  | encDm => exact lift (execEncDm_ends s) rfl
  | encQr => exact lift (execEncQr_ends s) rfl
  | mapDm => exact lift (execMapDm_ends s) rfl
  | mapQr => exact lift (execMapQr_ends s) rfl
  | parDm => exact lift (execParDm_ends s) rfl
  | parQr a b =>
    obtain ⟨t, h1, h2, o, h3⟩ := execParQr_ends a b s
    exact ⟨t, h1, h2, .inl ⟨o, h3, fun h => absurd rfl (h a b)⟩⟩
  | decDm => exact lift (execDecDm_ends s) rfl
  | decQr => exact lift (execDecQr_ends s) rfl
  | fmtEnc => exact lift (execFmtEnc_ends s) rfl
  | fmtDec => exact lift (execFmtDec_ends s) rfl
  | verEnc => exact lift (execVerEnc_ends s) rfl
  | verDec => exact lift (execVerDec_ends s) rfl
  | pen => exact lift (execPen_ends s) rfl
  | dmIll0 => exact lift (EndsIn.stream (GoodEnd.formatErr _ s s)) rfl
  | dmAscii b => exact lift (EndsIn.stream (GoodEnd.dmAsciiBody b s)) rfl
  | dmPad => exact lift (EndsIn.stream (GoodEnd.dmFinish s)) rfl
  | dmDigits b => exact lift (EndsIn.stream (GoodEnd.dmDigitsBody b s)) rfl
  | dmLatchC40 => exact lift (EndsIn.stream (GoodEnd.dmLatch s .c40)) rfl
  | dmLatchB256 => exact lift (EndsIn.stream (GoodEnd.dmLatch s .base256)) rfl
  | dmFnc1 => exact lift (EndsIn.stream (GoodEnd.dmFnc1Body s)) rfl
  | dmSa => exact lift (EndsIn.stream (GoodEnd.dmNext s)) rfl
  | dmRp => exact lift (EndsIn.stream (GoodEnd.dmNext s)) rfl
  | dmUpshift => exact lift (EndsIn.stream (GoodEnd.dmUpshiftBody s)) rfl
  | dmMacro05 => exact lift (EndsIn.stream (GoodEnd.dmMacroBody macroHeader05 s)) rfl
  | dmMacro06 => exact lift (EndsIn.stream (GoodEnd.dmMacroBody macroHeader06 s)) rfl
  | dmLatchX12 => exact lift (EndsIn.stream (GoodEnd.dmLatch s .x12)) rfl
  | dmLatchText => exact lift (EndsIn.stream (GoodEnd.dmLatch s .text)) rfl
  | dmLatchEdf => exact lift (EndsIn.stream (GoodEnd.dmLatch s .edifact)) rfl
  | dmEci => exact lift (EndsIn.stream (GoodEnd.dmLatch s .eci)) rfl
  | dmIll b => exact lift (EndsIn.stream (GoodEnd.formatErr _ s s)) rfl
  | dmUnlatch => exact lift (EndsIn.stream (GoodEnd.dmUnlatchBody s)) rfl
  | qrTerm => exact lift (EndsIn.stream (GoodEnd.qrFinish s)) rfl
  | qrNum => exact lift (EndsIn.stream (GoodEnd.qrNextOf (Good.counted 1 Good.numSeg s))) rfl
  | qrAlnum => exact lift (EndsIn.stream (GoodEnd.qrNextOf (Good.counted 2 Good.alnumSeg s))) rfl
  | qrSa => exact lift (EndsIn.stream (GoodEnd.qrNextOf (Good.qrSaBody s))) rfl
  | qrByte => exact lift (EndsIn.stream (GoodEnd.qrNextOf (Good.counted 4 Good.byteSeg s))) rfl
  | qrFnc1First =>
    exact lift (EndsIn.stream (GoodEnd.qrNext (Steady.work _ s { s.work with fnc1 := 1 } ⟨rfl, rfl, rfl, rfl⟩))) rfl
  | qrEci => exact lift (EndsIn.stream (GoodEnd.qrNextOf (Good.qrEciBody s))) rfl
  | qrKanji => exact lift (EndsIn.stream (GoodEnd.qrNextOf (Good.counted 8 (Good.doubleByteSeg kanjiCode) s))) rfl
  | qrFnc1Second =>
    exact lift (EndsIn.stream (GoodEnd.qrNext (Steady.work _ s { s.work with fnc1 := 2 } ⟨rfl, rfl, rfl, rfl⟩))) rfl
  | qrHanzi => exact lift (EndsIn.stream (GoodEnd.qrNextOf (Good.hanziSeg s))) rfl
  | qrIll v => exact lift (EndsIn.stream (GoodEnd.formatErr _ s s)) rfl

end Sys2Proof.Machine
end

