-- ==== Sys2Proof/Laws/Legal.lean ====
section
/-! SUPPORT. The legality condition of every command as a proposition (47_commands.md rule R518), and that an operand outside its
range makes it false. -/

namespace Sys2Proof.Machine

set_option Elab.async false

theorem encDmLegal_iff (r : Regs) : encDmLegal r = true ↔ r.cfgShape ≠ 3 ∧ r.txtLen.toNat ≤ 8192 := by
  simp [encDmLegal]

theorem encQrLegal_iff (r : Regs) : encQrLegal r = true ↔ r.txtLen.toNat ≤ 8192 := by simp [encQrLegal]

theorem cwLenLegal_iff (r : Regs) : cwLenLegal r = true ↔ r.cwLen.toNat ≤ 4096 := by simp [cwLenLegal]

theorem mapDmLegal_some {rom : Rom} {r : Regs} {row : DmRow} (hr : dmRow rom r.sym.toNat = some row)
    (hl : r.cwLen.toNat = dmTotal row) (hc : r.cwLen.toNat ≤ 4096) : mapDmLegal rom r = some row := by
  rw [mapDmLegal, hr]; exact if_pos ⟨hl, (cwLenLegal_iff r).mpr hc⟩

theorem mapDmLegal_eq_some {rom : Rom} {r : Regs} {row : DmRow} (h : mapDmLegal rom r = some row) :
    dmRow rom r.sym.toNat = some row ∧ r.cwLen.toNat = dmTotal row ∧ r.cwLen.toNat ≤ 4096 := by
  unfold mapDmLegal at h
  split at h
  · cases h
  · rename_i hr
    split at h
    · rename_i hl; cases h; exact ⟨hr, hl.1, (cwLenLegal_iff r).mp hl.2⟩
    · cases h

theorem verLegal_iff (v : Nat) : verLegal v = true ↔ 1 ≤ v ∧ v ≤ 40 := by simp [verLegal]

theorem mapQrLegal_iff (rom : Rom) (r : Regs) :
    mapQrLegal rom r = true ↔ (1 ≤ r.ver.toNat ∧ r.ver.toNat ≤ 40) ∧ r.cwLen.toNat = qrTotal rom r.ver.toNat
      ∧ r.cwLen.toNat ≤ 4096 := by
  simp [mapQrLegal, verLegal, cwLenLegal, and_assoc]

theorem decDmLegal_iff (r : Regs) : decDmLegal r = true ↔ r.cwLen.toNat ≤ 4096 := by simp [decDmLegal, cwLenLegal]

theorem decQrLegal_iff (r : Regs) :
    decQrLegal r = true ↔ (1 ≤ r.ver.toNat ∧ r.ver.toNat ≤ 40) ∧ r.cwLen.toNat ≤ 4096 := by
  simp [decQrLegal, verLegal, cwLenLegal]

theorem fmtEncLegal_iff (r : Regs) : fmtEncLegal r = true ↔ r.a0.toNat ≤ 3 ∧ r.a1.toNat ≤ 7 := by simp [fmtEncLegal]

theorem fmtDecLegal_iff (r : Regs) : fmtDecLegal r = true ↔ r.a0.toNat < 32768 ∧ r.a1.toNat < 32768 := by
  simp [fmtDecLegal]

theorem verEncLegal_iff (r : Regs) : verEncLegal r = true ↔ 7 ≤ r.a0.toNat ∧ r.a0.toNat ≤ 40 := by simp [verEncLegal]

theorem verDecLegal_iff (r : Regs) : verDecLegal r = true ↔ r.a0.toNat < 262144 := by simp [verDecLegal]

theorem penLegal_iff (r : Regs) : penLegal r = true ↔ 1 ≤ r.gridH.toNat ∧ 1 ≤ r.gridW.toNat := by simp [penLegal]

/-! ### A step with the host's actions -/

/-- With no action of the host before the command's end, a busy instance runs (`run`). -/
theorem step_of_undisturbed {s : State} (hu : s.undisturbed) (hb : s.phase ≠ .idle) : step s = run s := by
  unfold step
  cases hh : s.host with
  | nil => rfl
  | cons e rest =>
    have := hu e rest hh
    have hbusy : s.busy = true := (State.busy_iff s).mpr hb
    simp only [hostStep, hbusy, this, if_true]

/-- An action that lands in this step is performed. -/
theorem step_of_landsNow {s : State} {a : HostAct} {rest : List HostEvent} (h : s.landsNow a rest) :
    step s = .next (hostAct { s with host := rest } a) := by
  obtain ⟨e, hh, ha, hl⟩ := h
  unfold step
  rw [hh]
  simp only [hostStep]
  rcases hl with hl | hl
  · rw [if_neg (by simp [State.busy, hl]), ha]
  · split
    · rw [hl, ha]
    · rw [ha]

end Sys2Proof.Machine
end

