-- ==== Sys2Proof/Laws/PerInstr.lean ====
section
/-! SUPPORT. The rows of spec/opcode_table.json as data, and one lemma per instruction: the encoding of a well-formed instruction is
admitted by its own row and by no other. -/

namespace Sys2Proof.Laws

set_option Elab.async false

/-- A row of the opcode table: how many bits, which of them are fixed or range over, and the values those may have. -/
structure TableRow where
  nbits : Nat
  mask : Nat
  values : List (Nat × Nat)
deriving DecidableEq, Repr

/-- How many bits an encoding has, and their value. -/
def encodedBits (e : Encoded) : Nat × Nat :=
  match e with
  | .cmd32 w => (32, w.toNat)
  | .dmcw8 b => (8, b.toNat)
  | .qrmi4 v => (4, v.toNat)

/-- The row admits the encoding. -/
def TableRow.admits (r : TableRow) (e : Encoded) : Bool :=
  decide ((encodedBits e).1 = r.nbits)
    && r.values.any (fun p => decide (p.1 ≤ (encodedBits e).2 &&& r.mask) && decide ((encodedBits e).2 &&& r.mask ≤ p.2))

/-- Format CMD32: the command words, in the table's order. -/
def rowsCMD32 : List TableRow :=
  [⟨32, 0xFFFFFFFF, [(0, 0)]⟩, ⟨32, 0xFFFFFFFF, [(16, 16)]⟩, ⟨32, 0xFFFFFFFF, [(17, 17)]⟩, ⟨32, 0xFFFFFFFF, [(32, 32)]⟩, ⟨32, 0xFFFFFFFF, [(33, 33)]⟩]
  ++ [⟨32, 0xFFFFFFFF, [(48, 48)]⟩, ⟨32, 0xFFFFFCFF, [(49, 49)]⟩, ⟨32, 0xFFFFFFFF, [(64, 64)]⟩, ⟨32, 0xFFFFFFFF, [(65, 65)]⟩, ⟨32, 0xFFFFFFFF, [(80, 80)]⟩]
  ++ [⟨32, 0xFFFFFFFF, [(81, 81)]⟩, ⟨32, 0xFFFFFFFF, [(82, 82)]⟩, ⟨32, 0xFFFFFFFF, [(83, 83)]⟩, ⟨32, 0xFFFFFFFF, [(84, 84)]⟩]

/-- Format DMCW8: the codewords of ASCII mode, in the table's order. -/
def rowsDMCW8 : List TableRow :=
  [⟨8, 0xFF, [(0, 0)]⟩, ⟨8, 0xFF, [(1, 128)]⟩, ⟨8, 0xFF, [(129, 129)]⟩, ⟨8, 0xFF, [(130, 229)]⟩, ⟨8, 0xFF, [(230, 230)]⟩]
  ++ [⟨8, 0xFF, [(231, 231)]⟩, ⟨8, 0xFF, [(232, 232)]⟩, ⟨8, 0xFF, [(233, 233)]⟩, ⟨8, 0xFF, [(234, 234)]⟩, ⟨8, 0xFF, [(235, 235)]⟩]
  ++ [⟨8, 0xFF, [(236, 236)]⟩, ⟨8, 0xFF, [(237, 237)]⟩, ⟨8, 0xFF, [(238, 238)]⟩, ⟨8, 0xFF, [(239, 239)]⟩, ⟨8, 0xFF, [(240, 240)]⟩]
  ++ [⟨8, 0xFF, [(241, 241)]⟩, ⟨8, 0xFF, [(242, 253), (255, 255)]⟩, ⟨8, 0xFF, [(254, 254)]⟩]

/-- Format QRMI4: the mode indicators, in the table's order. -/
def rowsQRMI4 : List TableRow :=
  [⟨4, 0xF, [(0, 0)]⟩, ⟨4, 0xF, [(1, 1)]⟩, ⟨4, 0xF, [(2, 2)]⟩, ⟨4, 0xF, [(3, 3)]⟩, ⟨4, 0xF, [(4, 4)]⟩]
  ++ [⟨4, 0xF, [(5, 5)]⟩, ⟨4, 0xF, [(7, 7)]⟩, ⟨4, 0xF, [(8, 8)]⟩, ⟨4, 0xF, [(9, 9)]⟩, ⟨4, 0xF, [(13, 13)]⟩]
  ++ [⟨4, 0xF, [(6, 6), (10, 12), (14, 15)]⟩]

/-- The whole table. -/
def tableRows : List TableRow := rowsCMD32 ++ rowsDMCW8 ++ rowsQRMI4

/-- The number of an instruction's row. -/
def rowIndex (i : Instr) : Nat :=
  match i with
  | .nop => 0
  | .encDm => 1
  | .encQr => 2
  | .mapDm => 3
  | .mapQr => 4
  | .parDm => 5
  | .parQr _ _ => 6
  | .decDm => 7
  | .decQr => 8
  | .fmtEnc => 9
  | .fmtDec => 10
  | .verEnc => 11
  | .verDec => 12
  | .pen => 13
  | .dmIll0 => 14
  | .dmAscii _ => 15
  | .dmPad => 16
  | .dmDigits _ => 17
  | .dmLatchC40 => 18
  | .dmLatchB256 => 19
  | .dmFnc1 => 20
  | .dmSa => 21
  | .dmRp => 22
  | .dmUpshift => 23
  | .dmMacro05 => 24
  | .dmMacro06 => 25
  | .dmLatchX12 => 26
  | .dmLatchText => 27
  | .dmLatchEdf => 28
  | .dmEci => 29
  | .dmIll _ => 30
  | .dmUnlatch => 31
  | .qrTerm => 32
  | .qrNum => 33
  | .qrAlnum => 34
  | .qrSa => 35
  | .qrByte => 36
  | .qrFnc1First => 37
  | .qrEci => 38
  | .qrKanji => 39
  | .qrFnc1Second => 40
  | .qrHanzi => 41
  | .qrIll _ => 42

/-- The numbers of the rows that admit an encoding. -/
def rowsAdmitting (e : Encoded) : List Nat := (List.range tableRows.length).filter
  (fun k => match tableRows[k]? with
    | some r => r.admits e
    | none => false)

/-- A well-formed instruction's encoding is admitted by its row, and by no other. -/
def Row.Statement (i : Instr) : Prop := i.wf = true → rowsAdmitting (encode i) = [rowIndex i]

theorem Row.nop : Row.Statement .nop := fun _ => by decide +kernel

theorem Row.encDm : Row.Statement .encDm := fun _ => by decide +kernel

theorem Row.encQr : Row.Statement .encQr := fun _ => by decide +kernel

theorem Row.mapDm : Row.Statement .mapDm := fun _ => by decide +kernel

theorem Row.mapQr : Row.Statement .mapQr := fun _ => by decide +kernel

theorem Row.parDm : Row.Statement .parDm := fun _ => by decide +kernel

theorem Row.parQr (a b : Bool) : Row.Statement (.parQr a b) := by
  intro _
  cases a <;> cases b <;> decide +kernel

theorem Row.decDm : Row.Statement .decDm := fun _ => by decide +kernel

theorem Row.decQr : Row.Statement .decQr := fun _ => by decide +kernel

theorem Row.fmtEnc : Row.Statement .fmtEnc := fun _ => by decide +kernel

theorem Row.fmtDec : Row.Statement .fmtDec := fun _ => by decide +kernel

theorem Row.verEnc : Row.Statement .verEnc := fun _ => by decide +kernel

theorem Row.verDec : Row.Statement .verDec := fun _ => by decide +kernel

theorem Row.pen : Row.Statement .pen := fun _ => by decide +kernel

theorem Row.dmIll0 : Row.Statement .dmIll0 := fun _ => by decide +kernel

theorem Row.dmAscii (b : Byte) : Row.Statement (.dmAscii b) := by
  have h : ∀ n : Fin 256, (Instr.dmAscii (BitVec.ofFin n)).wf = true →
      rowsAdmitting (encode (.dmAscii (BitVec.ofFin n))) = [15] := by decide +kernel
  exact h b.toFin

theorem Row.dmPad : Row.Statement .dmPad := fun _ => by decide +kernel

theorem Row.dmDigits (b : Byte) : Row.Statement (.dmDigits b) := by
  have h : ∀ n : Fin 256, (Instr.dmDigits (BitVec.ofFin n)).wf = true →
      rowsAdmitting (encode (.dmDigits (BitVec.ofFin n))) = [17] := by decide +kernel
  exact h b.toFin

theorem Row.dmLatchC40 : Row.Statement .dmLatchC40 := fun _ => by decide +kernel

theorem Row.dmLatchB256 : Row.Statement .dmLatchB256 := fun _ => by decide +kernel

theorem Row.dmFnc1 : Row.Statement .dmFnc1 := fun _ => by decide +kernel

theorem Row.dmSa : Row.Statement .dmSa := fun _ => by decide +kernel

theorem Row.dmRp : Row.Statement .dmRp := fun _ => by decide +kernel

theorem Row.dmUpshift : Row.Statement .dmUpshift := fun _ => by decide +kernel

theorem Row.dmMacro05 : Row.Statement .dmMacro05 := fun _ => by decide +kernel

theorem Row.dmMacro06 : Row.Statement .dmMacro06 := fun _ => by decide +kernel

theorem Row.dmLatchX12 : Row.Statement .dmLatchX12 := fun _ => by decide +kernel

theorem Row.dmLatchText : Row.Statement .dmLatchText := fun _ => by decide +kernel

theorem Row.dmLatchEdf : Row.Statement .dmLatchEdf := fun _ => by decide +kernel

theorem Row.dmEci : Row.Statement .dmEci := fun _ => by decide +kernel

theorem Row.dmIll (b : Byte) : Row.Statement (.dmIll b) := by
  have h : ∀ n : Fin 256, (Instr.dmIll (BitVec.ofFin n)).wf = true →
      rowsAdmitting (encode (.dmIll (BitVec.ofFin n))) = [30] := by decide +kernel
  exact h b.toFin

theorem Row.dmUnlatch : Row.Statement .dmUnlatch := fun _ => by decide +kernel

theorem Row.qrTerm : Row.Statement .qrTerm := fun _ => by decide +kernel

theorem Row.qrNum : Row.Statement .qrNum := fun _ => by decide +kernel

theorem Row.qrAlnum : Row.Statement .qrAlnum := fun _ => by decide +kernel

theorem Row.qrSa : Row.Statement .qrSa := fun _ => by decide +kernel

theorem Row.qrByte : Row.Statement .qrByte := fun _ => by decide +kernel

theorem Row.qrFnc1First : Row.Statement .qrFnc1First := fun _ => by decide +kernel

theorem Row.qrEci : Row.Statement .qrEci := fun _ => by decide +kernel

theorem Row.qrKanji : Row.Statement .qrKanji := fun _ => by decide +kernel

theorem Row.qrFnc1Second : Row.Statement .qrFnc1Second := fun _ => by decide +kernel

theorem Row.qrHanzi : Row.Statement .qrHanzi := fun _ => by decide +kernel

theorem Row.qrIll (v : BitVec 4) : Row.Statement (.qrIll v) := by
  have h : ∀ n : Fin 16, (Instr.qrIll (BitVec.ofFin n)).wf = true →
      rowsAdmitting (encode (.qrIll (BitVec.ofFin n))) = [42] := by decide +kernel
  exact h v.toFin

end Sys2Proof.Laws
end

