-- ==== Sys2Proof/Laws/Rom.lean ====
section
/-! SUPPORT. The default tables keep the invariants of 20_memory.md rule R107, so with them no table defect is ever found: every
check of a row answers as if it were not there. -/

namespace Sys2Proof.Machine

set_option Elab.async false

/-- A scan over rows that are all right finds no broken one. -/
theorem scanBroken_of_forall {α : Type} {ok hit : α → Bool} {rows : List α} (h : ∀ r ∈ rows, ok r = true) :
    scanBroken ok hit rows = false := by
  induction rows with
  | nil => rfl
  | cons r rest ih =>
    rw [scanBroken, if_pos (h r (by simp))]
    split
    · rfl
    · exact ih (fun x hx => h x (by simp [hx]))

/-! ### T_DMSYM -/

theorem tDmSym_bounds : ∀ r ∈ tDmSym, dmSymH r ≤ 144 ∧ dmSymW r ≤ 144 ∧ dmNr r ≤ 132 ∧ dmNc r ≤ 132
    ∧ 6 ≤ dmNr r ∧ 8 ≤ dmNc r ∧ dmTotal r ≤ 2178 ∧ r.data ≤ 1558 := by
  decide

/-- MAP.DM can draw every row of the default table. -/
theorem tDmSym_drawable : ∀ r ∈ tDmSym, dmDrawable r = true := by decide

theorem tDmSym_ok : ∀ r ∈ tDmSym, dmRowOk r = true := fun r hr => ((dmDrawable_iff r).mp (tDmSym_drawable r hr)).1

theorem dmRow_mem {idx : Nat} {r : DmRow} (h : dmRow romDefault idx = some r) : r ∈ tDmSym := List.mem_of_getElem? h

theorem dmRow_index_lt {idx : Nat} {r : DmRow} (h : dmRow romDefault idx = some r) : idx < 30 :=
  (List.getElem?_eq_some_iff.mp h).1

@[simp] theorem dmLookupBroken_default (r : Regs) (n : Nat) : dmLookupBroken romDefault r n = false :=
  scanBroken_of_forall tDmSym_ok

@[simp] theorem dmByDimsBroken_default (h w : Nat) : dmByDimsBroken romDefault h w = false := by
  unfold dmByDimsBroken
  split
  · rfl
  · exact scanBroken_of_forall tDmSym_ok

theorem encOverflow_default {i : EncIn} (h : i.rom = romDefault) (e : Enc) : encOverflow i e = false := by
  simp [encOverflow, h]

theorem encFault_default {i : EncIn} (h : i.rom = romDefault) (e : Enc) (r : Raise) : encFault i e r = r := by
  simp [encFault, encOverflow_default h]

/-- The capacity query over the default table: a row, or CapacityExceeded (20_memory.md rule R102). -/
theorem capQuery_default {i : EncIn} (h : i.rom = romDefault) (e : Enc) (n : Nat) :
    capQuery i e n = match dmLookup romDefault i.regs n with
      | some p => .ok p
      | none => .error (capacityErr e) := by
  cases hq : dmLookup romDefault i.regs n <;> simp [capQuery, h, encFault_default h, hq]

theorem symFits_default {r : Regs} {n idx : Nat} {row : DmRow} (h : dmLookup romDefault r n = some (idx, row)) :
    symFits idx row = true := by
  obtain ⟨hr, _, _⟩ := dmLookup_some h
  have h1 := dmRow_index_lt hr
  have h2 := (tDmSym_bounds row (dmRow_mem hr)).2.2.2.2.2.2.2
  simp only [symFits, Config.cwSize, Bool.and_eq_true, decide_eq_true_eq]
  omega

/-! ### T_QRCAP and T_QRALIGN -/

theorem tQrCap_bounds : ∀ r ∈ tQrCap, r.total ≤ 3706 ∧ r.l ≤ 2956 ∧ r.m ≤ 2956 ∧ r.q ≤ 2956 ∧ r.h ≤ 2956 := by
  decide

theorem mem_versions {v : Nat} (h : verLegal v = true) : v ∈ versions := by
  rw [verLegal_iff] at h
  exact List.mem_map.mpr ⟨v - 1, List.mem_range.mpr (by omega), by omega⟩

theorem qrRowOk_default_1 : ∀ v ∈ [1, 2, 3, 4, 5, 6, 7, 8, 9, 10], qrRowOk romDefault v = true := by decide +kernel
theorem qrRowOk_default_2 : ∀ v ∈ [11, 12, 13, 14, 15, 16, 17, 18, 19, 20], qrRowOk romDefault v = true := by decide +kernel
theorem qrRowOk_default_3 : ∀ v ∈ [21, 22, 23, 24, 25, 26, 27, 28, 29, 30], qrRowOk romDefault v = true := by decide +kernel
theorem qrRowOk_default_4 : ∀ v ∈ [31, 32, 33, 34, 35], qrRowOk romDefault v = true := by decide +kernel
theorem qrRowOk_default_5 : ∀ v ∈ [36, 37, 38, 39, 40], qrRowOk romDefault v = true := by decide +kernel

/-- Every version of the default tables keeps rule R107. -/
theorem qrRowOk_default {v : Nat} (h : verLegal v = true) : qrRowOk romDefault v = true := by
  have hv : v ∈ [1, 2, 3, 4, 5, 6, 7, 8, 9, 10] ++ [11, 12, 13, 14, 15, 16, 17, 18, 19, 20]
      ++ [21, 22, 23, 24, 25, 26, 27, 28, 29, 30] ++ [31, 32, 33, 34, 35] ++ [36, 37, 38, 39, 40] := mem_versions h
  simp only [List.mem_append] at hv
  rcases hv with (((h | h) | h) | h) | h
  · exact qrRowOk_default_1 v h
  · exact qrRowOk_default_2 v h
  · exact qrRowOk_default_3 v h
  · exact qrRowOk_default_4 v h
  · exact qrRowOk_default_5 v h

theorem versions_legal {v : Nat} (h : v ∈ versions) : verLegal v = true := by
  obtain ⟨k, hk, rfl⟩ := List.mem_map.mp h
  rw [verLegal_iff]
  have := List.mem_range.mp hk
  omega

@[simp] theorem qrPickBroken_default (nbits e : Nat) : qrPickBroken romDefault nbits e = false :=
  scanBroken_of_forall (fun _ hv => qrRowOk_default (versions_legal hv))

/-- The version query over the default tables: a version, or CapacityExceeded (20_memory.md rule R109). -/
theorem qrQuery_default (nbits e : Nat) :
    qrQuery romDefault nbits e = match qrPick romDefault nbits e with
      | none => .error qrCapacityErr
      | some v => .ok v := by
  cases hq : qrPick romDefault nbits e <;> simp [qrQuery, hq]

/-- The default tables keep rule R107. -/
theorem romDefault_ok : romDefault.ok = true := by
  rw [Rom.ok, Bool.and_eq_true]
  exact ⟨List.all_eq_true.mpr tDmSym_ok, List.all_eq_true.mpr (fun _ hv => qrRowOk_default (versions_legal hv))⟩

theorem undrawnCells_default_all : ∀ v ∈ versions, undrawnCells romDefault v = 0 := by decide +kernel

/-- With the default tables every function cell is drawn (42_mapper.md rule R332), so no value of log entry 22 is used. -/
theorem undrawnBits_default {v : Nat} (h : verLegal v = true) (d : Nat) : undrawnBits romDefault v d = 0 := by
  rw [undrawnBits, if_pos (undrawnCells_default_all v (mem_versions h))]

theorem alignInside_default_all : ∀ v ∈ versions, alignInside romDefault v = true := by decide +kernel

/-- Every alignment block of the default tables lies inside its symbol. -/
theorem alignInside_default {v : Nat} (h : verLegal v = true) : alignInside romDefault v = true :=
  alignInside_default_all v (mem_versions h)

end Sys2Proof.Machine
end

