-- ==== Sys2Proof/Tests/Slice0.lean ====
section
/-! SUPPORT. The model's own tests: ill-formed terms are refused; every constructor's word, written out from the spec's encoding
tables, decodes to it; small steps whose results are the vectors of spec/95_test_vectors.md; and for every statement with
hypotheses a state that meets them. -/

namespace Sys2Proof.Tests

-- one theorem after the other: each kernel evaluation takes a thread of its own
set_option Elab.async false

open Sys2Proof Sys2Proof.Machine

/-! ### Well-formedness: one ill-formed term for each check, at both ends of its range -/

theorem test_wf_refuses_ascii_operands : Instr.wf (.dmAscii 0) = false ∧ Instr.wf (.dmAscii 129) = false := by decide

theorem test_wf_refuses_digits_operands : Instr.wf (.dmDigits 129) = false ∧ Instr.wf (.dmDigits 230) = false := by decide

theorem test_wf_refuses_illegal_codeword_operands :
    Instr.wf (.dmIll 241) = false ∧ Instr.wf (.dmIll 254) = false ∧ Instr.wf (.dmIll 0) = false := by decide

theorem test_wf_refuses_illegal_indicator_operands :
    Instr.wf (.qrIll 5) = false ∧ Instr.wf (.qrIll 7) = false ∧ Instr.wf (.qrIll 13) = false := by decide

theorem test_wf_accepts_the_ends :
    Instr.wf (.dmAscii 1) = true ∧ Instr.wf (.dmAscii 128) = true ∧ Instr.wf (.dmDigits 130) = true
      ∧ Instr.wf (.dmDigits 229) = true ∧ Instr.wf (.dmIll 242) = true ∧ Instr.wf (.dmIll 253) = true
      ∧ Instr.wf (.dmIll 255) = true ∧ Instr.wf (.qrIll 6) = true ∧ Instr.wf (.qrIll 15) = true := by decide

/-! ### Decoding: words written out from 30_encoding.md rule R122, R132, R150 -/

theorem test_decode_commands :
    decodeCommand 0b00000000000000000000000000000000 = .ok .nop
      ∧ decodeCommand 0b00000000000000000000000000010000 = .ok .encDm
      ∧ decodeCommand 0b00000000000000000000000000010001 = .ok .encQr
      ∧ decodeCommand 0b00000000000000000000000000100000 = .ok .mapDm
      ∧ decodeCommand 0b00000000000000000000000000100001 = .ok .mapQr
      ∧ decodeCommand 0b00000000000000000000000000110000 = .ok .parDm
      ∧ decodeCommand 0b00000000000000000000000001000000 = .ok .decDm
      ∧ decodeCommand 0b00000000000000000000000001000001 = .ok .decQr
      ∧ decodeCommand 0b00000000000000000000000001010000 = .ok .fmtEnc
      ∧ decodeCommand 0b00000000000000000000000001010001 = .ok .fmtDec
      ∧ decodeCommand 0b00000000000000000000000001010010 = .ok .verEnc
      ∧ decodeCommand 0b00000000000000000000000001010011 = .ok .verDec
      ∧ decodeCommand 0b00000000000000000000000001010100 = .ok .pen := by decide

theorem test_decode_par_qr_options :
    decodeCommand 0b00000000000000000000000000110001 = .ok (.parQr false false)
      ∧ decodeCommand 0b00000000000000000000000100110001 = .ok (.parQr true false)
      ∧ decodeCommand 0b00000000000000000000001000110001 = .ok (.parQr false true)
      ∧ decodeCommand 0b00000000000000000000001100110001 = .ok (.parQr true true) := by decide

/-- The words of vectors C-2 to C-6, and the top bit. -/
theorem test_decode_refuses_by_name :
    decodeCommand 0x00000099 = .error .unknownOpcode ∧ decodeCommand 0x00000130 = .error .optionBits
      ∧ decodeCommand 0x00000110 = .error .optionBits ∧ decodeCommand 0x00010000 = .error .reservedBits
      ∧ decodeCommand 0x00000431 = .error .reservedBits ∧ decodeCommand 0x80000031 = .error .reservedBits := by decide

theorem test_decode_codewords :
    decodeCodeword 0 = .dmIll0 ∧ decodeCodeword 1 = .dmAscii 1 ∧ decodeCodeword 128 = .dmAscii 128
      ∧ decodeCodeword 129 = .dmPad ∧ decodeCodeword 130 = .dmDigits 130 ∧ decodeCodeword 229 = .dmDigits 229
      ∧ decodeCodeword 230 = .dmLatchC40 ∧ decodeCodeword 231 = .dmLatchB256 ∧ decodeCodeword 232 = .dmFnc1
      ∧ decodeCodeword 233 = .dmSa ∧ decodeCodeword 234 = .dmRp ∧ decodeCodeword 235 = .dmUpshift
      ∧ decodeCodeword 236 = .dmMacro05 ∧ decodeCodeword 237 = .dmMacro06 ∧ decodeCodeword 238 = .dmLatchX12
      ∧ decodeCodeword 239 = .dmLatchText ∧ decodeCodeword 240 = .dmLatchEdf ∧ decodeCodeword 241 = .dmEci
      ∧ decodeCodeword 242 = .dmIll 242 ∧ decodeCodeword 253 = .dmIll 253 ∧ decodeCodeword 254 = .dmUnlatch
      ∧ decodeCodeword 255 = .dmIll 255 := by decide

theorem test_decode_indicators :
    decodeIndicator 0b0000 = .qrTerm ∧ decodeIndicator 0b0001 = .qrNum ∧ decodeIndicator 0b0010 = .qrAlnum
      ∧ decodeIndicator 0b0011 = .qrSa ∧ decodeIndicator 0b0100 = .qrByte ∧ decodeIndicator 0b0101 = .qrFnc1First
      ∧ decodeIndicator 0b0110 = .qrIll 6 ∧ decodeIndicator 0b0111 = .qrEci ∧ decodeIndicator 0b1000 = .qrKanji
      ∧ decodeIndicator 0b1001 = .qrFnc1Second ∧ decodeIndicator 0b1010 = .qrIll 10 ∧ decodeIndicator 0b1011 = .qrIll 11
      ∧ decodeIndicator 0b1100 = .qrIll 12 ∧ decodeIndicator 0b1101 = .qrHanzi ∧ decodeIndicator 0b1110 = .qrIll 14
      ∧ decodeIndicator 0b1111 = .qrIll 15 := by decide

theorem test_decode_table_words :
    decodeTableWord 32 0x331 = some (.parQr true true) ∧ decodeTableWord 8 230 = some .dmLatchC40
      ∧ decodeTableWord 4 13 = some .qrHanzi ∧ decodeTableWord 32 0x99 = none ∧ decodeTableWord 24 0 = none := by decide

/-! ### States for the tests -/

/-- Code units or codewords. -/
def bytes (xs : List Nat) : List Byte := xs.map (BitVec.ofNat 8)

/-- The reset state with a text. -/
def withText (xs : List Nat) : State :=
  { State.reset with
    mem := { State.reset.mem with txt := Buf.ofList 0 (bytes xs) }
    regs := { State.reset.regs with txtLen := BitVec.ofNat 16 xs.length } }

/-- The reset state with codewords in CW. -/
def withCodewords (xs : List Nat) : State :=
  { State.reset with
    mem := { State.reset.mem with cw := Buf.ofList 1 (bytes xs) }
    regs := { State.reset.regs with cwLen := BitVec.ofNat 16 xs.length } }

/-- `s` with other registers. -/
def setRegs (s : State) (f : Regs → Regs) : State := { s with regs := f s.regs }

/-- The reset state with a grid given row by row, column 0 the least significant bit. -/
def withGrid (h w : Nat) (rows : List Nat) : State :=
  { State.reset with
    mem := { State.reset.mem with
      grid := Buf.ofGrid 2 h w (gridOf h w (fun r c => ((rows[r]?).getD 0).testBit c)) }
    regs := { State.reset.regs with gridH := BitVec.ofNat 8 h, gridW := BitVec.ofNat 8 w } }

/-- A running decoder whose stream is `xs`, at the bit `bp`. -/
def inStream (p : Phase) (bp : Nat) (xs : List Nat) : State :=
  { withCodewords xs with work := { Work.reset with bp := bp }, phase := p }

/-- The instruction answers a next state that passes the check. -/
def ran (i : Instr) (s : State) (p : State → Bool) : Bool :=
  match exec i s with
  | .next t => p t
  | .fault _ => false
  | .refused _ => false

/-- The command completed. -/
def done (t : State) : Bool :=
  decide (t.phase = .idle) && t.regs.status.done && !t.regs.status.error && decide (t.regs.err = ⟨0, 0, 0⟩)

/-- The command ended with this ERR word. -/
def failed (e : Word) (t : State) : Bool :=
  decide (t.phase = .idle) && t.regs.status.done && t.regs.status.error && decide (t.regs.err.word = e)

/-- What OUT holds. -/
def outText (t : State) : List Nat := (t.mem.out.take t.regs.outLen.toNat).map BitVec.toNat

/-- What a grid's row holds, column 0 the least significant bit. -/
def rowNat (t : State) (r w : Nat) : Nat := (List.range w).foldr (fun c acc => 2 * acc + flagNat (t.cell r c)) 0

/-- The symbol of program P2, row by row. -/
def symbolP2 : List Nat :=
  [2082943, 1069889, 1530461, 1531741, 1526621, 1069633, 2086271, 6912, 750458, 979133, 51412]
  ++ [203309, 2062331, 168192, 1992319, 1910081, 1854301, 335197, 1589853, 845633, 526975]

/-- Its transpose. -/
def symbolP2t : List Nat :=
  [2087551, 1069377, 1527389, 1530717, 1529693, 1071937, 2086271, 5632, 766426, 1923518, 708680]
  ++ [1248413, 146414, 578304, 874367, 534081, 170333, 31581, 774749, 1954625, 381055]

/-- The symbol of program P1, row by row. -/
def symbolP1 : List Nat := [341, 723, 131, 739, 67, 961, 55, 623, 185, 1023]

/-- The codewords of vector M-2. -/
def codewordsM2 : List Nat :=
  [32, 91, 11, 120, 209, 114, 220, 77, 67, 64, 236, 17, 236]
  ++ [168, 72, 22, 82, 217, 54, 156, 0, 46, 15, 180, 122, 16]

/-! ### The encoders (vectors E-1 to E-26, Q-1 to Q-11) -/

/-- Vector E-1. -/
theorem test_enc_dm_digits :
    ran .encDm (withText [49, 50, 51, 52, 53, 54])
      (fun t => done t && decide (t.codewords = [142, 164, 186]) && decide (t.regs.sym = 0)
        && decide (t.regs.resMode = 0)) = true := by decide +kernel

/-- Vector E-21. -/
theorem test_enc_dm_text :
    ran .encDm (withText [72, 101, 108, 108, 111, 32, 87, 111, 114, 108, 100])
      (fun t => done t && decide (t.codewords = [73, 239, 116, 130, 175, 123, 148, 64, 254, 109, 101, 129]) && decide (t.regs.sym = 5)
        && decide (t.regs.resMode = 0)) = true := by decide +kernel

/-- Vector Q-1. -/
theorem test_enc_qr_alphanumeric :
    ran .encQr (setRegs (withText [72, 69, 76, 76, 79, 32, 87, 79, 82, 76, 68]) (fun r => { r with cfgQr := ⟨2, 0, true, false⟩ }))
      (fun t => done t && decide (t.codewords = [32, 91, 11, 120, 209, 114, 220, 77, 67, 64, 236, 17, 236]) && decide (t.regs.ver = 1)
        && decide (t.regs.resMode = 2)) = true := by decide +kernel

/-- Vector Q-2. -/
theorem test_enc_qr_numeric :
    ran .encQr (setRegs (withText [48, 49, 50, 51, 52, 53, 54, 55]) (fun r => { r with cfgQr := ⟨1, 0, true, false⟩ }))
      (fun t => done t && decide (t.codewords = [16, 32, 12, 86, 97, 128, 236, 17, 236, 17, 236, 17, 236, 17, 236, 17]) && decide (t.regs.ver = 1)
        && decide (t.regs.resMode = 1)) = true := by decide +kernel

/-! ### The mapper and the parser (vectors M-1 to M-6, R-1 to R-13) -/

/-- Vector M-1. -/
theorem test_map_dm :
    ran .mapDm (withCodewords [142, 164, 186, 114, 25, 5, 88, 102])
      (fun t => done t && decide (t.regs.gridH = 10) && decide ((List.range 10).map (fun r => rowNat t r 10) = symbolP1)) = true := by decide +kernel

/-- Vector M-3. -/
theorem test_map_dm_counts_codewords :
    ran .mapDm (withCodewords [1, 2, 3]) (failed 0x00000005) = true := by decide +kernel

/-- Vector M-5. -/
theorem test_map_qr :
    ran .mapQr (setRegs (withCodewords codewordsM2) (fun r => { r with ver := 1, cfgQr := ⟨2, 6, false, false⟩ }))
      (fun t => done t && decide (t.regs.resPen = 314) && decide (t.regs.resMask = 6)
        && decide ((List.range 21).map (fun r => rowNat t r 21) = symbolP2)) = true := by decide +kernel

/-- Vector M-7. -/
theorem test_map_qr_checks_the_count :
    ran .mapQr (setRegs (withCodewords codewordsM2) (fun r => { r with ver := 41 })) (failed 0x00000005) = true := by decide +kernel

/-- Vector R-1. -/
theorem test_par_dm :
    ran .parDm (withGrid 10 10 symbolP1)
      (fun t => done t && decide (t.regs.sym = 0) && decide (t.codewords = [142, 164, 186, 114, 25, 5, 88, 102])) = true := by decide +kernel

/-- Vector R-3. -/
theorem test_par_dm_refuses_odd_sizes :
    ran .parDm (withGrid 9 9 []) (failed 0x00000301) = true := by decide +kernel

/-- Vector R-8. -/
theorem test_par_qr_mirrored :
    ran (.parQr true false) (withGrid 21 21 symbolP2t)
      (fun t => done t && decide (t.codewords = codewordsM2) && t.regs.status.mirrored) = true := by decide +kernel

/-! ### The decoders (vectors D-1 to D-30, B-1 to B-20) -/

/-- Vector D-2. -/
theorem test_dec_dm :
    ran .decDm (withCodewords [73, 239, 116, 130, 175, 123, 148, 64, 254, 109, 101, 129])
      (fun t => done t && decide (outText t = [72, 101, 108, 108, 111, 32, 87, 111, 114, 108, 100]) && decide (t.regs.resMod = 1)) = true := by decide +kernel

/-- Vector D-3. -/
theorem test_dec_dm_base256 :
    ran .decDm (withCodewords [231, 44, 34, 185, 213, 107, 1, 150, 166, 60])
      (fun t => done t && decide (outText t = [97, 98, 233, 233, 233, 233, 99, 100]) && decide (t.mem.seg.read 0 = 0x00080000)) = true := by decide +kernel

/-- Vector B-1. -/
theorem test_dec_qr :
    ran .decQr (setRegs (withCodewords [32, 91, 11, 120, 209, 114, 220, 77, 67, 64, 236, 17, 236]) (fun r => { r with ver := 1 }))
      (fun t => done t && decide (outText t = [72, 69, 76, 76, 79, 32, 87, 79, 82, 76, 68]) && decide (t.regs.segCnt = 0)) = true := by decide +kernel

/-- Vector B-14. -/
theorem test_dec_qr_short_count :
    ran .decQr (setRegs (withCodewords [64, 84, 16]) (fun r => { r with ver := 1 })) (failed 0x00010401) = true := by decide +kernel

/-- Vector D-15. -/
theorem test_dm_ill0 :
    ran (.dmIll0) (inStream (.dmStream .ascii) 8 [0]) (fun t => failed 0x00010401 t) = true := by decide +kernel

/-- Vector D-18, its first codeword. -/
theorem test_dm_ascii :
    ran (.dmAscii 66) (inStream (.dmStream .ascii) 8 [66, 254]) (fun t => decide (t.phase = .dmStream .ascii) && decide (outText t = [65])) = true := by decide +kernel

/-- Vector D-7. -/
theorem test_dm_pad :
    ran (.dmPad) (inStream (.dmStream .ascii) 8 [129]) (fun t => done t && decide (outText t = []) && decide (t.regs.resMod = 1)) = true := by decide +kernel

/-- Vector D-30. -/
theorem test_dm_digits :
    ran (.dmDigits 142) (inStream (.dmStream .ascii) 8 [142]) (fun t => done t && decide (outText t = [49, 50])) = true := by decide +kernel

/-- Vector D-6. -/
theorem test_dm_latch_c40 :
    ran (.dmLatchC40) (inStream (.dmStream .ascii) 8 [230]) (fun t => done t && decide (outText t = [])) = true := by decide +kernel

/-- Vector D-8. -/
theorem test_dm_latch_b256 :
    ran (.dmLatchB256) (inStream (.dmStream .ascii) 8 [231]) (fun t => done t && decide (t.regs.segCnt = 0)) = true := by decide +kernel

/-- Vector D-27, its first codeword. -/
theorem test_dm_fnc1 :
    ran (.dmFnc1) (inStream (.dmStream .ascii) 8 [232, 66]) (fun t => decide (outText t = [29]) && decide (t.fncList = [0]) && decide (t.phase = .dmStream .ascii)) = true := by decide +kernel

/-- Vector D-20, its first codeword. -/
theorem test_dm_sa :
    ran (.dmSa) (inStream (.dmStream .ascii) 8 [233, 5, 66]) (fun t => decide (outText t = []) && decide (t.phase = .dmStream .ascii)) = true := by decide +kernel

/-- 44_bsp_datamatrix.md rule R400. -/
theorem test_dm_rp :
    ran (.dmRp) (inStream (.dmStream .ascii) 8 [234]) (fun t => done t && decide (outText t = [])) = true := by decide +kernel

/-- Vector D-21, its first codeword. -/
theorem test_dm_upshift :
    ran (.dmUpshift) (inStream (.dmStream .ascii) 8 [235, 66]) (fun t => t.work.upper && decide (t.phase = .dmStream .ascii)) = true := by decide +kernel

/-- Vector D-4, its first codeword. -/
theorem test_dm_macro05 :
    ran (.dmMacro05) (inStream (.dmStream .ascii) 8 [236, 142, 164]) (fun t => decide (outText t = [91, 41, 62, 30, 48, 53, 29]) && decide (t.work.trl = [0x1E, 0x04])) = true := by decide +kernel

/-- 44_bsp_datamatrix.md rule R401: header and trailer, nothing between. -/
theorem test_dm_macro06 :
    ran (.dmMacro06) (inStream (.dmStream .ascii) 8 [237]) (fun t => done t && decide (outText t = [91, 41, 62, 30, 48, 54, 29, 30, 4])) = true := by decide +kernel

/-- Vector D-24, its first codeword. -/
theorem test_dm_latch_x12 :
    ran (.dmLatchX12) (inStream (.dmStream .ascii) 8 [238, 89, 191, 254]) (fun t => decide (t.phase = .dmStream .x12)) = true := by decide +kernel

/-- 44_bsp_datamatrix.md rule R398. -/
theorem test_dm_latch_text :
    ran (.dmLatchText) (inStream (.dmStream .ascii) 8 [239, 89, 191, 254]) (fun t => decide (t.phase = .dmStream .text)) = true := by decide +kernel

/-- Vector D-25, its first codeword. -/
theorem test_dm_latch_edf :
    ran (.dmLatchEdf) (inStream (.dmStream .ascii) 8 [240, 16, 21, 1]) (fun t => decide (t.phase = .dmStream .edifact)) = true := by decide +kernel

/-- Vector D-12. -/
theorem test_dm_eci :
    ran (.dmEci) (inStream (.dmStream .ascii) 8 [241]) (fun t => done t && decide (t.regs.resEci = ⟨0, false⟩)) = true := by decide +kernel

/-- Vector D-16, its second codeword. -/
theorem test_dm_ill :
    ran (.dmIll 242) (inStream (.dmStream .ascii) 16 [66, 242]) (fun t => failed 0x00020401 t) = true := by decide +kernel

/-- Vector D-17. -/
theorem test_dm_unlatch :
    ran (.dmUnlatch) (inStream (.dmStream .ascii) 8 [254, 66]) (fun t => failed 0x00010401 t) = true := by decide +kernel

/-- Vector B-10. -/
theorem test_qr_term :
    ran (.qrTerm) (setRegs (inStream .qrStream 4 [0, 0]) (fun r => { r with ver := 1 })) (fun t => done t && decide (t.regs.resMod = 1)) = true := by decide +kernel

/-- Vector B-7, its first segment. -/
theorem test_qr_num :
    ran (.qrNum) (setRegs (inStream .qrStream 4 [16, 8, 98, 0, 176, 128]) (fun r => { r with ver := 1 })) (fun t => decide (outText t = [49, 50]) && decide (t.phase = .qrStream)) = true := by decide +kernel

/-- Vector B-17. -/
theorem test_qr_num_group_range :
    ran (.qrNum) (setRegs (inStream .qrStream 4 [16, 15, 232]) (fun r => { r with ver := 1 })) (fun t => failed 0x00030401 t) = true := by decide +kernel

/-- Vector B-1, its segment. -/
theorem test_qr_alnum :
    ran (.qrAlnum) (setRegs (inStream .qrStream 4 [32, 91, 11, 120, 209, 114, 220, 77, 67, 64, 236, 17, 236]) (fun r => { r with ver := 1 })) (fun t => decide (outText t = [72, 69, 76, 76, 79, 32, 87, 79, 82, 76, 68])) = true := by decide +kernel

/-- Vector B-8, its header. -/
theorem test_qr_sa :
    ran (.qrSa) (setRegs (inStream .qrStream 4 [49, 42, 84, 1, 65, 0]) (fun r => { r with ver := 1 })) (fun t => decide (t.regs.resSa.word = 0x0001A512)) = true := by decide +kernel

/-- Vector B-2, its segment. -/
theorem test_qr_byte :
    ran (.qrByte) (setRegs (inStream .qrStream 4 [64, 180, 134, 86, 198, 198, 242, 5, 118, 247, 38, 198, 64, 236, 17]) (fun r => { r with ver := 1 })) (fun t => decide (outText t = [72, 101, 108, 108, 111, 32, 87, 111, 114, 108, 100]) && decide (t.mem.seg.read 0 = 0x000B0000)) = true := by decide +kernel

/-- Vector B-6, its first indicator. -/
theorem test_qr_fnc1_first :
    ran (.qrFnc1First) (setRegs (inStream .qrStream 4 [82, 3, 30, 132, 43, 174, 128]) (fun r => { r with ver := 1 })) (fun t => decide (t.work.fnc1 = 1) && decide (t.phase = .qrStream)) = true := by decide +kernel

/-- Vector B-5, its designator. -/
theorem test_qr_eci :
    ran (.qrEci) (setRegs (inStream .qrStream 4 [120, 16, 36, 1, 65]) (fun r => { r with ver := 1 })) (fun t => decide (t.regs.resEci = ⟨258, true⟩)) = true := by decide +kernel

/-- Vector B-9. -/
theorem test_qr_kanji :
    ran (.qrKanji) (setRegs (inStream .qrStream 4 [128, 38, 207, 234, 168, 0]) (fun r => { r with ver := 1 })) (fun t => decide (outText t = [0x93, 0x5F, 0xE4, 0xAA]) && decide (t.regs.segCnt = 0)) = true := by decide +kernel

/-- 45_bsp_qr.md rule R446. -/
theorem test_qr_fnc1_second :
    ran (.qrFnc1Second) (setRegs (inStream .qrStream 4 [144]) (fun r => { r with ver := 1 })) (fun t => decide (t.work.fnc1 = 2)) = true := by decide +kernel

/-- The Hanzi example of 95_test_vectors.md section 2.6: the group 1445. -/
theorem test_qr_hanzi :
    ran (.qrHanzi) (setRegs (inStream .qrStream 4 [209, 1, 45, 40]) (fun r => { r with ver := 1 })) (fun t => decide (outText t = [0xB5, 0xA6])) = true := by decide +kernel

/-- Vector B-12. -/
theorem test_qr_ill :
    ran (.qrIll 6) (setRegs (inStream .qrStream 4 [96]) (fun r => { r with ver := 1 })) (fun t => failed 0x00000401 t) = true := by decide +kernel

/-! ### The format metadata codec, NOP, the registers (vectors F-1 to F-21, P-3 to P-8, C-1 to C-15) -/

/-- Vector F-1. -/
theorem test_fmt_enc :
    ran .fmtEnc (setRegs State.reset (fun r => { r with a0 := 2, a1 := 6 })) (fun t => done t && decide (t.regs.r0 = 0x2EDA)) = true := by decide +kernel

/-- Vector F-5. -/
theorem test_fmt_enc_range :
    ran .fmtEnc (setRegs State.reset (fun r => { r with a0 := 4, a1 := 0 })) (fun t => failed 0x00000005 t) = true := by decide +kernel

/-- Vector F-8. -/
theorem test_fmt_dec :
    ran .fmtDec (setRegs State.reset (fun r => { r with a0 := 0x631F, a1 := 0x1318 })) (fun t => done t && decide (t.regs.r0 = 13) && decide (t.regs.resEcl = 0) && decide (t.regs.resMask = 5)) = true := by decide +kernel

/-- Vector F-10. -/
theorem test_fmt_dec_too_far :
    ran .fmtDec (setRegs State.reset (fun r => { r with a0 := 0x6317, a1 := 0x6317 })) (fun t => failed 0x00000501 t) = true := by decide +kernel

/-- Vector F-15. -/
theorem test_ver_enc :
    ran .verEnc (setRegs State.reset (fun r => { r with a0 := 40, a1 := 0 })) (fun t => done t && decide (t.regs.r0 = 0x28C69)) = true := by decide +kernel

/-- Vector F-15. -/
theorem test_ver_enc_range :
    ran .verEnc (setRegs State.reset (fun r => { r with a0 := 41, a1 := 0 })) (fun t => failed 0x00000005 t) = true := by decide +kernel

/-- Vector F-19. -/
theorem test_ver_dec :
    ran .verDec (setRegs State.reset (fun r => { r with a0 := 0x08C69, a1 := 0 })) (fun t => done t && decide (t.regs.r0 = 40)) = true := by decide +kernel

/-- Vector F-18. -/
theorem test_ver_dec_too_far :
    ran .verDec (setRegs State.reset (fun r => { r with a0 := 0x07C9B, a1 := 0 })) (fun t => failed 0x00000501 t) = true := by decide +kernel

/-- Vector P-4. -/
theorem test_pen :
    ran .pen (withGrid 1 15 [1488]) (fun t => done t && decide (t.regs.resPen = 70)) = true := by decide +kernel

/-- Vector P-6. -/
theorem test_pen_two_rows :
    ran .pen (withGrid 2 6 [63, 63]) (fun t => done t && decide (t.regs.resPen = 123)) = true := by decide +kernel

/-- Vector C-1. -/
theorem test_nop :
    ran .nop State.reset (fun t => decide (statusWord t.busy t.regs.status = 0x02) && decide (t.regs.err.word = 0)) = true := by decide +kernel

/-- Vector C-15, its two values that are not 0. -/
theorem test_reset_reads_as_the_table :
    State.reset.regValue 0x09 = some 0x00000080 ∧ State.reset.regValue 0x1F = some 0x53434301 := by decide

/-- Vector C-14: a host write of all ones to CFG_QR reads back as 0x1F3. -/
theorem test_reserved_bits_read_zero :
    (match step { State.reset with host := [⟨.regWrite 0x09 0xFFFFFFFF, none⟩] } with
      | .next t => t.regValue 0x09
      | .fault _ => none
      | .refused _ => none) = some 0x000001F3 := by decide +kernel

/-- Vector C-10: a host write while busy is dropped and seen in WRBUSY. -/
theorem test_busy_write_is_dropped :
    (match step { State.reset with phase := .encDm, host := [⟨.regWrite 0x0B 5, some 0⟩] } with
      | .next t => decide (t.regs.txtLen = 0) && t.regs.status.wrbusy && decide (t.phase = .encDm)
      | .fault _ => false
      | .refused _ => false) = true := by decide +kernel

/-! ### Witnesses: for every statement with hypotheses, a state and operands that meet them all -/

/-- The reset state with one action of the host that lands in this step. -/
def hostDoes (a : HostAct) : State := { State.reset with host := [⟨a, none⟩] }

/-- A busy state (a running ENC.DM) with one action of the host that lands in this step. -/
def hostDoesWhileBusy (a : HostAct) : State :=
  { State.reset with
    regs := { State.reset.regs with cmd := 0x10 }
    phase := .encDm
    host := [⟨a, some 0⟩] }

theorem lands (a : HostAct) : (hostDoes a).landsNow a [] := ⟨⟨a, none⟩, rfl, rfl, .inl rfl⟩

theorem lands_while_busy (a : HostAct) : (hostDoesWhileBusy a).landsNow a [] := ⟨⟨a, some 0⟩, rfl, rfl, .inr rfl⟩

theorem undisturbed_of_nil {s : State} (h : s.host = []) : s.undisturbed := by
  intro e rest he
  rw [h] at he
  cases he

/-- The reset state with a word just issued. -/
def issued (w : Word) : State := { setRegs State.reset (fun r => { r with cmd := w }) with phase := .issued }

theorem not_matches_of {w : Word} (h : opcodeRows.all (fun r => !decide (w &&& r.2 = r.1)) = true) : ¬ matchesRow w := by
  rintro ⟨r, hr, hm⟩
  have := List.all_eq_true.mp h r hr
  simp [hm] at this

theorem test_witness_DecodeEncodeAgree : (Instr.dmAscii 128).wf = true ∧ (Instr.qrIll 15).wf = true := by decide

theorem test_witness_EncodeDecodeAgree : decode (.dmcw8 229) = .ok (.dmDigits 229) := by decide

/-- An unmatched word. -/
theorem test_witness_IllegalCommandChangesNothingElse :
    (issued 0x99).undisturbed ∧ (issued 0x99).phase = .issued ∧ ¬ matchesRow (issued 0x99).regs.cmd :=
  ⟨undisturbed_of_nil rfl, rfl, not_matches_of (by decide)⟩

/-- VER.ENC with A0 = 6, just below its range. -/
theorem test_witness_IllegalCommandChangesNothingElse_operand :
    ∃ s : State, s.undisturbed ∧ s.phase = .issued
      ∧ ∃ i, decodeCommand s.regs.cmd = .ok i ∧ operandsIllegal i s.rom s.regs :=
  ⟨setRegs (issued 0x52) (fun r => { r with a0 := 6 }), undisturbed_of_nil rfl, rfl, .verEnc, by decide, .inl (by decide)⟩

/-- MAP.DM with CW_LEN = 4097, the total of the one row of another table (10_state.md rule R41). -/
theorem test_witness_IllegalCommandChangesNothingElse_cwLen :
    ∃ s : State, s.undisturbed ∧ s.phase = .issued ∧ decodeCommand s.regs.cmd = .ok .mapDm
      ∧ operandsIllegal .mapDm s.rom s.regs ∧ ∃ row, s.rom.dmSym[s.regs.sym.toNat]? = some row
      ∧ s.regs.cwLen.toNat = row.data + row.ec :=
  ⟨{ setRegs (issued 0x20) (fun r => { r with cwLen := 4097 }) with
      rom := { romDefault with dmSym := [{ rect := false, data := 4000, ec := 97, rw := 182, rh := 182, hr := 1, vr := 1 }] } },
    undisturbed_of_nil rfl, rfl, by decide, .inl (by decide), _, rfl, by decide⟩

/-- MAP.DM is not legal in such a state. -/
theorem test_map_dm_cw_len_above_cw_size :
    mapDmLegal { romDefault with dmSym := [⟨false, 4000, 97, 182, 182, 1, 1⟩] } { State.reset.regs with cwLen := 4097 } = none := by
  decide

theorem test_witness_HostWriteToCmdIssues :
    (hostDoes (.regWrite 0 0x331)).phase = .idle
      ∧ (hostDoes (.regWrite 0 0x331)).landsNow (.regWrite 0 0x331) [] := ⟨rfl, lands _⟩

/-- Issued: a command word. -/
theorem test_witness_StepRunsWhatItFetches :
    (issued 0x54).undisturbed ∧ (issued 0x54).phase = .issued ∧ decode (.cmd32 (issued 0x54).regs.cmd) = .ok .pen :=
  ⟨undisturbed_of_nil rfl, rfl, by decide⟩

/-- A Data Matrix stream with exactly 8 bits left, and with fewer. -/
theorem test_witness_StepRunsWhatItFetches_codeword :
    (inStream (.dmStream .ascii) 0 [230]).undisturbed ∧ 8 ≤ (inStream (.dmStream .ascii) 0 [230]).avail
      ∧ decode (.dmcw8 (BitVec.ofNat 8 ((inStream (.dmStream .ascii) 0 [230]).streamField 0 0 8))) = .ok .dmLatchC40
      ∧ (inStream (.dmStream .ascii) 1 [230]).avail < 8 :=
  ⟨undisturbed_of_nil rfl, by decide, by decide +kernel, by decide⟩

/-- A QR stream with exactly 4 bits left, and with fewer. -/
theorem test_witness_StepRunsWhatItFetches_indicator :
    (inStream .qrStream 4 [0x44]).undisturbed ∧ 4 ≤ (inStream .qrStream 4 [0x44]).avail
      ∧ decode (.qrmi4 (BitVec.ofNat 4 ((inStream .qrStream 4 [0x44]).streamField 0 4 4))) = .ok .qrByte
      ∧ (inStream .qrStream 5 [0x44]).avail < 4 :=
  ⟨undisturbed_of_nil rfl, by decide, by decide +kernel, by decide⟩

theorem test_witness_StepRunsWhatItFetches_idle : State.reset.undisturbed ∧ State.reset.phase = .idle ∧ State.reset.host = [] :=
  ⟨undisturbed_of_nil rfl, rfl, rfl⟩

/-- The first and the last RW register. -/
theorem test_witness_RegisterWriteStoresItsFields :
    (hostDoes (.regWrite 0x03 7)).phase = .idle ∧ (hostDoes (.regWrite 0x03 7)).landsNow (.regWrite 0x03 7) []
      ∧ (0x03, 0xFFFFFFFF) ∈ rwFields ∧ (0x10, 0xFF) ∈ rwFields ∧ (1 : Nat) ≠ 0x03 := ⟨rfl, lands _, by decide, by decide, by decide⟩

/-- The first and the last RO register. -/
theorem test_witness_RegisterWriteStoresItsFields_read_only :
    (hostDoes (.regWrite 0x1F 0)).landsNow (.regWrite 0x1F 0) [] ∧ 0x01 ∈ roIndexes ∧ 0x1F ∈ roIndexes :=
  ⟨lands _, by decide, by decide⟩

theorem test_witness_BusyWritesAreDropped :
    (hostDoesWhileBusy (.regWrite 0x1F 5)).phase ≠ .idle ∧ 0x1F ≤ 0x1F
      ∧ (hostDoesWhileBusy (.regWrite 0x1F 5)).landsNow (.regWrite 0x1F 5) [] := ⟨by decide, by decide, lands_while_busy _⟩

theorem test_witness_BusyWritesAreDropped_buffer :
    (hostDoesWhileBusy (.bufWrite .txt 8191 5)).phase ≠ .idle ∧ 8191 < Space.txt.size
      ∧ (hostDoesWhileBusy (.bufWrite .txt 8191 5)).landsNow (.bufWrite .txt 8191 5) [] :=
  ⟨by decide, by decide, lands_while_busy _⟩

/-- WRBUSY set, and the next action no reset. -/
theorem test_witness_BusyWritesAreDropped_sticky :
    ∃ s t : State, step s = .next t ∧ s.regs.status.wrbusy = true ∧ ∀ rest, ¬ s.landsNow .reset rest := by
  refine ⟨setRegs State.reset (fun r => { r with status := ⟨false, false, false, false, true⟩ }), _, rfl, rfl, ?_⟩
  rintro rest ⟨e, he, _⟩
  cases he

theorem test_witness_IdleAccessesHaveNoSideEffect :
    (hostDoes (.regRead 0x1F)).phase = .idle ∧ 0x1F ≤ 0x1F ∧ (hostDoes (.regRead 0x1F)).landsNow (.regRead 0x1F) [] :=
  ⟨rfl, by decide, lands _⟩

theorem test_witness_IdleAccessesHaveNoSideEffect_buffer_read :
    65535 < Space.rdm.size ∧ (hostDoes (.bufRead .rdm 65535)).landsNow (.bufRead .rdm 65535) [] := ⟨by decide, lands _⟩

theorem test_witness_IdleAccessesHaveNoSideEffect_buffer_write :
    4095 < Space.cw.size ∧ (hostDoes (.bufWrite .cw 4095 255)).landsNow (.bufWrite .cw 4095 255) [] ∧ Space.cw ≠ .mm ∧ Space.cw ≠ .rdm
      ∧ (Space.cw ≠ Space.cw ∨ 4094 ≠ 4095) := ⟨by decide, lands _, by decide, by decide, by decide⟩

theorem test_witness_IdleAccessesHaveNoSideEffect_read_only :
    65535 < Space.mm.size ∧ (hostDoes (.bufWrite .mm 65535 1)).landsNow (.bufWrite .mm 65535 1) []
      ∧ 0x1F ∈ roIndexes ∧ (hostDoes (.regWrite 0x1F 1)).landsNow (.regWrite 0x1F 1) [] :=
  ⟨by decide, lands _, by decide, lands _⟩

/-- Busy with ENC.DM: STATUS and ID, and TXT_LEN, which ENC.DM does not write. -/
theorem test_witness_BusyReads :
    (hostDoesWhileBusy (.regRead 0x0B)).phase ≠ .idle ∧ (hostDoesWhileBusy (.regRead 0x0B)).landsNow (.regRead 0x0B) []
      ∧ (hostDoesWhileBusy (.regRead 0x01)).landsNow (.regRead 0x01) []
      ∧ (hostDoesWhileBusy (.regRead 0x1F)).landsNow (.regRead 0x1F) []
      ∧ (hostDoesWhileBusy (.regRead 0x0B)).runningWrites.all (fun l => !decide (l.regIndex = some 0x0B)) = true :=
  ⟨by decide, lands_while_busy _, lands_while_busy _, lands_while_busy _, by decide⟩

/-- Busy with ENC.DM: CMD, ERR and SYM, a register of its write set. -/
theorem test_witness_BusyReads_write_set :
    (hostDoesWhileBusy (.regRead 0x00)).landsNow (.regRead 0x00) []
      ∧ (hostDoesWhileBusy (.regRead 0x02)).landsNow (.regRead 0x02) []
      ∧ (hostDoesWhileBusy (.regRead 0x0D)).phase ≠ .idle ∧ (hostDoesWhileBusy (.regRead 0x0D)).landsNow (.regRead 0x0D) []
      ∧ Loc.sym ∈ (hostDoesWhileBusy (.regRead 0x0D)).runningWrites ∧ Loc.sym.regIndex = some 0x0D :=
  ⟨lands_while_busy _, lands_while_busy _, by decide, lands_while_busy _, by decide, rfl⟩

/-- The last elements of a buffer the command writes and of one it reads. -/
theorem test_witness_BusyReads_buffer :
    4095 < Space.cw.size ∧ (hostDoesWhileBusy (.bufRead .cw 4095)).landsNow (.bufRead .cw 4095) []
      ∧ 8191 < Space.txt.size ∧ (hostDoesWhileBusy (.bufRead .txt 8191)).landsNow (.bufRead .txt 8191) [] :=
  ⟨by decide, lands_while_busy _, by decide, lands_while_busy _⟩

theorem test_witness_ResetRegisterValues : 31 < 32 := by decide

/-- Reset in the middle of a running command. -/
theorem test_witness_ResetAbandonsTheCommand : (hostDoesWhileBusy .reset).landsNow .reset [] := lands_while_busy _

theorem test_witness_OnlyResetClearsStickyBits :
    ∃ s t : State, step s = .next t ∧ (∀ rest, ¬ s.landsNow .reset rest) ∧ s.regs.status.defect = true
      ∧ s.regs.status.wrbusy = true := by
  refine ⟨setRegs (hostDoes (.regRead 0)) (fun r => { r with status := ⟨true, true, true, true, true⟩ }), _, rfl, ?_, rfl, rfl⟩
  rintro rest ⟨e, he, ha, _⟩
  simp only [hostDoes, setRegs, List.cons.injEq] at he
  rw [← he.1] at ha
  cases ha

theorem test_witness_StepKeepsInvariant : ∃ t, (hostDoesWhileBusy .reset).Inv ∧ step (hostDoesWhileBusy .reset) = .next t :=
  ⟨_, ⟨by decide +kernel, by decide, by decide, romDefault_ok⟩, rfl⟩

theorem test_witness_EveryCommandEnds : isCommand .decQr = true ∧ Instr.decQr ≠ .encDm := by decide

/-- A register, a buffer and the encoder's working state of a write set. -/
theorem test_witness_TakingAFault :
    ∃ t u, State.reset.raise .formatException .bsp 3 writesDecDm = t ∧ Loc.buf .out ∈ writesDecDm ∧ Loc.outLen ∈ writesDecDm
      ∧ State.reset.raise .capacityExceeded .tce 3 (writeSet .encDm) = u ∧ Loc.tceWork ∈ writeSet .encDm
      ∧ Exn.formatException ≠ .illegalCommand ∧ Exn.capacityExceeded ≠ .illegalCommand :=
  ⟨_, _, rfl, by decide, by decide, rfl, by decide, by decide, by decide⟩

/-- DEC.DM on the longest stream of the premise, at reset with CW unwritten, and a command without that premise. -/
theorem test_witness_DefaultTablesNeverDefect :
    (setRegs State.reset (fun r => { r with cwLen := 1558 })).rom = romDefault ∧ isCommand .decDm = true
      ∧ (setRegs State.reset (fun r => { r with cwLen := 1558 })).regs.cwLen.toNat ≤ 1558
      ∧ (setRegs State.reset (fun r => { r with cwLen := 2956 })).regs.cwLen.toNat ≤ 2956
      ∧ (∃ t, exec .nop State.reset = .next t ∧ t.phase = .idle)
      ∧ State.reset.rom.ok = true ∧ ∃ t, exec .encQr State.reset = .next t :=
  ⟨rfl, by decide, by decide, by decide, ⟨_, rfl, rfl⟩, romDefault_ok, _, rfl⟩

/-- The last level and mask, and the first and last version with a version word. -/
theorem test_witness_FormatAndVersionWords :
    (3 : Word).toNat ≤ 3 ∧ (7 : Word).toNat ≤ 7 ∧ 7 ≤ (7 : Word).toNat ∧ (40 : Word).toNat ≤ 40
      ∧ 3 < (4 : Word).toNat ∧ 7 < (8 : Word).toNat ∧ (6 : Word).toNat < 7 ∧ 40 < (41 : Word).toNat := by decide

theorem test_witness_FormatTablesAreBchWords : 31 < 32 ∧ 7 ≤ 7 ∧ 40 ≤ 40 ∧ (0 : Nat) ≠ 31 ∧ 33 < 34 := by decide

/-- Vector F-8: row 13 at distance 3 of one word and 3 of the other. -/
theorem test_witness_CodecDecodersFindTheNearest :
    (0x631F : Word).toNat < 2 ^ 15 ∧ (0x1318 : Word).toNat < 2 ^ 15 ∧ fmtDistance 0x631F 0x1318 13 = 3
      ∧ (∀ b, b < 32 → fmtDistance 0x631F 0x1318 13 ≤ fmtDistance 0x631F 0x1318 b)
      ∧ (∀ b, b < 13 → fmtDistance 0x631F 0x1318 13 < fmtDistance 0x631F 0x1318 b) := by decide +kernel

/-- Vector F-13: no row within distance 3. -/
theorem test_witness_CodecDecodersFindTheNearest_no_row : ∀ d, d < 32 → 3 < fmtDistance 0 0 d := by decide +kernel

/-- Vector F-17, its third word, at distance 3 of version 7, and vector F-19. -/
theorem test_witness_CodecDecodersFindTheNearest_version :
    (0x37C95 : Word).toNat < 2 ^ 18 ∧ verDistance 0x37C95 7 = 3 ∧ verDistance 0x08C69 40 ≤ 3 := by decide +kernel

/-- Vector F-20. -/
theorem test_witness_CodecDecodersFindTheNearest_no_version : ∀ v, v ≤ 40 → 7 ≤ v → 3 < verDistance 0 v := by decide +kernel

theorem test_witness_PenWritesThePenalty :
    1 ≤ (withGrid 1 255 []).regs.gridH.toNat ∧ 1 ≤ (withGrid 1 255 []).regs.gridW.toNat
      ∧ (withGrid 0 255 []).regs.gridH.toNat < 1 := by decide

theorem test_witness_PenWritesThePenalty_light :
    1 ≤ (withGrid 1 6 []).regs.gridH.toNat ∧ 1 ≤ (withGrid 1 6 []).regs.gridW.toNat
      ∧ ∀ r, r < 1 → ∀ c, c < 6 → (withGrid 1 6 []).cell r c = false := by decide +kernel

/-- The last row of the symbol table, with its 2178 codewords. -/
theorem test_witness_MapDmDrawsTheSymbol :
    ∃ r : DmRow, tDmSym[29]? = some r ∧ r.data + r.ec = 2178 ∧ State.reset.rom = romDefault := by decide

/-- A row whose matrix has four cells no codeword uses (10 × 10). -/
theorem test_witness_MapDmDrawsTheSymbol_fixed_pattern :
    ∃ r : DmRow, tDmSym[1]? = some r ∧ r.data + r.ec = 12 ∧ r.vr * r.rh * (r.hr * r.rw) % 8 = 4 := by decide

theorem test_witness_ParDmReadsWhatMapDmDrew :
    ∃ (s t : State) (r : DmRow), s.rom = romDefault ∧ tDmSym[s.regs.sym.toNat]? = some r
      ∧ s.regs.cwLen.toNat = r.data + r.ec ∧ exec .mapDm s = .next t :=
  ⟨withCodewords [142, 164, 186, 114, 25, 5, 88, 102], _, _, rfl, rfl, by decide, rfl⟩

/-- The first and the last row's sizes, and a size that is no row's. -/
theorem test_witness_ParDmLooksUpTheSize :
    (∃ r, tDmSym[0]? = some r ∧ r.vr * (r.rh + 2) = 10 ∧ r.hr * (r.rw + 2) = 10)
      ∧ (∃ r, tDmSym[29]? = some r ∧ r.vr * (r.rh + 2) = 144 ∧ r.hr * (r.rw + 2) = 144)
      ∧ (∀ r ∈ tDmSym, 30 ≠ r.vr * (r.rh + 2) ∨ 30 ≠ r.hr * (r.rw + 2)) := by decide +kernel

/-- Version 1 with its 26 codewords, version 40 with its 3706. -/
theorem test_witness_MapQrDrawsTheSymbol :
    qrTotal romDefault 1 = 26 ∧ qrTotal romDefault 40 = 3706
      ∧ 0 < (dataCells (qrDim 1) (qrFp romDefault 1)).length := by decide +kernel

/-- Version 1 as in vector M-2, and the versions at the ends of the clauses: 2 has one alignment block, 7 a version word. -/
theorem test_witness_MapQrDrawsTheFunctionPatterns :
    (setRegs (withCodewords codewordsM2) (fun r => { r with ver := 1 })).rom = romDefault
      ∧ (withCodewords codewordsM2).regs.cwLen.toNat = qrTotal romDefault 1
      ∧ (∃ t, exec .mapQr (setRegs (withCodewords codewordsM2) (fun r => { r with ver := 1 })) = .next t)
      ∧ tQrAlign[2 - 1]? = some [6, 18] ∧ (18, 18) ∉ [(6, 6), (25 - 7, 6), (6, 25 - 7)]
      ∧ tFmt[8 * 3 + 6]? = some 0x2EDA ∧ tVer[7 - 7]? = some 0x07C94 ∧ tVer[40 - 7]? = some 0x28C69 :=
  ⟨rfl, by decide +kernel, ⟨_, rfl⟩, by decide, by decide, by decide, by decide, by decide⟩

/-- The state of vector M-2. -/
def stateM2 : State := setRegs (withCodewords codewordsM2) (fun r => { r with ver := 1, cfgQr := ⟨2, 0, true, false⟩ })

theorem test_witness_MapQrChoosesTheLeastPenalty :
    ∃ t u : State, 1 ≤ stateM2.regs.ver.toNat ∧ stateM2.regs.ver.toNat ≤ 40
      ∧ stateM2.rom = romDefault ∧ stateM2.regs.cwLen.toNat = qrTotal stateM2.rom stateM2.regs.ver.toNat ∧ stateM2.regs.cfgQr.maskAuto = true
      ∧ exec .mapQr stateM2 = .next t
      ∧ exec .mapQr (setRegs stateM2 (fun r => { r with cfgQr := { r.cfgQr with maskAuto := false, maskId := 7 } })) = .next u :=
  ⟨_, _, by decide, by decide, rfl, by decide +kernel, rfl, rfl, rfl⟩

/-- Not square; below 21; 23 % 4 is 3; 181, above every version's size. -/
theorem test_witness_ParQrRefusesOtherSizes :
    (withGrid 21 25 []).regs.gridH ≠ (withGrid 21 25 []).regs.gridW ∧ (withGrid 20 20 []).regs.gridW.toNat < 21
      ∧ (withGrid 23 23 []).regs.gridW.toNat % 4 ≠ 1 ∧ 177 < (withGrid 181 181 []).regs.gridW.toNat := by decide

theorem test_witness_ParQrRetriesOnce :
    ∃ t1 t2 : State, exec (.parQr false false) State.reset = .next t1 ∧ exec (.parQr true false) State.reset = .next t2 :=
  ⟨_, _, rfl, rfl⟩

/-- An attempt that completes: the symbol of program P2 (vector R-6). -/
theorem test_witness_ParQrRetriesOnce_attempt :
    ∃ r, qrAttempt (withGrid 21 21 symbolP2).rom (withGrid 21 21 symbolP2).symbol 21 21 false = .ok r :=
  ⟨⟨1, 30, codewordsM2⟩, by decide +kernel⟩

/-- A cell of `withGrid`. -/
theorem withGrid_cell (h w : Nat) (rows : List Nat) {r c : Nat} (hr : r < h) (hc : c < w) (hw : w ≤ 256) :
    (withGrid h w rows).cell r c = ((rows[r]?).getD 0).testBit c := by
  simp only [State.cell, withGrid]
  rw [Buf.read_ofGrid 2 _ hr hc, gridBit_gridOf h w _ hw (by omega)]
  cases ((rows[r]?).getD 0).testBit c <;> simp [hr, hc]

/-- The symbol of program P2 and its transpose, whose mirrored reading completes. -/
theorem test_witness_MirroredReadingIsTransposedReading :
    (withGrid 21 21 symbolP2).rom = (withGrid 21 21 symbolP2t).rom
      ∧ (∀ r, r < 21 → ∀ c, c < 21 → (withGrid 21 21 symbolP2).cell c r = (withGrid 21 21 symbolP2t).cell r c)
      ∧ (∃ t', exec (.parQr false false) (withGrid 21 21 symbolP2) = .next t')
      ∧ ran (.parQr true false) (withGrid 21 21 symbolP2t) done = true := by
  refine ⟨rfl, ?_, ⟨_, rfl⟩, ?_⟩
  · intro r hr c hc
    rw [withGrid_cell 21 21 _ hc hr (by omega), withGrid_cell 21 21 _ hr hc (by omega)]
    revert r c
    decide +kernel
  · have h := test_par_qr_mirrored
    simp only [ran] at h ⊢
    split at h
    · simp only [Bool.and_eq_true] at h
      exact h.1.1
    · cases h
    · cases h

theorem test_witness_ParQrReadsWhatMapQrDrew :
    ∃ t : State, 1 ≤ stateM2.regs.ver.toNat ∧ stateM2.regs.ver.toNat ≤ 40
      ∧ stateM2.rom = romDefault ∧ stateM2.regs.cwLen.toNat = qrTotal stateM2.rom stateM2.regs.ver.toNat ∧ exec .mapQr stateM2 = .next t :=
  ⟨_, by decide, by decide, rfl, by decide +kernel, rfl⟩

/-- The empty text and the text "123456". -/
theorem test_witness_EncDmEncodesDigitPairs :
    (withText []).rom = romDefault ∧ (withText []).regs.cfgShape ≠ 3 ∧ (dmLookup romDefault (withText []).regs 0).isSome = true
      ∧ (withText [49, 50, 51, 52, 53, 54]).regs.txtLen.toNat = 2 * 3
      ∧ (∀ j, j < 2 * 3 → 48 ≤ ((withText [49, 50, 51, 52, 53, 54]).mem.txt.read j).toNat
          ∧ ((withText [49, 50, 51, 52, 53, 54]).mem.txt.read j).toNat ≤ 57)
      ∧ (dmLookup romDefault (withText [49, 50, 51, 52, 53, 54]).regs 3).isSome = true := by decide +kernel

/-- The text of vector D-4's macro around "12", and the envelope of macro 06 around nothing. -/
theorem test_witness_EncDmEncodesDigitPairs_macro :
    let s := withText [0x5B, 0x29, 0x3E, 0x1E, 0x30, 0x35, 0x1D, 49, 50, 0x1E, 0x04]
    let u := withText [0x5B, 0x29, 0x3E, 0x1E, 0x30, 0x36, 0x1D, 0x1E, 0x04]
    s.rom = romDefault ∧ s.regs.txtLen.toNat = 2 * 1 + 9 ∧ s.mem.txt.take 7 = [0x5B, 0x29, 0x3E, 0x1E, 0x30, 0x35, 0x1D]
      ∧ s.mem.txt.read (2 * 1 + 7) = 0x1E ∧ s.mem.txt.read (2 * 1 + 8) = 0x04
      ∧ (∀ j, j < 2 * 1 → 48 ≤ (s.mem.txt.read (7 + j)).toNat ∧ (s.mem.txt.read (7 + j)).toNat ≤ 57)
      ∧ (dmLookup s.rom s.regs (1 + 1)).isSome = true ∧ u.regs.txtLen.toNat = 2 * 0 + 9
      ∧ u.mem.txt.take 7 = [0x5B, 0x29, 0x3E, 0x1E, 0x30, 0x36, 0x1D] ∧ u.mem.txt.read (2 * 0 + 7) = 0x1E
      ∧ u.mem.txt.read (2 * 0 + 8) = 0x04 ∧ (dmLookup u.rom u.regs (0 + 1)).isSome = true := by decide +kernel

/-- "AAAZZZ", "aaazzz" and six separators, with room for their five codewords. -/
theorem test_witness_EncDmEncodesTripletRuns :
    let s := withText [65, 65, 65, 90, 90, 90]
    let u := withText [97, 97, 97, 122, 122, 122]
    let v := withText [13, 42, 62, 62, 42, 13]
    s.rom = romDefault ∧ s.regs.cfgShape ≠ 3 ∧ s.regs.txtLen.toNat = 3 * 2
      ∧ (∀ j, j < 3 * 2 → 65 ≤ (s.mem.txt.read j).toNat ∧ (s.mem.txt.read j).toNat ≤ 90)
      ∧ (∀ j, j < 3 * 2 → 97 ≤ (u.mem.txt.read j).toNat ∧ (u.mem.txt.read j).toNat ≤ 122)
      ∧ (∀ j, j < 3 * 2 → (v.mem.txt.read j).toNat = 13 ∨ (v.mem.txt.read j).toNat = 42 ∨ (v.mem.txt.read j).toNat = 62)
      ∧ (dmLookup s.rom s.regs (2 * 2 + 1)).isSome = true := by decide +kernel

/-- Nine letters in C40: their seven codewords leave room for the unlatch. -/
theorem test_witness_EncDmEncodesTripletRuns_unlatch :
    (withText [65, 66, 67, 68, 69, 70, 71, 72, 73]).regs.txtLen.toNat = 3 * 3
      ∧ (dmLookup romDefault (withText [65, 66, 67, 68, 69, 70, 71, 72, 73]).regs (2 * 3 + 1)).map (fun p => p.2.data) = some 8
      ∧ 2 * 3 + 1 < 8 := by decide +kernel

/-- The eight ends of the ranges of characters native to EDIFACT only. -/
theorem test_witness_EncDmEncodesEdifactAndBase256Runs :
    let s := withText [33, 47, 58, 64, 91, 94, 41, 43]
    s.rom = romDefault ∧ s.regs.cfgShape ≠ 3 ∧ s.regs.txtLen.toNat = 4 * 2
      ∧ (∀ j, j < 4 * 2 → (33 ≤ (s.mem.txt.read j).toNat ∧ (s.mem.txt.read j).toNat ≤ 47 ∧ (s.mem.txt.read j).toNat ≠ 42)
          ∨ (58 ≤ (s.mem.txt.read j).toNat ∧ (s.mem.txt.read j).toNat ≤ 64 ∧ (s.mem.txt.read j).toNat ≠ 62)
          ∨ (91 ≤ (s.mem.txt.read j).toNat ∧ (s.mem.txt.read j).toNat ≤ 94))
      ∧ (dmLookup s.rom s.regs (3 * 2 + 1)).isSome = true := by decide +kernel

/-- Sixteen such characters: their thirteen codewords leave room for the unlatch. -/
theorem test_witness_EncDmEncodesEdifactAndBase256Runs_unlatch :
    (withText (List.replicate 16 33)).regs.txtLen.toNat = 4 * 4
      ∧ (∀ j, j < 4 * 4 → ((withText (List.replicate 16 33)).mem.txt.read j).toNat = 33)
      ∧ (dmLookup romDefault (withText (List.replicate 16 33)).regs (3 * 4 + 1)).map (fun p => p.2.data) = some 16
      ∧ 3 * 4 + 4 ≤ 16 := by decide +kernel

/-- Three extended bytes, whose payload fills its symbol, and four, whose does not. -/
theorem test_witness_EncDmEncodesEdifactAndBase256Runs_base256 :
    let s := withText [128, 255, 200]
    let u := withText [128, 255, 200, 129]
    s.rom = romDefault ∧ s.regs.txtLen.toNat = 3 ∧ (∀ j, j < 3 → 128 ≤ (s.mem.txt.read j).toNat)
      ∧ (dmLookup s.rom s.regs (3 + 2)).map (fun p => p.2.data) = some 5
      ∧ (∀ j, j < 4 → 128 ≤ (u.mem.txt.read j).toNat)
      ∧ (dmLookup u.rom u.regs (4 + 2)).map (fun p => p.2.data) = some 8 := by decide +kernel

/-- 250 extended bytes: a length field of two codewords. -/
theorem test_witness_EncDmEncodesEdifactAndBase256Runs_long :
    (withText (List.replicate 250 200)).regs.txtLen.toNat = 250
      ∧ (∀ j, j < 250 → 128 ≤ ((withText (List.replicate 250 200)).mem.txt.read j).toNat)
      ∧ (dmLookup romDefault (withText (List.replicate 250 200)).regs (250 + 2)).map (fun p => p.2.data) = some 280
      ∧ ¬ 250 + 2 = 280 ∧ ¬ 250 ≤ 249 := by decide +kernel

/-- ENC.DM completes on the text "123456". -/
theorem test_witness_EncDmFillsItsSymbol :
    ran .encDm (withText [49, 50, 51, 52, 53, 54]) done = true := by decide +kernel

/-- The issued command, and a run that goes on in EDIFACT mode. -/
theorem test_witness_EncDmNeverRaisesIllegalCharacter :
    ran .encDm (withText [200]) (fun t => decide (t.phase = .idle)) = true
      ∧ (issued 0x10).encGuarded ∧ (issued 0x10).phase = .issued ∧ decodeCommand (issued 0x10).regs.cmd = .ok .encDm
      ∧ (∃ t, step (issued 0x10) = .next t)
      ∧ State.encGuarded { setRegs (withText [33, 34, 35, 36]) (fun r => { r with tceMode := 4 }) with phase := .encDm }
      ∧ (∃ t, step { setRegs (withText [33, 34, 35, 36]) (fun r => { r with tceMode := 4 }) with phase := .encDm } = .next t) := by
  refine ⟨by decide +kernel, ?_, rfl, by decide, ⟨_, rfl⟩, ?_, ⟨_, rfl⟩⟩
  · intro h; cases h
  · intro _; decide +kernel

/-- "Hello World" at level L, the same with an ECI header, and the empty text. -/
theorem test_witness_EncQrEncodesEveryMode :
    (withText []).rom = romDefault ∧ qrClassify false (withText [72, 101, 108, 108, 111, 32, 87, 111, 114, 108, 100]).text = .byte
      ∧ qrPick romDefault (4 + ccBits 4 1 + 8 * 11) 0 = some 1 ∧ qrPick romDefault (16 + ccBits 4 1 + 8 * 11) 0 = some 1
      ∧ (withText []).regs.cfgEci.en = false ∧ qrClassify false (withText []).text = .byte
      ∧ qrPick romDefault (4 + ccBits 4 1 + 8 * 0) 0 = some 1 := by decide +kernel

/-- "1234567" and "12345678" (a rest of one and of two digits), "AC-42" (an odd length), and the Kanji text of vector Q-4. -/
theorem test_witness_EncQrEncodesEveryMode_others :
    qrClassify true (withText [49, 50, 51, 52, 53, 54, 55]).text = .num ∧ qrPick romDefault (4 + ccBits 1 1 + 24) 3 = some 1
      ∧ qrClassify false (withText [49, 50, 51, 52, 53, 54, 55, 56]).text = .num ∧ qrPick romDefault (4 + ccBits 1 1 + 27) 3 = some 1
      ∧ qrClassify false (withText [65, 67, 45, 52, 50]).text = .alnum ∧ qrPick romDefault (4 + ccBits 2 1 + 28) 3 = some 1
      ∧ qrClassify true (withText [0x93, 0x5F, 0xE4, 0xAA]).text = .kanji ∧ qrPick romDefault (4 + ccBits 8 1 + 26) 0 = some 1
      ∧ inKanjiRanges ((withText [0x93, 0x5F, 0xE4, 0xAA]).pairAt 0)
      ∧ inKanjiRanges ((withText [0x93, 0x5F, 0xE4, 0xAA]).pairAt 2) := by
  unfold inKanjiRanges
  decide +kernel

theorem test_witness_DecQrReadsWhatEncQrWrote :
    (withText [49]).regs.cfgQr.sjis = false ∧ ran .encQr (withText [49]) done = true := by decide +kernel

theorem test_witness_DecDmReadsDigitPairsBack :
    (withText [49, 50]).regs.txtLen.toNat = 2 * 1 ∧ 1 ≤ 1 ∧ ran .encDm (withText [49, 50]) done = true := by decide +kernel

/-- ENC.DM completes on "Hello World" with the default tables. -/
theorem test_witness_DecDmReadsWhatEncDmWrote :
    (withText [72, 101, 108, 108, 111, 32, 87, 111, 114, 108, 100]).rom = romDefault
      ∧ ran .encDm (withText [72, 101, 108, 108, 111, 32, 87, 111, 114, 108, 100]) done = true := by decide +kernel

/-- The 10 × 10 symbol only (60_exceptions.md rule R570): seven digits, three bytes; and bounds that permit no row at all. -/
theorem test_witness_EncodersFault :
    let s := setRegs (withText [49, 50, 51, 52, 53, 54, 55]) (fun r => { r with cfgMax := ⟨10, 10⟩ })
    let u := setRegs (withText [128, 200, 255]) (fun r => { r with cfgMax := ⟨10, 10⟩ })
    let v := setRegs (withText [65]) (fun r => { r with cfgMax := ⟨9, 9⟩ })
    s.rom = romDefault ∧ s.regs.cfgShape ≠ 3 ∧ s.regs.txtLen.toNat = 7 ∧ (∀ j, j < 7 → 48 ≤ s.unitAt j ∧ s.unitAt j ≤ 57)
      ∧ dmLookup s.rom s.regs (7 / 2 + 7 % 2) = none ∧ (∀ j, j < 3 → 128 ≤ u.unitAt j) ∧ dmLookup u.rom u.regs (3 + 2) = none
      ∧ dmLookup v.rom v.regs 0 = none ∧ ran .encDm v (fun t => decide (t.phase = .idle)) = true := by decide +kernel

/-- Runs of two groups with the 10 × 10 symbol only. -/
theorem test_witness_EncodersFault_runs :
    let f := fun xs => setRegs (withText xs) (fun r => { r with cfgMax := ⟨10, 10⟩ })
    (f [65, 66, 67, 68, 69, 90]).regs.txtLen.toNat = 3 * 2
      ∧ (∀ j, j < 3 * 2 → 65 ≤ (f [65, 66, 67, 68, 69, 90]).unitAt j ∧ (f [65, 66, 67, 68, 69, 90]).unitAt j ≤ 90)
      ∧ (∀ j, j < 3 * 2 → 97 ≤ (f [97, 98, 99, 120, 121, 122]).unitAt j ∧ (f [97, 98, 99, 120, 121, 122]).unitAt j ≤ 122)
      ∧ (∀ j, j < 3 * 2 → (f [13, 42, 62, 13, 13, 13]).unitAt j = 13 ∨ (f [13, 42, 62, 13, 13, 13]).unitAt j = 42
          ∨ (f [13, 42, 62, 13, 13, 13]).unitAt j = 62)
      ∧ dmLookup romDefault (f [65, 66, 67, 68, 69, 90]).regs (2 * 2 + 1) = none
      ∧ (∀ j, j < 4 * 2 → (33 ≤ (f [33, 34, 35, 36, 37, 38, 39, 40]).unitAt j ∧ (f [33, 34, 35, 36, 37, 38, 39, 40]).unitAt j ≤ 47
          ∧ (f [33, 34, 35, 36, 37, 38, 39, 40]).unitAt j ≠ 42))
      ∧ dmLookup romDefault (f [33, 34, 35, 36, 37, 38, 39, 40]).regs (3 * 2 + 1) = none := by decide +kernel

/-- ENC.QR: 0x81 0x3F behind a right pair; a text longer than every version (1277 bytes at level H), and one that only the second
pass finds too long does not exist with the default tables. -/
theorem test_witness_EncodersFault_qr :
    qrClassify true (withText [0x93, 0x5F, 0x81, 0x3F]).text = .kanji
      ∧ ¬ inKanjiRanges ((withText [0x93, 0x5F, 0x81, 0x3F]).pairAt (2 * 1))
      ∧ inKanjiRanges ((withText [0x93, 0x5F, 0x81, 0x3F]).pairAt (2 * 0))
      ∧ qrPick romDefault (4 + ccBits 4 1 + 8 * 1277) 3 = none := by
  unfold inKanjiRanges
  decide +kernel

/-- Both ends of both ranges, and the last free element of OUT. -/
theorem test_witness_DmCharactersAndDigits :
    1 ≤ (1 : Byte).toNat ∧ (128 : Byte).toNat ≤ 128 ∧ 130 ≤ (130 : Byte).toNat ∧ (229 : Byte).toNat ≤ 229
      ∧ (setRegs (inStream (.dmStream .ascii) 8 [66, 66]) (fun r => { r with outLen := 16383 })).hasRoom 1
      ∧ (setRegs (inStream (.dmStream .ascii) 8 [142, 66]) (fun r => { r with outLen := 16382 })).hasRoom 2 := by
  unfold State.hasRoom
  decide

theorem test_witness_DmPadEndsTheData :
    (setRegs State.reset (fun r => { r with outLen := 16384 })).regs.outLen.toNat + State.reset.work.trl.length ≤ 16384 := by
  decide

/-- A latch with a codeword behind it, and as the last codeword; an unlatch at either place. -/
theorem test_witness_DmLatchesAndUnlatch :
    0 < (inStream (.dmStream .ascii) 8 [230, 66]).avail ∧ (inStream (.dmStream .ascii) 8 [230]).avail = 0
      ∧ (inStream (.dmStream .ascii) 8 [230]).hasRoom 0
      ∧ (inStream (.dmStream .ascii) 8 [254]).avail = 0 ∧ (inStream (.dmStream .ascii) 8 [254]).hasRoom 0
      ∧ 0 < (inStream (.dmStream .ascii) 8 [254, 66]).avail := by
  unfold State.hasRoom
  decide

/-- The last free element of FNC and of OUT; an ignored codeword at the end of the stream. -/
theorem test_witness_DmFnc1MacrosIgnoredAndUpperShift :
    (setRegs (inStream (.dmStream .ascii) 8 [232]) (fun r => { r with fncCnt := 2047 })).regs.fncCnt.toNat < 2048
      ∧ (setRegs (inStream (.dmStream .ascii) 8 [232]) (fun r => { r with outLen := 16383 })).hasRoom 1
      ∧ (inStream (.dmStream .ascii) 8 [233]).hasRoom 0 := by
  unfold State.hasRoom
  decide

/-- The macro as the last codeword: its header and its trailer just fit. -/
theorem test_witness_DmFnc1MacrosIgnoredAndUpperShift_macro :
    State.hasRoom { setRegs (inStream (.dmStream .ascii) 8 [236]) (fun r => { r with outLen := 16375 }) with
      work := { (inStream (.dmStream .ascii) 8 [236]).work with
        trl := [0x1E, 0x04] ++ (inStream (.dmStream .ascii) 8 [236]).work.trl } } 7 := by
  unfold State.hasRoom
  decide

/-- No character before a pad, and characters to the end of the stream. -/
theorem test_witness_DecDmDecodesPlainCharacters :
    ((withCodewords [129]).mem.cw.read 0).toNat = 129
      ∧ (∀ j, j < 2 → 1 ≤ ((withCodewords [1, 128]).mem.cw.read j).toNat
          ∧ ((withCodewords [1, 128]).mem.cw.read j).toNat ≤ 128)
      ∧ (withCodewords [1, 128]).regs.cwLen.toNat = 2 := by decide +kernel

theorem test_witness_MeaninglessElementsAndEmptyStreams :
    State.reset.regs.cwLen = 0 ∧ 1 ≤ (1 : BitVec 6).toNat ∧ (40 : BitVec 6).toNat ≤ 40 := by decide

/-- "AAA" (14, 14, 14) in C40 and X12 and "aaa" in Text: 89 191. -/
theorem test_witness_NativeTripletsDecode :
    (inStream (.dmStream .c40) 8 [230, 89, 191]).undisturbed ∧ (inStream (.dmStream .c40) 8 [230, 89, 191]).avail = 16
      ∧ (inStream (.dmStream .c40) 8 [230, 89, 191]).streamField 0 8 16 = 1600 * 14 + 40 * 14 + 14 + 1
      ∧ c40Values (65 : Byte).toNat = [14] ∧ textValues (97 : Byte).toNat = [14] ∧ x12Value (65 : Byte).toNat = some 14 :=
  ⟨undisturbed_of_nil rfl, by decide, by decide +kernel, by decide, by decide, by decide⟩

/-- X12: one pair and nothing behind, one codeword, an unlatch with a codeword behind it, the pair 0, and a first value of 40. -/
theorem test_witness_NativeTripletsDecode_x12 :
    let s := fun xs => inStream (.dmStream .x12) 8 ([238, 89, 191] ++ xs)
    (∀ xs, (s xs).undisturbed) ∧ [65, 65, 65].map (fun c : Byte => x12Value c.toNat) = [14, 14, 14].map some
      ∧ (s []).streamHolds 8 ((tripletCodewords [14, 14, 14]).flatMap (fun b => bitsMsb b 8)) ∧ (s []).avail = 16
      ∧ (s [66]).streamHolds 8 ((tripletCodewords [14, 14, 14]).flatMap (fun b => bitsMsb b 8)) ∧ (s [66]).avail = 16 + 8
      ∧ 16 + 8 < (s [254, 66]).avail ∧ (s [254, 66]).streamField 0 (8 + 16) 8 = 254
      ∧ 16 + 16 ≤ (s [0, 0]).avail ∧ (s [0, 0]).streamField 0 (8 + 16) 16 = 0
      ∧ (s [250, 1]).streamField 0 (8 + 16) 16 = 64001 ∧ 64001 / 256 ≠ 254 := by
  refine ⟨fun _ => undisturbed_of_nil rfl, by decide, ?_, by decide, ?_, by decide, by decide, by decide +kernel, by decide,
    by decide +kernel, by decide +kernel, by decide⟩
  all_goals unfold State.streamHolds; decide +kernel

/-- Two characters and an FNC1 in C40, with the padding value 0 and an unlatch behind; a lone last codeword behind one pair. -/
theorem test_witness_DmC40AndTextSegments :
    let xs : List SegItem := [some 65, none, some 97]
    let s := inStream (.dmStream .c40) 8 ([230] ++ tripletCodewords (xs.flatMap (itemValues false) ++ [0]) ++ [254, 66])
    let u := inStream (.dmStream .text) 8 [239, 89, 191, 66]
    s.undisturbed ∧ (xs.flatMap (itemValues false) ++ [0]).length = 6
      ∧ s.streamHolds 8 ((tripletCodewords (xs.flatMap (itemValues false) ++ [0])).flatMap (fun b => bitsMsb b 8))
      ∧ 32 + 8 < s.avail + 8 ∧ s.streamField 0 (8 + 32) 8 = 254
      ∧ u.undisturbed ∧ u.streamHolds 8 ((tripletCodewords (itemValues true (some 97) ++ itemValues true (some 97)
          ++ itemValues true (some 97))).flatMap (fun b => bitsMsb b 8)) ∧ u.avail = 16 + 8 := by
  refine ⟨undisturbed_of_nil rfl, by decide, ?_, by decide, by decide +kernel, undisturbed_of_nil rfl, ?_, by decide⟩
  · unfold State.streamHolds
    decide +kernel
  · unfold State.streamHolds
    decide +kernel

/-- Text, behind the pair of "aaa": a pair that is 0; a first value of 40; shift 3 with the value 32 in one pair; shift 2 with the
value 28 as the second and third value, and with 31 in the pair behind it. -/
theorem test_witness_DmC40AndTextSegments_illegal :
    let s := fun xs => inStream (.dmStream .text) 8 ([239] ++ tripletCodewords [14, 14, 14] ++ xs)
    (∀ xs, (s xs).undisturbed) ∧ [some 97, some 97, some 97].flatMap (itemValues true) = [14, 14, 14]
      ∧ (s [0, 0]).streamHolds 8 ((tripletCodewords [14, 14, 14]).flatMap (fun b => bitsMsb b 8)) ∧ 16 * 1 + 16 ≤ (s [0, 0]).avail
      ∧ (s [0, 0]).streamField 0 (8 + 16 * 1) 16 = 0
      ∧ (s [250, 1]).streamField 0 (8 + 16 * 1) 16 = 64001 ∧ pairValues 64001 = [] ++ 40 :: [0, 0] ∧ badValue true [] 40
      ∧ (s [17, 129]).streamField 0 (8 + 16 * 1) 16 = 4481 ∧ pairValues 4481 = [2] ++ 32 :: [0] ∧ badValue true [2] 32
      ∧ (s [89, 93]).streamField 0 (8 + 16 * 1) 16 = 22877 ∧ pairValues 22877 = [14, 11] ++ 36 :: []
      ∧ pairValues 22469 = [14, 1] ++ 28 :: [] ∧ badValue true [1] 28
      ∧ pairValues 49601 = [] ++ 31 :: [0, 0] ∧ badValue true [1] 31 ∧ badValue false [1] 40 := by
  refine ⟨fun _ => undisturbed_of_nil rfl, by decide, ?_, by decide, by decide +kernel, by decide +kernel, by decide, ?_,
    by decide +kernel, by decide, ?_, by decide +kernel, by decide, by decide, ?_, by decide, ?_, ?_⟩
  · unfold State.streamHolds
    decide +kernel
  all_goals unfold badValue; decide

/-- EDIFACT: four characters with two codewords left; one character, the unlatch and a codeword of ASCII. -/
theorem test_witness_DmEdifactBase256AndEciSegments :
    let cs : List Byte := [65, 66, 67, 68]
    let s := inStream (.dmStream .edifact) 8 ([240] ++ edfPack [1, 2, 3, 4] ++ [66, 67])
    let u := inStream (.dmStream .edifact) 8 ([240] ++ edfPack [1, 31, 0] ++ [66])
    s.undisturbed ∧ s.streamHolds 8 (cs.flatMap (fun c => bitsMsb (c.toNat % 64) 6)) ∧ s.avail ≤ 6 * 4 + 16
      ∧ u.undisturbed ∧ u.work.bp % 8 = 0 ∧ u.streamHolds 8 (bitsMsb (65 % 64) 6 ++ bitsMsb 31 6) ∧ 6 * 0 + 16 < u.avail := by
  refine ⟨undisturbed_of_nil rfl, ?_, by decide, undisturbed_of_nil rfl, by decide, ?_, by decide⟩
  · unfold State.streamHolds
    decide +kernel
  · unfold State.streamHolds
    decide +kernel

/-- Base256: a one-byte field, the field 0, a two-byte field; a field whose bytes are not all there, one whose second byte is
missing, and none at all. -/
theorem test_witness_DmEdifactBase256AndEciSegments_base256 :
    let s := fun f => inStream (.dmStream .base256) 8 ([231] ++ randomised 2 (f ++ [65, 255]))
    (∀ f, (s f).undisturbed) ∧ isB256Field [2] 2 2 ∧ isB256Field [0] 2 2 ∧ isB256Field [250, 5] 255 0
      ∧ (s [2]).streamHolds 8 ((randomised 2 ([2] ++ [65, 255])).flatMap (fun b => bitsMsb b 8))
      ∧ (s [0]).streamHolds 8 ((randomised 2 ([0] ++ [65, 255])).flatMap (fun b => bitsMsb b 8))
      ∧ (s [250, 5]).streamHolds 8 ((randomised 2 [250, 5]).flatMap (fun b => bitsMsb b 8))
      ∧ (s [250, 5]).avail < 8 * (2 + 255) ∧ (inStream (.dmStream .base256) 8 [231]).avail < 8
      ∧ (inStream (.dmStream .base256) 8 [231, rand255 250 2]).avail = 8
      ∧ 250 ≤ unrand255 ((inStream (.dmStream .base256) 8 [231, rand255 250 2]).streamField 0 8 8) 2 := by
  refine ⟨fun _ => undisturbed_of_nil rfl, .inl (by decide), .inr (.inr (by decide)),
    .inr (.inl ⟨250, 5, by decide⟩), ?_, ?_, ?_, by decide, by decide, by decide, by decide +kernel⟩
  all_goals unfold State.streamHolds; decide +kernel

/-- The ECI segment: its codeword there, the last of the stream, and not there. -/
theorem test_witness_DmEdifactBase256AndEciSegments_eci :
    8 ≤ (inStream (.dmStream .eci) 8 [241, 255]).avail ∧ ((inStream (.dmStream .eci) 8 [241, 255]).advance 8).hasRoom 0
      ∧ (inStream (.dmStream .eci) 8 [241]).avail < 8 := by
  unfold State.hasRoom
  decide

/-- The ends of the ranges: both Base256 field forms and the longest payload, the last value of each table. -/
theorem test_witness_CodeTablesAreMutuallyInverse :
    39 < 40 ∧ 127 < 128 ∧ 255 < 256 ∧ 63 < 64 ∧ 1 ≤ (List.replicate 1 7).length ∧ (List.replicate 249 7).length ≤ 249
      ∧ 250 ≤ (List.replicate 250 7).length ∧ (List.replicate 1555 7).length ≤ 1555 ∧ 1555 < (List.replicate 1556 7).length
      ∧ x12Value 90 = some 39 ∧ edfValue 94 = some 30 ∧ edfValue 63 = some 63 ∧ alnum 58 = some 44
      ∧ kanjiGroup (256 * 0x9F + 0xFC) = some 5948 ∧ kanjiGroup (256 * 0xE0 + 0x40) = some 5952
      ∧ kanjiGroup (256 * 0x82 + 0x00) = some 0xC0 := by
  refine ⟨by decide, by decide, by decide, by decide, ?_, ?_, ?_, ?_, ?_, by decide, by decide, by decide, by decide, by decide,
    by decide, by decide⟩
  all_goals (rw [List.length_replicate]) <;> decide

/-- Structured append with exactly 16 bits left and with fewer; designators of 8, 16 and 24 bits with exactly those bits left
and with fewer, at the ends of the ranges of the first byte. -/
theorem test_witness_QrTerminatorFnc1SaAndEci :
    16 ≤ (inStream .qrStream 8 [0x30, 0x12, 0xA5]).avail ∧ (inStream .qrStream 9 [0x30, 0x12, 0xA5]).avail < 16
      ∧ (inStream .qrStream 8 [0x70, 127]).streamField 0 8 8 = 127 ∧ 8 ≤ (inStream .qrStream 8 [0x70, 127]).avail
      ∧ (inStream .qrStream 8 [0x70, 128, 1]).streamField 0 8 8 = 128 ∧ 16 ≤ (inStream .qrStream 8 [0x70, 128, 1]).avail
      ∧ (inStream .qrStream 8 [0x70, 192, 1, 2]).streamField 0 8 8 = 192 ∧ 24 ≤ (inStream .qrStream 8 [0x70, 192, 1, 2]).avail
      ∧ (inStream .qrStream 8 [0x70, 192, 1]).avail < 24 ∧ (inStream .qrStream 8 [0x70, 224]).streamField 0 8 8 = 224
      ∧ (inStream .qrStream 9 [0x70, 224]).avail < 8
      ∧ (inStream .qrStream 8 [0x70, 207, 255, 255]).streamField 0 8 8 = 207
      ∧ (inStream .qrStream 8 [0x70, 208, 0, 0]).streamField 0 8 8 = 208
      ∧ (inStream .qrStream 8 [0x70, 223, 0, 0]).streamField 0 8 8 = 223 ∧ 24 ≤ (inStream .qrStream 8 [0x70, 208, 0, 0]).avail := by
  decide +kernel

/-- The segment of vector B-7, and that of vector B-1 at its start. -/
theorem test_witness_QrNumericAndAlphanumericSegments :
    (setRegs (inStream .qrStream 4 [16, 8, 98]) (fun r => { r with ver := 1 })).streamHolds 4
        (bitsMsb 2 (ccBits 1 1) ++ numBits [49, 50])
      ∧ (setRegs (inStream .qrStream 4 [32, 9, 64]) (fun r => { r with ver := 1 })).streamHolds 4
        (bitsMsb 1 (ccBits 2 1) ++ alnumBits [65])
      ∧ 2 < 2 ^ ccBits 1 1 ∧ (alnum 65).isSome = true ∧ (16384 - 2) + 2 ≤ 16384 := by
  unfold State.streamHolds
  decide +kernel

/-- Vector B-17's group of 1000 behind no right group, and the same stream one byte shorter; two digits of which 7 bits hold 100;
one digit whose 4 bits are missing. -/
theorem test_witness_QrNumericAndAlphanumericSegments_bad_digits :
    let s := fun xs => setRegs (inStream .qrStream 4 xs) (fun r => { r with ver := 1 })
    (s [16, 15, 232]).streamHolds 4 (bitsMsb 3 (ccBits 1 1) ++ numBits []) ∧ 3 < 2 ^ ccBits 1 1
      ∧ 14 + 10 ≤ 8 * (s [16, 15, 232]).regs.cwLen.toNat ∧ 1000 ≤ (s [16, 15, 232]).streamField 0 14 10
      ∧ (s [16, 15]).streamHolds 4 (bitsMsb 3 (ccBits 1 1) ++ numBits []) ∧ 8 * (s [16, 15]).regs.cwLen.toNat < 14 + 10
      ∧ (s [16, 11, 32]).streamHolds 4 (bitsMsb 2 (ccBits 1 1) ++ numBits [])
      ∧ 100 ≤ (s [16, 11, 32]).streamField 0 14 7
      ∧ (s [16, 4]).streamHolds 4 (bitsMsb 1 (ccBits 1 1) ++ numBits []) ∧ 8 * (s [16, 4]).regs.cwLen.toNat < 14 + 4 := by
  unfold State.streamHolds
  decide +kernel

/-- Alphanumeric: a pair of 2025, a last single of 45, a pair whose 11 bits are missing. -/
theorem test_witness_QrNumericAndAlphanumericSegments_bad_characters :
    let s := fun xs => setRegs (inStream .qrStream 4 xs) (fun r => { r with ver := 1 })
    (s [32, 23, 233]).streamHolds 4 (bitsMsb 2 (ccBits 2 1) ++ alnumBits []) ∧ 2 < 2 ^ ccBits 2 1
      ∧ 13 + 11 ≤ 8 * (s [32, 23, 233]).regs.cwLen.toNat ∧ 2025 ≤ (s [32, 23, 233]).streamField 0 13 11
      ∧ (s [32, 13, 160]).streamHolds 4 (bitsMsb 1 (ccBits 2 1) ++ alnumBits [])
      ∧ 45 ≤ (s [32, 13, 160]).streamField 0 13 6
      ∧ (s [32, 16]).streamHolds 4 (bitsMsb 2 (ccBits 2 1) ++ alnumBits []) ∧ 8 * (s [32, 16]).regs.cwLen.toNat < 13 + 11 := by
  unfold State.streamHolds
  decide +kernel

/-- The byte "A", and vector B-14 with too few bits. -/
theorem test_witness_QrByteSegment :
    (setRegs (inStream .qrStream 4 [64, 20, 16]) (fun r => { r with ver := 1 })).streamHolds 4
        (bitsMsb 1 (ccBits 4 1) ++ bitsMsb 65 8)
      ∧ ccBits 4 1 ≤ (inStream .qrStream 4 [64, 84, 16]).avail
      ∧ (inStream .qrStream 4 [64, 84, 16]).avail - ccBits 4 1
          < 8 * (inStream .qrStream 4 [64, 84, 16]).streamField 0 4 (ccBits 4 1) := by
  unfold State.streamHolds
  decide +kernel

/-- Vector B-9's two groups; the Hanzi group 1445; a Hanzi subset that is not 1. -/
theorem test_witness_QrKanjiAndHanziSegments :
    (setRegs (inStream .qrStream 4 [128, 38, 207, 234, 168]) (fun r => { r with ver := 1 })).streamHolds 4
        (bitsMsb 2 (ccBits 8 1) ++ (bitsMsb 0x0D9F 13 ++ bitsMsb 0x1AAA 13))
      ∧ (setRegs (inStream .qrStream 4 [209, 1, 45, 40]) (fun r => { r with ver := 1 })).streamHolds 4
        (bitsMsb 1 4 ++ bitsMsb 1 (ccBits 13 1) ++ bitsMsb 1445 13)
      ∧ 4 + ccBits 13 1 ≤ (inStream .qrStream 4 [0xD2, 0x01]).avail
      ∧ (inStream .qrStream 4 [0xD2, 0x01]).streamField 0 4 4 ≠ 1 := by
  unfold State.streamHolds
  decide +kernel

/-- Truncated: two Kanji groups of which one is there, one Hanzi group without its bits, and count and subset fields. -/
theorem test_witness_QrKanjiAndHanziSegments_truncated :
    let s := fun xs => setRegs (inStream .qrStream 4 xs) (fun r => { r with ver := 1 })
    ccBits 8 1 ≤ (s [128, 38, 207, 128]).avail
      ∧ (s [128, 38, 207, 128]).avail < ccBits 8 1 + 13 * (s [128, 38, 207, 128]).streamField 0 4 (ccBits 8 1)
      ∧ (s [209, 1]).streamField 0 4 4 = 1 ∧ 4 + ccBits 13 1 ≤ (s [209, 1]).avail
      ∧ (s [209, 1]).avail < 4 + ccBits 13 1 + 13 * (s [209, 1]).streamField 0 8 (ccBits 13 1)
      ∧ (s [16]).avail < ccBits 1 1 ∧ (s [32]).avail < ccBits 2 1 ∧ (s [64]).avail < ccBits 4 1 ∧ (s [128]).avail < ccBits 8 1
      ∧ (s [209]).avail < 4 + ccBits 13 1 ∧ ¬ (s [209]).avail < 4
      ∧ (setRegs (inStream .qrStream 6 [208]) (fun r => { r with ver := 1 })).avail < 4 := by
  decide +kernel

end Sys2Proof.Tests
end

section
/-! What a host write to a register stores while no command runs (10_state.md rule R31; O8). -/

namespace Sys2Proof.Machine

/-! ### A register write while idle: `State.regStore` (10_state.md rule R31) -/

@[simp] theorem State.regStore_mem (s : State) (idx : Nat) (v : Word) : (s.regStore idx v).mem = s.mem := by
  unfold State.regStore; split <;> rfl
@[simp] theorem State.regStore_work (s : State) (idx : Nat) (v : Word) : (s.regStore idx v).work = s.work := by
  unfold State.regStore; split <;> rfl
@[simp] theorem State.regStore_phase (s : State) (idx : Nat) (v : Word) : (s.regStore idx v).phase = s.phase := by
  unfold State.regStore; split <;> rfl
@[simp] theorem State.regStore_host (s : State) (idx : Nat) (v : Word) : (s.regStore idx v).host = s.host := by
  unfold State.regStore; split <;> rfl

/-- Above 0x1F there is no register. -/
theorem State.regValue_eq_none (s : State) {idx : Nat} (h : 0x1F < idx) : s.regValue idx = none := by
  unfold State.regValue
  split <;> first | rfl | omega

/-- The write leaves every other register. -/
theorem State.regValue_regStore_ne (s : State) {idx j : Nat} (v : Word) (h : j ≠ idx) :
    (s.regStore idx v).regValue j = s.regValue j := by
  by_cases hj : 0x1F < j
  · rw [State.regValue_eq_none _ hj, State.regValue_eq_none _ hj]
  · unfold State.regStore
    split
    case h_14 => rfl
    all_goals interval_cases j <;> first | rfl | exact absurd rfl h

/-- A bitwise and with a mask of two fields: `i` bits from bit `k` on, and the low `j` bits. -/
theorem and_twoFields (n i j k : Nat) (h : j ≤ k) :
    n &&& (2 ^ k * (2 ^ i - 1) + (2 ^ j - 1)) = 2 ^ k * (n / 2 ^ k % 2 ^ i) + n % 2 ^ j := by
  have hj : 2 ^ j - 1 < 2 ^ k := by
    have := Nat.pow_le_pow_right (n := 2) (by decide) h
    have := Nat.two_pow_pos j
    omega
  rw [← Nat.div_add_mod (n &&& _) (2 ^ k), Nat.and_div_two_pow, Nat.and_mod_two_pow, Nat.mul_add_div (Nat.two_pow_pos k),
    Nat.div_eq_of_lt hj, Nat.add_zero, Nat.mul_add_mod, Nat.mod_eq_of_lt hj, Nat.and_two_pow_sub_one_eq_mod,
    Nat.and_two_pow_sub_one_eq_mod, Nat.mod_mod_of_dvd _ (Nat.pow_dvd_pow 2 h)]

theorem flagNat_testBit (n i : Nat) : flagNat (n.testBit i) = n / 2 ^ i % 2 := by
  rw [flagNat, Nat.testBit_eq_decide_div_mod_eq]
  split <;> simp_all

/-- A number is a masked word if it is the masked number. -/
theorem Word.ofNat_eq_and {v m : Word} {n : Nat} (h : v.toNat &&& m.toNat = n) : BitVec.ofNat 32 n = v &&& m := by
  rw [← h, ← BitVec.toNat_and, BitVec.ofNat_toNat, BitVec.setWidth_eq]

/-- A register of one field of `k` bits reads back the low `k` bits of what was written. -/
theorem Word.setWidth_setWidth_eq_and (v : Word) {k : Nat} (h : k ≤ 32) :
    (v.setWidth k).setWidth 32 = v &&& BitVec.ofNat 32 (2 ^ k - 1) := by
  have hk : 2 ^ k - 1 < 2 ^ 32 := by
    have := Nat.pow_le_pow_right (n := 2) (by decide) h
    omega
  apply BitVec.eq_of_toNat_eq
  rw [BitVec.toNat_setWidth, BitVec.toNat_setWidth, BitVec.toNat_and, BitVec.toNat_ofNat, Nat.mod_eq_of_lt hk,
    Nat.and_two_pow_sub_one_eq_mod, Nat.mod_eq_of_lt ((Nat.mod_le _ _).trans_lt v.isLt)]

theorem sizeReg_word_of_write (v : Word) : (SizeReg.mk (v.setWidth 8) (v.extractLsb' 8 8)).word = v &&& 0xFFFF := by
  refine Word.ofNat_eq_and ((and_twoFields v.toNat 8 8 8 (by decide)).trans ?_)
  simp only [BitVec.toNat_setWidth, BitVec.extractLsb'_toNat, Nat.shiftRight_eq_div_pow]
  omega

theorem cfgQr_word_of_write (v : Word) :
    (CfgQrReg.mk (v.setWidth 2) (v.extractLsb' 4 3) (v.getLsbD 7) (v.getLsbD 8)).word = v &&& 0x1F3 := by
  refine Word.ofNat_eq_and ((and_twoFields v.toNat 5 2 4 (by decide)).trans ?_)
  simp only [BitVec.toNat_setWidth, BitVec.extractLsb'_toNat, Nat.shiftRight_eq_div_pow, BitVec.getLsbD, flagNat_testBit]
  omega

theorem cfgEci_word_of_write (v : Word) : (CfgEciReg.mk (v.setWidth 7) (v.getLsbD 31)).word = v &&& 0x8000007F := by
  refine Word.ofNat_eq_and ((and_twoFields v.toNat 1 7 31 (by decide)).trans ?_)
  simp only [BitVec.toNat_setWidth, BitVec.getLsbD, flagNat_testBit]
  omega

/-- An RW register reads back the bits of its fields. -/
theorem State.regValue_regStore_self (s : State) {idx : Nat} {m : Word} (v : Word) (h : (idx, m) ∈ rwFields) :
    (s.regStore idx v).regValue idx = some (v &&& m) := by
  simp only [rwFields, List.cons_append, List.nil_append, List.mem_cons, Prod.mk.injEq, List.not_mem_nil, or_false] at h
  rcases h with ⟨rfl, rfl⟩ | ⟨rfl, rfl⟩ | ⟨rfl, rfl⟩ | ⟨rfl, rfl⟩ | ⟨rfl, rfl⟩ | ⟨rfl, rfl⟩ | ⟨rfl, rfl⟩ | ⟨rfl, rfl⟩ |
    ⟨rfl, rfl⟩ | ⟨rfl, rfl⟩ | ⟨rfl, rfl⟩ | ⟨rfl, rfl⟩ | ⟨rfl, rfl⟩ <;> refine congrArg some ?_
  · exact (BitVec.and_allOnes).symm
  · exact (BitVec.and_allOnes).symm
  · exact Word.setWidth_setWidth_eq_and v (k := 2) (by decide)
  · exact sizeReg_word_of_write v
  · exact sizeReg_word_of_write v
  · exact cfgQr_word_of_write v
  · exact cfgEci_word_of_write v
  · exact Word.setWidth_setWidth_eq_and v (k := 16) (by decide)
  · exact Word.setWidth_setWidth_eq_and v (k := 16) (by decide)
  · exact Word.setWidth_setWidth_eq_and v (k := 5) (by decide)
  · exact Word.setWidth_setWidth_eq_and v (k := 6) (by decide)
  · exact Word.setWidth_setWidth_eq_and v (k := 8) (by decide)
  · exact Word.setWidth_setWidth_eq_and v (k := 8) (by decide)

/-- A write to an RO register is dropped. -/
theorem State.regStore_of_ro (s : State) {idx : Nat} (v : Word) (h : idx ∈ roIndexes) : s.regStore idx v = s := by
  simp only [roIndexes, List.mem_cons, List.not_mem_nil, or_false] at h
  rcases h with rfl | rfl | rfl | rfl | rfl | rfl | rfl | rfl | rfl | rfl | rfl | rfl | rfl | rfl | rfl | rfl | rfl | rfl <;> rfl

/-- RW registers but CMD, and RO registers, have indexes from 1 to 0x1F. -/
theorem rwFields_index : ∀ p ∈ rwFields, p.1 ≠ 0 ∧ p.1 ≤ 0x1F := by decide
theorem roIndexes_index : ∀ idx ∈ roIndexes, idx ≠ 0 ∧ idx ≤ 0x1F := by decide

/-- A host write that lands while idle, to a register other than CMD. -/
theorem step_regWrite_idle {s : State} {idx : Nat} {v : Word} {rest : List HostEvent} (hp : s.phase = .idle)
    (hl : s.landsNow (.regWrite idx v) rest) (hi : idx ≠ 0 ∧ idx ≤ 0x1F) :
    step s = .next (State.regStore { s with host := rest } idx v) := by
  rw [step_of_landsNow hl, hostAct, State.regWrite, if_neg (by omega), if_neg (by simp [State.busy, hp]), if_neg hi.1]

/-- Settles O8. -/
theorem registerWriteStoresItsFields : Obligations.RegisterWriteStoresItsFields := by
  intro s idx v rest hp hl
  refine ⟨fun m hm => ⟨_, step_regWrite_idle hp hl (rwFields_index _ hm), ?_⟩, fun hro => ?_⟩
  · exact ⟨State.regValue_regStore_self _ v hm, fun j hj => State.regValue_regStore_ne _ v hj,
      State.regStore_mem .., State.regStore_work .., (State.regStore_phase ..).trans hp, State.regStore_host ..⟩
  · rw [step_regWrite_idle hp hl (roIndexes_index _ hro), State.regStore_of_ro _ v hro]

end Sys2Proof.Machine
end


section
/-! The rules of a step: what every step but the landing of the reset input keeps (O15, O16). -/

namespace Sys2Proof.Machine

/-! ### What a step keeps -/

/-- What every step keeps unless the reset input lands: the tables, the sticky bits, and the clauses of the invariant. -/
structure Persists (s t : State) : Prop where
  rom : t.rom = s.rom
  defect : s.regs.status.defect = true → t.regs.status.defect = true
  wrbusy : s.regs.status.wrbusy = true → t.regs.status.wrbusy = true
  wf : s.mem.wf = true → t.mem.wf = true
  fresh : s.mem.Fresh s.draws → t.mem.Fresh t.draws
  agrees : StatusAgrees s.regs s.busy → StatusAgrees t.regs t.busy

theorem Persists.refl (s : State) : Persists s s := ⟨rfl, id, id, id, id, id⟩

theorem Persists.trans {s t u : State} (h : Persists s t) (k : Persists t u) : Persists s u :=
  ⟨k.rom.trans h.rom, k.defect ∘ h.defect, k.wrbusy ∘ h.wrbusy, k.wf ∘ h.wf, k.fresh ∘ h.fresh, k.agrees ∘ h.agrees⟩

/-- The host's pending actions are no part of what a step keeps. -/
theorem Persists.of_host {s t : State} {rest : List HostEvent} (h : Persists { s with host := rest } t) : Persists s t :=
  ⟨h.rom, h.defect, h.wrbusy, h.wf, h.fresh, h.agrees⟩

/-- A change that leaves STATUS, ERR and the phase alone keeps what `Keeps` keeps. -/
theorem Persists.of_steady {ws : List Loc} {s t : State} (h : Steady ws s t) : Persists s t := by
  obtain ⟨hk, hs, he, hp⟩ := h
  refine ⟨hk.host.2.2, hk.defect, by rw [hs]; exact id, hk.wf, hk.fresh, ?_⟩
  simp only [StatusAgrees, State.busy, hs, he, hp]
  exact id

/-- STATUS and ERR agree after a command's end, and while it goes on (10_state.md rule R34, rule R35). MIRRORED is no part of the
agreement: PAR.QR may have written it before. -/
theorem Ends.statusAgrees {s t : State} {o : Bool} (hb : s.phase ≠ .idle)
    (he : Ends { s with regs.status.mirrored := o } t) (h : StatusAgrees s.regs s.busy) : StatusAgrees t.regs t.busy := by
  rcases he with ⟨⟨hp, hd, hr, herr⟩, -⟩ | ⟨x, u, n, hx, ⟨hp, hd, hr, herr⟩, hs⟩ | ⟨hp, hs, herr⟩
  · simp [StatusAgrees, State.busy, hp, hd, hr, herr]
  · rcases hx with rfl | rfl | rfl | rfl <;>
      simp [StatusAgrees, State.busy, hp, herr, hs, Status.atFault, Exn.code]
  · have hbt : t.busy = s.busy := by simp [State.busy, hp, hb]
    simpa [StatusAgrees, hbt, hs, herr] using h

/-- A refused command leaves STATUS and ERR in agreement (60_exceptions.md rule R545). -/
theorem State.refusedCommand_statusAgrees (s : State) : StatusAgrees s.refusedCommand.regs s.refusedCommand.busy := by
  simp [StatusAgrees, State.busy, State.refusedCommand]

/-- A command, or an element of its stream, that keeps all but a write set and ends well. -/
theorem Persists.of_ends {ws : List Loc} {s t : State} {o : Bool} (hb : s.phase ≠ .idle) (hk : Keeps ws s t)
    (he : Ends { s with regs.status.mirrored := o } t) : Persists s t := by
  obtain ⟨-, -, -, -, -, -, -, -, -, hwr⟩ := hk.inputs
  exact ⟨hk.host.2.2, hk.defect, by rw [hwr]; exact id, hk.wf, hk.fresh, Ends.statusAgrees hb he⟩

theorem Persists.refused (s : State) : Persists s s.refusedCommand :=
  ⟨rfl, id, id, id, id, fun _ => s.refusedCommand_statusAgrees⟩

theorem Persists.illegal (s : State) : Persists s s.illegal := by
  rw [State.illegal_eq_refusedCommand]; exact .refused s

/-! ### The sequencer's steps -/

theorem exec_persists {i : Instr} {s t : State} (hb : s.phase ≠ .idle) (h : exec i s = .next t) : Persists s t := by
  obtain ⟨u, hu, hk, he⟩ := exec_ends i s
  obtain rfl : u = t := by rw [hu] at h; exact Host.Outcome.next.inj h
  rcases he with ⟨o, he, -⟩ | rfl
  · exact .of_ends hb hk he
  · exact .refused s

theorem runCodeword_persists {s t : State} (hb : s.phase ≠ .idle) (h : runCodeword s = .next t) : Persists s t := by
  unfold runCodeword at h
  rcases s.readBits_cases 8 with ⟨-, hr⟩ | ⟨-, hr⟩ <;> rw [hr] at h
  · exact (Persists.of_steady (Steady.advance [] s 8)).trans (exec_persists hb h)
  · cases h
    exact .of_ends hb (Keeps.raise _ s _ _ _) (Ends.raise s (isUnitFault_format _) _ _ _)

theorem runIndicator_persists {s t : State} (hb : s.phase ≠ .idle) (h : runIndicator s = .next t) : Persists s t := by
  have hn := s.nextIndicator_steady []
  exact (Persists.of_steady hn).trans (exec_persists (by rw [hn.phase]; exact hb) h)

theorem dmSegment_persists {s : State} (seg : DmSeg) (hb : s.phase ≠ .idle) :
    Persists s (s.streamEnd writesDecDm (dmSegmentThen seg s)) := by
  obtain ⟨hk, he⟩ := GoodEnd.streamEnd (GoodEnd.dmSegmentThen seg s)
  exact .of_ends hb hk he

theorem encAdvance_persists {s : State} (fuel : Nat) (hb : s.phase ≠ .idle) : Persists s (s.encAdvance fuel) := by
  obtain ⟨hk, he⟩ := s.encAdvance_ends fuel
  exact .of_ends hb hk he

theorem run_persists {s t : State} (h : run s = .next t) : Persists s t := by
  unfold run at h
  split at h
  · cases h; exact .refl s
  · rename_i hp
    split at h
    · cases h; exact .illegal s
    · exact exec_persists (by simp [hp]) h
  · rename_i hp; cases h; exact encAdvance_persists _ (by simp [hp])
  · rename_i hp; exact runCodeword_persists (by simp [hp]) h
  · rename_i hp; cases h; exact dmSegment_persists _ (by simp [hp])
  · rename_i hp; exact runIndicator_persists (by simp [hp]) h

/-- A command begun that stands before its first round. -/
theorem Persists.of_begun {ws : List Loc} {s t : State} (hb : s.phase ≠ .idle) (hp : t.phase ≠ .idle)
    (h : Keeps ws s t ∧ t.regs.status = s.regs.status ∧ t.regs.err = s.regs.err) : Persists s t :=
  .of_ends (o := s.regs.status.mirrored) hb h.1 (.inr (.inr ⟨hp, h.2⟩))

theorem firstRound_persists {i : Instr} {s t : State} (hb : s.phase ≠ .idle) (h : firstRound i s = .next t) :
    Persists s t := by
  unfold firstRound at h
  split at h
  · cases h; exact .of_begun hb (by simp) s.encBegin_steady
  · split at h
    · cases h; exact .of_begun hb (by simp) (Steady.dmBegin s)
    · split at h
      · cases h; exact .of_begun hb (by simp) (Steady.qrBegin s)
      · exact exec_persists hb h

/-- A round differs from a step of the sequencer only where a command begins or ENC.DM loops. -/
theorem round_eq_run {s : State} (hi : s.phase ≠ .issued) (he : s.phase ≠ .encDm) : round s = run s := by
  unfold round run
  split <;> first | rfl | contradiction

theorem round_persists {s t : State} (h : round s = .next t) : Persists s t := by
  by_cases hi : s.phase = .issued
  · simp only [round, hi] at h
    split at h
    · cases h; exact .illegal s
    · exact firstRound_persists (by simp [hi]) h
  · by_cases he : s.phase = .encDm
    · simp only [round, he] at h
      cases h
      exact encAdvance_persists _ (by simp [he])
    · exact run_persists (round_eq_run hi he ▸ h)

/-! ### The host's actions -/

/-- A read changes what the host has read, and makes draws. -/
theorem Persists.reading (s : State) (v : Word) (n : Nat) : Persists s (s.reading v n) :=
  ⟨rfl, id, id, id, Memory.fresh_mono (Nat.le_add_right _ n), id⟩

theorem Persists.setWrbusy (s : State) : Persists s s.setWrbusy := ⟨rfl, id, fun _ => rfl, id, id, id⟩

theorem Persists.issue (s : State) (w : Word) : Persists s (s.issue w) :=
  ⟨rfl, id, id, id, id, fun _ => by simp [StatusAgrees, Status.atIssue]⟩

/-- A register write while idle touches neither STATUS nor ERR, and no buffer. -/
theorem Persists.regStore (s : State) (idx : Nat) (v : Word) : Persists s (s.regStore idx v) := by
  unfold State.regStore
  split <;> exact ⟨rfl, id, id, id, id, id⟩

/-- A write of one element keeps each buffer's draw. -/
theorem Memory.write_fresh {m : Memory} {d : Nat} (sp : Space) (a : Nat) (v : BitVec sp.width) (h : m.Fresh d) :
    (m.write sp a v).Fresh d := by
  cases sp <;> exact h

theorem Persists.memWrite (s : State) (sp : Space) {a : Nat} (v : BitVec sp.width) (ha : a < sp.size) :
    Persists s { s with mem := s.mem.write sp a v } :=
  ⟨rfl, id, id, Memory.write_wf _ sp a v ha, Memory.write_fresh sp a v, id⟩

theorem regRead_persists (s : State) (idx : Nat) : Persists s (s.regRead idx) := by
  unfold State.regRead
  repeat' split
  all_goals exact .reading s _ _

theorem regWrite_persists (s : State) (idx : Nat) (v : Word) : Persists s (s.regWrite idx v) := by
  unfold State.regWrite
  split
  · exact .refl s
  · split
    · exact .setWrbusy s
    · split
      · exact .issue s v
      · exact .regStore s idx v

theorem bufRead_persists (s : State) (sp : Space) (a : Nat) : Persists s (s.bufRead sp a) := by
  unfold State.bufRead
  split <;> exact .reading s _ _

theorem bufWrite_persists (s : State) (sp : Space) (a : Nat) (v : BitVec sp.width) : Persists s (s.bufWrite sp a v) := by
  unfold State.bufWrite
  split
  · exact .refl s
  · rename_i ha
    split
    · exact .setWrbusy s
    · split
      · exact .memWrite s sp v (Nat.lt_of_not_le ha)
      · exact .refl s

theorem hostAct_persists (s : State) {a : HostAct} (h : a ≠ .reset) : Persists s (hostAct s a) := by
  cases a with
  | regRead idx => exact regRead_persists s idx
  | regWrite idx v => exact regWrite_persists s idx v
  | bufRead sp addr => exact bufRead_persists s sp addr
  | bufWrite sp addr v => exact bufWrite_persists s sp addr v
  | reset => exact absurd rfl h

/-! ### The step -/

/-- Everything a step can do about what it keeps: the reset input lands in it, or it persists. -/
theorem step_cases {s t : State} (h : step s = .next t) :
    (∃ rest, s.landsNow .reset rest ∧ t = State.resetInput { s with host := rest }) ∨ Persists s t := by
  cases hh : s.host with
  | nil =>
    unfold step at h
    rw [hh] at h
    exact .inr (run_persists h)
  | cons e rest =>
    have hstep : hostStep e rest s = .next t := by unfold step at h; rwa [hh] at h
    by_cases hl : s.phase = .idle ∨ e.after = some 0
    · have hlands : s.landsNow e.act rest := ⟨e, hh, rfl, hl⟩
      rw [step_of_landsNow hlands] at h
      cases h
      by_cases hr : e.act = .reset
      · exact .inl ⟨rest, hr ▸ hlands, by rw [hr]; rfl⟩
      · exact .inr (hostAct_persists _ hr).of_host
    · obtain ⟨hb, ha⟩ := not_or.mp hl
      rw [hostStep, if_pos ((State.busy_iff s).mpr hb)] at hstep
      split at hstep
      · exact .inr (run_persists hstep)
      · contradiction
      · exact .inr (round_persists hstep).of_host

/-- The reset input leaves the invariant (70_reset_and_hazards.md rule R580). -/
theorem State.resetInput_inv {s : State} (h : s.rom.ok = true) : s.resetInput.Inv := by
  refine ⟨Memory.unwritten_wf _, ?_, by simp [StatusAgrees, Regs.reset, State.busy], h⟩
  simp only [Memory.Fresh, State.resetInput_mem, State.resetInput_draws, Memory.unwritten]
  omega

/-- Settles O16: a step lands the reset input, which leaves the invariant, or it persists. -/
theorem stepKeepsInvariant : Obligations.StepKeepsInvariant := by
  intro s t h
  rcases step_cases h with ⟨rest, -, rfl⟩ | hp
  · exact ⟨fun ⟨_, _, _, hrom⟩ => State.resetInput_inv hrom, rfl⟩
  · refine ⟨fun ⟨hwf, hfresh, hagree, hrom⟩ => ⟨hp.wf hwf, hp.fresh hfresh, hp.agrees hagree, ?_⟩, hp.rom⟩
    rw [hp.rom]; exact hrom

/-- Settles O15: where the reset input does not land, a step persists. -/
theorem onlyResetClearsStickyBits : Obligations.OnlyResetClearsStickyBits := by
  intro s t h hno
  rcases step_cases h with ⟨rest, hl, -⟩ | hp
  · exact absurd hl (hno rest)
  · exact ⟨hp.defect, hp.wrbusy⟩

end Sys2Proof.Machine
end


section
/-! A result that is no InternalDefect, and what the stream of a decoder pays for its output: with the default tables' longest
streams the decoders never fill OUT, SEG or FNC (10_state.md rule R70; O21). -/

namespace Sys2Proof.Machine

/-! ### Results without an InternalDefect -/

/-- The result is a value with `P`, or a fault other than InternalDefect. -/
def Affords {α : Type} (P : α → Prop) (r : Except Raise α) : Prop :=
  match r with
  | .ok a => P a
  | .error e => e.exn ≠ .internalDefect

/-- A state, then a continuation. -/
theorem Affords.bind {α : Type} {P : State → Prop} {Q : α → Prop} {r : Except Raise State} {f : State → Except Raise α}
    (h : Affords P r) (k : ∀ t, P t → Affords Q (f t)) :
    Affords Q (match (generalizing := false) r with | .error e => .error e | .ok t => f t) := by
  cases r with
  | ok t => exact k t h
  | error e => exact h

theorem Affords.mono {α : Type} {P Q : α → Prop} {r : Except Raise α} (h : Affords P r) (k : ∀ a, P a → Q a) :
    Affords Q r := by
  cases r with
  | ok a => exact k a h
  | error e => exact h

theorem Affords.ite {α : Type} {P : α → Prop} {c : Prop} [Decidable c] {a b : Except Raise α} (ha : Affords P a)
    (hb : Affords P b) : Affords P (if c then a else b) := by
  split <;> assumption

theorem Affords.formatErr {α : Type} (P : α → Prop) (s : State) : Affords P (.error s.formatErr) := Exn.noConfusion

/-- `readBits`, then a continuation. -/
theorem Affords.readBits {α : Type} {P : α → Prop} (s : State) (n : Nat) {f : Nat → State → Except Raise α}
    (k : n ≤ s.avail → ∀ v, Affords P (f v (s.advance n))) :
    Affords P (match s.readBits n with | .error r => .error r | .ok (v, t) => f v t) := by
  rcases s.readBits_cases n with ⟨hn, h⟩ | ⟨-, h⟩ <;> rw [h]
  · exact k hn _
  · exact .formatErr P s

/-- A fault other than InternalDefect has another code (60_exceptions.md rule R541). -/
theorem Exn.code_ne_seven {x : Exn} (h : x ≠ .internalDefect) : x.code ≠ 7 := by
  cases x <;> first | decide | exact absurd rfl h

theorem State.complete_code (s : State) : s.complete.regs.err.code ≠ 7 := (by decide : (0 : BitVec 8) ≠ 7)

theorem State.illegal_code (s : State) : s.illegal.regs.err.code ≠ 7 := (by decide : (5 : BitVec 8) ≠ 7)

/-- A command whose rule finds no defect does not end in InternalDefect. -/
theorem Affords.finish_code {P : State → Prop} {r : Except Raise State} (h : Affords P r) (s : State) (u : UnitId)
    (ws : List Loc) : (s.finish u ws r).regs.err.code ≠ 7 := by
  cases r with
  | ok t => exact t.complete_code
  | error e => exact Exn.code_ne_seven h

/-! ### What the bits left pay for -/

/-- What the bits of a stream pay for: each bit `rate` eighths of a code unit of OUT; each entry of SEG or FNC costs `cost` bits;
each code unit of the trailers of codewords 236 and 237 is owed `trailer` eighths of a code unit. -/
structure Tariff where
  rate : Nat
  cost : Nat
  trailer : Nat

/-- Data Matrix: codeword 236 or 237, of 8 bits, writes 7 code units and owes 2; an entry of SEG or FNC takes a codeword. -/
def dmTariff : Tariff := ⟨9, 8, 8⟩

/-- QR: three digits take 10 bits; a byte segment has an indicator of 4 bits and a count of 8 or more. -/
def qrTariff : Tariff := ⟨3, 12, 0⟩

/-- The bits left pay for all that can still be written, with `o` eighths of a code unit, `g` bits for SEG and `f` bits for FNC to
spare. -/
structure State.Funded (k : Tariff) (o g f : Nat) (s : State) : Prop where
  out : 8 * s.regs.outLen.toNat + k.trailer * s.work.trl.length + k.rate * s.avail + o ≤ 8 * Config.outSize
  seg : k.cost * s.regs.segCnt.toNat + s.avail + g ≤ k.cost * Config.segSize
  fnc : k.cost * s.regs.fncCnt.toNat + s.avail + f ≤ k.cost * Config.fncSize

theorem State.Funded.mono {k : Tariff} {o g f o' g' f' : Nat} {s : State} (h : s.Funded k o g f) (ho : o' ≤ o) (hg : g' ≤ g)
    (hf : f' ≤ f) : s.Funded k o' g' f' :=
  ⟨by have := h.out; omega, by have := h.seg; omega, by have := h.fnc; omega⟩

/-- Bits read are paid out. -/
theorem State.Funded.advance {k : Tariff} {o g f n : Nat} {s : State} (h : s.Funded k o g f) (hn : n ≤ s.avail) :
    (s.advance n).Funded k (o + k.rate * n) (g + n) (f + n) := by
  obtain ⟨h1, h2, h3⟩ := h
  have hm : k.rate * (s.avail - n) + k.rate * n = k.rate * s.avail := by rw [← Nat.mul_add, Nat.sub_add_cancel hn]
  constructor <;> simp only [State.avail_advance, State.advance_regs, State.advance_work] <;> omega

theorem State.Funded.outLen_le {k : Tariff} {o g f n : Nat} {s : State} (h : s.Funded k (o + 8 * n) g f) :
    s.regs.outLen.toNat + n ≤ Config.outSize := by
  have := h.out
  omega

/-- OUT_LEN behind code units it has room for. -/
theorem State.appended_outLen {s : State} {cs : List Byte} (h : s.regs.outLen.toNat + cs.length ≤ Config.outSize) :
    (s.appended cs).regs.outLen.toNat = s.regs.outLen.toNat + cs.length := by
  simp only [Config.outSize] at h
  simp only [State.appended_regs, BitVec.toNat_add, BitVec.toNat_ofNat]
  omega

theorem State.Funded.appended {k : Tariff} {o g f : Nat} {s : State} {cs : List Byte}
    (h : s.Funded k (o + 8 * cs.length) g f) : (s.appended cs).Funded k o g f := by
  refine ⟨?_, h.seg, h.fnc⟩
  rw [State.appended_outLen h.outLen_le]
  have := h.out
  simp only [State.avail_eq, State.appended_work, State.appended_regs] at this ⊢
  omega

theorem Affords.outAll {P : State → Prop} {k : Tariff} {o g f : Nat} {s : State} {cs : List Byte}
    (h : s.Funded k (o + 8 * cs.length) g f) (hp : (s.appended cs).Funded k o g f → P (s.appended cs)) :
    Affords P (s.outAll cs) := by
  rw [State.outAll_ok cs h.outLen_le]
  exact hp h.appended

theorem Affords.out {P : State → Prop} {k : Tariff} {o g f : Nat} {s : State} {c : Byte} (h : s.Funded k (o + 8) g f)
    (hp : (s.appended [c]).Funded k o g f → P (s.appended [c])) : Affords P (s.out c) := by
  rw [State.out_ok c (State.Funded.outLen_le (n := 1) h)]
  exact hp (State.Funded.appended (cs := [c]) h)

theorem lt_of_mul_add_le {c n m a : Nat} (hc : 0 < c) (h : c * n + a + c ≤ c * m) : n < m :=
  Nat.lt_of_mul_lt_mul_left (a := c) (by omega)

theorem Affords.addSegment {k : Tariff} (hk : 0 < k.cost) {o g f : Nat} {s : State} (off len : Nat)
    (h : s.Funded k o (g + k.cost) f) : Affords (State.Funded k o g f) (s.addSegment off len) := by
  have hs := h.seg
  have hlt : s.regs.segCnt.toNat < Config.segSize := lt_of_mul_add_le (a := s.avail + g) hk (by omega)
  rw [State.addSegment_ok off len hlt]
  refine ⟨h.out, ?_, h.fnc⟩
  have hn : (s.regs.segCnt + 1).toNat = s.regs.segCnt.toNat + 1 := by
    simp only [Config.segSize] at hlt
    bv_omega
  change k.cost * (s.regs.segCnt + 1).toNat + s.avail + g ≤ _
  rw [hn, Nat.mul_add]
  omega

/-- An FNC1 is one entry of FNC and one code unit. -/
theorem Affords.addFnc1 {P : State → Prop} {k : Tariff} (hk : 0 < k.cost) {o g f : Nat} {s : State}
    (h : s.Funded k (o + 8) g (f + k.cost))
    (hp : (s.withFnc1.appended [29]).Funded k o g f → P (s.withFnc1.appended [29])) : Affords P s.addFnc1 := by
  have hs := h.fnc
  have hlt : s.regs.fncCnt.toNat < Config.fncSize := lt_of_mul_add_le (a := s.avail + f) hk (by omega)
  rw [State.addFnc1_ok hlt (State.Funded.outLen_le (n := 1) h)]
  refine hp (State.Funded.appended (cs := [29]) ⟨h.out, h.seg, ?_⟩)
  have hn : (s.regs.fncCnt + 1).toNat = s.regs.fncCnt.toNat + 1 := by
    simp only [Config.fncSize] at hlt
    bv_omega
  change k.cost * (s.regs.fncCnt + 1).toNat + s.avail + f ≤ _
  rw [hn, Nat.mul_add]
  omega

/-! ### DEC.DM -/

/-- Between two elements of a stream: still funded while it goes on, and no InternalDefect where it has ended. -/
def State.Solvent (k : Tariff) (t : State) : Prop :=
  (t.phase = .idle → t.regs.err.code ≠ 7) ∧ (t.phase ≠ .idle → t.Funded k 0 0 0)

theorem State.solvent_complete (k : Tariff) (s : State) : s.complete.Solvent k :=
  ⟨fun _ => s.complete_code, fun h => absurd rfl h⟩

/-- The element's end. -/
theorem Affords.streamEnd {k : Tariff} {r : Except Raise State} (h : Affords (State.Solvent k) r) (s : State)
    (ws : List Loc) : (s.streamEnd ws r).Solvent k := by
  cases r with
  | ok t => exact h
  | error e => exact ⟨fun _ => Exn.code_ne_seven h, fun hp => absurd rfl hp⟩

theorem Affords.dmFinish {s : State} (h : s.Funded dmTariff 0 0 0) : Affords (State.Solvent dmTariff) s.dmFinish := by
  have ho := h.out
  simp only [dmTariff] at ho
  rw [State.dmFinish_ok (by omega)]
  exact State.solvent_complete _ _

theorem Affords.dmNext {s : State} (h : s.Funded dmTariff 0 0 0) : Affords (State.Solvent dmTariff) s.dmNext :=
  .ite (.dmFinish h) ⟨fun hp => Phase.noConfusion hp, fun _ => ⟨h.out, h.seg, h.fnc⟩⟩

theorem Affords.dmNextOf {r : Except Raise State} (h : Affords (State.Funded dmTariff 0 0 0) r) :
    Affords (State.Solvent dmTariff) (dmNextOf r) := .bind h (fun _ ht => .dmNext ht)

theorem Affords.dmLatch {s : State} (seg : DmSeg) (h : s.Funded dmTariff 0 0 0) :
    Affords (State.Solvent dmTariff) (s.dmLatch seg) :=
  .ite (.dmFinish h) ⟨fun hp => Phase.noConfusion hp, fun _ => ⟨h.out, h.seg, h.fnc⟩⟩

theorem Affords.dmMacroBody {s : State} {header : List Nat} (hl : header.length = 7) (h : s.Funded dmTariff 72 8 8) :
    Affords (State.Solvent dmTariff) (dmMacroBody header s) := by
  have hw : State.Funded dmTariff (0 + 8 * (header.map (BitVec.ofNat 8)).length) 0 0
      { s with work.trl := macroTrailer.map (BitVec.ofNat 8) ++ s.work.trl } := by
    refine ⟨?_, (h.mono (Nat.zero_le 72) (Nat.zero_le 8) (Nat.zero_le 8)).seg,
      (h.mono (Nat.zero_le 72) (Nat.zero_le 8) (Nat.zero_le 8)).fnc⟩
    have ho := h.out
    simp only [dmTariff, State.avail_eq, macroTrailer, List.map_cons, List.map_nil, List.length_append, List.length_cons,
      List.length_nil, List.length_map, hl] at ho ⊢
    omega
  exact .dmNextOf (.outAll hw id)

/-- What an ASCII codeword writes is paid by its eight bits. -/
theorem Affords.asciiCodeword {s : State} (b : Byte) (h : s.Funded dmTariff 72 8 8) :
    Affords (State.Solvent dmTariff) (asciiCodeword b s) := by
  have h0 : s.Funded dmTariff 0 0 0 := h.mono (by decide) (by decide) (by decide)
  have hascii : Affords (State.Solvent dmTariff) (dmAsciiBody b s) := by
    have hu : State.Funded dmTariff (0 + 8) 0 0 { s with work.upper := false } :=
      State.Funded.mono (s := { s with work.upper := false }) ⟨h.out, h.seg, h.fnc⟩ (by decide) (by decide) (by decide)
    exact .dmNextOf (.out hu id)
  have hdigits : Affords (State.Solvent dmTariff) (dmDigitsBody b s) :=
    .dmNextOf (.outAll (h.mono (o' := 0 + 8 * 2) (by decide) (Nat.zero_le _) (Nat.zero_le _)) id)
  have hfnc1 : Affords (State.Solvent dmTariff) (dmFnc1Body s) :=
    .dmNextOf (.addFnc1 (by decide) (h.mono (o' := 0 + 8) (by decide) (Nat.zero_le _) (Nat.le_refl _)) id)
  have hupper : Affords (State.Solvent dmTariff) (dmUpshiftBody s) := .dmNext ⟨h0.out, h0.seg, h0.fnc⟩
  have hunlatch : Affords (State.Solvent dmTariff) (dmUnlatchBody s) := .ite (.dmNext h0) (.formatErr _ s)
  exact .ite (.formatErr _ s) <| .ite hascii <| .ite (.dmFinish h0) <| .ite hdigits <| .ite (.dmLatch _ h0) <|
    .ite (.dmLatch _ h0) <| .ite hfnc1 <| .ite (.dmNext h0) <| .ite (.dmNext h0) <| .ite hupper <|
    .ite (.dmMacroBody rfl h) <| .ite (.dmMacroBody rfl h) <| .ite (.dmLatch _ h0) <| .ite (.dmLatch _ h0) <|
    .ite (.dmLatch _ h0) <| .ite (.dmLatch _ h0) <| .ite hunlatch (.formatErr _ s)

/-- Half an entry of FNC is paid for where shift 2 is pending: FNC1 takes two values of a C40 or Text segment. -/
def State.pending (s : State) : Nat := if s.work.shift = 2 then 4 else 0

theorem State.pending_advance (s : State) (n : Nat) : (s.advance n).pending = s.pending := rfl

theorem Affords.put {P : State → Prop} {o g f : Nat} {s : State} (c : Nat) (h : s.Funded dmTariff (o + 8) g f)
    (hp : ∀ t : State, t.work.shift = s.work.shift → t.Funded dmTariff o g f → P t) : Affords P (s.put c) :=
  .out (s := { s with work.upper := false }) ⟨h.out, h.seg, h.fnc⟩ (hp _ rfl)

/-- A value of a C40 or Text segment writes at most one code unit, and half an FNC1. -/
theorem Affords.c40Value {o g f : Nat} {s : State} (text : Bool) (v : Nat)
    (h : s.Funded dmTariff (o + 8) g (f + 4 + s.pending)) :
    Affords (fun t => t.Funded dmTariff o g (f + t.pending)) (c40Value text v s) := by
  have h0 : s.Funded dmTariff (o + 8) g (f + 0) := h.mono (by omega) (by omega) (by omega)
  have hput : ∀ c, Affords (fun t => t.Funded dmTariff o g (f + t.pending)) ((s.setShift 0).put c) := fun c =>
    .put c ⟨h0.out, h0.seg, h0.fnc⟩ (fun t ht hf => by simpa [State.pending, ht] using hf)
  unfold Machine.c40Value
  split
  · rename_i hs
    split
    · have h1 : s.Funded dmTariff o g (f + (s.setShift (v + 1)).pending) := by
        refine h.mono (by omega) (by omega) ?_
        simp only [State.pending]
        split <;> split <;> omega
      exact ⟨h1.out, h1.seg, h1.fnc⟩
    · split
      · exact .put _ h0 (fun t ht hf => by simpa [State.pending, ht, hs] using hf)
      · exact .formatErr _ s
  · exact hput v
  · rename_i hs
    split
    · exact hput _
    · split
      · have h2 : (s.setShift 0).Funded dmTariff (o + 8) g (f + 8) := by
          simp only [State.pending, hs, if_true] at h
          exact ⟨h.out, h.seg, h.fnc⟩
        exact .addFnc1 (by decide) h2 id
      · split
        · have h3 : s.Funded dmTariff o g f := h.mono (by omega) (by omega) (by omega)
          exact ⟨h3.out, h3.seg, h3.fnc⟩
        · exact .formatErr _ s
  · exact .ite (.ite (hput _) (.formatErr _ s)) (hput _)

theorem Affords.c40ValuesIn {o g f : Nat} (text : Bool) (vs : List Nat) : ∀ s : State,
    s.Funded dmTariff (o + 8 * vs.length) g (f + 4 * vs.length + s.pending) →
    Affords (fun t => t.Funded dmTariff o g (f + t.pending)) (c40ValuesIn text vs s) := by
  induction vs with
  | nil => exact fun s h => h
  | cons v rest ih =>
    intro s h
    refine .bind (.c40Value (o := o + 8 * rest.length) (g := g) (f := f + 4 * rest.length) text v ?_) ih
    exact h.mono (by simp only [List.length_cons]; omega) (Nat.le_refl g) (by simp only [List.length_cons]; omega)

theorem Affords.x12ValuesIn {o g f : Nat} (vs : List Nat) : ∀ s : State, s.Funded dmTariff (o + 8 * vs.length) g f →
    Affords (State.Funded dmTariff o g f) (x12ValuesIn vs s) := by
  induction vs with
  | nil => exact fun s h => h
  | cons v rest ih =>
    intro s h
    rw [Machine.x12ValuesIn]
    split
    · exact .formatErr _ s
    · refine .bind (.out (P := State.Funded dmTariff (o + 8 * rest.length) g f) ?_ id) ih
      exact h.mono (by simp only [List.length_cons]; omega) (Nat.le_refl g) (Nat.le_refl f)

theorem unpackTriplet_length {a b : Nat} {vs : List Nat} (h : unpackTriplet a b = some vs) : vs.length = 3 := by
  unfold unpackTriplet at h
  split at h
  · cases h
  · cases h; rfl

/-- The framing of pairs keeps what a pair's sixteen bits pay for. -/
theorem Affords.pairSeg {P : State → Prop} {vals : List Nat → State → Except Raise State}
    (hadv : ∀ (s : State) (n : Nat), P s → n ≤ s.avail → P (s.advance n))
    (hvals : ∀ (vs : List Nat) (s : State), P s → 16 ≤ s.avail → vs.length = 3 → Affords P (vals vs (s.advance 16)))
    (fuel : Nat) : ∀ s : State, P s → Affords P (pairSeg vals fuel s) := by
  induction fuel with
  | zero => exact fun s h => h
  | succ fuel ih =>
    intro s h
    rw [Machine.pairSeg]
    refine .ite h (.readBits s 8 (fun h1 a => .ite (hadv s 8 h h1) (.readBits _ 8 (fun h2 b => ?_))))
    rw [State.avail_advance] at h2
    rw [State.advance_advance]
    split
    · exact .formatErr _ _
    · rename_i vs hvs
      refine .bind (hvals vs s h (by omega) (unpackTriplet_length hvs)) (fun w hw => ?_)
      exact .ite hw (ih w hw)

theorem Affords.c40Seg {s : State} (text : Bool) (h : s.Funded dmTariff 0 0 0) :
    Affords (State.Funded dmTariff 0 0 0) (c40Seg text s) := by
  refine .mono (P := fun t => t.Funded dmTariff 0 0 (0 + t.pending)) (.pairSeg ?_ ?_ _ _ ⟨h.out, h.seg, h.fnc⟩)
    (fun t ht => ht.mono (Nat.zero_le _) (Nat.zero_le _) (Nat.zero_le _))
  · exact fun s n hs hn => (hs.advance hn).mono (Nat.zero_le _) (Nat.zero_le _) (Nat.le_add_right _ n)
  · intro vs s hs hn hl
    refine .c40ValuesIn text vs _ ((hs.advance hn).mono ?_ (Nat.zero_le _) ?_)
    · simp only [hl, dmTariff]; omega
    · rw [State.pending_advance]; omega

theorem Affords.x12Seg {s : State} (h : s.Funded dmTariff 0 0 0) : Affords (State.Funded dmTariff 0 0 0) (x12Seg s) := by
  refine .pairSeg ?_ ?_ _ s h
  · exact fun s n hs hn => (hs.advance hn).mono (Nat.zero_le _) (Nat.zero_le _) (Nat.zero_le _)
  · intro vs s hs hn hl
    refine .x12ValuesIn vs _ ((hs.advance hn).mono ?_ (Nat.zero_le _) (Nat.zero_le _))
    simp only [hl, dmTariff]; omega

/-- Eight bits pay for a code unit, and six do. -/
theorem State.Funded.readUnit {g f n : Nat} {s : State} (h : s.Funded dmTariff 0 g f) (h6 : 6 ≤ n) (hn : n ≤ s.avail) :
    (s.advance n).Funded dmTariff (0 + 8) g f :=
  (h.advance hn).mono (by simp only [dmTariff]; omega) (Nat.le_add_right _ _) (Nat.le_add_right _ _)

theorem State.Funded.skip {k : Tariff} {g f n : Nat} {s : State} (h : s.Funded k 0 g f) (hn : n ≤ s.avail) :
    (s.advance n).Funded k 0 g f :=
  (h.advance hn).mono (Nat.zero_le _) (Nat.le_add_right _ _) (Nat.le_add_right _ _)

theorem Affords.edfGroup (n : Nat) : ∀ s : State, s.Funded dmTariff 0 0 0 →
    Affords (fun p => p.1.Funded dmTariff 0 0 0) (edfGroup n s) := by
  induction n with
  | zero => exact fun s h => h
  | succ n ih =>
    intro s h
    rw [Machine.edfGroup]
    refine .readBits s 6 (fun h6 v => .ite (.ite (h.skip h6) (.readBits _ _ (fun hr _ => ?_))) ?_)
    · exact (h.skip h6).skip hr
    · exact .bind (.out (P := State.Funded dmTariff 0 0 0) (h.readUnit (Nat.le_refl 6) h6) id) ih

theorem Affords.edfGroups (fuel : Nat) : ∀ s : State, s.Funded dmTariff 0 0 0 →
    Affords (State.Funded dmTariff 0 0 0) (edfGroups fuel s) := by
  induction fuel with
  | zero => exact fun s h => h
  | succ fuel ih =>
    intro s h
    rw [Machine.edfGroups]
    refine .ite h ?_
    have hg := Affords.edfGroup 4 s h
    revert hg
    rcases Machine.edfGroup 4 s with e | ⟨t, _ | _⟩
    · exact id
    · exact fun ht => .ite ht (ih t ht)
    · exact id

theorem Affords.b256Bytes {g : Nat} (n : Nat) : ∀ (p : Nat) (s : State), s.Funded dmTariff 0 g 0 →
    Affords (State.Funded dmTariff 0 g 0) (b256Bytes n p s) := by
  induction n with
  | zero => exact fun _ s h => h
  | succ n ih =>
    intro p s h
    rw [Machine.b256Bytes]
    exact .readBits s 8 (fun h8 _ => .bind (.out (P := State.Funded dmTariff 0 g 0) (h.readUnit (by decide) h8) id) (ih _))

theorem Affords.b256Payload {s : State} (count p : Nat) (h : s.Funded dmTariff 0 8 0) :
    Affords (State.Funded dmTariff 0 0 0) (b256Payload count p s) :=
  .bind (.b256Bytes count p s h) (fun _ ht => .addSegment (by decide) _ _ ht)

theorem Affords.b256Seg {s : State} (h : s.Funded dmTariff 0 0 0) : Affords (State.Funded dmTariff 0 0 0) (b256Seg s) := by
  rw [Machine.b256Seg]
  refine .readBits s 8 (fun h8 r => ?_)
  have h1 : (s.advance 8).Funded dmTariff 0 8 0 := (h.advance h8).mono (Nat.zero_le _) (by decide) (Nat.zero_le _)
  exact .ite (.b256Payload _ _ h1) (.ite (.b256Payload _ _ h1) (.readBits _ 8 (fun h16 _ => .b256Payload _ _ (h1.skip h16))))

theorem Affords.dmSegment {s : State} (seg : DmSeg) (h : s.Funded dmTariff 0 0 0) :
    Affords (State.Funded dmTariff 0 0 0) (dmSegment seg s) := by
  cases seg with
  | ascii => exact h
  | c40 => exact .c40Seg false h
  | text => exact .c40Seg true h
  | x12 => exact .x12Seg h
  | edifact => exact .edfGroups _ s h
  | base256 => exact .b256Seg h
  | eci => exact .readBits s 8 (fun h8 _ => ⟨(h.skip h8).out, (h.skip h8).seg, (h.skip h8).fnc⟩)

theorem Affords.dmSegmentThen {s : State} (seg : DmSeg) (h : s.Funded dmTariff 0 0 0) :
    Affords (State.Solvent dmTariff) (dmSegmentThen seg s) :=
  .bind (f := fun t => State.dmNext { t with work.upper := false }) (.dmSegment seg h)
    (fun _ ht => .dmNext ⟨ht.out, ht.seg, ht.fnc⟩)

theorem State.dmRound_solvent {s : State} (h : s.Solvent dmTariff) : s.dmRound.Solvent dmTariff := by
  unfold State.dmRound
  split
  · rename_i hp
    have hf := h.2 (by simp [hp])
    rcases s.readBits_cases 8 with ⟨h8, hr⟩ | ⟨-, hr⟩ <;> rw [hr]
    · exact Affords.streamEnd (.asciiCodeword _ (hf.advance h8)) _ _
    · exact Affords.streamEnd (.formatErr _ s) s _
  · rename_i seg _ hp
    have hf := h.2 (by simp [hp])
    exact Affords.streamEnd (.dmSegmentThen _ hf) s _
  all_goals exact h

theorem dmLoop_solvent (fuel : Nat) : ∀ s : State, s.Solvent dmTariff → (dmLoop fuel s).Solvent dmTariff := by
  induction fuel with
  | zero => exact fun s h => h
  | succ fuel ih =>
    intro s h
    rw [dmLoop]
    split
    · exact ih _ (State.dmRound_solvent h)
    all_goals exact h

/-- DEC.DM on a stream no longer than the largest symbol's data never fills a buffer (10_state.md rule R70). -/
theorem execDecDm_noDefect {s t : State} (hl : s.regs.cwLen.toNat ≤ 1558) (h : execDecDm s = .next t) (hp : t.phase = .idle) :
    t.regs.err.code ≠ 7 := by
  unfold execDecDm at h
  split at h <;> cases h
  · have hf : s.dmBegin.Funded dmTariff 0 0 0 := by
      constructor <;> simp [dmTariff, State.avail_eq, Config.outSize, Config.segSize, Config.fncSize] <;> omega
    exact (dmLoop_solvent _ s.dmBegin ⟨fun h => Phase.noConfusion h, fun _ => hf⟩).1 hp
  · exact s.illegal_code

/-! ### DEC.QR -/

/-- As `Funded`, with no FNC entry due, for a segment that began with OUT_LEN = `lo`. -/
def State.QrFunded (lo g : Nat) (s : State) : Prop := s.Funded qrTariff 0 g 0 ∧ lo ≤ s.regs.outLen.toNat

theorem State.QrFunded.skip {lo g n : Nat} {s : State} (h : s.QrFunded lo g) (hn : n ≤ s.avail) :
    (s.advance n).QrFunded lo g := ⟨h.1.skip hn, h.2⟩

/-- Code units whose bits have been read: three eighths of one for each bit. -/
theorem Affords.qrOutAll {lo g n : Nat} {s : State} {cs : List Byte} (h : s.QrFunded lo g) (hn : n ≤ s.avail)
    (hc : 8 * cs.length ≤ 3 * n) : Affords (State.QrFunded lo g) ((s.advance n).outAll cs) := by
  have hf : (s.advance n).Funded qrTariff (0 + 8 * cs.length) g 0 :=
    (h.1.advance hn).mono (by simp only [qrTariff]; omega) (Nat.le_add_right _ _) (Nat.zero_le _)
  refine .outAll hf (fun ht => ⟨ht, ?_⟩)
  rw [State.appended_outLen hf.outLen_le]
  exact h.2.trans (Nat.le_add_right _ _)

theorem Affords.numGroup {lo g bits limit : Nat} {digits : Nat → List Nat} (hd : ∀ v, 8 * (digits v).length ≤ 3 * bits)
    {s : State} (h : s.QrFunded lo g) : Affords (State.QrFunded lo g) (numGroup bits limit digits s) :=
  .readBits s bits (fun hn v => .ite (.formatErr _ _) (.qrOutAll h hn (by rw [List.length_map]; exact hd v)))

theorem Affords.numSeg {lo g : Nat} : ∀ (n : Nat) (s : State), s.QrFunded lo g → Affords (State.QrFunded lo g) (numSeg n s)
  | 0, _, h => h
  | 1, _, h => .numGroup (fun _ => by simp) h
  | 2, _, h => .numGroup (fun _ => by simp) h
  | n + 3, _, h => .bind (.numGroup (fun _ => by simp) h) (fun t ht => Affords.numSeg n t ht)

theorem Affords.alnumChars {lo g : Nat} : ∀ (n : Nat) (s : State), s.QrFunded lo g →
    Affords (State.QrFunded lo g) (alnumChars n s)
  | 0, _, h => h
  | 1, _, h => .numGroup (fun _ => by simp) h
  | n + 2, _, h => .bind (.numGroup (fun _ => by simp) h) (fun t ht => Affords.alnumChars n t ht)

/-- The escape never lengthens (45_bsp_qr.md rule R439). -/
theorem fncEscape_length_le : ∀ cs : List Byte, (fncEscape cs).length ≤ cs.length
  | [] => Nat.le_refl 0
  | [c] => by rw [fncEscape]; split <;> simp
  | c :: d :: rest => by
    have h1 := fncEscape_length_le rest
    have h2 := fncEscape_length_le (d :: rest)
    rw [fncEscape]
    split
    · split <;> simp only [List.length_cons] at * <;> omega
    · simp only [List.length_cons] at *; omega

/-- The escape of what a segment wrote takes the room it gives back. -/
theorem Affords.escapeFrom {lo g : Nat} {s : State} (h : s.QrFunded lo g) :
    Affords (State.Funded qrTariff 0 g 0) (s.escapeFrom lo) := by
  obtain ⟨hf, hlo⟩ := h
  have hlen : (fncEscape (s.outFrom lo)).length ≤ s.regs.outLen.toNat - lo :=
    (fncEscape_length_le _).trans (by simp [State.outFrom])
  have hset : (BitVec.ofNat 16 lo).toNat = lo := by
    have := s.regs.outLen.isLt
    rw [BitVec.toNat_ofNat]; omega
  have hb : State.Funded qrTariff (0 + 8 * (fncEscape (s.outFrom lo)).length) g 0
      { s with regs.outLen := BitVec.ofNat 16 lo } := by
    refine ⟨?_, hf.seg, hf.fnc⟩
    have ho := hf.out
    simp only [State.avail_eq, hset] at ho ⊢
    omega
  refine .bind (P := State.Funded qrTariff 0 g 0) (f := fun t =>
    .ok { t with mem.out := t.mem.out.forget t.regs.outLen.toNat s.regs.outLen.toNat }) (.outAll hb id) (fun t ht => ?_)
  exact ⟨ht.out, ht.seg, ht.fnc⟩

theorem Affords.alnumSeg {g : Nat} (n : Nat) {s : State} (h : s.Funded qrTariff 0 g 0) :
    Affords (State.Funded qrTariff 0 g 0) (alnumSeg n s) :=
  .bind (f := fun t => if t.work.fnc1 = 0 then .ok t else t.escapeFrom s.regs.outLen.toNat)
    (.alnumChars (lo := s.regs.outLen.toNat) n s ⟨h, Nat.le_refl _⟩) (fun _ ht => .ite ht.1 (.escapeFrom ht))

theorem Affords.byteChars {g : Nat} (n : Nat) : ∀ s : State, s.QrFunded 0 g →
    Affords (State.QrFunded 0 g) (byteChars n s) := by
  induction n with
  | zero => exact fun s h => h
  | succ n ih =>
    intro s h
    rw [Machine.byteChars]
    refine .readBits s 8 (fun h8 v => .bind (P := State.QrFunded 0 g) ?_ ih)
    have ho := Affords.qrOutAll (cs := [BitVec.ofNat 8 v]) h h8 (by simp)
    rw [State.outAll] at ho
    revert ho
    cases State.out (s.advance 8) (BitVec.ofNat 8 v) <;> exact id

/-- A byte segment's entry in SEG is paid by its indicator and its count. -/
theorem Affords.byteSeg (n : Nat) {s : State} (h : s.Funded qrTariff 0 12 0) :
    Affords (State.Funded qrTariff 0 0 0) (byteSeg n s) :=
  .ite (.formatErr _ s) (.bind (.byteChars n s ⟨h, Nat.zero_le _⟩) (fun _ ht => .addSegment (by decide) _ _ ht.1))

theorem Affords.doubleByteSeg {g : Nat} (code : Nat → Nat) (n : Nat) {s : State} (h : s.Funded qrTariff 0 g 0) :
    Affords (State.Funded qrTariff 0 g 0) (doubleByteSeg code n s) := by
  have hall : ∀ (n : Nat) (s : State), s.QrFunded 0 g → Affords (State.QrFunded 0 g) (doubleBytes code n s) := by
    intro n
    induction n with
    | zero => exact fun s h => h
    | succ n ih =>
      intro s h
      rw [Machine.doubleBytes]
      exact .readBits s 13 (fun hn v => .bind (.qrOutAll h hn (by simp)) ih)
  exact .ite (.formatErr _ s) ((hall n s ⟨h, Nat.zero_le _⟩).mono (fun _ ht => ht.1))

theorem le_ccBits (m v : Nat) : 8 ≤ ccBits m v := by
  unfold ccBits
  dsimp only
  split <;> split <;> first | decide | (split <;> decide)

/-- A count of 8 bits or more is read, then the segment's characters. -/
theorem Affords.counted {s : State} (m : Nat) {body : Nat → State → Except Raise State} {g : Nat}
    (h : s.Funded qrTariff 0 g 0)
    (hb : ∀ n (t : State), t.Funded qrTariff 0 (g + 8) 0 → Affords (State.Funded qrTariff 0 0 0) (body n t)) :
    Affords (State.Funded qrTariff 0 0 0) (s.counted m body) :=
  .readBits s _ (fun hn n => hb n _ ((h.advance hn).mono (Nat.zero_le _) (Nat.add_le_add_left (le_ccBits _ _) g)
    (Nat.zero_le _)))

theorem Affords.hanziSeg {s : State} (h : s.Funded qrTariff 0 0 0) : Affords (State.Funded qrTariff 0 0 0) (hanziSeg s) :=
  .readBits s 4 (fun h4 _ => .counted 13 (h.skip h4) (fun n _ ht =>
    .ite ((Affords.doubleByteSeg _ n ht).mono (fun _ hu => hu.mono (Nat.le_refl 0) (Nat.zero_le _) (Nat.le_refl 0)))
      (.formatErr _ _)))

theorem Affords.qrSaBody {s : State} (h : s.Funded qrTariff 0 0 0) : Affords (State.Funded qrTariff 0 0 0) (qrSaBody s) := by
  unfold Machine.qrSaBody
  split
  · exact .formatErr _ s
  · have hs := h.skip (n := 16) (by omega)
    exact ⟨hs.out, hs.seg, hs.fnc⟩

theorem State.Funded.setEci {k : Tariff} {o g f : Nat} {s : State} (v : Nat) (h : s.Funded k o g f) :
    (s.setEci v).Funded k o g f := ⟨h.out, h.seg, h.fnc⟩

theorem Affords.qrEciBody {s : State} (h : s.Funded qrTariff 0 0 0) :
    Affords (State.Funded qrTariff 0 0 0) (qrEciBody s) :=
  .readBits s 8 (fun h1 _ => .ite ((h.skip h1).setEci _) <|
    .ite (.readBits _ 8 (fun h2 _ => ((h.skip h1).skip h2).setEci _)) <|
    .ite (.readBits _ 16 (fun h2 _ => ((h.skip h1).skip h2).setEci _)) (.formatErr _ _))

theorem Affords.qrNext {s : State} (h : s.Funded qrTariff 0 0 0) : Affords (State.Solvent qrTariff) (.ok s.qrNext) :=
  ⟨fun hp => Phase.noConfusion hp, fun _ => ⟨h.out, h.seg, h.fnc⟩⟩

theorem Affords.qrNextOf {r : Except Raise State} (h : Affords (State.Funded qrTariff 0 0 0) r) :
    Affords (State.Solvent qrTariff) (qrNextOf r) := .bind h (fun _ ht => .qrNext ht)

/-- What a segment writes is paid by its bits, those of its indicator `m` among them; the terminator needs none. -/
theorem Affords.qrIndicator {s : State} (m : Nat) (h : m ≠ 0 → s.Funded qrTariff 0 4 0) :
    Affords (State.Solvent qrTariff) (qrIndicator m s) := by
  by_cases hm : m = 0
  · subst hm; exact State.solvent_complete _ _
  · have h4 := h hm
    have h0 : s.Funded qrTariff 0 0 0 := h4.mono (Nat.le_refl 0) (Nat.zero_le 4) (Nat.le_refl 0)
    have drop : ∀ {r : Except Raise State}, Affords (State.Funded qrTariff 0 12 0) r → Affords (State.Funded qrTariff 0 0 0) r :=
      fun hr => hr.mono (fun _ hu => hu.mono (Nat.le_refl 0) (Nat.zero_le 12) (Nat.le_refl 0))
    unfold Machine.qrIndicator
    split
    · exact State.solvent_complete _ _
    · exact .qrNext ⟨h0.out, h0.seg, h0.fnc⟩
    · exact .qrNext ⟨h0.out, h0.seg, h0.fnc⟩
    · exact .qrNextOf (.qrSaBody h0)
    · exact .qrNextOf (.qrEciBody h0)
    · exact .qrNextOf (.hanziSeg h0)
    · exact .qrNextOf (.counted 1 h4 (fun n t ht => drop ((Affords.numSeg (lo := 0) n t ⟨ht, Nat.zero_le _⟩).mono
        (fun _ hu => hu.1))))
    · exact .qrNextOf (.counted 2 h4 (fun n t ht => drop (.alnumSeg n ht)))
    · exact .qrNextOf (.counted 4 h4 (fun n t ht => .byteSeg n ht))
    · exact .qrNextOf (.counted 8 h4 (fun n t ht => drop (.doubleByteSeg kanjiCode n ht)))
    · exact .formatErr _ s

theorem State.qrRound_solvent {s : State} (h : s.Funded qrTariff 0 0 0) : s.qrRound.Solvent qrTariff := by
  refine Affords.streamEnd (.qrIndicator _ ?_) _ _
  unfold State.nextIndicator
  split
  · exact fun hm => absurd rfl hm
  · exact fun _ => (h.advance (by omega)).mono (Nat.zero_le _) (by decide) (Nat.zero_le _)

theorem qrLoop_solvent (fuel : Nat) : ∀ s : State, s.Solvent qrTariff → (qrLoop fuel s).Solvent qrTariff := by
  induction fuel with
  | zero => exact fun s h => h
  | succ fuel ih =>
    intro s h
    rw [qrLoop]
    split
    · rename_i hp; exact ih _ (State.qrRound_solvent (h.2 (by simp [hp])))
    all_goals exact h

/-- DEC.QR on a stream no longer than the largest symbol's data never fills a buffer (10_state.md rule R70). -/
theorem execDecQr_noDefect {s t : State} (hl : s.regs.cwLen.toNat ≤ 2956) (h : execDecQr s = .next t) (hp : t.phase = .idle) :
    t.regs.err.code ≠ 7 := by
  unfold execDecQr at h
  split at h <;> cases h
  · have hf : s.qrBegin.Funded qrTariff 0 0 0 := by
      constructor <;> simp [qrTariff, State.avail_eq, Config.outSize, Config.segSize, Config.fncSize] <;> omega
    exact (qrLoop_solvent _ s.qrBegin ⟨fun h => Phase.noConfusion h, fun _ => hf⟩).1 hp
  · exact s.illegal_code

end Sys2Proof.Machine
end


section
/-! The encoders find no defect in tables that keep rule R107: ENC.DM with the default tables, whose longest text never fills VB,
and ENC.QR with any tables that keep it (10_state.md rule R70, 60_exceptions.md rule R547; O21). -/

namespace Sys2Proof.Machine

/-- A fault of a result that is no InternalDefect. -/
theorem Affords.of_error {α β : Type} {P : α → Prop} {Q : β → Prop} {r : Except Raise α} {e : Raise} (h : Affords P r)
    (he : r = .error e) : Affords Q (.error e) := by
  subst he; exact h

theorem Affords.of_ok {α : Type} {P : α → Prop} {r : Except Raise α} {a : α} (h : Affords P r) (ha : r = .ok a) : P a := by
  subst ha; exact h

/-- The result is no InternalDefect. -/
abbrev NoDefect {α : Type} (r : Except Raise α) : Prop := Affords (fun _ => True) r

/-! ### ENC.DM with the default tables -/

theorem capQuery_noDefect {i : EncIn} (hr : i.rom = romDefault) (e : Enc) (n : Nat) : NoDefect (capQuery i e n) := by
  rw [capQuery_default hr]
  split
  · exact trivial
  · exact Exn.noConfusion

theorem capFor_noDefect {i : EncIn} (hr : i.rom = romDefault) (e : Enc) (n : Nat) : NoDefect (capFor i e n) := by
  unfold capFor
  split
  · exact trivial
  · exact (capQuery_noDefect hr e n).of_error ‹_›

theorem c40Avail_noDefect {i : EncIn} (hr : i.rom = romDefault) (e : Enc) : NoDefect (c40Avail i e) := by
  unfold c40Avail
  dsimp only
  split
  · exact trivial
  · exact (capFor_noDefect hr _ _).of_error ‹_›

theorem c40BackTwo_noDefect {i : EncIn} (hr : i.rom = romDefault) (e : Enc) : NoDefect (c40BackTwo i e) := by
  unfold c40BackTwo
  split
  · split
    · exact (c40Avail_noDefect hr e).of_error ‹_›
    · exact trivial
  · exact trivial

theorem c40BackOne_noDefect {i : EncIn} (hr : i.rom = romDefault) (fuel : Nat) : ∀ e, NoDefect (c40BackOne i fuel e) := by
  induction fuel with
  | zero => exact fun _ => trivial
  | succ fuel ih =>
    intro e
    rw [c40BackOne]
    refine .ite (.ite (ih _) ?_) trivial
    split
    · exact (c40Avail_noDefect hr e).of_error ‹_›
    · exact .ite (ih _) trivial

/-- The values of an extended character are those of the character 128 below it behind an upper shift of two values. -/
theorem upperShifted_length_le {f : Nat → List Nat} (h : ∀ c, (f c).length ≤ 2) (c : Nat) :
    (if 128 ≤ c then [1, 30] ++ f (c - 128) else f c).length ≤ 4 := by
  split
  · exact Nat.add_le_add_right (h _) 2
  · exact (h c).trans (by decide)

theorem c40Low_length_le (c : Nat) : (c40Low c).length ≤ 2 := by
  unfold c40Low
  repeat' split
  all_goals simp

theorem textLow_length_le (c : Nat) : (textLow c).length ≤ 2 := by
  unfold textLow
  repeat' split
  all_goals simp

/-- A character has at most four values in C40 and Text (30_encoding.md rule R133, rule R134). -/
theorem c40TextValues_length_le (m : Mode) (c : Nat) : (c40TextValues m c).length ≤ 4 := by
  unfold c40TextValues
  split
  · exact upperShifted_length_le textLow_length_le c
  · exact upperShifted_length_le c40Low_length_le c

/-- Four values for each character left fit VB, so none is written past its end. -/
theorem c40Loop_noDefect {i : EncIn} (hr : i.rom = romDefault) (m : Mode) (chars : List Nat) : ∀ e : Enc,
    e.vb.length + 4 * chars.length ≤ Config.vbSize → NoDefect (c40Loop i m e chars) := by
  induction chars with
  | nil => exact fun _ _ => trivial
  | cons c rest ih =>
    intro e h
    have hv := c40TextValues_length_le m c
    simp only [List.length_cons] at h
    have hvb : (e.vb ++ c40TextValues m c).length + 4 * rest.length ≤ Config.vbSize := by
      rw [List.length_append]; omega
    rw [c40Loop]
    dsimp only
    rw [if_neg (by omega)]
    refine .ite ?_ (.ite (.ite trivial (ih _ hvb)) (ih _ hvb))
    split
    · exact (c40BackTwo_noDefect hr _).of_error ‹_›
    · exact c40BackOne_noDefect hr _ _

theorem c40End_noDefect {i : EncIn} (hr : i.rom = romDefault) (e : Enc) : NoDefect (c40End i e) := by
  unfold c40End
  split
  · exact (c40Avail_noDefect hr e).of_error ‹_›
  · exact .ite trivial (.ite trivial trivial)

theorem encRest_length_le (i : EncIn) (e : Enc) : (encRest i e).length ≤ i.txt.length := by
  simp only [encRest, List.length_take, List.length_drop]; omega

theorem c40Run_noDefect {i : EncIn} (hr : i.rom = romDefault) (ht : i.txt.length ≤ Config.txtSize) (m : Mode) (e : Enc) :
    NoDefect (c40Run i m e) := by
  unfold c40Run
  split
  · refine (c40Loop_noDefect hr m _ _ ?_).of_error ‹_›
    have := encRest_length_le i e
    simp only [List.length_nil, Config.txtSize, Config.vbSize] at *
    omega
  · exact c40End_noDefect hr _

theorem illegalCharErr_noDefect {α : Type} {i : EncIn} (hr : i.rom = romDefault) (e : Enc) (n : Nat) :
    NoDefect (.error (encFault i e (illegalCharErr n)) : Except Raise α) := by
  rw [encFault_default hr]
  exact Exn.noConfusion

theorem x12Loop_noDefect {i : EncIn} (hr : i.rom = romDefault) (chars : List Nat) : ∀ e, NoDefect (x12Loop i e chars) := by
  induction chars with
  | nil => exact fun _ => trivial
  | cons c rest ih =>
    intro e
    rw [x12Loop]
    split
    · exact illegalCharErr_noDefect hr e _
    · exact .ite (.ite trivial (ih _)) (ih _)

theorem x12Run_noDefect {i : EncIn} (hr : i.rom = romDefault) (e : Enc) : NoDefect (x12Run i e) := by
  unfold x12Run
  split
  · exact (x12Loop_noDefect hr _ _).of_error ‹_›
  · unfold x12End
    split
    · exact (capFor_noDefect hr _ _).of_error ‹_›
    · exact trivial

theorem edfLoop_noDefect {i : EncIn} (hr : i.rom = romDefault) (chars : List Nat) : ∀ e, NoDefect (edfLoop i e chars) := by
  induction chars with
  | nil => exact fun _ => trivial
  | cons c rest ih =>
    intro e
    rw [edfLoop]
    split
    · exact illegalCharErr_noDefect hr e _
    · exact .ite (.ite trivial (ih _)) (ih _)

theorem edfEndsBySymbol_noDefect {i : EncIn} (hr : i.rom = romDefault) (e : Enc) : NoDefect (edfEndsBySymbol i e) := by
  unfold edfEndsBySymbol
  dsimp only
  split
  · exact (capFor_noDefect hr _ _).of_error ‹_›
  · refine .ite ?_ trivial
    split
    · exact (capFor_noDefect hr _ _).of_error ‹_›
    · exact trivial

theorem edfEndGroup_noDefect {i : EncIn} (hr : i.rom = romDefault) (e : Enc) : NoDefect (edfEndGroup i e) := by
  unfold edfEndGroup
  dsimp only
  refine .ite ?_ trivial
  split
  · exact (capFor_noDefect hr _ _).of_error ‹_›
  · exact .ite trivial trivial

theorem edfRun_noDefect {i : EncIn} (hr : i.rom = romDefault) (e : Enc) : NoDefect (edfRun i e) := by
  unfold edfRun
  split
  · exact (edfLoop_noDefect hr _ _).of_error ‹_›
  · unfold edfEnd
    refine .ite ?_ (edfEndGroup_noDefect hr _)
    split
    · exact (edfEndsBySymbol_noDefect hr _).of_error ‹_›
    · exact trivial
    · exact edfEndGroup_noDefect hr _

theorem b256Loop_vb_length_le (i : EncIn) (chars : List Nat) : ∀ e : Enc,
    (b256Loop i e chars).vb.length ≤ e.vb.length + chars.length := by
  induction chars with
  | nil => exact fun e => Nat.le_refl _
  | cons c rest ih =>
    intro e
    have hvb : (e.vb ++ [c]).length = e.vb.length + 1 := List.length_append
    rw [b256Loop, List.length_cons]
    dsimp only
    split
    · simp only [Enc.looked, hvb]; omega
    · refine (ih _).trans ?_
      simp only [Enc.looked, hvb]; omega

theorem b256End_noDefect {i : EncIn} (hr : i.rom = romDefault) (e : Enc) : NoDefect (b256End i e) := by
  unfold b256End
  dsimp only
  split
  · exact (capFor_noDefect hr _ _).of_error ‹_›
  · refine .ite ?_ trivial
    split
    · exact Exn.noConfusion
    · exact trivial

theorem b256Run_noDefect {i : EncIn} (hr : i.rom = romDefault) (ht : i.txt.length ≤ Config.txtSize) (e : Enc) :
    NoDefect (b256Run i e) := by
  have h := (b256Loop_vb_length_le i (encRest i e) { e with vb := [0], sz := [] }).trans
    (Nat.add_le_add_left ((encRest_length_le i e).trans ht) _)
  unfold b256Run
  dsimp only
  rw [if_neg (Nat.not_le_of_lt (h.trans_lt (by simp [Config.txtSize, Config.vbSize])))]
  exact b256End_noDefect hr _

theorem encRound_noDefect {i : EncIn} (hr : i.rom = romDefault) (ht : i.txt.length ≤ Config.txtSize) (e : Enc) :
    NoDefect (encRound i e) := by
  have hd : NoDefect (encDispatch i e) := by
    unfold encDispatch
    split
    · exact trivial
    · exact c40Run_noDefect hr ht _ e
    · exact c40Run_noDefect hr ht _ e
    · exact x12Run_noDefect hr e
    · exact edfRun_noDefect hr e
    · exact b256Run_noDefect hr ht e
  unfold encRound
  split
  · exact hd.of_error ‹_›
  · rw [encOverflow_default hr]; exact trivial

theorem encLoop_noDefect {i : EncIn} (hr : i.rom = romDefault) (ht : i.txt.length ≤ Config.txtSize) (fuel : Nat) :
    ∀ e, NoDefect (encLoop i fuel e) := by
  induction fuel with
  | zero => exact fun _ => trivial
  | succ fuel ih =>
    intro e
    rw [encLoop]
    refine .ite ?_ trivial
    split
    · exact (encRound_noDefect hr ht e).of_error ‹_›
    · exact ih _

theorem encTerminate_noDefect {i : EncIn} (hr : i.rom = romDefault) (e : Enc) : NoDefect (encTerminate i e) := by
  unfold encTerminate
  split
  · exact (capQuery_noDefect hr e _).of_error ‹_›
  · rename_i idx row hq
    rw [capQuery_default hr] at hq
    split at hq
    · rename_i p hp
      cases hq
      rw [symFits_default hp]
      exact trivial
    · cases hq

theorem State.encAdvance_noDefect {s : State} (hr : s.rom = romDefault) (ht : s.regs.txtLen.toNat ≤ Config.txtSize)
    (fuel : Nat) (hp : (s.encAdvance fuel).phase = .idle) : (s.encAdvance fuel).regs.err.code ≠ 7 := by
  have hlen : s.encIn.txt.length ≤ Config.txtSize := by simpa [State.encIn, State.text, Buf.take] using ht
  unfold State.encAdvance at hp ⊢
  split at hp
  · rename_i r hl
    exact Exn.code_ne_seven ((encLoop_noDefect (i := s.encIn) hr hlen fuel s.enc).of_error (Q := fun _ : Unit => True) hl)
  · cases hp
  · split
    · rename_i r hl
      exact Exn.code_ne_seven ((encTerminate_noDefect (i := s.encIn) hr _).of_error (Q := fun _ : Unit => True) hl)
    · exact State.complete_code _

/-- ENC.DM with the default tables finds no defect and fills no buffer. -/
theorem execEncDm_noDefect {s t : State} (hr : s.rom = romDefault) (h : execEncDm s = .next t) (hp : t.phase = .idle) :
    t.regs.err.code ≠ 7 := by
  unfold execEncDm at h
  split at h <;> cases h
  · rename_i hl
    exact State.encAdvance_noDefect (s := s.encBegin) hr ((encDmLegal_iff _).mp hl).2 _ hp
  · exact s.illegal_code

/-! ### ENC.QR with tables that keep rule R107 -/

/-- Every version of tables that keep rule R107 keeps it. -/
theorem Rom.ok_qrRowOk {rom : Rom} (h : rom.ok = true) {v : Nat} (hv : v ∈ versions) : qrRowOk rom v = true := by
  rw [Rom.ok, Bool.and_eq_true] at h
  exact List.all_eq_true.mp h.2 v hv

theorem qrPickBroken_of_ok {rom : Rom} (h : rom.ok = true) (nbits e : Nat) : qrPickBroken rom nbits e = false :=
  scanBroken_of_forall (fun _ hv => Rom.ok_qrRowOk h hv)

theorem qrPickFrom_bounds {rom : Rom} {bytes e u : Nat} (n : Nat) : ∀ v, qrPickFrom rom bytes e v n = some u →
    v ≤ u ∧ u < v + n := by
  induction n with
  | zero => intro v h; cases h
  | succ n ih =>
    intro v h
    rw [qrPickFrom] at h
    split at h
    · cases h; omega
    · have := ih _ h; omega

/-- The version query gives a version (20_memory.md rule R109). -/
theorem qrPick_verLegal {rom : Rom} {nbits e v : Nat} (h : qrPick rom nbits e = some v) : verLegal v = true := by
  have := qrPickFrom_bounds 40 1 h
  rw [verLegal_iff]; omega

theorem qrQuery_ok {rom : Rom} (h : rom.ok = true) (nbits e : Nat) :
    Affords (fun v => verLegal v = true) (qrQuery rom nbits e) := by
  unfold qrQuery
  rw [qrPickBroken_of_ok h, if_neg Bool.false_ne_true]
  split
  · exact Exn.noConfusion
  · exact qrPick_verLegal ‹_›

theorem qrAssemble_ok {rom : Rom} (hr : rom.ok = true) (m : QrMode) (e cnt : Nat) (h d : List Bool) :
    Affords (fun p => verLegal p.1 = true) (qrAssemble rom m e cnt h d) := by
  unfold qrAssemble
  dsimp only
  split
  · exact (qrQuery_ok hr _ e).of_error ‹_›
  · split
    · exact (qrQuery_ok hr _ e).of_error ‹_›
    · exact .ite Exn.noConfusion (.ite Exn.noConfusion ((qrQuery_ok hr _ e).of_ok ‹_›))

theorem kanjiBits_noDefect : ∀ (idx : Nat) (txt : List Nat), NoDefect (kanjiBits idx txt)
  | _, [] => trivial
  | _, [_] => trivial
  | idx, hi :: lo :: rest => by
    rw [kanjiBits]
    split
    · exact Exn.noConfusion
    · split
      · exact (kanjiBits_noDefect (idx + 2) rest).of_error ‹_›
      · exact trivial

theorem qrDataBits_noDefect (m : QrMode) (txt : List Nat) : NoDefect (qrDataBits m txt) := by
  cases m with
  | kanji => exact kanjiBits_noDefect 0 txt
  | _ => exact trivial

theorem qrEncode_ok {rom : Rom} (hr : rom.ok = true) (cfg : CfgQrReg) (eci : CfgEciReg) (txt : List Nat) :
    Affords (fun p => verLegal p.2.1 = true) (qrEncode rom cfg eci txt) := by
  unfold qrEncode
  dsimp only
  split
  · exact (qrDataBits_noDefect _ txt).of_error ‹_›
  · split
    · exact (qrAssemble_ok hr _ _ _ _ _).of_error ‹_›
    · exact (qrAssemble_ok hr _ _ _ _ _).of_ok ‹_›

/-- A version that keeps rule R107 has fewer data codewords than codewords, at every level. -/
theorem qrData_lt_qrTotal {rom : Rom} {v : Nat} (h : qrRowOk rom v = true) (e : Nat) : qrData rom v e < qrTotal rom v := by
  simp only [qrRowOk, qrCapOk, Bool.and_eq_true, List.all_cons, decide_eq_true_eq] at h
  obtain ⟨⟨⟨⟨h0, -⟩, -⟩, ⟨⟨h1, -⟩, -⟩, ⟨⟨h2, -⟩, -⟩, ⟨⟨h3, -⟩, -⟩, -⟩, -⟩ := h
  match e with
  | 0 => exact h0
  | 1 => exact h1
  | 2 => exact h2
  | _ + 3 => exact h3

/-- A version's codewords fit CW. -/
theorem qrTotal_le_cwSize {rom : Rom} {v : Nat} (hv : verLegal v = true) (h : qrRowOk rom v = true) :
    qrTotal rom v ≤ Config.cwSize := by
  have h1 := qrTotal_le h
  have h2 := Nat.mul_le_mul (qrDim_le hv) (qrDim_le hv)
  simp only [Config.cwSize]; omega

theorem encQrBody_noDefect {s : State} (hr : s.rom.ok = true) : NoDefect (encQrBody s) := by
  have hq := qrEncode_ok hr s.regs.cfgQr s.regs.cfgEci s.text
  unfold encQrBody
  split
  · exact hq.of_error ‹_›
  · rename_i m v cws he
    have hv : verLegal v = true := hq.of_ok he
    have hok := Rom.ok_qrRowOk hr (mem_versions hv)
    have hlt := qrData_lt_qrTotal hok s.regs.cfgQr.ecl.toNat
    have hle := qrTotal_le_cwSize hv hok
    have hlen := qrEncode_length he
    rw [if_neg (by omega)]
    exact trivial

/-- ENC.QR with tables that keep rule R107 does not end in InternalDefect. -/
theorem execEncQr_noDefect {s t : State} (hr : s.rom.ok = true) (h : execEncQr s = .next t) : t.regs.err.code ≠ 7 := by
  unfold execEncQr at h
  split at h <;> cases h
  · exact (encQrBody_noDefect hr).finish_code s .tce _
  · exact s.illegal_code

end Sys2Proof.Machine
end


section
/-! The cells of a QR symbol that are not function cells, counted: the two-column walk of 42_mapper.md rule R333 meets each of
them once, so they are as many as 20_memory.md rule R107 counts. MAP.QR and PAR.QR find no defect with the default tables (O21). -/

namespace Sys2Proof.Machine

/-! ### Cells of grids -/

theorem gridBit_or (a b r c : Nat) : gridBit (a ||| b) r c = (gridBit a r c || gridBit b r c) := Nat.testBit_or ..

theorem gridBit_and (a b r c : Nat) : gridBit (a &&& b) r c = (gridBit a r c && gridBit b r c) := Nat.testBit_and ..

/-- One row of a rectangle. -/
theorem gridBit_rowBits {x w c : Nat} (y r : Nat) (hw : x + w ≤ 256) (hc : c < 256) :
    gridBit ((2 ^ w - 1) <<< cellAddr y x) r c = decide (r = y ∧ x ≤ c ∧ c < x + w) := by
  simp only [gridBit, Nat.testBit_shiftLeft, Nat.testBit_two_pow_sub_one, cellAddr, ← Bool.decide_and, ge_iff_le]
  rw [decide_eq_decide]
  omega

/-- The cells of a rectangle. -/
theorem gridBit_rectBits {x w c : Nat} (y h r : Nat) (hw : x + w ≤ 256) (hc : c < 256) :
    gridBit (rectBits x y w h) r c = decide (y ≤ r ∧ r < y + h ∧ x ≤ c ∧ c < x + w) := by
  induction h with
  | zero =>
    simp only [rectBits, List.range_zero, List.foldl_nil, gridBit, Nat.zero_testBit, Nat.add_zero]
    rw [eq_comm, decide_eq_false_iff_not]
    omega
  | succ h ih =>
    rw [rectBits, List.range_succ, List.foldl_append, List.foldl_cons, List.foldl_nil, gridBit_or, ← rectBits, ih,
      gridBit_rowBits _ _ hw hc, ← Bool.decide_or, decide_eq_decide]
    omega

/-- Alignment blocks only add cells. -/
theorem gridBit_withBlocks {g r c : Nat} (h : gridBit g r c = true) (cs : List (Nat × Nat)) :
    gridBit (withBlocks g cs) r c = true := by
  induction cs generalizing g with
  | nil => exact h
  | cons p rest ih => exact ih (by rw [gridBit_or, h, Bool.true_or])

/-- Column 6 holds function cells only: finders, separators and the timing line (20_memory.md rule R105). -/
theorem qrFp_column_six (rom : Rom) {v y : Nat} (hv : verLegal v = true) (hy : y < qrDim v) :
    gridBit (qrFp rom v) y 6 = true := by
  have hd := qrDim_le hv
  have h17 : 17 ≤ qrDim v := Nat.le_add_right 17 _
  unfold qrFp
  rw [gridBit_and, gridBit_rectBits _ _ _ (by omega) (by omega), gridBit_withBlocks, Bool.true_and, decide_eq_true_eq]
  · omega
  · simp only [fixedCells, gridBit_or]
    rw [gridBit_rectBits 0 9 y (by omega) (by omega), gridBit_rectBits 9 (qrDim v - 17) y (by omega) (by omega),
      gridBit_rectBits (qrDim v - 8) 8 y (by omega) (by omega)]
    by_cases h1 : y < 9
    · simp [h1]
    · by_cases h2 : y < qrDim v - 8
      · have h3 : 9 ≤ y ∧ y < 9 + (qrDim v - 17) := by omega
        simp [h3]
      · have h3 : qrDim v - 8 ≤ y ∧ y < qrDim v - 8 + 8 := by omega
        simp [h3]

/-! ### The count of the cells that are not function cells -/

/-- 1 where the cell in column `x`, row `y` is not a function cell, else 0. -/
def freeCell (fp x y : Nat) : Nat := if gridBit fp y x then 0 else 1

theorem popCount_eq_sum (n : Nat) : ∀ x, popCount n x = ∑ c ∈ Finset.range n, (x.testBit c).toNat := by
  induction n with
  | zero => intro x; rfl
  | succ n ih =>
    intro x
    rw [popCount, ih, Finset.sum_range_succ', Nat.testBit_zero, Nat.add_comm]
    congr 1
    · exact Finset.sum_congr rfl (fun c _ => by rw [Nat.testBit_succ])
    · rcases Nat.mod_two_eq_zero_or_one x with h | h <;> simp [h]

/-- A row's cells that are not set. -/
theorem sub_popCount_row (fp dim r : Nat) :
    dim - popCount dim ((fp >>> (256 * r)) % 2 ^ dim) = ∑ c ∈ Finset.range dim, freeCell fp c r := by
  have hbit : ∀ c ∈ Finset.range dim, (((fp >>> (256 * r)) % 2 ^ dim).testBit c).toNat + freeCell fp c r = 1 := by
    intro c hc
    rw [Nat.testBit_mod_two_pow, Nat.testBit_shiftRight, decide_eq_true (Finset.mem_range.mp hc), Bool.true_and]
    change (gridBit fp r c).toNat + freeCell fp c r = 1
    unfold freeCell
    cases gridBit fp r c <;> rfl
  have hsum := Finset.sum_congr rfl hbit
  rw [Finset.sum_add_distrib, Finset.sum_const, Finset.card_range, smul_eq_mul, Nat.mul_one, ← popCount_eq_sum] at hsum
  omega

theorem qrFreeCells_eq_sum (rom : Rom) (v : Nat) :
    qrFreeCells rom v = ∑ x ∈ Finset.range (qrDim v), ∑ y ∈ Finset.range (qrDim v), freeCell (qrFp rom v) x y := by
  rw [Finset.sum_comm]
  simp only [qrFreeCells, sub_popCount_row]
  rfl

/-- The walk's column pairs, upwards and downwards, count each column whole. -/
theorem pairCells_countP (dim fp : Nat) (cols : List Nat) : ∀ up,
    (pairCells dim up cols).countP (fun p => !gridBit fp p.2 p.1)
      = (cols.map (fun x => ∑ y ∈ Finset.range dim, freeCell fp x y
          + ∑ y ∈ Finset.range dim, freeCell fp (x - 1) y)).sum := by
  have hpair : ∀ x y, [(x, y), (x - 1, y)].countP (fun p => !gridBit fp p.2 p.1) = freeCell fp x y + freeCell fp (x - 1) y := by
    intro x y
    unfold freeCell
    cases h1 : gridBit fp y x <;> cases h2 : gridBit fp y (x - 1) <;> simp [h1, h2]
  induction cols with
  | nil => intro up; rfl
  | cons x rest ih =>
    intro up
    rw [pairCells, List.countP_append, ih, List.map_cons, List.sum_cons, List.countP_flatMap, ← Finset.sum_add_distrib]
    congr 1
    cases up
    · change ((List.range dim).map (fun k => [(x, k), (x - 1, k)].countP (fun p => !gridBit fp p.2 p.1))).sum = _
      simp only [hpair]
      rfl
    · rw [← Finset.sum_range_reflect]
      change ((List.range dim).map (fun k =>
        [(x, dim - 1 - k), (x - 1, dim - 1 - k)].countP (fun p => !gridBit fp p.2 p.1))).sum = _
      simp only [hpair]
      rfl

/-- The column pairs from column `2 * n` down are all columns but column 6. -/
theorem pairColumns_sum (g : Nat → Nat) (n : Nat) :
    ((pairColumns (2 * (n + 3)) (n + 3)).map (fun x => g x + g (x - 1))).sum + g 6 = ∑ x ∈ Finset.range (2 * (n + 3) + 1), g x := by
  induction n with
  | zero => simp [pairColumns, Finset.sum_range_succ]; omega
  | succ n ih =>
    rw [pairColumns, if_neg (by omega)]
    rw [List.map_cons, List.sum_cons, show 2 * (n + 1 + 3) - 2 = 2 * (n + 3) by omega, Nat.add_assoc, ih,
      show 2 * (n + 1 + 3) + 1 = 2 * (n + 3) + 1 + 1 + 1 by omega, Finset.sum_range_succ g (2 * (n + 3) + 1 + 1),
      Finset.sum_range_succ g (2 * (n + 3) + 1), show 2 * (n + 1 + 3) = 2 * (n + 3) + 1 + 1 by omega,
      Nat.add_sub_cancel]
    omega

/-- The bit stream's cells are the cells that are not function cells (42_mapper.md rule R333). -/
theorem dataCells_length (rom : Rom) {v : Nat} (hv : verLegal v = true) :
    (dataCells (qrDim v) (qrFp rom v)).length = qrFreeCells rom v := by
  have hv1 := (verLegal_iff v).mp hv
  have hn : (qrDim v - 1) / 2 = 2 * v + 5 + 3 ∧ qrDim v - 1 = 2 * (2 * v + 5 + 3) ∧ qrDim v - 1 + 1 = qrDim v := by
    simp only [qrDim]; omega
  obtain ⟨h1, h2, h3⟩ := hn
  have hsix : ∑ y ∈ Finset.range (qrDim v), freeCell (qrFp rom v) 6 y = 0 :=
    Finset.sum_eq_zero (fun y hy => if_pos (qrFp_column_six rom hv (Finset.mem_range.mp hy)))
  have hcols := pairColumns_sum (fun x => ∑ y ∈ Finset.range (qrDim v), freeCell (qrFp rom v) x y) (2 * v + 5)
  rw [hsix, Nat.add_zero, ← h2, h3] at hcols
  rw [dataCells, ← List.countP_eq_length_filter, pairCells_countP, h1, hcols, qrFreeCells_eq_sum]

/-- A version that keeps rule R107 has cells for its codewords and remainder bits, and no more. -/
theorem dataCells_length_of_ok {rom : Rom} {v : Nat} (hv : verLegal v = true) (h : qrRowOk rom v = true) :
    (dataCells (qrDim v) (qrFp rom v)).length = 8 * qrTotal rom v + qrRem v := by
  rw [dataCells_length rom hv]
  simp only [qrRowOk, Bool.and_eq_true, decide_eq_true_eq] at h
  exact h.2.symm

theorem qrRem_lt (v : Nat) : qrRem v < 8 := by
  unfold qrRem
  repeat' split
  all_goals decide

/-! ### MAP.QR -/

theorem bitsMsb_length (w n : Nat) : (bitsMsb w n).length = n := by
  induction n with
  | zero => rfl
  | succ n ih => rw [bitsMsb, List.length_cons, ih]

theorem codewordBits_length (cws : List Nat) : (cws.flatMap (fun w => bitsMsb w 8)).length = 8 * cws.length := by
  induction cws with
  | nil => rfl
  | cons w rest ih => rw [List.flatMap_cons, List.length_append, bitsMsb_length, ih, List.length_cons]; omega

/-- Each cell takes one bit of the stream. -/
theorem placeBits_rest (m : Nat) (cells : List (Nat × Nat)) : ∀ (g : Nat) (bits : List Bool),
    (placeBits m g cells bits).2 = bits.drop cells.length := by
  induction cells with
  | nil => intro g bits; rfl
  | cons p rest ih => intro g bits; rw [placeBits, ih, List.length_cons, List.drop_tail]

/-- A stream that fits its cells makes a candidate of every mask. -/
theorem qrCandidate_isSome {rom : Rom} {u v e m : Nat} {cells : List (Nat × Nat)} {bits : List Bool}
    (h : bits.length ≤ cells.length) : (qrCandidate rom u v e m cells bits).isSome = true := by
  have hr : (placeBits m (qrFrame rom u v e m) cells bits).2.isEmpty = true := by
    rw [placeBits_rest, List.drop_eq_nil_of_le h]; rfl
  simp [qrCandidate, qrBuild, hr]

theorem maskSearch_isSome {rom : Rom} {u v e : Nat} {cells : List (Nat × Nat)} {bits : List Bool}
    (h : bits.length ≤ cells.length) (masks : List Nat) : ∀ best : Option Candidate, (best.isSome = true ∨ masks ≠ []) →
    (maskSearch rom u v e cells bits best masks).isSome = true := by
  induction masks with
  | nil => exact fun best hb => hb.resolve_right (fun hn => hn rfl)
  | cons m rest ih =>
    intro best _
    obtain ⟨c, hc⟩ := Option.isSome_iff_exists.mp (qrCandidate_isSome (rom := rom) (u := u) (v := v) (e := e) (m := m) h)
    rw [maskSearch, hc]
    cases best <;> exact ih _ (.inl rfl)

theorem qrChoose_isSome {rom : Rom} {u v e forced : Nat} {auto : Bool} {cws : List Nat} (hv : verLegal v = true)
    (hok : qrRowOk rom v = true) (hl : cws.length = qrTotal rom v) : (qrChoose rom u v e auto forced cws).isSome = true := by
  have hfit : (cws.flatMap (fun w => bitsMsb w 8)).length ≤ (dataCells (qrDim v) (qrFp rom v)).length := by
    rw [codewordBits_length, dataCells_length_of_ok hv hok]; omega
  unfold qrChoose
  dsimp only
  split
  · exact maskSearch_isSome hfit _ none (.inr (by decide))
  · exact qrCandidate_isSome hfit

theorem State.codewords_length (s : State) : s.codewords.length = s.regs.cwLen.toNat := by
  simp [State.codewords, Buf.take]

theorem mapQrBody_noDefect {s : State} (hr : s.rom = romDefault) (hl : mapQrLegal s.rom s.regs = true) :
    NoDefect (mapQrBody s) := by
  obtain ⟨hv, hcw, -⟩ := (mapQrLegal_iff _ _).mp hl
  have hver : verLegal s.regs.ver.toNat = true := (verLegal_iff _).mpr hv
  have hok : qrRowOk s.rom s.regs.ver.toNat = true := by rw [hr]; exact qrRowOk_default hver
  have hin : alignInside s.rom s.regs.ver.toNat = true := by rw [hr]; exact alignInside_default hver
  unfold mapQrBody
  rw [hok, hin, Bool.and_self, if_pos rfl]
  split
  · rename_i hn
    have hs := qrChoose_isSome (u := undrawnBits s.rom s.regs.ver.toNat s.draws) (e := s.regs.cfgQr.ecl.toNat)
      (auto := s.regs.cfgQr.maskAuto) (forced := s.regs.cfgQr.maskId.toNat) hver hok (s.codewords_length.trans hcw)
    rw [hn] at hs
    cases hs
  · trivial

theorem execMapQr_noDefect {s t : State} (hr : s.rom = romDefault) (h : execMapQr s = .next t) : t.regs.err.code ≠ 7 := by
  unfold execMapQr at h
  split at h <;> cases h
  · exact (mapQrBody_noDefect hr ‹_›).finish_code s .map _
  · exact s.illegal_code

/-! ### PAR.QR -/

/-- A version that keeps rule R107 reads as many codewords as it has (43_parser.md rule R377). -/
theorem readData_noDefect {rom : Rom} {v : Nat} (hv : verLegal v = true) (hok : qrRowOk rom v = true) (g : Nat) (o : Bool)
    (m : Nat) : NoDefect (readData rom g o v m) := by
  unfold readData
  rw [if_pos hok]
  have hlen : (bytesOfBits ((dataCells (qrDim v) (qrFp rom v)).map
      (fun p => qrCell g o p.1 p.2 ^^ qrMask m p.1 p.2))).length = qrTotal rom v := by
    have hrem := qrRem_lt v
    refine bytesOfBits_length _ _ ?_
    rw [List.length_map, dataCells_length_of_ok hv hok]
    omega
  dsimp only
  rw [if_neg (by omega), if_neg (by omega)]
  trivial

theorem qrAttempt_noDefect {rom : Rom} (hr : rom = romDefault) (g h w : Nat) (o : Bool) : NoDefect (qrAttempt rom g h w o) := by
  unfold qrAttempt
  split
  · exact Exn.noConfusion
  · split
    · exact Exn.noConfusion
    · split
      · exact Exn.noConfusion
      · split
        · exact Exn.noConfusion
        · rename_i d _ _ v hv
          obtain ⟨-, hver⟩ := readVersion_ok (by omega) (by omega) hv
          have hl : verLegal v = true := (verLegal_iff v).mpr hver
          have hd := readData_noDefect hl (hr ▸ qrRowOk_default hl) g o (d % 8)
          split
          · exact hd.of_error ‹_›
          · trivial

theorem qrAttempts_noDefect {rom : Rom} (hr : rom = romDefault) (g h w : Nat) (mirror retry : Bool) :
    NoDefect (qrAttempts rom g h w mirror retry) := by
  unfold qrAttempts
  split
  · trivial
  · rename_i e1 h1
    have he1 : e1.exn ≠ .internalDefect := (qrAttempt_noDefect hr g h w mirror).of_error (Q := fun _ : Unit => True) h1
    refine .ite ?_ he1
    split
    · trivial
    · exact .ite ((qrAttempt_noDefect hr g h w (!mirror)).of_error ‹_›) he1

theorem execParQr_noDefect {s t : State} {mirror retry : Bool} (hr : s.rom = romDefault)
    (h : execParQr mirror retry s = .next t) : t.regs.err.code ≠ 7 := by
  have hb : NoDefect (parQrBody s.clearMirrored mirror retry) := by
    unfold parQrBody
    split
    · exact (qrAttempts_noDefect hr _ _ _ _ _).of_error ‹_›
    · trivial
  cases h
  exact hb.finish_code s.clearMirrored .par _

end Sys2Proof.Machine
end


section
/-! The placement walk over the rows of the default T_DMSYM (42_mapper.md rule R316): it places each row's codewords and covers
its mapping matrix, so MAP.DM and PAR.DM find no defect with the default tables (rule R320; O21). That is a fact of thirty sizes,
found by running the walk. The run uses a copy of the walk that gives the cells of a codeword away from the left and upper edges,
where `module` wraps nothing, without the integer arithmetic; the copy is equal to the walk. -/

namespace Sys2Proof.Machine

-- one kernel evaluation after the other
set_option Elab.async false

/-! ### A codeword inside the matrix -/

/-- `module` on cells of the matrix given by their addresses: nothing wraps. -/
def markCells (seen : Nat) (as : List Nat) : Option (List Nat × Nat) :=
  match as with
  | [] => some ([], seen)
  | a :: rest =>
    if seen.testBit a then none
    else match markCells (seen ||| (1 <<< a)) rest with
      | none => none
      | some (as, seen') => some (a :: as, seen')

/-- The addresses of the cells of a codeword whose anchor is (`r + 2`, `c + 2`) (rule R314). -/
def utahAddrs (r c : Nat) : List Nat :=
  [cellAddr r c, cellAddr r (c + 1), cellAddr (r + 1) c, cellAddr (r + 1) (c + 1), cellAddr (r + 1) (c + 2),
   cellAddr (r + 2) c, cellAddr (r + 2) (c + 1), cellAddr (r + 2) (c + 2)]

/-- The cells of the codeword anchored at (`row`, `col`), as `moduleCells` gives them. -/
def utahModule (nr nc seen : Nat) (row col : Int) : Option (List Nat × Nat) :=
  match row, col with
  | .ofNat (r + 2), .ofNat (c + 2) =>
    if r + 2 < nr ∧ c + 2 < nc then markCells seen (utahAddrs r c)
    else moduleCells nr nc seen (utahCells (.ofNat (r + 2)) (.ofNat (c + 2)))
  | row, col => moduleCells nr nc seen (utahCells row col)

/-- A cell of the matrix is used as it is (rule R313). -/
theorem moduleCell_inside {nr nc r c : Nat} (seen : Nat) (hr : r < nr) (hc : c < nc) :
    moduleCell nr nc seen r c = if seen.testBit (cellAddr r c) then none else some (cellAddr r c) := by
  have hw : wrapCell nr nc r c = ((r : Int), (c : Int)) := by simp [wrapCell, Int.not_lt.mpr]
  have hm : inMatrix nr nc r c = true := by simp [inMatrix, hr, hc]
  rw [moduleCell, hw]
  simp [hm, gridBit] <;> rfl

/-- Cells of the matrix are marked by their addresses. -/
theorem moduleCells_inside {nr nc : Nat} (cells : List (Nat × Nat)) : ∀ seen, (∀ p ∈ cells, p.1 < nr ∧ p.2 < nc) →
    moduleCells nr nc seen (cells.map (fun p => ((p.1 : Int), (p.2 : Int))))
      = markCells seen (cells.map (fun p => cellAddr p.1 p.2)) := by
  induction cells with
  | nil => intro seen _; rfl
  | cons p rest ih =>
    intro seen h
    obtain ⟨hr, hc⟩ := h p (by simp)
    rw [List.map_cons, List.map_cons, moduleCells, markCells, moduleCell_inside seen hr hc]
    by_cases hs : seen.testBit (cellAddr p.1 p.2) = true
    · rw [if_pos hs, if_pos hs]
    · rw [if_neg hs, if_neg hs, ← ih _ (fun q hq => h q (by simp [hq]))] <;> rfl

theorem utahModule_eq (nr nc seen : Nat) (row col : Int) :
    utahModule nr nc seen row col = moduleCells nr nc seen (utahCells row col) := by
  unfold utahModule
  split
  · rename_i r c
    split
    · rename_i h
      have hin := moduleCells_inside (nr := nr) (nc := nc) [(r, c), (r, c + 1), (r + 1, c), (r + 1, c + 1), (r + 1, c + 2),
        (r + 2, c), (r + 2, c + 1), (r + 2, c + 2)] seen (by simp; omega)
      have hcells : utahCells (.ofNat (r + 2)) (.ofNat (c + 2))
          = [(r, c), (r, c + 1), (r + 1, c), (r + 1, c + 1), (r + 1, c + 2), (r + 2, c), (r + 2, c + 1),
             (r + 2, c + 2)].map (fun p : Nat × Nat => ((p.1 : Int), (p.2 : Int))) := by
        simp [utahCells]; omega
      rw [hcells, hin]; rfl
    · rfl
  · rfl

/-! ### The copy of the walk -/

/-- `placeIfFree`. -/
def fastPlace (nr nc limit : Nat) (w : Walk) : Option Walk :=
  if inMatrix nr nc w.row w.col then
    (if gridBit w.seen w.row.toNat w.col.toNat then some w
     else if limit ≤ w.placed.length then none
     else match utahModule nr nc w.seen w.row w.col with
       | none => none
       | some (as, seen) => some { w with seen := seen, placed := as :: w.placed })
  else none

/-- `sweepUp`. -/
def fastUp (nr nc limit fuel : Nat) (w : Walk) : Option Walk :=
  match fuel with
  | 0 => none
  | fuel + 1 =>
    match (if w.row < nr ∧ 0 ≤ w.col then fastPlace nr nc limit w else some w) with
    | none => none
    | some t =>
      let u : Walk := { t with row := t.row - 2, col := t.col + 2 }
      if 0 ≤ u.row ∧ u.col < nc then fastUp nr nc limit fuel u else some u

/-- `sweepDown`. -/
def fastDown (nr nc limit fuel : Nat) (w : Walk) : Option Walk :=
  match fuel with
  | 0 => none
  | fuel + 1 =>
    match (if 0 ≤ w.row ∧ w.col < nc then fastPlace nr nc limit w else some w) with
    | none => none
    | some t =>
      let u : Walk := { t with row := t.row + 2, col := t.col - 2 }
      if u.row < nr ∧ 0 ≤ u.col then fastDown nr nc limit fuel u else some u

/-- `walkRound`. -/
def fastRound (nr nc limit : Nat) (w : Walk) : Option Walk :=
  match (match cornerCells nr nc w.row w.col with
         | some cells => placeCodeword nr nc limit cells w
         | none => some w) with
  | none => none
  | some w1 =>
    match fastUp nr nc limit (nr + nc + 8) w1 with
    | none => none
    | some w2 =>
      match fastDown nr nc limit (nr + nc + 8) { w2 with row := w2.row + 1, col := w2.col + 3 } with
      | none => none
      | some w3 => some { w3 with row := w3.row + 3, col := w3.col + 1 }

/-- `walkLoop`. -/
def fastLoop (nr nc limit fuel : Nat) (w : Walk) : Option Walk :=
  match fuel with
  | 0 => none
  | fuel + 1 =>
    match fastRound nr nc limit w with
    | none => none
    | some t => if t.row < nr ∨ t.col < nc then fastLoop nr nc limit fuel t else some t

theorem fastPlace_eq (nr nc limit : Nat) (w : Walk) : fastPlace nr nc limit w = placeIfFree nr nc limit w := by
  unfold fastPlace placeIfFree placeCodeword
  rw [utahModule_eq] <;> rfl

theorem fastUp_eq (nr nc limit fuel : Nat) : ∀ w, fastUp nr nc limit fuel w = sweepUp nr nc limit fuel w := by
  induction fuel with
  | zero => intro w; rfl
  | succ fuel ih => intro w; simp only [fastUp, sweepUp, fastPlace_eq, ih] <;> rfl

theorem fastDown_eq (nr nc limit fuel : Nat) : ∀ w, fastDown nr nc limit fuel w = sweepDown nr nc limit fuel w := by
  induction fuel with
  | zero => intro w; rfl
  | succ fuel ih => intro w; simp only [fastDown, sweepDown, fastPlace_eq, ih] <;> rfl

theorem fastLoop_eq (nr nc limit fuel : Nat) : ∀ w, fastLoop nr nc limit fuel w = walkLoop nr nc limit fuel w := by
  have hround : ∀ w, fastRound nr nc limit w = walkRound nr nc limit w := by
    intro w; simp only [fastRound, walkRound, fastUp_eq, fastDown_eq] <;> rfl
  induction fuel with
  | zero => intro w; rfl
  | succ fuel ih => intro w; simp only [fastLoop, walkLoop, hround, ih] <;> rfl

/-! ### The default rows -/

/-- The walk has placed the row's codewords, and with the fixed pattern (rule R319) every cell of the matrix is used. -/
def Walk.Fills (r : DmRow) (w : Walk) : Prop :=
  w.placed.length = dmTotal r ∧ (fixedPattern (dmNr r) (dmNc r) 0 w.seen).2 = rectBits 0 0 (dmNc r) (dmNr r)

/-- The copy of the walk fills the row's matrix. -/
def fastFills (r : DmRow) : Bool :=
  match fastLoop (dmNr r) (dmNc r) (dmTotal r) (dmNr r + dmNc r + 8) ⟨4, 0, 0, []⟩ with
  | none => false
  | some w => decide (w.placed.length = dmTotal r)
      && decide ((fixedPattern (dmNr r) (dmNc r) 0 w.seen).2 = rectBits 0 0 (dmNc r) (dmNr r))

theorem fastFills_default_first : ∀ r ∈ tDmSym.take 22, fastFills r = true := by decide +kernel

theorem fastFills_default_middle : ∀ r ∈ (tDmSym.drop 22).take 4, fastFills r = true := by decide +kernel

theorem fastFills_default_last : ∀ r ∈ (tDmSym.drop 22).drop 4, fastFills r = true := by decide +kernel

theorem fastFills_default {r : DmRow} (hr : r ∈ tDmSym) : fastFills r = true := by
  rw [← List.take_append_drop 22 tDmSym, ← List.take_append_drop 4 (tDmSym.drop 22), List.mem_append, List.mem_append] at hr
  obtain h | h | h := hr
  · exact fastFills_default_first r h
  · exact fastFills_default_middle r h
  · exact fastFills_default_last r h

/-- The walk fills the matrix of every row of the default table. -/
theorem walk_default {r : DmRow} (hr : r ∈ tDmSym) : ∃ w, walk (dmNr r) (dmNc r) (dmTotal r) = some w ∧ w.Fills r := by
  have h := fastFills_default hr
  rw [fastFills, fastLoop_eq] at h
  split at h
  · cases h
  · rename_i w hw
    rw [Bool.and_eq_true, decide_eq_true_eq, decide_eq_true_eq] at h
    exact ⟨w, hw, h⟩

/-! ### MAP.DM -/

/-- Which cells the fixed pattern uses does not depend on what they hold. -/
theorem fixedPattern_seen (nr nc mm seen : Nat) : (fixedPattern nr nc mm seen).2 = (fixedPattern nr nc 0 seen).2 := by
  unfold fixedPattern
  split <;> rfl

theorem dmMatrix_noDefect {r : DmRow} (hr : r ∈ tDmSym) {cws : List Nat} (hl : cws.length = dmTotal r) :
    NoDefect (dmMatrix r cws) := by
  obtain ⟨w, hw, hlen, hfull⟩ := walk_default hr
  rw [dmMatrix, hl, hw]
  dsimp only
  rw [if_neg (not_not_intro hlen), if_pos ((fixedPattern_seen ..).trans hfull)]
  trivial

theorem mapDmBody_noDefect {s : State} {r : DmRow} (hr : r ∈ tDmSym) (hl : s.regs.cwLen.toNat = dmTotal r) :
    NoDefect (mapDmBody s r) := by
  rw [mapDmBody, if_pos (tDmSym_drawable r hr)]
  split
  · exact (dmMatrix_noDefect hr (s.codewords_length.trans hl)).of_error ‹_›
  · trivial

theorem execMapDm_noDefect {s t : State} (hr : s.rom = romDefault) (h : execMapDm s = .next t) : t.regs.err.code ≠ 7 := by
  unfold execMapDm at h
  split at h <;> cases h
  · exact s.illegal_code
  · rename_i r hl
    obtain ⟨hrow, hcw, -⟩ := mapDmLegal_eq_some hl
    exact (mapDmBody_noDefect (dmRow_mem (hr ▸ hrow)) hcw).finish_code s .map _

/-! ### PAR.DM -/

theorem dmReadWalk_noDefect {r : DmRow} (hr : r ∈ tDmSym) (mm : Nat) : NoDefect (dmReadWalk r mm) := by
  obtain ⟨w, hw, -⟩ := walk_default hr
  obtain ⟨-, -, -, -, -, -, htotal, -⟩ := tDmSym_bounds r hr
  have hmin : min (dmTotal r) Config.cwSize = dmTotal r := Nat.min_eq_left (htotal.trans (by decide))
  rw [dmReadWalk, hmin, hw]
  exact .ite Exn.noConfusion trivial

theorem parDmBody_noDefect {s : State} (hr : s.rom = romDefault) : NoDefect (parDmBody s) := by
  rw [parDmBody, hr, dmByDimsBroken_default, if_neg (by decide)]
  split
  · exact Exn.noConfusion
  · rename_i idx r hd
    obtain ⟨hrow, -, -⟩ := dmByDims_some hd
    have hidx := dmRow_index_lt hrow
    rw [if_neg (by omega)]
    split
    · exact (dmReadWalk_noDefect (dmRow_mem hrow) _).of_error ‹_›
    · trivial

theorem execParDm_noDefect {s t : State} (hr : s.rom = romDefault) (h : execParDm s = .next t) : t.regs.err.code ≠ 7 := by
  cases h
  exact (parDmBody_noDefect hr).finish_code s .par _

end Sys2Proof.Machine
end


section
/-! O21 (10_state.md rule R70, 60_exceptions.md rule R547): the format and version commands raise FormatException only, and with
what the files before say of the other commands, none ends in InternalDefect with the default tables. -/

namespace Sys2Proof.Machine

theorem State.raise_code (s : State) {x : Exn} (hx : x ≠ .internalDefect) (u : UnitId) (n : Nat) (ws : List Loc) :
    (s.raise x u n ws).regs.err.code ≠ 7 := Exn.code_ne_seven hx

theorem execFmtEnc_noDefect {s t : State} (h : execFmtEnc s = .next t) : t.regs.err.code ≠ 7 := by
  unfold execFmtEnc at h
  split at h <;> cases h
  · exact State.complete_code _
  · exact s.illegal_code

theorem execFmtDec_noDefect {s t : State} (h : execFmtDec s = .next t) : t.regs.err.code ≠ 7 := by
  unfold execFmtDec at h
  split at h
  · split at h <;> cases h
    · exact State.complete_code _
    · exact s.raise_code Exn.noConfusion .fmc 0 _
  · cases h
    exact s.illegal_code

theorem execVerEnc_noDefect {s t : State} (h : execVerEnc s = .next t) : t.regs.err.code ≠ 7 := by
  unfold execVerEnc at h
  split at h <;> cases h
  · exact State.complete_code _
  · exact s.illegal_code

theorem execVerDec_noDefect {s t : State} (h : execVerDec s = .next t) : t.regs.err.code ≠ 7 := by
  unfold execVerDec at h
  split at h
  · split at h <;> cases h
    · exact State.complete_code _
    · exact s.raise_code Exn.noConfusion .fmc 0 _
  · cases h
    exact s.illegal_code

theorem execPen_noDefect {s t : State} (h : execPen s = .next t) : t.regs.err.code ≠ 7 := by
  unfold execPen at h
  split at h <;> cases h
  · exact State.complete_code _
  · exact s.illegal_code

/-- With the default tables no command ends in InternalDefect. -/
theorem exec_noDefect {i : Instr} {s t : State} (hr : s.rom = romDefault) (hi : isCommand i = true)
    (hdm : i = .decDm → s.regs.cwLen.toNat ≤ 1558) (hqr : i = .decQr → s.regs.cwLen.toNat ≤ 2956)
    (h : exec i s = .next t) (hp : t.phase = .idle) : t.regs.err.code ≠ 7 := by
  cases i with
  | nop => cases h; exact s.complete_code
  | encDm => exact execEncDm_noDefect hr h hp
  | encQr => exact execEncQr_noDefect (hr ▸ romDefault_ok) h
  | mapDm => exact execMapDm_noDefect hr h
  | mapQr => exact execMapQr_noDefect hr h
  | parDm => exact execParDm_noDefect hr h
  | parQr mirror retry => exact execParQr_noDefect hr h
  | decDm => exact execDecDm_noDefect (hdm rfl) h hp
  | decQr => exact execDecQr_noDefect (hqr rfl) h hp
  | fmtEnc => exact execFmtEnc_noDefect h
  | fmtDec => exact execFmtDec_noDefect h
  | verEnc => exact execVerEnc_noDefect h
  | verDec => exact execVerDec_noDefect h
  | pen => exact execPen_noDefect h
  | _ => cases hi

/-- Settles O21: the default tables keep rule R107 and their rows fit the buffers; the bits a decoder has left pay for what it
may still write. -/
theorem defaultTablesNeverDefect : Obligations.DefaultTablesNeverDefect := by
  unfold Obligations.DefaultTablesNeverDefect
  exact ⟨fun _ _ _ hr hi hdm hqr h hp => exec_noDefect hr hi hdm hqr h hp, fun _ _ hr h => execEncQr_noDefect hr h⟩

end Sys2Proof.Machine
end


section
/-! Decoding and encoding are inverse (O1, O2), a few words (O3), and the opcode map against its match and mask columns (O4)
(30_encoding.md rule R122, rule R132, rule R150). -/

namespace Sys2Proof.Machine

/-! ### The command word (rule R120, rule R122) -/

/-- A word without a reserved bit is its OP and its two option bits. -/
theorem cmdWord_toNat {w : Word} (h : w.toNat < 1024) :
    w.toNat = cmdOp w + 256 * flagNat (cmdMirror w) + 512 * flagNat (cmdRetry w) := by
  simp only [cmdOp, cmdMirror, cmdRetry, BitVec.getLsbD, flagNat_testBit]
  omega

theorem parQrWord_toNat (mirror retry : Bool) :
    (parQrWord mirror retry).toNat = 0x31 + 256 * flagNat mirror + 512 * flagNat retry := by
  cases mirror <;> cases retry <;> rfl

theorem decodeCommand_parQrWord (mirror retry : Bool) :
    decodeCommand (parQrWord mirror retry) = .ok (.parQr mirror retry) := by
  cases mirror <;> cases retry <;> rfl

/-- A word of the PAR.QR row is spelt by its option bits. -/
theorem eq_parQrWord {w : Word} (h : w.toNat < 1024) (hop : cmdOp w = 0x31) :
    w = parQrWord (cmdMirror w) (cmdRetry w) := by
  apply BitVec.eq_of_toNat_eq
  rw [parQrWord_toNat, cmdWord_toNat h, hop]

/-- A word without a reserved or an option bit is its OP. -/
theorem eq_ofNat_cmdOp {w : Word} (h : w.toNat < 1024) (hm : cmdMirror w = false) (hr : cmdRetry w = false) :
    w = BitVec.ofNat 32 (cmdOp w) := by
  have hw := cmdWord_toNat h
  rw [hm, hr] at hw
  exact ((BitVec.ofNat_toNat 32 w).trans (BitVec.setWidth_eq w)).symm.trans (congrArg (BitVec.ofNat 32) hw)

/-- What the opcode map names is a command, well formed, and encoded by its opcode. -/
theorem commandOfOp_some {op : Nat} {i : Instr} (h : commandOfOp op = some i) :
    i.wf = true ∧ isCommand i = true ∧ encode i = .cmd32 (BitVec.ofNat 32 op) := by
  unfold commandOfOp at h
  split at h <;> cases h <;> exact ⟨rfl, rfl, rfl⟩

/-- What a command word can decode to. -/
theorem decodeCommand_ok {w : Word} {i : Instr} (h : decodeCommand w = .ok i) :
    i.wf = true ∧ isCommand i = true ∧ encode i = .cmd32 w := by
  unfold decodeCommand at h
  split at h
  · cases h
  rename_i hw
  split at h
  · rename_i hop
    cases h
    exact ⟨rfl, rfl, congrArg Encoded.cmd32 (eq_parQrWord (by omega) hop).symm⟩
  split at h
  · split at h <;> cases h
  rename_i hopt
  split at h
  · rename_i hi
    cases h
    obtain ⟨hm, hr⟩ : cmdMirror w = false ∧ cmdRetry w = false := by simpa using hopt
    rw [eq_ofNat_cmdOp (by omega) hm hr]
    exact commandOfOp_some hi
  · cases h

/-! ### The codeword and the mode indicator (rule R132, rule R150) -/

theorem isAsciiCodeword_iff (b : Byte) : isAsciiCodeword b = true ↔ 1 ≤ b.toNat ∧ b.toNat ≤ 128 := by
  rw [isAsciiCodeword, Bool.and_eq_true, decide_eq_true_eq, decide_eq_true_eq]

theorem isDigitsCodeword_iff (b : Byte) : isDigitsCodeword b = true ↔ 130 ≤ b.toNat ∧ b.toNat ≤ 229 := by
  rw [isDigitsCodeword, Bool.and_eq_true, decide_eq_true_eq, decide_eq_true_eq]

theorem isIllegalCodeword_iff (b : Byte) :
    isIllegalCodeword b = true ↔ (242 ≤ b.toNat ∧ b.toNat ≤ 253) ∨ b.toNat = 255 := by
  rw [isIllegalCodeword, Bool.or_eq_true, Bool.and_eq_true, decide_eq_true_eq, decide_eq_true_eq, decide_eq_true_eq]

theorem isIllegalIndicator_iff (v : BitVec 4) :
    isIllegalIndicator v = true ↔ v.toNat ∈ [0x6, 0xA, 0xB, 0xC, 0xE, 0xF] := by
  rw [isIllegalIndicator, decide_eq_true_eq]

theorem decodeCodeword_ascii {b : Byte} (h : isAsciiCodeword b = true) : decodeCodeword b = .dmAscii b := by
  obtain ⟨hlo, hhi⟩ := (isAsciiCodeword_iff b).mp h
  unfold decodeCodeword
  split
  case h_16 => exact if_pos hhi
  all_goals omega

theorem decodeCodeword_digits {b : Byte} (h : isDigitsCodeword b = true) : decodeCodeword b = .dmDigits b := by
  obtain ⟨hlo, hhi⟩ := (isDigitsCodeword_iff b).mp h
  have hascii : ¬ b.toNat ≤ 128 := by omega
  unfold decodeCodeword
  split
  case h_16 => rw [if_neg hascii, if_pos hhi]
  all_goals omega

theorem decodeCodeword_illegal {b : Byte} (h : isIllegalCodeword b = true) : decodeCodeword b = .dmIll b := by
  have hn := (isIllegalCodeword_iff b).mp h
  have hascii : ¬ b.toNat ≤ 128 := by omega
  have hdigits : ¬ b.toNat ≤ 229 := by omega
  unfold decodeCodeword
  split
  case h_16 => rw [if_neg hascii, if_neg hdigits]
  all_goals omega

theorem decodeIndicator_illegal {v : BitVec 4} (h : isIllegalIndicator v = true) : decodeIndicator v = .qrIll v := by
  have hv := (isIllegalIndicator_iff v).mp h
  simp only [List.mem_cons, List.not_mem_nil, or_false] at hv
  unfold decodeIndicator
  split
  case h_11 => rfl
  all_goals omega

/-- The codewords of the rows without an operand. -/
def fixedCodewords : List Nat := [0, 129, 254] ++ List.range' 230 12

theorem codeword_cases (b : Byte) :
    isAsciiCodeword b = true ∨ isDigitsCodeword b = true ∨ isIllegalCodeword b = true ∨ b.toNat ∈ fixedCodewords := by
  have hb := b.isLt
  rw [isAsciiCodeword_iff, isDigitsCodeword_iff, isIllegalCodeword_iff]
  simp only [fixedCodewords, List.mem_append, List.mem_cons, List.not_mem_nil, or_false, List.mem_range'_1]
  omega

theorem encode_decodeCodeword_fixed : ∀ n ∈ fixedCodewords,
    (decodeCodeword (BitVec.ofNat 8 n)).wf = true ∧ encode (decodeCodeword (BitVec.ofNat 8 n)) = .dmcw8 (BitVec.ofNat 8 n) := by
  decide

/-- Every codeword's row is well formed and encoded by that codeword. -/
theorem encode_decodeCodeword (b : Byte) : (decodeCodeword b).wf = true ∧ encode (decodeCodeword b) = .dmcw8 b := by
  obtain h | h | h | h := codeword_cases b
  · rw [decodeCodeword_ascii h]; exact ⟨h, rfl⟩
  · rw [decodeCodeword_digits h]; exact ⟨h, rfl⟩
  · rw [decodeCodeword_illegal h]; exact ⟨h, rfl⟩
  · have hfixed := encode_decodeCodeword_fixed b.toNat h
    rwa [BitVec.ofNat_toNat, BitVec.setWidth_eq] at hfixed

/-- Every indicator's row is well formed and encoded by that indicator. -/
theorem encode_decodeIndicator : ∀ v : BitVec 4, (decodeIndicator v).wf = true ∧ encode (decodeIndicator v) = .qrmi4 v := by
  decide

/-! ### The round trips -/

/-- Settles O1: the rows with an operand by its range, PAR.QR by its option bits; every other row is one fixed word. -/
theorem decodeEncodeAgree : Obligations.DecodeEncodeAgree := by
  unfold Obligations.DecodeEncodeAgree
  intro i h
  cases i with
  | parQr mirror retry => exact decodeCommand_parQrWord mirror retry
  | dmAscii b => exact congrArg Except.ok (decodeCodeword_ascii h)
  | dmDigits b => exact congrArg Except.ok (decodeCodeword_digits h)
  | dmIll b => exact congrArg Except.ok (decodeCodeword_illegal h)
  | qrIll v => exact congrArg Except.ok (decodeIndicator_illegal h)
  | _ => rfl

/-- Settles O2, format by format. -/
theorem encodeDecodeAgree : Obligations.EncodeDecodeAgree := by
  unfold Obligations.EncodeDecodeAgree
  intro e i h
  cases e with
  | cmd32 w =>
    obtain ⟨hwf, -, henc⟩ := decodeCommand_ok h
    exact ⟨hwf, henc⟩
  | dmcw8 b => cases h; exact encode_decodeCodeword b
  | qrmi4 v => cases h; exact encode_decodeIndicator v

/-- Settles O3: each word is its row's encoding. -/
theorem knownWordsDecode : Obligations.KnownWordsDecode := by
  unfold Obligations.KnownWordsDecode
  have h := decodeEncodeAgree
  unfold Obligations.DecodeEncodeAgree at h
  exact ⟨h .nop rfl, h .encDm rfl, h (.parQr true true) rfl, h .pen rfl, h (.dmAscii 66) rfl, h (.dmDigits 142) rfl,
    h .dmLatchC40 rfl, h (.dmIll 255) rfl, h .qrByte rfl, h .qrHanzi rfl, h (.qrIll 6) rfl⟩

/-! ### The match and mask columns (rule R122) -/

/-- The mask of the PAR.QR row leaves the option bits out. -/
theorem and_parQrMask_eq_iff (w : Word) : w &&& 0xFFFFFCFF = 0x31 ↔ w.toNat < 1024 ∧ cmdOp w = 0x31 := by
  have hand : (w &&& 0xFFFFFCFF).toNat = 2 ^ 10 * (w.toNat / 2 ^ 10 % 2 ^ 22) + w.toNat % 2 ^ 8 :=
    (BitVec.toNat_and ..).trans (and_twoFields w.toNat 22 8 10 (by decide))
  have hw := w.isLt
  rw [← BitVec.toNat_inj, hand, cmdOp]
  show _ = 0x31 ↔ _
  omega

/-- A command's encoding matches a row. -/
theorem matchesRow_of_encode {i : Instr} {w : Word} (hi : isCommand i = true) (h : encode i = .cmd32 w) : matchesRow w := by
  unfold matchesRow
  cases i with
  | parQr mirror retry =>
    cases h
    refine ⟨(0x31, 0xFFFFFCFF), by decide, ?_⟩
    cases mirror <;> cases retry <;> rfl
  | nop | encDm | encQr | mapDm | mapQr | parDm | decDm | decQr | fmtEnc | fmtDec | verEnc | verDec | pen =>
    cases h
    decide
  | _ => cases hi

/-- Every row's match column is the word of a command. -/
theorem decodeCommand_opcodeRows : ∀ r ∈ opcodeRows, ∃ i, decodeCommand r.1 = .ok i := by
  simp only [opcodeRows, List.cons_append, List.nil_append, List.forall_mem_cons]
  exact ⟨⟨.nop, rfl⟩, ⟨.encDm, rfl⟩, ⟨.encQr, rfl⟩, ⟨.mapDm, rfl⟩, ⟨.mapQr, rfl⟩, ⟨.parDm, rfl⟩, ⟨.parQr false false, rfl⟩,
    ⟨.decDm, rfl⟩, ⟨.decQr, rfl⟩, ⟨.fmtEnc, rfl⟩, ⟨.fmtDec, rfl⟩, ⟨.verEnc, rfl⟩, ⟨.verDec, rfl⟩, ⟨.pen, rfl⟩,
    List.forall_mem_nil _⟩

/-- Every row but that of PAR.QR fixes all bits. -/
theorem opcodeRows_mask : ∀ r ∈ opcodeRows, r.2 = BitVec.allOnes 32 ∨ r = (0x31, 0xFFFFFCFF) := by
  simp [opcodeRows]

/-- A word that matches a row decodes. -/
theorem decodeCommand_of_matchesRow {w : Word} (h : matchesRow w) : ∃ i, decodeCommand w = .ok i := by
  obtain ⟨r, hr, hm⟩ := h
  obtain hfull | rfl := opcodeRows_mask r hr
  · rw [hfull, BitVec.and_allOnes] at hm
    exact hm ▸ decodeCommand_opcodeRows r hr
  · obtain ⟨hw, hop⟩ := (and_parQrMask_eq_iff w).mp hm
    rw [eq_parQrWord hw hop]
    exact ⟨_, decodeCommand_parQrWord ..⟩

/-- Settles O4: what decodes is the encoding of a command, which its row matches; a matched word is a command's encoding. -/
theorem commandWordsAreTheOpcodeMap : Obligations.CommandWordsAreTheOpcodeMap := by
  unfold Obligations.CommandWordsAreTheOpcodeMap
  intro w
  constructor
  · rintro ⟨i, h, hi⟩
    obtain ⟨-, -, henc⟩ := decodeCommand_ok h
    exact matchesRow_of_encode hi henc
  · intro h
    obtain ⟨i, hi⟩ := decodeCommand_of_matchesRow h
    obtain ⟨-, hcmd, -⟩ := decodeCommand_ok hi
    exact ⟨i, hi, hcmd⟩

end Sys2Proof.Machine
end


section
/-! A refused command (30_encoding.md rule R123, 60_exceptions.md rule R545; O5). -/

namespace Sys2Proof.Machine

/-- A word that matches no row spells no command. -/
theorem decodeCommand_error {w : Word} (h : ¬ matchesRow w) : ∃ r, decodeCommand w = .error r := by
  cases hd : decodeCommand w with
  | error r => exact ⟨r, rfl⟩
  | ok i =>
    obtain ⟨-, hi, henc⟩ := decodeCommand_ok hd
    exact absurd (matchesRow_of_encode hi henc) h

theorem mapDmLegal_none {rom : Rom} {r : Regs} (h : operandsIllegal .mapDm rom r) : mapDmLegal rom r = none := by
  rw [Option.eq_none_iff_forall_ne_some]
  intro row hrow
  obtain ⟨hsym, htotal, hlen⟩ := mapDmLegal_eq_some hrow
  obtain hc | hc := h
  · omega
  · exact hc row hsym htotal

theorem execMapDm_of_illegal {s : State} (h : mapDmLegal s.rom s.regs = none) : execMapDm s = .next s.illegal := by
  rw [execMapDm, h]

/-- A command whose operand is outside its range is refused (47_commands.md rule R518). -/
theorem exec_of_operandsIllegal {i : Instr} {s : State} (h : operandsIllegal i s.rom s.regs) : exec i s = .next s.illegal := by
  cases i with
  | nop | parDm | parQr => exact h.elim
  | mapDm => exact execMapDm_of_illegal (mapDmLegal_none h)
  | encDm =>
    refine congrArg Host.Outcome.next (if_neg fun hl => ?_)
    obtain ⟨hshape, hlen⟩ := (encDmLegal_iff s.regs).mp hl
    obtain hs | ht := h
    · exact hshape hs
    · omega
  | encQr | mapQr | decDm | decQr | fmtEnc | fmtDec | verEnc | verDec | pen =>
    refine congrArg Host.Outcome.next (if_neg ?_)
    simp only [operandsIllegal] at h
    simp only [encQrLegal_iff, mapQrLegal_iff, decDmLegal_iff, decQrLegal_iff, fmtEncLegal_iff,
      fmtDecLegal_iff, verEncLegal_iff, verDecLegal_iff, penLegal_iff, not_and_or]
    omega
  | _ => exact h.elim

/-- An issued word that spells no command, or one with an operand outside its range, is refused. -/
theorem run_refuses {s : State} (hp : s.phase = .issued)
    (h : ¬ matchesRow s.regs.cmd ∨ ∃ i, decodeCommand s.regs.cmd = .ok i ∧ operandsIllegal i s.rom s.regs) :
    run s = .next s.refusedCommand := by
  rw [← State.illegal_eq_refusedCommand, run, hp]
  obtain hw | ⟨i, hd, hi⟩ := h
  · obtain ⟨r, hd⟩ := decodeCommand_error hw
    simp only [hd]
  · simp only [hd]
    exact exec_of_operandsIllegal hi

/-- Settles O5: the word or its operand is refused, and `State.refusedCommand` is the state the rule gives. -/
theorem illegalCommandChangesNothingElse : Obligations.IllegalCommandChangesNothingElse := by
  unfold Obligations.IllegalCommandChangesNothingElse
  intro s hu hp h
  have hstep : step s = .next s.refusedCommand := (step_of_undisturbed hu (by simp [hp])).trans (run_refuses hp h)
  exact ⟨_, hstep, rfl, rfl, rfl, rfl, rfl⟩

end Sys2Proof.Machine
end


section
/-! What the encoders' tables and packings make of a character or a byte, the decoders' give back (30_encoding.md rule R133 to
R141, R151, R155; O56). -/

namespace Sys2Proof.Machine

/-! ### C40 and Text (rule R133 to rule R135) -/

theorem shift2Char_of_low {c : Nat} (hlo : 33 ≤ c) (hhi : c ≤ 47) : c - 33 < 27 ∧ shift2Char (c - 33) = c := by
  rw [shift2Char, if_pos (by omega)]; omega

theorem shift2Char_of_mid {c : Nat} (hlo : 58 ≤ c) (hhi : c ≤ 64) : c - 43 < 27 ∧ shift2Char (c - 43) = c := by
  rw [shift2Char, if_neg (by omega), if_pos (by omega)]; omega

theorem shift2Char_of_high {c : Nat} (hlo : 91 ≤ c) (hhi : c ≤ 95) : c - 69 < 27 ∧ shift2Char (c - 69) = c := by
  rw [shift2Char, if_neg (by omega), if_neg (by omega)]; omega

theorem isDigit_iff (c : Nat) : isDigit c = true ↔ 48 ≤ c ∧ c ≤ 57 := by
  rw [isDigit, Bool.and_eq_true, decide_eq_true_eq, decide_eq_true_eq]

theorem isUpper_iff (c : Nat) : isUpper c = true ↔ 65 ≤ c ∧ c ≤ 90 := by
  rw [isUpper, Bool.and_eq_true, decide_eq_true_eq, decide_eq_true_eq]

theorem isLower_iff (c : Nat) : isLower c = true ↔ 97 ≤ c ∧ c ≤ 122 := by
  rw [isLower, Bool.and_eq_true, decide_eq_true_eq, decide_eq_true_eq]

theorem c40Values_of_lt {c : Nat} (h : c < 128) : c40Values c = c40Low c := if_neg (by omega)
theorem c40Values_add_128 {c : Nat} (h : c < 128) : c40Values (c + 128) = [1, 30] ++ c40Values c := by
  rw [c40Values_of_lt h, c40Values, if_pos (by omega), Nat.add_sub_cancel]
theorem textValues_of_lt {c : Nat} (h : c < 128) : textValues c = textLow c := if_neg (by omega)
theorem textValues_add_128 {c : Nat} (h : c < 128) : textValues (c + 128) = [1, 30] ++ textValues c := by
  rw [textValues_of_lt h, textValues, if_pos (by omega), Nat.add_sub_cancel]

theorem c40Basic_digit (text : Bool) {c : Nat} (h : 48 ≤ c ∧ c ≤ 57) :
    3 ≤ c - 44 ∧ c - 44 < 40 ∧ c40Basic text (c - 44) = c := by
  rw [c40Basic, if_neg (by omega), if_pos (by omega)]; omega

theorem c40Basic_upper {c : Nat} (h : 65 ≤ c ∧ c ≤ 90) : 3 ≤ c - 51 ∧ c - 51 < 40 ∧ c40Basic false (c - 51) = c := by
  rw [c40Basic, if_neg (by omega), if_neg (by omega), if_neg Bool.false_ne_true]; omega

theorem c40Basic_lower {c : Nat} (h : 97 ≤ c ∧ c ≤ 122) : 3 ≤ c - 83 ∧ c - 83 < 40 ∧ c40Basic true (c - 83) = c := by
  rw [c40Basic, if_neg (by omega), if_neg (by omega), if_pos rfl]; omega

/-- The values `vs` stand for the character `c` below 128: one basic value, or a shift and a value of its set, which the decoder's
tables `basic`, `shift2Char` and `shift3` take back to `c`. -/
def SpeltBy (basic shift3 : Nat → Nat) (c : Nat) (vs : List Nat) : Prop :=
  (∃ v, vs = [v] ∧ 3 ≤ v ∧ v < 40 ∧ basic v = c)
    ∨ (vs = [0, c] ∧ c < 32)
    ∨ (∃ v, vs = [1, v] ∧ v < 27 ∧ shift2Char v = c)
    ∨ (∃ v, vs = [2, v] ∧ v < 32 ∧ shift3 v = c)

theorem SpeltBy.basic {basic shift3 : Nat → Nat} {c v : Nat} (h : 3 ≤ v ∧ v < 40 ∧ basic v = c) :
    SpeltBy basic shift3 c [v] := .inl ⟨v, rfl, h⟩
theorem SpeltBy.shift1 {basic shift3 : Nat → Nat} {c : Nat} (h : c < 32) : SpeltBy basic shift3 c [0, c] :=
  .inr (.inl ⟨rfl, h⟩)
theorem SpeltBy.shift2 {basic shift3 : Nat → Nat} {c v : Nat} (h : v < 27 ∧ shift2Char v = c) :
    SpeltBy basic shift3 c [1, v] := .inr (.inr (.inl ⟨v, rfl, h⟩))
theorem SpeltBy.shift3 {basic shift3 : Nat → Nat} {c v : Nat} (h : v < 32 ∧ shift3 v = c) :
    SpeltBy basic shift3 c [2, v] := .inr (.inr (.inr ⟨v, rfl, h⟩))

theorem c40Low_speltBy {c : Nat} (h : c < 128) : SpeltBy (c40Basic false) (fun v => v + 96) c (c40Low c) := by
  simp only [c40Low, isDigit_iff, isUpper_iff]
  split
  · subst c; exact .basic (by decide)
  split
  · exact .basic (c40Basic_digit false ‹_›)
  split
  · exact .basic (c40Basic_upper ‹_›)
  split
  · exact .shift1 ‹_›
  split
  · exact .shift2 (shift2Char_of_low (by omega) ‹_›)
  split
  · exact .shift2 (shift2Char_of_mid (by omega) ‹_›)
  split
  · exact .shift2 (shift2Char_of_high (by omega) ‹_›)
  · exact .shift3 (by omega)

theorem textShift3_of_upper {c : Nat} (h : 65 ≤ c ∧ c ≤ 90) : c - 64 < 32 ∧ textShift3 (c - 64) = c := by
  rw [textShift3, if_neg (by omega), if_pos (by omega)]; omega

theorem textShift3_of_high {c : Nat} (hlo : 123 ≤ c) (hhi : c < 128) : c - 96 < 32 ∧ textShift3 (c - 96) = c := by
  rw [textShift3, if_neg (by omega), if_neg (by omega)]; omega

theorem textLow_speltBy {c : Nat} (h : c < 128) : SpeltBy (c40Basic true) textShift3 c (textLow c) := by
  simp only [textLow, isDigit_iff, isLower_iff]
  split
  · subst c; exact .basic (by decide)
  split
  · exact .basic (c40Basic_digit true ‹_›)
  split
  · exact .basic (c40Basic_lower ‹_›)
  split
  · exact .shift1 ‹_›
  split
  · exact .shift2 (shift2Char_of_low (by omega) ‹_›)
  split
  · exact .shift2 (shift2Char_of_mid (by omega) ‹_›)
  split
  · exact .shift2 (shift2Char_of_high (by omega) (by omega))
  split
  · subst c; exact .shift3 (by decide)
  split
  · exact .shift3 (textShift3_of_upper (by omega))
  · exact .shift3 (textShift3_of_high (by omega) h)

/-! ### X12 and EDIFACT values (rule R136, rule R137) -/

theorem x12Char_x12Value {c x : Nat} (h : x12Value c = some x) : x < 40 ∧ x12Char x = some c := by
  simp only [x12Value, isDigit_iff, isUpper_iff] at h
  split at h
  · subst c; cases h; decide
  split at h
  · subst c; cases h; decide
  split at h
  · subst c; cases h; decide
  split at h
  · subst c; cases h; decide
  split at h
  · cases h
    rw [x12Char, if_neg (by omega), if_neg (by omega), if_neg (by omega), if_neg (by omega), if_pos (by omega)]
    exact ⟨by omega, congrArg some (by omega)⟩
  split at h
  · cases h
    rw [x12Char, if_neg (by omega), if_neg (by omega), if_neg (by omega), if_neg (by omega), if_neg (by omega),
      if_pos (by omega)]
    exact ⟨by omega, congrArg some (by omega)⟩
  · cases h

theorem edfChar_edfValue {c x : Nat} (h : edfValue c = some x) : x < 64 ∧ x ≠ 31 ∧ edfChar x = c := by
  unfold edfValue at h
  split at h
  · cases h
    rw [edfChar, if_neg (by omega)]
    omega
  split at h
  · cases h
    rw [edfChar, if_pos (by omega)]
    omega
  · cases h

/-! ### The packings (rule R140, rule R141) -/

theorem unpackTriplet_packTriplet {a b c : Nat} (ha : a < 40) (hb : b < 40) (hc : c < 40) :
    ∃ h l, packTriplet a b c = [h, l] ∧ h < 256 ∧ l < 256 ∧ unpackTriplet h l = some [a, b, c] := by
  refine ⟨_, _, rfl, by omega, by omega, ?_⟩
  have hfst : (1600 * a + 40 * b + c) / 1600 = a := by omega
  have hsnd : (1600 * a + 40 * b + c) % 1600 / 40 = b := by omega
  have hthd : (1600 * a + 40 * b + c) % 40 = c := by omega
  rw [unpackTriplet, if_neg (by omega), Nat.div_add_mod, Nat.add_sub_cancel]
  dsimp only
  rw [hfst, hsnd, hthd]

theorem bitsMsb_mod (v : Nat) {n k : Nat} (h : n ≤ k) : bitsMsb (v % 2 ^ k) n = bitsMsb v n := by
  induction n with
  | zero => rfl
  | succ n ih => rw [bitsMsb, bitsMsb, ih (by omega), Nat.testBit_mod_two_pow, decide_eq_true (by omega), Bool.true_and]

/-- The bits of a number in two fields. -/
theorem bitsMsb_add (v m n : Nat) : bitsMsb v (m + n) = bitsMsb (v / 2 ^ n) m ++ bitsMsb v n := by
  induction m with
  | zero => rw [Nat.zero_add]; rfl
  | succ m ih =>
    rw [Nat.succ_add, bitsMsb, ih, bitsMsb, Nat.testBit_div_two_pow]
    rfl

/-- Three bytes hold the bits of four six-bit values. -/
theorem bitsMsb_bytes_of_sextets {a b c d v : Nat} (hb : b < 64) (hc : c < 64) (hd : d < 64)
    (hv : v = a * 262144 + b * 4096 + c * 64 + d) :
    bitsMsb (v / 65536 % 256) 8 ++ bitsMsb (v / 256 % 256) 8 ++ bitsMsb (v % 256) 8
      = bitsMsb a 6 ++ bitsMsb b 6 ++ bitsMsb c 6 ++ bitsMsb d 6 := by
  have bytes : bitsMsb v 24 = bitsMsb (v / 65536) 8 ++ bitsMsb (v / 256) 8 ++ bitsMsb v 8 := by
    rw [bitsMsb_add v 16 8, bitsMsb_add _ 8 8, Nat.div_div_eq_div_mul]; rfl
  have sextets : bitsMsb v 24 = bitsMsb (v / 262144) 6 ++ bitsMsb (v / 4096) 6 ++ bitsMsb (v / 64) 6 ++ bitsMsb v 6 := by
    rw [bitsMsb_add v 18 6, bitsMsb_add _ 12 6, bitsMsb_add _ 6 6]
    simp only [Nat.div_div_eq_div_mul]
    rfl
  have low : ∀ x, bitsMsb (x % 64) 6 = bitsMsb x 6 := fun x => bitsMsb_mod x (k := 6) (Nat.le_refl 6)
  have byte : ∀ x, bitsMsb (x % 256) 8 = bitsMsb x 8 := fun x => bitsMsb_mod x (k := 8) (Nat.le_refl 8)
  rw [byte, byte, byte, ← bytes, sextets, ← low (v / 4096), ← low (v / 64), ← low v]
  congr <;> omega

/-- `edfPack` of one to four values: a missing one counts as 0. -/
theorem edfPack_prefixes {b c d : Nat} (a : Nat) (hb : b < 64) (hc : c < 64) (hd : d < 64) :
    ∃ x y z, edfPack [a, b, c, d] = [x, y, z] ∧ edfPack [a, b, c] = [x, y, z - d] ∧ x < 256 ∧ y < 256 ∧ z < 256
      ∧ bitsMsb x 8 ++ bitsMsb y 8 ++ bitsMsb z 8 = bitsMsb a 6 ++ bitsMsb b 6 ++ bitsMsb c 6 ++ bitsMsb d 6
      ∧ edfPack [a, b] = [x, y / 16 * 16] ∧ edfPack [a] = [x / 4 * 4] := by
  refine ⟨_, _, _, rfl, ?_, by omega, by omega, by omega, bitsMsb_bytes_of_sextets hb hc hd rfl, ?_, ?_⟩
  all_goals
    simp only [edfPack, List.length_cons, List.length_nil, List.getElem?_cons_zero, List.getElem?_cons_succ,
      List.getElem?_nil, Option.getD_some, Option.getD_none, Nat.reduceAdd, Nat.reduceLeDiff, if_true, if_false,
      List.cons_append, List.nil_append, List.append_nil, List.cons.injEq, and_true]
    omega

/-! ### Base256 (rule R138, rule R139) -/

theorem unrand255_rand255 {b : Nat} (p : Nat) (hb : b < 256) : rand255 b p < 256 ∧ unrand255 (rand255 b p) p = b := by
  have ho : 149 * p % 255 < 255 := Nat.mod_lt _ (by decide)
  unfold rand255 unrand255
  generalize 149 * p % 255 = o at ho
  dsimp only
  split
  · rw [if_pos (by omega)]; omega
  · rw [if_neg (by omega)]; omega

/-- The length field: one codeword to 249, two to 1555, none beyond. -/
theorem b256Field_cases (bs : List Nat) :
    (bs.length ≤ 249 → b256Field bs = some (bs.length :: bs))
    ∧ (250 ≤ bs.length → bs.length ≤ 1555 → ∃ d1 d2, b256Field bs = some (d1 :: d2 :: bs) ∧ 250 ≤ d1 ∧ d1 ≤ 255 ∧ d2 < 250
        ∧ 250 * (d1 - 249) + d2 = bs.length)
    ∧ (1555 < bs.length → b256Field bs = none) := by
  unfold b256Field
  refine ⟨fun h => if_pos h, fun hlo hhi => ?_, fun h => ?_⟩
  · rw [if_neg (by omega), if_pos hhi]
    exact ⟨_, _, rfl, by omega⟩
  · rw [if_neg (by omega), if_neg (by omega)]

/-! ### QR (rule R151, rule R155) -/

theorem alnumChar_alnum {c x : Nat} (h : alnum c = some x) : x < 45 ∧ alnumChar x = c := by
  simp only [alnum, isDigit_iff, isUpper_iff] at h
  split at h
  · cases h
    unfold alnumChar
    rw [if_pos (by omega)]
    omega
  split at h
  · cases h
    unfold alnumChar
    rw [if_neg (by omega), if_pos (by omega)]
    omega
  split at h <;> cases h <;> decide

/-- The group of a pair `hi`, `lo` whose range begins at the pair `base`, 0x40: a row of 0xC0 second bytes for each first byte.
A second byte below 0x40 takes the place of the one 0x40 further on. -/
theorem kanjiGroup_rows {hi lo base first : Nat} (hf : first = 256 * base + 0x40) (hlo : lo < 256)
    (hle : first ≤ 256 * hi + lo) :
    ∃ r, r < 0xC0 ∧ ((0x40 ≤ lo ∧ r + 0x40 = lo) ∨ (lo < 0x40 ∧ r = lo))
      ∧ (256 * hi + lo - first) / 256 * 0xC0 + (256 * hi + lo - first) % 256 = (hi - base) * 0xC0 + r := by
  by_cases h : 0x40 ≤ lo
  · have hd : 256 * hi + lo - first = 256 * (hi - base) + (lo - 0x40) := by omega
    exact ⟨lo - 0x40, by omega, by omega, by omega⟩
  · have hd : 256 * hi + lo - first = 256 * (hi - base - 1) + (lo + 0xC0) := by omega
    exact ⟨lo, by omega, by omega, by omega⟩

/-- The pair of a group, from its row and its place in the row. -/
theorem kanjiCode_rows (k : Nat) {r : Nat} (hr : r < 0xC0) :
    kanjiCode (k * 0xC0 + r) = if k < 0x1F then 256 * (k + 0x81) + (r + 0x40) else 256 * (k + 0xC1) + (r + 0x40) := by
  have hdiv : (k * 0xC0 + r) / 0xC0 = k := by omega
  have hmod : (k * 0xC0 + r) % 0xC0 = r := by omega
  rw [kanjiCode, hdiv, hmod]
  split
  · rw [if_pos (by omega)]; omega
  · rw [if_neg (by omega)]; omega

/-- A group gives back its pair; one whose second byte is below 0x40 gives the pair 0x40 further on. -/
theorem kanjiCode_kanjiGroup {hi lo g : Nat} (hlo : lo < 256) (h : kanjiGroup (256 * hi + lo) = some g) :
    g < 8192 ∧ kanjiCode g = if 0x40 ≤ lo then 256 * hi + lo else 256 * hi + lo + 0x40 := by
  unfold kanjiGroup at h
  split at h
  · obtain ⟨r, hr, hplace, hg⟩ := kanjiGroup_rows (hi := hi) (base := 0x81) (first := 0x8140) rfl hlo (by omega)
    rw [hg, Option.some_inj] at h
    subst h
    rw [kanjiCode_rows _ hr, if_pos (by omega)]
    split <;> omega
  split at h
  · obtain ⟨r, hr, hplace, hg⟩ := kanjiGroup_rows (hi := hi) (base := 0xC1) (first := 0xC140) rfl hlo (by omega)
    rw [hg, Option.some_inj] at h
    subst h
    rw [kanjiCode_rows _ hr, if_neg (by omega)]
    split <;> omega
  · cases h

/-- Settles O56, table by table. -/
theorem codeTablesAreMutuallyInverse : Obligations.CodeTablesAreMutuallyInverse := by
  unfold Obligations.CodeTablesAreMutuallyInverse
  refine ⟨fun _ _ _ => unpackTriplet_packTriplet, fun c hc => ⟨?_, ?_, c40Values_add_128 hc, textValues_add_128 hc⟩,
    fun _ p => unrand255_rand255 p, fun bs _ => b256Field_cases bs, fun _ _ => x12Char_x12Value, fun _ _ => edfChar_edfValue,
    fun a _ _ _ _ => edfPack_prefixes a, fun _ _ => alnumChar_alnum, fun _ _ _ => kanjiCode_kanjiGroup⟩
  · rw [c40Values_of_lt hc]; exact c40Low_speltBy hc
  · rw [textValues_of_lt hc]; exact textLow_speltBy hc

end Sys2Proof.Machine
end

section
/-! The symbol a run of ENC.DM ends with: the lookups of `dmLookup` agree with each other (20_memory.md rule R102), and what
`terminate` writes (40_tce_datamatrix.md rule R205; O40). -/

namespace Sys2Proof.Machine

/-! ### `dmLookup` -/

/-- Every row before the one the scan stops at is refused: not permitted, or too small. -/
theorem dmScan_first {shape : BitVec 2} {cmin cmax : SizeReg} {n : Nat} {p : Nat × DmRow} (rows : List DmRow) :
    ∀ idx, dmScan shape cmin cmax n idx rows = some p → ∀ k r, idx + k < p.1 → rows[k]? = some r →
      dmPermitted shape cmin cmax r = true → r.data < n := by
  induction rows with
  | nil => intro idx hp; cases hp
  | cons r rest ih =>
    intro idx hp k x hk hx hperm
    rw [dmScan] at hp
    split at hp
    · cases hp; dsimp only at hk; omega
    · rename_i hd
      cases k with
      | zero =>
        cases hx
        rw [hperm, Bool.true_and, decide_eq_true_eq] at hd
        omega
      | succ k => exact ih _ hp k x (by omega) hx hperm

theorem dmLookup_first {rom : Rom} {r : Regs} {n idx : Nat} {row : DmRow} (h : dmLookup rom r n = some (idx, row)) :
    ∀ k x, k < idx → rom.dmSym[k]? = some x → dmPermitted r.cfgShape r.cfgMin r.cfgMax x = true → x.data < n := by
  intro k x hk
  exact dmScan_first _ _ h k x (by simpa using hk)

/-- The scan for more codewords stops at the same row where that has room for them. -/
theorem dmScan_mono {shape : BitVec 2} {cmin cmax : SizeReg} {n m : Nat} (hnm : n ≤ m) (rows : List DmRow) :
    ∀ idx, (dmScan shape cmin cmax n idx rows = none → dmScan shape cmin cmax m idx rows = none)
      ∧ ∀ p, dmScan shape cmin cmax n idx rows = some p → m ≤ p.2.data → dmScan shape cmin cmax m idx rows = some p := by
  induction rows with
  | nil => exact fun _ => ⟨id, fun _ h _ => nomatch h⟩
  | cons r rest ih =>
    intro idx
    have hle : decide (m ≤ r.data) = true → decide (n ≤ r.data) = true := by
      rw [decide_eq_true_eq, decide_eq_true_eq]; omega
    simp only [dmScan, Bool.and_eq_true]
    by_cases hn : dmPermitted shape cmin cmax r = true ∧ decide (n ≤ r.data) = true
    · rw [if_pos hn]
      refine ⟨fun h => (nomatch h), fun p hp hm => ?_⟩
      cases hp
      rw [if_pos ⟨hn.1, decide_eq_true hm⟩]
    · rw [if_neg hn, if_neg (fun hm => hn ⟨hm.1, hle hm.2⟩)]
      exact ih _

theorem dmLookup_none_of_le {rom : Rom} {r : Regs} {n m : Nat} (h : dmLookup rom r n = none) (hnm : n ≤ m) :
    dmLookup rom r m = none := (dmScan_mono hnm _ 0).1 h

/-- The row that has room for `n` codewords serves every number between `n` and its capacity. -/
theorem dmLookup_between {rom : Rom} {r : Regs} {n m : Nat} {p : Nat × DmRow} (h : dmLookup rom r n = some p)
    (hnm : n ≤ m) (hm : m ≤ p.2.data) : dmLookup rom r m = some p := (dmScan_mono hnm _ 0).2 p h hm

/-- More codewords take no smaller symbol. -/
theorem dmLookup_data_le {rom : Rom} {r : Regs} {n m : Nat} {p q : Nat × DmRow} (hp : dmLookup rom r n = some p)
    (hq : dmLookup rom r m = some q) (hnm : n ≤ m) : p.2.data ≤ q.2.data := by
  by_cases hm : m ≤ p.2.data
  · rw [dmLookup_between hp hnm hm] at hq
    cases hq
    exact Nat.le_refl _
  · have := (dmLookup_some hq).2.2
    omega

/-! ### The capacity queries -/

/-- A capacity query that answers has found its row, whatever the tables. -/
theorem capQuery_eq_ok {i : EncIn} {e : Enc} {n : Nat} {p : Nat × DmRow} (h : capQuery i e n = .ok p) :
    dmLookup i.rom i.regs n = some p := by
  unfold capQuery at h
  split at h
  · cases h
  · split at h
    · rename_i hq; cases h; exact hq
    · cases h

theorem capFor_eq_ok {i : EncIn} {e : Enc} {n cap : Nat} (h : capFor i e n = .ok cap) :
    ∃ p, dmLookup i.rom i.regs n = some p ∧ p.2.data = cap := by
  unfold capFor at h
  split at h
  · rename_i p hq; cases h; exact ⟨p, capQuery_eq_ok hq, rfl⟩
  · cases h

/-- `capFor` with the default table. -/
theorem capFor_default {i : EncIn} (h : i.rom = romDefault) (e : Enc) (n : Nat) :
    capFor i e n = match dmLookup romDefault i.regs n with
      | some p => .ok p.2.data
      | none => .error (capacityErr e) := by
  rw [capFor, capQuery_default h]
  cases dmLookup romDefault i.regs n <;> rfl

theorem capFor_of_some {i : EncIn} (h : i.rom = romDefault) (e : Enc) {n : Nat} {p : Nat × DmRow}
    (hp : dmLookup romDefault i.regs n = some p) : capFor i e n = .ok p.2.data := by
  rw [capFor_default h, hp]

theorem capFor_of_none {i : EncIn} (h : i.rom = romDefault) (e : Enc) {n : Nat}
    (hp : dmLookup romDefault i.regs n = none) : capFor i e n = .error (capacityErr e) := by
  rw [capFor_default h, hp]

/-! ### The padding -/

/-- The padding of `terminate` from codeword `n` up to the capacity `cap` (rule R205). -/
def padding (n cap : Nat) : List Nat :=
  if n < cap then 129 :: (List.range' (n + 1) (cap - (n + 1))).map (fun j => rand253 (j + 1)) else []

theorem padding_length {n cap : Nat} (h : n ≤ cap) : (padding n cap).length = cap - n := by
  unfold padding
  split
  · simp only [List.length_cons, List.length_map, List.length_range']; omega
  · simp only [List.length_nil]; omega

theorem padding_zero {n cap : Nat} (h : n < cap) : (padding n cap)[0]? = some 129 := by
  rw [padding, if_pos h]; rfl

theorem padding_succ {n cap j : Nat} (hn : n < j) (hj : j < cap) : (padding n cap)[j - n]? = some (rand253 (j + 1)) := by
  obtain ⟨d, rfl⟩ := Nat.exists_eq_add_of_lt hn
  rw [padding, if_pos (by omega), show n + d + 1 - n = d + 1 from by omega, List.getElem?_cons_succ, List.getElem?_map,
    List.getElem?_range' (by omega)]
  simp only [Option.map_some, Nat.one_mul, Nat.add_right_comm]

theorem emitPads_rev (n : Nat) : ∀ e : Enc,
    (emitPads n e).rev.reverse = e.rev.reverse ++ (List.range' e.len n).map (fun j => rand253 (j + 1)) := by
  induction n with
  | zero => intro e; simp [emitPads]
  | succ n ih =>
    intro e
    rw [emitPads, ih, List.range'_succ]
    simp [Enc.emit, Enc.len]

@[simp] theorem emitPads_mode (n : Nat) : ∀ e : Enc, (emitPads n e).mode = e.mode := by
  induction n with
  | zero => exact fun _ => rfl
  | succ n ih => exact fun e => ih _

/-- What stands before the padding: the codewords of the main loop, and the unlatch of a mode that needs one. -/
def closing (e : Enc) (cap : Nat) : List Nat :=
  if e.len < cap ∧ e.mode ≠ .ascii ∧ e.mode ≠ .base256 ∧ e.mode ≠ .edifact then [254] else []

theorem closing_of_mode {e : Enc} (h : e.mode = .ascii ∨ e.mode = .base256) (cap : Nat) : closing e cap = [] := by
  rw [closing, if_neg]
  rcases h with h | h <;> simp [h]

theorem closing_length_le (e : Enc) {cap : Nat} (h : e.len ≤ cap) : e.len + (closing e cap).length ≤ cap := by
  unfold closing
  split
  · rw [List.length_singleton]; omega
  · exact h

/-- The codewords of a completed ENC.DM: those of the main loop and the rest of the symbol (rule R205). -/
def finalCodewords (e : Enc) (cap : Nat) : List Nat :=
  e.rev.reverse ++ (closing e cap ++ padding (e.len + (closing e cap).length) cap)

theorem finalCodewords_length (e : Enc) {cap : Nat} (h : e.len ≤ cap) : (finalCodewords e cap).length = cap := by
  have hc := closing_length_le e h
  rw [finalCodewords, List.length_append, List.length_append, padding_length hc, List.length_reverse]
  change e.len + _ = _
  omega

theorem finalCodewords_of_mode {e : Enc} (h : e.mode = .ascii ∨ e.mode = .base256) (cap : Nat) :
    finalCodewords e cap = e.rev.reverse ++ padding e.len cap := by
  rw [finalCodewords, closing_of_mode h, List.length_nil, Nat.add_zero, List.nil_append]

theorem padded_rev (e : Enc) (cap : Nat) :
    (emitPads (cap - (if e.len < cap then e.emit 129 else e).len) (if e.len < cap then e.emit 129 else e)).rev.reverse
      = e.rev.reverse ++ padding e.len cap := by
  rw [emitPads_rev, padding]
  split
  · simp [Enc.emit, Enc.len]
  · rw [Nat.sub_eq_zero_of_le (by omega)]
    rfl

/-- Everything `terminate` does when it answers (rule R205): the row of its capacity query, and the codewords. -/
theorem encTerminate_ok {i : EncIn} {e u : Enc} {idx : Nat} (h : encTerminate i e = .ok (u, idx)) :
    ∃ row, dmLookup i.rom i.regs e.len = some (idx, row) ∧ symFits idx row = true
      ∧ u.rev.reverse = finalCodewords e row.data ∧ u.mode = e.mode := by
  unfold encTerminate at h
  split at h
  · cases h
  · rename_i idx' row hq
    split at h
    · cases h
    · rename_i hs
      rw [Bool.not_eq_false] at hs
      cases h
      refine ⟨row, capQuery_eq_ok hq, hs, ?_, ?_⟩
      · rw [padded_rev]
        unfold finalCodewords closing
        split <;> simp [Enc.emit, Enc.len]
      · rw [emitPads_mode]
        split <;> split <;> rfl

theorem encTerminate_of_some {i : EncIn} (hr : i.rom = romDefault) {e : Enc} {idx : Nat} {row : DmRow}
    (h : dmLookup romDefault i.regs e.len = some (idx, row)) : ∃ u, encTerminate i e = .ok (u, idx) := by
  rw [encTerminate, capQuery_default hr, h]
  dsimp only
  rw [symFits_default h, if_neg (by decide)]
  exact ⟨_, rfl⟩

theorem encTerminate_of_none {i : EncIn} (hr : i.rom = romDefault) {e : Enc}
    (h : dmLookup romDefault i.regs e.len = none) : encTerminate i e = .error (capacityErr e) := by
  rw [encTerminate, capQuery_default hr, h]

theorem symFits_iff (idx : Nat) (row : DmRow) : symFits idx row = true ↔ idx < 32 ∧ row.data ≤ 4096 := by
  rw [symFits, Bool.and_eq_true, decide_eq_true_eq, decide_eq_true_eq]

/-! ### The command -/

/-- `t` is the completed end of ENC.DM on `s`: the main loop ended with `e`, and the symbol is row `idx` (rule R205). -/
structure EncDone (s t : State) (e : Enc) (idx : Nat) (row : DmRow) : Prop where
  loop : encLoop s.encBegin.encIn (Config.fuelEncDm s.regs.txtLen.toNat) s.encBegin.enc = .ok (e, true)
  completed : t.Completed
  lookup : dmLookup s.rom s.regs e.len = some (idx, row)
  small : idx < 32 ∧ row.data ≤ 4096
  sym : t.regs.sym.toNat = idx
  resMode : t.regs.resMode = BitVec.ofNat 4 e.mode.num
  cwLen : t.regs.cwLen.toNat = row.data
  cws : ∀ j x, (finalCodewords e row.data)[j]? = some x → t.mem.cw.read j = BitVec.ofNat 8 x

theorem EncDone.le {s t : State} {e : Enc} {idx : Nat} {row : DmRow} (h : EncDone s t e idx row) : e.len ≤ row.data :=
  (dmLookup_some h.lookup).2.2

theorem State.encAdvance_done {s : State} {e u : Enc} {idx : Nat}
    (hl : encLoop s.encBegin.encIn (Config.fuelEncDm s.regs.txtLen.toNat) s.encBegin.enc = .ok (e, true))
    (ht : encTerminate s.encBegin.encIn e = .ok (u, idx)) :
    s.encBegin.encAdvance (Config.fuelEncDm s.regs.txtLen.toNat) = (s.encBegin.setEncResult u idx).complete
      ∧ ∃ row, EncDone s (s.encBegin.setEncResult u idx).complete e idx row := by
  obtain ⟨row, hrow, hfits, hrev, hmode⟩ := encTerminate_ok ht
  have hsmall := (symFits_iff idx row).mp hfits
  have hlen : u.rev.reverse.length = row.data := by
    rw [hrev]; exact finalCodewords_length e (dmLookup_some hrow).2.2
  refine ⟨by rw [State.encAdvance, hl]; dsimp only; rw [ht], row, hl, State.complete_completed _, hrow, hsmall, ?_, ?_, ?_, ?_⟩
  · change (BitVec.ofNat 5 idx).toNat = idx
    rw [BitVec.toNat_ofNat]
    exact Nat.mod_eq_of_lt hsmall.1
  · change BitVec.ofNat 4 u.mode.num = _
    rw [hmode]
  · change (BitVec.ofNat 16 u.len).toNat = _
    rw [Enc.len, ← List.length_reverse, hlen, BitVec.toNat_ofNat]
    omega
  · intro j x hx
    change (Buf.ofList _ ((u.rev.reverse.take 4096).map (BitVec.ofNat 8))).read j = _
    rw [List.take_of_length_le (by omega), hrev]
    obtain ⟨hj, rfl⟩ := List.getElem?_eq_some_iff.mp hx
    rw [Buf.read_ofList _ _ _ (by rwa [List.length_map]), List.getElem_map]

theorem execEncDm_of_legal {s : State} (h : s.regs.cfgShape ≠ 3 ∧ s.regs.txtLen.toNat ≤ 8192) :
    exec .encDm s = .next (s.encBegin.encAdvance (Config.fuelEncDm s.regs.txtLen.toNat)) := by
  change execEncDm s = _
  rw [execEncDm, if_pos ((encDmLegal_iff _).mpr h)]

/-- ENC.DM completes where its main loop does and a row has room. -/
theorem execEncDm_completes {s : State} (h : s.regs.cfgShape ≠ 3 ∧ s.regs.txtLen.toNat ≤ 8192) (hr : s.rom = romDefault)
    {e : Enc} {idx : Nat} {row : DmRow}
    (hl : encLoop s.encBegin.encIn (Config.fuelEncDm s.regs.txtLen.toNat) s.encBegin.enc = .ok (e, true))
    (hrow : dmLookup s.rom s.regs e.len = some (idx, row)) :
    ∃ t, exec .encDm s = .next t ∧ EncDone s t e idx row := by
  obtain ⟨u, ht⟩ := encTerminate_of_some (i := s.encBegin.encIn) hr (e := e) (idx := idx) (row := row) (hr ▸ hrow)
  obtain ⟨ha, row', hd⟩ := State.encAdvance_done hl ht
  obtain rfl : row' = row := congrArg Prod.snd (Option.some.inj (hd.lookup.symm.trans hrow))
  exact ⟨_, (execEncDm_of_legal h).trans (congrArg _ ha), hd⟩

/-- ENC.DM that completes was legal and ended its main loop. -/
theorem execEncDm_completed {s t : State} (h : exec .encDm s = .next t) (hc : t.Completed) :
    (s.regs.cfgShape ≠ 3 ∧ s.regs.txtLen.toNat ≤ 8192) ∧ ∃ e idx row, EncDone s t e idx row := by
  obtain ⟨hidle, -, hok, -⟩ := hc
  change execEncDm s = _ at h
  unfold execEncDm at h
  split at h <;> cases h
  · rename_i hlegal
    refine ⟨(encDmLegal_iff _).mp hlegal, ?_⟩
    cases hl : encLoop s.encBegin.encIn (Config.fuelEncDm s.regs.txtLen.toNat) s.encBegin.enc with
    | error r =>
      rw [State.encAdvance, hl] at hok
      cases hok.symm.trans (State.raise_faulted _ _ _ _ _).2.2.1
    | ok p =>
      obtain ⟨e, _ | _⟩ := p
      · rw [State.encAdvance, hl] at hidle
        cases hidle
      · cases ht : encTerminate s.encBegin.encIn e with
        | error r =>
          rw [State.encAdvance, hl] at hok
          dsimp only at hok
          rw [ht] at hok
          cases hok.symm.trans (State.raise_faulted _ _ _ _ _).2.2.1
        | ok p =>
          obtain ⟨u, idx⟩ := p
          obtain ⟨ha, row, hd⟩ := State.encAdvance_done hl ht
          exact ⟨e, idx, row, ha ▸ hd⟩
  · cases hok

/-- The codewords of the main loop stand at the front. -/
theorem EncDone.front {s t : State} {e : Enc} {idx : Nat} {row : DmRow} (h : EncDone s t e idx row) {j x : Nat}
    (hx : e.rev.reverse[j]? = some x) : t.mem.cw.read j = BitVec.ofNat 8 x := by
  obtain ⟨hj, -⟩ := List.getElem?_eq_some_iff.mp hx
  refine h.cws j x ?_
  rw [finalCodewords, List.getElem?_append_left hj, hx]

/-- Settles O40: the row of the last capacity query is the first permitted one with room. -/
theorem encDmFillsItsSymbol : Obligations.EncDmFillsItsSymbol := by
  intro s t h hc
  obtain ⟨-, e, idx, row, hd⟩ := execEncDm_completed h hc
  obtain ⟨hrow, hperm, hle⟩ := dmLookup_some hd.lookup
  rw [hd.sym]
  exact ⟨e, row, hd.loop, hrow, hperm, hle, dmLookup_first hd.lookup, hd.cwLen,
    fun j hj => hd.front (List.getElem?_eq_getElem hj)⟩

end Sys2Proof.Machine
end

section
/-! What one round of ENC.DM does, said once for each mode (40_tce_datamatrix.md rule R204, R220 to R262): the characters it takes,
the codewords it emits, and how it ends. -/

namespace Sys2Proof.Machine

/-! ### The text left -/

theorem encRest_length (i : EncIn) (e : Enc) : (encRest i e).length = encTotal i e - e.pos := by
  simp only [encRest, List.length_take, List.length_drop, encTotal]; omega

theorem encMore_iff (i : EncIn) (e : Enc) : encMore i e = true ↔ encRest i e ≠ [] := by
  rw [encMore, decide_eq_true_eq, ← List.length_pos_iff, encRest_length]; omega

theorem encMore_eq_false (i : EncIn) (e : Enc) : encMore i e = false ↔ encRest i e = [] := by
  rw [← Bool.not_eq_true, encMore_iff, not_not]

/-- Further on, less of the text is left. -/
theorem encRest_drop {i : EncIn} {e t : Enc} {n : Nat} (hs : t.skip = e.skip) (hp : t.pos = e.pos + n) :
    encRest i t = (encRest i e).drop n := by
  simp only [encRest, encTotal, hs, hp, List.drop_take, List.drop_drop, Nat.sub_sub, Nat.add_assoc]

theorem encRest_congr {i : EncIn} {e t : Enc} (hs : t.skip = e.skip) (hp : t.pos = e.pos) : encRest i t = encRest i e := by
  simp only [encRest, encTotal, hs, hp]

theorem encMore_congr {i : EncIn} {e t : Enc} (hs : t.skip = e.skip) (hp : t.pos = e.pos) : encMore i t = encMore i e := by
  rw [encMore, encMore, encTotal, encTotal, hs, hp]

/-- What follows in TXT: the text left, and what lies behind its total. -/
theorem drop_pos_eq (i : EncIn) {e : Enc} (h : e.pos ≤ encTotal i e) :
    i.txt.drop e.pos = encRest i e ++ i.txt.drop (encTotal i e) := by
  rw [encRest, show i.txt.drop (encTotal i e) = (i.txt.drop e.pos).drop (encTotal i e - e.pos) from by
    rw [List.drop_drop]; congr 1; omega, List.take_append_drop]

theorem drop_pos_of_rest {i : EncIn} {e : Enc} {c : Nat} {rest : List Nat} (h : encRest i e = c :: rest) :
    i.txt.drop e.pos = c :: (rest ++ i.txt.drop (encTotal i e)) := by
  have hlen := encRest_length i e
  rw [h, List.length_cons] at hlen
  rw [drop_pos_eq i (by omega), h, List.cons_append]

/-- The codewords `cs` were emitted between `e` and `t`. -/
def Enc.Emits (e t : Enc) (cs : List Nat) : Prop := t.rev.reverse = e.rev.reverse ++ cs

theorem Enc.Emits.len {e t : Enc} {cs : List Nat} (h : e.Emits t cs) : t.len = e.len + cs.length := by
  have := congrArg List.length h
  rwa [List.length_append, List.length_reverse, List.length_reverse] at this

theorem Enc.Emits.nil {e t : Enc} (h : t.rev = e.rev) : e.Emits t [] := by
  rw [Enc.Emits, h, List.append_nil]

theorem Enc.Emits.trans {e t u : Enc} {cs ds : List Nat} (h : e.Emits t cs) (k : t.Emits u ds) : e.Emits u (cs ++ ds) := by
  rw [Enc.Emits, k, h, List.append_assoc]

theorem Enc.emits_emit (e : Enc) (b : Nat) : e.Emits (e.emit b) [b] := List.reverse_cons

theorem Enc.emits_emitAll (e : Enc) (bs : List Nat) : e.Emits (e.emitAll bs) bs := by
  simp [Enc.Emits, Enc.emitAll]

/-! ### ASCII mode (rule R220) -/

/-- The two characters are digits, so one codeword stands for both. -/
def isPair (xs : List Nat) : Bool :=
  match xs with
  | c :: d :: _ => isDigit c && isDigit d
  | _ => false

/-- Everything a step in ASCII mode can do on the characters left. -/
theorem asciiStep_cases {i : EncIn} {e : Enc} {c : Nat} {rest : List Nat} (h : i.txt.drop e.pos = c :: rest) :
    (∃ d xs, rest = d :: xs ∧ isDigit c = true ∧ isDigit d = true
        ∧ asciiStep i e = { e.emit (130 + 10 * (c - 48) + (d - 48)) with pos := e.pos + 2 })
    ∨ isPair (c :: rest) = false ∧
      (((encLook i e .ascii).mode ≠ .ascii
          ∧ asciiStep i e = { (e.looked (encLook i e .ascii)).emit (latch (encLook i e .ascii).mode) with
              new := some (encLook i e .ascii).mode })
      ∨ ((encLook i e .ascii).mode = .ascii ∧ 128 ≤ c
          ∧ asciiStep i e = { ((e.looked (encLook i e .ascii)).emit 235).emit (c - 127) with pos := e.pos + 1 })
      ∨ ((encLook i e .ascii).mode = .ascii ∧ c < 128
          ∧ asciiStep i e = { (e.looked (encLook i e .ascii)).emit (c + 1) with pos := e.pos + 1 })) := by
  unfold asciiStep
  rw [h]
  dsimp only
  split
  · rename_i hp
    cases rest with
    | nil => simp at hp
    | cons d xs =>
      simp only [List.head?_cons, Option.map_some, Option.getD_some, Bool.and_eq_true] at hp
      exact .inl ⟨d, xs, rfl, hp.1, hp.2, rfl⟩
  · rename_i hp
    refine .inr ⟨?_, ?_⟩
    · cases rest with
      | nil => rfl
      | cons d xs => simpa [isPair] using hp
    split
    · exact .inl ⟨‹_›, rfl⟩
    · rename_i hm
      rw [not_not] at hm
      split
      · rename_i hx; exact .inr (.inl ⟨hm, of_decide_eq_true hx, rfl⟩)
      · rename_i hx; exact .inr (.inr ⟨hm, Nat.lt_of_not_le (fun hc => hx (decide_eq_true hc)), rfl⟩)

/-! ### Triplets (rule R230 to R241) -/

theorem tripletCodewords_append (a b : List Nat) (h : a.length % 3 = 0) :
    tripletCodewords (a ++ b) = tripletCodewords a ++ tripletCodewords b := by
  induction a using tripletCodewords.induct with
  | case1 x y z rest ih =>
    simp only [List.length_cons] at h
    simp only [List.cons_append, tripletCodewords, ih (by omega), List.append_assoc]
  | case2 xs hx =>
    match xs, hx with
    | [], _ => rfl
    | [_], _ => simp at h
    | [_, _], _ => simp at h
    | _ :: _ :: _ :: _, hx => exact absurd rfl (hx _ _ _ _)

theorem tripletCodewords_length (vs : List Nat) : (tripletCodewords vs).length = 2 * (vs.length / 3) := by
  induction vs using tripletCodewords.induct with
  | case1 x y z rest ih =>
    simp only [tripletCodewords, List.length_append, ih, packTriplet, List.length_cons, List.length_nil]
    omega
  | case2 xs hx =>
    match xs, hx with
    | [], _ => rfl
    | [_], _ => simp [tripletCodewords]
    | [_, _], _ => simp [tripletCodewords]
    | _ :: _ :: _ :: _, hx => exact absurd rfl (hx _ _ _ _)

theorem writeTriplets_emits (e : Enc) : e.Emits (writeTriplets e) (tripletCodewords e.vb) := e.emits_emitAll _

/-- How a run of whole triplets ends (rule R232, R241): with the unlatch, or open where the symbol leaves the codeword of one
more step in ASCII mode at most, and that step fills it. -/
inductive PairEnd (i : EncIn) (e t : Enc) (body : List Nat) : Prop where
  | unlatched (h : e.Emits t (body ++ [254]))
  | bare (h : e.Emits t body) (p : Nat × DmRow) (lookup : dmLookup i.rom i.regs t.len = some p)
      (one : remCw (encRest i t) ≤ 1) (fills : p.2.data = t.len + remCw (encRest i t))

/-- A run in C40, Text or X12 mode from `e` to `t`: the characters `ws` are taken, the values `vs` written, and ASCII mode is
next. -/
structure PairRun (i : EncIn) (e t : Enc) (ws vs : List Nat) : Prop where
  pre : ws <+: encRest i e
  pos : t.pos = e.pos + ws.length
  skip : t.skip = e.skip
  new : t.new = some .ascii
  whole : vs.length % 3 = 0
  takes : ws = [] ∨ vs ≠ []
  ending : PairEnd i e t (tripletCodewords vs)

/-! ### C40 and Text (rule R230 to R233) -/

/-- `t` has buffered the characters `ws` since `e`. -/
structure Buffered (i : EncIn) (m : Mode) (e t : Enc) (ws : List Nat) : Prop where
  vb : t.vb = ws.flatMap (c40TextValues m)
  sz : t.sz = (ws.map (fun c => (c40TextValues m c).length)).reverse
  pos : t.pos = e.pos + ws.length
  pre : ws <+: encRest i e
  rev : t.rev = e.rev
  skip : t.skip = e.skip

theorem Buffered.looked {i : EncIn} {m : Mode} {e t : Enc} {ws : List Nat} (h : Buffered i m e t ws) (v : La) :
    Buffered i m e (t.looked v) ws := ⟨h.vb, h.sz, h.pos, h.pre, h.rev, h.skip⟩

/-- `back()` gives the last character back (rule R231). -/
theorem Buffered.back {i : EncIn} {m : Mode} {e t : Enc} {ws : List Nat} {c : Nat} (h : Buffered i m e t (ws ++ [c])) :
    Buffered i m e (c40Back t) ws ∧ encMore i (c40Back t) = true := by
  obtain ⟨vb, sz, pos, pre, rev, skip⟩ := h
  have hlen := pre.length_le
  rw [List.length_append, List.length_singleton, encRest_length] at hlen
  rw [List.length_append, List.length_singleton] at pos
  rw [List.flatMap_append, List.flatMap_singleton] at vb
  rw [List.map_append, List.reverse_append] at sz
  refine ⟨⟨?_, ?_, ?_, (List.prefix_append ws [c]).trans pre, rev, skip⟩, ?_⟩
  · simp [c40Back, vb, sz]
  · simp [c40Back, sz]
  · simp only [c40Back, pos]; omega
  · simp only [encMore, encTotal, c40Back, skip, pos, decide_eq_true_eq] at hlen ⊢
    omega

/-- A rest of one value that stays: nothing is left, the last character is below 128, and one codeword of room (rule R230). -/
def RestOne (i : EncIn) (t : Enc) : Prop :=
  encMore i t = false ∧ lastIsExt i t = false ∧ c40Avail i t = .ok 1

theorem c40BackOne_spec {i : EncIn} {m : Mode} {e u : Enc} (ws : List Nat) : ∀ t, Buffered i m e t ws →
    c40BackOne i ws.length t = .ok u → ∃ xs, Buffered i m e u xs ∧ (u.vb.length % 3 = 1 → RestOne i u)
      ∧ (u = t ∨ encMore i u = true) := by
  induction ws using List.reverseRecOn with
  | nil =>
    intro t hb h
    cases h
    refine ⟨[], hb, fun h1 => ?_, .inl rfl⟩
    rw [hb.vb] at h1
    cases h1
  | append_singleton ws c ih =>
    intro t hb h
    rw [List.length_append, List.length_singleton, c40BackOne] at h
    have again : c40BackOne i ws.length (c40Back t) = .ok u → ∃ xs, Buffered i m e u xs
        ∧ (u.vb.length % 3 = 1 → RestOne i u) ∧ (u = t ∨ encMore i u = true) := by
      intro h
      obtain ⟨xs, hxs, h1, h2⟩ := ih _ hb.back.1 h
      refine ⟨xs, hxs, h1, .inr ?_⟩
      rcases h2 with rfl | h2
      · exact hb.back.2
      · exact h2
    split at h
    · split at h
      · exact again h
      · rename_i hno
        simp only [Bool.or_eq_true, not_or, Bool.not_eq_true] at hno
        split at h
        · cases h
        · rename_i av hav
          split at h
          · exact again h
          · rename_i h1
            cases h
            exact ⟨_, hb, fun _ => ⟨hno.1, hno.2, hav.trans (congrArg _ (not_not.mp h1))⟩, .inl rfl⟩
    · rename_i h1; cases h; exact ⟨_, hb, fun h => absurd h h1, .inl rfl⟩

/-- How the buffering of a C40 or Text run can end (rule R230). -/
structure C40Stop (i : EncIn) (m : Mode) (e t : Enc) (ws : List Nat) : Prop extends Buffered i m e t ws where
  restOne : t.vb.length % 3 = 1 → RestOne i t
  restTwo : t.vb.length % 3 = 2 → encMore i t = true ∨ c40Avail i t = .ok 2

theorem c40BackTwo_spec {i : EncIn} {m : Mode} {e t u : Enc} {ws : List Nat} (hb : Buffered i m e t ws)
    (h : c40BackTwo i t = .ok u) :
    ∃ xs, Buffered i m e u xs ∧ (u.vb.length % 3 = 2 → encMore i u = true ∨ c40Avail i u = .ok 2) := by
  unfold c40BackTwo at h
  split at h
  · rename_i h2
    split at h
    · cases h
    · rename_i av hav
      cases h
      split
      · obtain rfl | ⟨xs, c, rfl⟩ := List.eq_nil_or_concat' ws
        · rw [hb.vb] at h2; cases h2
        · exact ⟨xs, hb.back.1, fun _ => .inl hb.back.2⟩
      · rename_i hne
        exact ⟨ws, hb, fun _ => .inr (hav.trans (congrArg _ (not_not.mp hne)))⟩
  · rename_i h2; cases h; exact ⟨ws, hb, fun h => absurd h h2⟩

theorem c40Loop_spec {i : EncIn} {m : Mode} {e u : Enc} (chars : List Nat) : ∀ t ws, Buffered i m e t ws → chars ≠ [] →
    ws ++ chars = encRest i e → c40Loop i m t chars = .ok u → ∃ xs, C40Stop i m e u xs := by
  induction chars with
  | nil => exact fun _ _ _ h => absurd rfl h
  | cons c rest ih =>
    intro t ws hb _ hrest h
    have htaken : Buffered i m e { t with
        pos := t.pos + 1, vb := t.vb ++ c40TextValues m c, sz := (c40TextValues m c).length :: t.sz } (ws ++ [c]) := by
      refine ⟨?_, ?_, ?_, ⟨rest, by rw [List.append_assoc]; exact hrest⟩, hb.rev, hb.skip⟩
      · simp [hb.vb]
      · simp [hb.sz]
      · simp only [hb.pos, List.length_append, List.length_singleton, Nat.add_assoc]
    have hsplit : ws ++ [c] ++ rest = encRest i e := by rw [List.append_assoc]; exact hrest
    rw [c40Loop] at h
    dsimp only at h
    split at h
    · cases h
    split at h
    · split at h
      · cases h
      · rename_i v hv
        obtain ⟨xs, hxs, h2⟩ := c40BackTwo_spec htaken hv
        have hlen : v.sz.length = xs.length := by rw [hxs.sz, List.length_reverse, List.length_map]
        rw [hlen] at h
        obtain ⟨ys, hys, h1, hsame⟩ := c40BackOne_spec xs v hxs h
        refine ⟨ys, hys, h1, fun h3 => ?_⟩
        rcases hsame with rfl | hm
        · exact h2 h3
        · exact .inl hm
    · rename_i hne
      have hrest' : rest ≠ [] := fun h => hne (by rw [h]; rfl)
      split at h
      · rename_i h0
        split at h
        · cases h
          refine ⟨_, htaken.looked _, fun h1 => ?_, fun h2 => ?_⟩
          · exact absurd (h0.symm.trans h1) (by decide)
          · exact absurd (h0.symm.trans h2) (by decide)
        · exact ih _ _ (htaken.looked _) hrest' hsplit h
      · exact ih _ _ htaken hrest' hsplit h

theorem c40Avail_eq_ok {i : EncIn} {e : Enc} {av : Nat} (h : c40Avail i e = .ok av) :
    ∃ p, dmLookup i.rom i.regs (e.len + 2 * (e.vb.length / 3)) = some p
      ∧ p.2.data = e.len + 2 * (e.vb.length / 3) + av := by
  unfold c40Avail at h
  dsimp only at h
  split at h
  · rename_i cap hc
    cases h
    obtain ⟨p, hp, rfl⟩ := capFor_eq_ok hc
    have := (dmLookup_some hp).2.2
    exact ⟨p, hp, by omega⟩
  · cases h

/-- The values of a character below 128: one, or a shift below 3 and one. -/
theorem c40TextValues_of_lt (m : Mode) {c : Nat} (h : c < 128) :
    (∃ v, c40TextValues m c = [v]) ∨ ∃ s v, s < 3 ∧ c40TextValues m c = [s, v] := by
  have spelt : ∀ {basic shift3 : Nat → Nat} {vs : List Nat}, SpeltBy basic shift3 c vs →
      (∃ v, vs = [v]) ∨ ∃ s v, s < 3 ∧ vs = [s, v] := by
    rintro _ _ _ (⟨v, rfl, -⟩ | ⟨rfl, -⟩ | ⟨v, rfl, -⟩ | ⟨v, rfl, -⟩)
    · exact .inl ⟨v, rfl⟩
    · exact .inr ⟨0, c, by decide, rfl⟩
    · exact .inr ⟨1, v, by decide, rfl⟩
    · exact .inr ⟨2, v, by decide, rfl⟩
  unfold c40TextValues
  split
  · rw [textValues_of_lt h]; exact spelt (textLow_speltBy h)
  · rw [c40Values_of_lt h]; exact spelt (c40Low_speltBy h)

theorem c40TextValues_ne_nil (m : Mode) (c : Nat) : c40TextValues m c ≠ [] := by
  by_cases h : c < 128
  · rcases c40TextValues_of_lt m h with ⟨v, hv⟩ | ⟨s, v, -, hv⟩ <;> rw [hv] <;> exact List.cons_ne_nil _ _
  · unfold c40TextValues textValues c40Values
    split
    · rw [if_pos (by omega)]; exact List.cons_ne_nil _ _
    · rw [if_pos (by omega)]; exact List.cons_ne_nil _ _

theorem flatMap_values_ne_nil (m : Mode) {ws : List Nat} (h : ws ≠ []) : ws.flatMap (c40TextValues m) ≠ [] := by
  obtain ⟨c, xs, rfl⟩ := List.exists_cons_of_ne_nil h
  rw [List.flatMap_cons]
  exact fun hnil => c40TextValues_ne_nil m c (List.append_eq_nil_iff.mp hnil).1

/-- What a C40 or Text run writes behind its whole characters: nothing, or a shift value that no value follows. -/
def Dangling (extra : List Nat) : Prop := extra = [] ∨ ∃ v, v < 3 ∧ extra = [v]

/-- The last character buffered stands before pos. -/
theorem Buffered.last {i : EncIn} {m : Mode} {e t : Enc} {ws : List Nat} {c : Nat} (h : Buffered i m e t (ws ++ [c])) :
    i.txt[t.pos - 1]? = some c := by
  obtain ⟨tail, htail⟩ := h.pre
  have hc : (encRest i e)[ws.length]? = some c := by rw [← htail]; simp
  have hlt : ws.length < encTotal i e - e.pos := by
    rw [← encRest_length]; exact (List.getElem?_eq_some_iff.mp hc).1
  rw [h.pos, List.length_append, List.length_singleton]
  rw [encRest, List.getElem?_take_of_lt hlt, List.getElem?_drop] at hc
  exact hc

/-- What `c40End` does in each of its cases (rule R232). -/
theorem c40End_cases {i : EncIn} {t u : Enc} (h : c40End i t = .ok u) :
    u.skip = t.skip ∧ u.new = some .ascii ∧ ∃ av, c40Avail i t = .ok av ∧
      ((t.vb.length % 3 = 2 ∧ u.pos = t.pos
          ∧ t.Emits u (tripletCodewords (t.vb ++ [0]) ++ if encMore i t = true then [254] else []))
      ∨ (t.vb.length % 3 = 1 ∧ u.pos = t.pos - 1 ∧ t.Emits u (tripletCodewords t.vb))
      ∨ (t.vb.length % 3 = 0 ∧ u.pos = t.pos
          ∧ t.Emits u (tripletCodewords t.vb ++ if 0 < av ∨ encMore i t = true then [254] else []))) := by
  unfold c40End at h
  split at h
  · cases h
  rename_i av hav
  dsimp only at h
  split at h
  · rename_i h2
    cases h
    have hw := writeTriplets_emits { t with vb := t.vb ++ [0] }
    refine ⟨by dsimp only; split <;> rfl, rfl, av, hav, .inl ⟨h2, by dsimp only; split <;> rfl, ?_⟩⟩
    split
    · exact hw.trans (Enc.emits_emit _ 254)
    · exact hw.trans (.nil rfl)
  split at h
  · rename_i h1
    cases h
    exact ⟨rfl, rfl, av, hav, .inr (.inl ⟨h1, rfl, writeTriplets_emits t⟩)⟩
  · cases h
    have hw := writeTriplets_emits t
    refine ⟨by dsimp only; split <;> rfl, rfl, av, hav, .inr (.inr ⟨by omega, by dsimp only; split <;> rfl, ?_⟩)⟩
    split
    · exact hw.trans (Enc.emits_emit _ 254)
    · exact hw.trans (.nil rfl)

/-- The last character of a rest of one value: below 128, its values but the last written (rule R232). -/
theorem C40Stop.restOne_split {i : EncIn} {m : Mode} {e t : Enc} {ws : List Nat} (hs : C40Stop i m e t ws)
    (h1 : t.vb.length % 3 = 1) :
    ∃ xs extra c v, ws = xs ++ [c] ∧ c < 128 ∧ Dangling extra ∧ encRest i e = xs ++ [c]
      ∧ t.vb = (xs.flatMap (c40TextValues m) ++ extra) ++ [v] := by
  obtain ⟨hmore, hext, -⟩ := hs.restOne h1
  obtain rfl | ⟨xs, c, rfl⟩ := List.eq_nil_or_concat' ws
  · rw [hs.vb] at h1; cases h1
  have hc : c < 128 := by
    rw [lastIsExt, hs.last, Option.getD_some, isExt, decide_eq_false_iff_not] at hext
    omega
  have hall : encRest i e = xs ++ [c] := by
    obtain ⟨tail, htail⟩ := hs.pre
    have hr := encRest_drop (i := i) hs.skip hs.pos
    rw [(encMore_eq_false i t).mp hmore, ← htail, List.drop_left] at hr
    rw [← htail, ← hr, List.append_nil]
  rcases c40TextValues_of_lt m hc with ⟨v, hv⟩ | ⟨s, v, hs3, hv⟩
  · refine ⟨xs, [], c, v, rfl, hc, .inl rfl, hall, ?_⟩
    rw [hs.vb, List.flatMap_append, List.flatMap_singleton, hv, List.append_nil]
  · refine ⟨xs, [s], c, v, rfl, hc, .inr ⟨s, hs3, rfl⟩, hall, ?_⟩
    rw [hs.vb, List.flatMap_append, List.flatMap_singleton, hv, List.append_assoc]
    rfl

theorem c40End_spec {i : EncIn} {m : Mode} {e t u : Enc} {ws : List Nat} (hs : C40Stop i m e t ws)
    (h : c40End i t = .ok u) :
    ∃ xs extra, Dangling extra ∧ PairRun i e u xs (xs.flatMap (c40TextValues m) ++ extra) := by
  obtain ⟨hskip, hnew, av, hav, hcases⟩ := c40End_cases h
  obtain ⟨p, hp, hdata⟩ := c40Avail_eq_ok hav
  have hnil : e.Emits t [] := .nil hs.rev
  have hskip' : u.skip = e.skip := hskip.trans hs.skip
  have some_of : ∀ xs extra, xs = [] ∨ xs.flatMap (c40TextValues m) ++ extra ≠ [] := by
    intro xs extra
    by_cases hx : xs = []
    · exact .inl hx
    · exact .inr (fun h => flatMap_values_ne_nil m hx (List.append_eq_nil_iff.mp h).1)
  rcases hcases with ⟨h2, hpos, hem⟩ | ⟨h1, hpos, hem⟩ | ⟨h0, hpos, hem⟩
  · rw [hs.vb] at hem
    have hlen : (ws.flatMap (c40TextValues m) ++ [0]).length = t.vb.length + 1 := by
      rw [hs.vb, List.length_append, List.length_singleton]
    refine ⟨ws, [0], .inr ⟨0, by decide, rfl⟩, hs.pre, hpos.trans hs.pos, hskip', hnew, by omega, some_of _ _, ?_⟩
    cases hm : encMore i t with
    | true => rw [hm] at hem; exact .unlatched (hnil.trans hem)
    | false =>
      rw [hm, if_neg (by decide), List.append_nil] at hem
      obtain rfl : av = 2 := by
        rcases hs.restTwo h2 with h | h
        · rw [hm] at h; cases h
        · exact Except.ok.inj (hav.symm.trans h)
      have hrest : encRest i u = [] := (encRest_congr hskip hpos).trans ((encMore_eq_false i t).mp hm)
      have hulen := hem.len
      rw [tripletCodewords_length, hlen] at hulen
      refine .bare (hnil.trans hem) p (dmLookup_between hp (by omega) (by omega)) ?_ ?_
      · rw [hrest]; decide
      · rw [hrest]; change p.2.data = u.len + 0; omega
  · obtain ⟨xs, extra, c, v, rfl, hc, hextra, hall, hvb⟩ := hs.restOne_split h1
    obtain rfl : av = 1 := Except.ok.inj (hav.symm.trans (hs.restOne h1).2.2)
    have hpos' : u.pos = e.pos + xs.length := by
      rw [hpos, hs.pos, List.length_append, List.length_singleton]; omega
    have hwhole : (xs.flatMap (c40TextValues m) ++ extra).length % 3 = 0 := by
      rw [hvb, List.length_append, List.length_singleton] at h1; omega
    have hbody : tripletCodewords t.vb = tripletCodewords (xs.flatMap (c40TextValues m) ++ extra) := by
      rw [hvb, tripletCodewords_append _ _ hwhole]; exact List.append_nil _
    have hulen := hem.len
    rw [tripletCodewords_length] at hulen
    have hrest : encRest i u = [c] := by rw [encRest_drop hskip' hpos', hall, List.drop_left]
    have hrem : remCw [c] = 1 := if_neg (by rw [isExt, decide_eq_true_eq]; omega)
    refine ⟨xs, extra, hextra, ⟨[c], hall.symm⟩, hpos', hskip', hnew, hwhole, some_of _ _, ?_⟩
    refine .bare (hbody ▸ hnil.trans hem) p (hulen ▸ hp) ?_ ?_
    · rw [hrest, hrem]
    · rw [hrest, hrem]; omega
  · rw [hs.vb] at hem
    have hlen := congrArg List.length hs.vb
    refine ⟨ws, [], .inl rfl, hs.pre, hpos.trans hs.pos, hskip', hnew, ?_, some_of _ _, ?_⟩
    · rw [List.append_nil]; omega
    rw [List.append_nil]
    by_cases hun : 0 < av ∨ encMore i t = true
    · rw [if_pos hun] at hem; exact .unlatched (hnil.trans hem)
    · rw [if_neg hun, List.append_nil] at hem
      obtain ⟨hav0, hm⟩ := not_or.mp hun
      have hrest : encRest i u = [] :=
        (encRest_congr hskip hpos).trans ((encMore_eq_false i t).mp (Bool.not_eq_true _ ▸ hm))
      have hulen := hem.len
      rw [tripletCodewords_length, ← hlen] at hulen
      refine .bare (hnil.trans hem) p (hulen ▸ hp) ?_ ?_
      · rw [hrest]; decide
      · rw [hrest]; change p.2.data = u.len + 0; omega

/-- Everything a C40 or Text run can do (rule R230 to R233). -/
theorem c40Run_spec {i : EncIn} {m : Mode} {e u : Enc} (he : encMore i e = true) (h : c40Run i m e = .ok u) :
    ∃ ws extra, Dangling extra ∧ PairRun i e u ws (ws.flatMap (c40TextValues m) ++ extra) := by
  unfold c40Run at h
  split at h
  · cases h
  · rename_i t ht
    have h0 : Buffered i m e { e with vb := [], sz := [] } [] := ⟨rfl, rfl, rfl, List.nil_prefix, rfl, rfl⟩
    obtain ⟨ws, hs⟩ := c40Loop_spec _ _ [] h0 ((encMore_iff i e).mp he) rfl ht
    exact c40End_spec hs h

/-! ### Runs of whole groups (rule R240, R250) -/

/-- The value of a character that has one. -/
def valueOf (val : Nat → Option Nat) (c : Nat) : Nat := (val c).getD 0

/-- What the loop of an X12 or EDIFACT run has done, `g` values making a group: the characters `ws` are written, and the values
of `left` are in VB. -/
structure GroupStop (val : Nat → Option Nat) (g : Nat) (code : List Nat → List Nat) (i : EncIn) (e t : Enc)
    (ws left : List Nat) : Prop where
  pre : ws ++ left <+: encRest i e
  native : ∀ c ∈ ws ++ left, val c = some (valueOf val c)
  whole : ws.length % g = 0
  vb : t.vb = left.map (valueOf val)
  pos : t.pos = e.pos + (ws ++ left).length
  skip : t.skip = e.skip
  emits : e.Emits t (code (ws.map (valueOf val)))

section
variable {val : Nat → Option Nat} {g : Nat} {code : List Nat → List Nat} {i : EncIn} {e t u : Enc} {ws left : List Nat}

theorem GroupStop.start (hc : code [] = []) : GroupStop val g code i e { e with vb := [], sz := [] } [] [] :=
  ⟨List.nil_prefix, fun _ hd => (nomatch hd), Nat.zero_mod g, rfl, rfl, rfl, by rw [List.map_nil, hc]; exact .nil rfl⟩

theorem GroupStop.count (h : GroupStop val g code i e t ws left) : t.vb.length = left.length := by
  rw [h.vb, List.length_map]

theorem GroupStop.looked (h : GroupStop val g code i e t ws left) (v : La) : GroupStop val g code i e (t.looked v) ws left :=
  ⟨h.pre, h.native, h.whole, h.vb, h.pos, h.skip, h.emits⟩

/-- A character taken into VB. -/
theorem GroupStop.take (h : GroupStop val g code i e t ws left) {c x : Nat} (hx : val c = some x)
    (hpre : ws ++ (left ++ [c]) <+: encRest i e) :
    GroupStop val g code i e { t with pos := t.pos + 1, vb := t.vb ++ [x] } ws (left ++ [c]) := by
  have hc : valueOf val c = x := by rw [valueOf, hx]; rfl
  refine ⟨hpre, fun d hd => ?_, h.whole, ?_, ?_, h.skip, h.emits⟩
  · rw [← List.append_assoc, List.mem_append, List.mem_singleton] at hd
    rcases hd with hd | rfl
    · exact h.native d hd
    · rw [hx, hc]
  · rw [List.map_append, List.map_singleton, hc, ← h.vb]
  · simp only [h.pos, List.length_append, List.length_singleton]; omega

/-- A whole group written. -/
theorem GroupStop.write (h : GroupStop val g code i e t ws left) (hl : left.length = g)
    (hcode : code (ws.map (valueOf val) ++ left.map (valueOf val)) = code (ws.map (valueOf val)) ++ code (left.map (valueOf val)))
    (hu : u.vb = [] ∧ u.pos = t.pos ∧ u.skip = t.skip) (hem : t.Emits u (code t.vb)) :
    GroupStop val g code i e u (ws ++ left) [] := by
  refine ⟨by rw [List.append_nil]; exact h.pre, by rw [List.append_nil]; exact h.native, ?_, hu.1, ?_, hu.2.2.trans h.skip, ?_⟩
  · rw [List.length_append, hl, Nat.add_mod_right]; exact h.whole
  · rw [List.append_nil, hu.2.1, h.pos]
  · rw [List.map_append, hcode, ← h.vb]
    exact h.emits.trans hem

end

/-! ### X12 (rule R240, R241) -/

theorem x12Loop_spec {i : EncIn} {e u : Enc} (chars : List Nat) : ∀ t ws left,
    GroupStop x12Value 3 tripletCodewords i e t ws left → ws ++ left ++ chars = encRest i e →
    x12Loop i t chars = .ok u → ∃ xs left, GroupStop x12Value 3 tripletCodewords i e u xs left := by
  induction chars with
  | nil => intro t ws left hs _ h; cases h; exact ⟨ws, left, hs⟩
  | cons c rest ih =>
    intro t ws left hs hrest h
    rw [x12Loop] at h
    split at h
    · cases h
    rename_i x hx
    have hsplit : ws ++ (left ++ [c]) ++ rest = encRest i e := by rw [← hrest]; simp
    have htaken := hs.take hx ⟨rest, hsplit⟩
    dsimp only at h
    split at h
    · rename_i h3
      have hdone := htaken.write (u := writeTriplets { t with pos := t.pos + 1, vb := t.vb ++ [x] })
        (htaken.count.symm.trans h3)
        (tripletCodewords_append _ _ (by rw [List.length_map]; exact hs.whole)) ⟨rfl, rfl, rfl⟩ (writeTriplets_emits _)
      split at h
      · cases h; exact ⟨_, _, hdone.looked _⟩
      · exact ih _ _ [] (hdone.looked _) (by rw [List.append_nil]; exact hsplit) h
    · exact ih _ ws (left ++ [c]) htaken hsplit h

/-- Everything an X12 run can do (rule R240, R241). -/
theorem x12Run_spec {i : EncIn} {e u : Enc} (h : x12Run i e = .ok u) :
    ∃ ws, (∀ c ∈ ws, x12Value c = some (valueOf x12Value c)) ∧ PairRun i e u ws (ws.map (valueOf x12Value)) := by
  unfold x12Run at h
  split at h
  · cases h
  rename_i t ht
  obtain ⟨ws, left, hs⟩ := x12Loop_spec _ _ [] [] (.start rfl) rfl ht
  unfold x12End at h
  split at h
  · cases h
  rename_i cap hcap
  obtain ⟨p, hp, rfl⟩ := capFor_eq_ok hcap
  have hle := (dmLookup_some hp).2.2
  have hpos : t.pos - t.vb.length = e.pos + ws.length := by
    rw [hs.pos, hs.vb, List.length_append, List.length_map]; omega
  have hwhole : (ws.map (valueOf x12Value)).length % 3 = 0 := by rw [List.length_map]; exact hs.whole
  have hsome : ws = [] ∨ ws.map (valueOf x12Value) ≠ [] :=
    or_iff_not_imp_left.mpr (fun hx h => hx (List.map_eq_nil_iff.mp h))
  refine ⟨ws, fun c hc => hs.native c (List.mem_append_left _ hc), ?_⟩
  dsimp only at h
  split at h
  · cases h
    exact ⟨(List.prefix_append ws left).trans hs.pre, hpos, hs.skip, rfl, hwhole, hsome,
      .unlatched (hs.emits.trans (Enc.emits_emit _ 254))⟩
  · rename_i hno
    cases h
    obtain ⟨h1, h23⟩ := not_or.mp hno
    have hr := not_not.mp (not_or.mp h23).2
    refine ⟨(List.prefix_append ws left).trans hs.pre, hpos, hs.skip, rfl, hwhole, hsome,
      .bare hs.emits p hp (Nat.not_lt.mp h1) ?_⟩
    change p.2.data = t.len + remCw (encRest i { t with pos := t.pos - t.vb.length, vb := [] })
    rw [hr]; omega

/-! ### EDIFACT (rule R250, R251) -/

/-- The codewords of the whole groups of a list of values (30_encoding.md rule R141). -/
def groupCodewords (vs : List Nat) : List Nat :=
  match vs with
  | a :: b :: c :: d :: rest => edfPack [a, b, c, d] ++ groupCodewords rest
  | _ => []

theorem groupCodewords_append (a b : List Nat) (h : a.length % 4 = 0) :
    groupCodewords (a ++ b) = groupCodewords a ++ groupCodewords b := by
  induction a using groupCodewords.induct with
  | case1 x y z w rest ih =>
    simp only [List.length_cons] at h
    simp only [List.cons_append, groupCodewords, ih (by omega), List.append_assoc]
  | case2 xs hx =>
    match xs, hx with
    | [], _ => rfl
    | [_], _ => simp at h
    | [_, _], _ => simp at h
    | [_, _, _], _ => simp at h
    | _ :: _ :: _ :: _ :: _, hx => exact absurd rfl (hx _ _ _ _ _)

theorem groupCodewords_length (vs : List Nat) : (groupCodewords vs).length = 3 * (vs.length / 4) := by
  induction vs using groupCodewords.induct with
  | case1 x y z w rest ih =>
    simp only [groupCodewords, List.length_append, ih, List.length_cons]
    rw [show (edfPack [x, y, z, w]).length = 3 from rfl]
    omega
  | case2 xs hx =>
    match xs, hx with
    | [], _ => rfl
    | [_], _ => simp [groupCodewords]
    | [_, _], _ => simp [groupCodewords]
    | [_, _, _], _ => simp [groupCodewords]
    | _ :: _ :: _ :: _ :: _, hx => exact absurd rfl (hx _ _ _ _ _)

theorem groupCodewords_four {vs : List Nat} (h : vs.length = 4) : groupCodewords vs = edfPack vs := by
  match vs, h with
  | [_, _, _, _], _ => rfl

/-- A codeword for the values of one, two, or three and more of a group. -/
theorem edfPack_length {vs : List Nat} (h1 : 1 ≤ vs.length) : (edfPack vs).length = min vs.length 3 := by
  match vs, h1 with
  | [_], _ => rfl
  | [_, _], _ => rfl
  | _ :: _ :: _ :: rest, _ => simp [edfPack]

theorem edfLoop_spec {i : EncIn} {e u : Enc} (chars : List Nat) : ∀ t ws left,
    GroupStop edfValue 4 groupCodewords i e t ws left → left.length < 4 → ws ++ left ++ chars = encRest i e →
    edfLoop i t chars = .ok u → ∃ xs left, GroupStop edfValue 4 groupCodewords i e u xs left ∧ left.length < 4
      ∧ (left = [] ∨ encMore i u = false) := by
  induction chars with
  | nil =>
    intro t ws left hs hlt hrest h
    cases h
    refine ⟨ws, left, hs, hlt, .inr ((encMore_eq_false i u).mpr ?_)⟩
    rw [encRest_drop hs.skip hs.pos, ← hrest, List.append_nil, List.drop_length]
  | cons c rest ih =>
    intro t ws left hs hlt hrest h
    rw [edfLoop] at h
    split at h
    · cases h
    rename_i x hx
    have hsplit : ws ++ (left ++ [c]) ++ rest = encRest i e := by rw [← hrest]; simp
    have htaken := hs.take hx ⟨rest, hsplit⟩
    have hlen : (t.vb ++ [x]).length = (left ++ [c]).length := htaken.count
    dsimp only at h
    split at h
    · rename_i h4
      have hdone := htaken.write
        (u := { Enc.emitAll { t with pos := t.pos + 1, vb := t.vb ++ [x] } (edfPack (t.vb ++ [x])) with vb := [] })
        (hlen.symm.trans h4) (groupCodewords_append _ _ (by rw [List.length_map]; exact hs.whole)) ⟨rfl, rfl, rfl⟩
        ((groupCodewords_four h4).symm ▸ Enc.emits_emitAll _ _)
      split at h
      · cases h; exact ⟨_, _, hdone.looked _, by decide, .inl rfl⟩
      · exact ih _ _ [] (hdone.looked _) (by decide) (by rw [List.append_nil]; exact hsplit) h
    · rename_i h4
      refine ih _ ws (left ++ [c]) htaken ?_ hsplit h
      simp only [List.length_append, List.length_singleton] at hlen h4 ⊢
      omega

/-- How an EDIFACT run ends from the `n` codewords of its whole groups (rule R251): open, where the symbol leaves two codewords
at most; or with a group that holds the last characters and the unlatch value, where it leaves three. -/
inductive EdfEnd (i : EncIn) (e t : Enc) (ws : List Nat) : Prop where
  | bare (pos : t.pos = e.pos + ws.length) (h : e.Emits t (groupCodewords (ws.map (valueOf edfValue))))
      (m : Nat) (p : Nat × DmRow) (lookup : dmLookup i.rom i.regs m = some p) (rest : t.len + remCw (encRest i t) ≤ m)
      (two : p.2.data ≤ t.len + 2)
  | group (left : List Nat) (pos : t.pos = e.pos + (ws ++ left).length) (pre : ws ++ left <+: encRest i e)
      (native : ∀ c ∈ left, edfValue c = some (valueOf edfValue c)) (few : left.length < 4) (n : Nat)
      (hn : n = e.len + (groupCodewords (ws.map (valueOf edfValue))).length)
      (h : e.Emits t (groupCodewords (ws.map (valueOf edfValue)) ++ edfPack (left.map (valueOf edfValue) ++ [31])))
      (room : n + 3 ≤ t.len ∨ (∃ m p, m ≤ t.len ∧ dmLookup i.rom i.regs m = some p ∧ n + 3 ≤ p.2.data)
        ∨ (t.len = n + 1 ∧ ∃ p, dmLookup i.rom i.regs (n + 1) = some p ∧ p.2.data < n + remCw (encRest i t)))

/-- What `edfEndsBySymbol` finds (rule R251). -/
theorem edfEndsBySymbol_cases {i : EncIn} {e : Enc} {b : Bool} (h : edfEndsBySymbol i e = .ok b) :
    ∃ p, dmLookup i.rom i.regs e.len = some p ∧
      ((remCw (encRest i e) ≤ p.2.data - e.len ∧ b = decide (p.2.data - e.len ≤ 2))
      ∨ (p.2.data - e.len < remCw (encRest i e) ∧ ∃ q, dmLookup i.rom i.regs (e.len + 1) = some q
          ∧ b = decide (remCw (encRest i e) ≤ q.2.data - e.len ∧ q.2.data - e.len ≤ 2))) := by
  unfold edfEndsBySymbol at h
  dsimp only at h
  split at h
  · cases h
  rename_i cap hcap
  obtain ⟨p, hp, rfl⟩ := capFor_eq_ok hcap
  refine ⟨p, hp, ?_⟩
  split at h
  · rename_i hlt
    split at h
    · cases h
    rename_i cap1 hcap1
    obtain ⟨q, hq, rfl⟩ := capFor_eq_ok hcap1
    cases h
    exact .inr ⟨hlt, q, hq, rfl⟩
  · rename_i hlt
    cases h
    exact .inl ⟨Nat.le_of_not_lt hlt, rfl⟩

/-- What `edfEndGroup` does (rule R251): the pending characters are given back, or written with the unlatch value. -/
theorem edfEndGroup_cases {i : EncIn} {e u : Enc} (h : edfEndGroup i e = .ok u) :
    u.skip = e.skip ∧ u.new = some .ascii ∧
      ((e.vb.length - 1 ≤ 2 ∧ u.pos = e.pos - (e.vb.length - 1) ∧ e.Emits u [] ∧ encMore i e = false
          ∧ ∃ p, dmLookup i.rom i.regs (e.len + (e.vb.length - 1)) = some p ∧ p.2.data - e.len < 3)
      ∨ (u.pos = e.pos ∧ e.Emits u (edfPack e.vb)
          ∧ (2 < e.vb.length - 1 ∨ ∃ p, dmLookup i.rom i.regs (e.len + (e.vb.length - 1)) = some p
              ∧ ¬ (encMore i e = false ∧ p.2.data - e.len < 3)))) := by
  unfold edfEndGroup at h
  dsimp only at h
  split at h
  · rename_i hle
    split at h
    · cases h
    rename_i cap hcap
    obtain ⟨p, hp, rfl⟩ := capFor_eq_ok hcap
    split at h
    · rename_i hc; cases h; exact ⟨rfl, rfl, .inl ⟨hle, rfl, .nil rfl, hc.1, p, hp, hc.2⟩⟩
    · rename_i hc; cases h; exact ⟨rfl, rfl, .inr ⟨rfl, Enc.emits_emitAll _ _, .inr ⟨p, hp, hc⟩⟩⟩
  · rename_i hle; cases h; exact ⟨rfl, rfl, .inr ⟨rfl, Enc.emits_emitAll _ _, .inl (Nat.lt_of_not_le hle)⟩⟩

/-- An EDIFACT run from `e` to `t`: the characters `ws` are taken in whole groups, and ASCII mode is next. -/
structure EdfRun (i : EncIn) (e t : Enc) (ws : List Nat) : Prop where
  pre : ws <+: encRest i e
  native : ∀ c ∈ ws, edfValue c = some (valueOf edfValue c)
  whole : ws.length % 4 = 0
  skip : t.skip = e.skip
  new : t.new = some .ascii
  ending : EdfEnd i e t ws

/-- The characters of an incomplete group in ASCII mode take no more codewords than they are: each is below 128. -/
theorem remCw_le_length {xs : List Nat} (h : ∀ c ∈ xs, c < 128) : remCw xs ≤ xs.length := by
  have hext : ∀ c, c < 128 → (if isExt c = true then 2 else 1) = 1 := fun c hc =>
    if_neg (by rw [isExt, decide_eq_true_eq]; omega)
  induction xs using remCw.induct with
  | case1 => exact Nat.le_refl 0
  | case2 c _ => rw [remCw, hext c (h c (by simp))]; exact Nat.le_refl 1
  | case3 c _ => rw [remCw, hext c (h c (by simp))]; exact Nat.le_refl 1
  | case4 c d rest hp ih =>
    rw [remCw, if_pos hp, List.length_cons, List.length_cons]
    have := ih (fun x hx => h x (by simp [hx]))
    omega
  | case5 c d rest hp ih =>
    rw [remCw, if_neg hp, hext c (h c (by simp)), List.length_cons]
    have := ih (fun x hx => h x (List.mem_cons_of_mem _ hx))
    omega

theorem edfValue_lt {c x : Nat} (h : edfValue c = some x) : c < 128 := by
  unfold edfValue at h
  split at h
  · omega
  split at h
  · omega
  · cases h

/-- Where the loop of an EDIFACT run has stopped: the characters `left` are an incomplete group, and the last of the text where
there are any. -/
structure EdfStop (i : EncIn) (e t : Enc) (ws left : List Nat) : Prop extends
    GroupStop edfValue 4 groupCodewords i e t ws left where
  few : left.length < 4
  done : left = [] ∨ encMore i t = false

section
variable {i : EncIn} {e t u : Enc} {ws left : List Nat}

/-- The group at the end of the run: the pending characters and the unlatch value. -/
def Enc.closeGroup (t : Enc) : Enc := { t with vb := t.vb ++ [31] }

theorem EdfStop.count (h : EdfStop i e t ws left) : t.closeGroup.vb.length = left.length + 1 := by
  change (t.vb ++ [31]).length = _
  rw [List.length_append, h.toGroupStop.count]
  rfl

theorem EdfStop.run (h : EdfStop i e t ws left) (hskip : u.skip = t.skip) (hnew : u.new = some .ascii) (hend : EdfEnd i e u ws) :
    EdfRun i e u ws :=
  ⟨(List.prefix_append ws left).trans h.pre, fun c hc => h.native c (List.mem_append_left _ hc), h.whole,
    hskip.trans h.skip, hnew, hend⟩

/-- The pending characters given back: ASCII mode has the codewords for them. -/
theorem EdfStop.givesBack (h : EdfStop i e t ws left) (hskip : u.skip = t.skip) (hpos : u.pos = t.pos - left.length)
    (hem : t.Emits u []) (hmore : encMore i t = false) {p : Nat × DmRow}
    (hp : dmLookup i.rom i.regs (t.len + left.length) = some p) (hroom : p.2.data - t.len < 3) : EdfEnd i e u ws := by
  have hup : u.pos = e.pos + ws.length := by rw [hpos, h.pos, List.length_append]; omega
  have hall : encRest i u = left := by
    have hend := encRest_drop (i := i) h.skip h.pos
    rw [(encMore_eq_false i t).mp hmore] at hend
    obtain ⟨tail, htail⟩ := h.pre
    rw [← htail, List.drop_left] at hend
    rw [encRest_drop (hskip.trans h.skip) hup, ← htail, ← hend, List.append_nil, List.drop_left]
  have hulen : u.len = t.len := hem.len
  have hrem := remCw_le_length (xs := left) (fun c hc => edfValue_lt (h.native c (List.mem_append_right _ hc)))
  have hem' := h.emits.trans hem
  rw [List.append_nil] at hem'
  exact .bare hup hem' _ p hp (by rw [hall, hulen]; exact Nat.add_le_add_left hrem _) (by omega)

/-- Where the end of the symbol does not stand for the unlatch, the symbol has room for three codewords, or a larger one is
needed. -/
theorem room_of_not_bySymbol (hu : encRest i u = encRest i t) (hlen : u.len = t.len + 1) (h : edfEndsBySymbol i t = .ok false) :
    (∃ m p, m ≤ u.len ∧ dmLookup i.rom i.regs m = some p ∧ t.len + 3 ≤ p.2.data)
      ∨ (u.len = t.len + 1 ∧ ∃ p, dmLookup i.rom i.regs (t.len + 1) = some p ∧ p.2.data < t.len + remCw (encRest i u)) := by
  obtain ⟨p, hp, ⟨-, hby⟩ | ⟨-, q, hq, hby⟩⟩ := edfEndsBySymbol_cases h
  · have hdata := of_decide_eq_false hby.symm
    exact .inl ⟨t.len, p, by omega, hp, by omega⟩
  · have hdata := of_decide_eq_false hby.symm
    rw [← hu] at hdata
    have hqle := (dmLookup_some hq).2.2
    by_cases h2 : q.2.data - t.len ≤ 2
    · exact .inr ⟨hlen, q, hq, by omega⟩
    · exact .inl ⟨_, q, hlen.ge, hq, by omega⟩

/-- The end of a run by a group, or by giving the pending characters back. -/
theorem EdfStop.endGroup (h : EdfStop i e t ws left) (hg : edfEndGroup i t.closeGroup = .ok u)
    (hsym : left = [] → edfEndsBySymbol i t.closeGroup = .ok false) : EdfRun i e u ws := by
  have hcount := h.count
  have htlen : t.closeGroup.len = t.len := rfl
  obtain ⟨hskip, hnew, hcases⟩ := edfEndGroup_cases hg
  refine h.run hskip hnew ?_
  rw [hcount, Nat.add_sub_cancel, htlen] at hcases
  rcases hcases with ⟨-, hup, hem, hmore, p, hp, hroom⟩ | ⟨hup, hem, hroom⟩
  · exact h.givesBack hskip hup hem hmore hp hroom
  have hvb : t.closeGroup.vb = left.map (valueOf edfValue) ++ [31] := congrArg (· ++ [31]) h.vb
  have hulen : u.len = t.len + (edfPack t.closeGroup.vb).length := hem.len
  rw [edfPack_length (by omega), hcount] at hulen
  refine .group left (hup.trans h.pos) h.pre (fun c hc => h.native c (List.mem_append_right _ hc)) h.few t.len h.emits.len
    (hvb ▸ h.emits.trans hem) ?_
  rcases hroom with h3 | ⟨p, hp, hno⟩
  · exact .inl (by omega)
  by_cases hnil : left = []
  · subst hnil
    exact .inr (room_of_not_bySymbol (encRest_congr hskip hup) hulen (hsym rfl))
  · have hfew := h.few
    have hdata : ¬ p.2.data - t.len < 3 := fun hlt => hno ⟨h.done.resolve_left hnil, hlt⟩
    exact .inr (.inl ⟨_, p, by omega, hp, by omega⟩)

/-- The end of a run by the end of the symbol. -/
theorem EdfStop.endBySymbol (h : EdfStop i e t ws []) (hsym : edfEndsBySymbol i t.closeGroup = .ok true) :
    EdfEnd i e { t.closeGroup with new := some .ascii } ws := by
  have hpos := h.pos
  rw [List.append_nil] at hpos
  have hopen : ∀ m p, dmLookup i.rom i.regs m = some p → t.len ≤ m → remCw (encRest i t) ≤ p.2.data - t.len →
      p.2.data - t.len ≤ 2 → EdfEnd i e { t.closeGroup with new := some .ascii } ws := fun m p hp hm hr h2 => by
    have hle := (dmLookup_some hp).2.2
    exact .bare hpos h.emits p.2.data p (dmLookup_between hp hle (Nat.le_refl _))
      (by change t.len + remCw (encRest i t) ≤ _; omega) (by change _ ≤ t.len + 2; omega)
  obtain ⟨p, hp, ⟨hr, hby⟩ | ⟨-, q, hq, hby⟩⟩ := edfEndsBySymbol_cases hsym
  · exact hopen _ p hp (Nat.le_refl _) hr (of_decide_eq_true hby.symm)
  · obtain ⟨hr, h2⟩ := of_decide_eq_true hby.symm
    exact hopen _ q hq (Nat.le_succ _) hr h2

end

/-- Everything an EDIFACT run can do (rule R250, R251). -/
theorem edfRun_spec {i : EncIn} {e u : Enc} (h : edfRun i e = .ok u) : ∃ ws, EdfRun i e u ws := by
  unfold edfRun at h
  split at h
  · cases h
  rename_i t ht
  obtain ⟨ws, left, hg, hfew, hdone⟩ := edfLoop_spec _ _ [] [] (.start rfl) (by decide) rfl ht
  have hs : EdfStop i e t ws left := ⟨hg, hfew, hdone⟩
  have hcount := hs.count
  refine ⟨ws, ?_⟩
  change edfEnd i t.closeGroup = _ at h
  unfold edfEnd at h
  split at h
  · rename_i h1
    obtain rfl : left = [] := List.eq_nil_of_length_eq_zero (by omega)
    split at h
    · cases h
    · rename_i hsym
      cases h
      exact hs.run rfl rfl (hs.endBySymbol hsym)
    · rename_i hsym
      exact hs.endGroup h (fun _ => hsym)
  · rename_i h1
    exact hs.endGroup h (fun hnil => absurd (hcount.trans (by rw [hnil]; rfl)) h1)

/-! ### Base256 (rule R260 to R262) -/

theorem randomised_length (bs : List Nat) : ∀ p, (randomised p bs).length = bs.length := by
  induction bs with
  | nil => exact fun _ => rfl
  | cons b rest ih => intro p; rw [randomised, List.length_cons, ih, List.length_cons]

/-- Emitting with randomisation changes nothing but the codewords emitted. -/
theorem emitRandom_spec (vs : List Nat) : ∀ e : Enc, e.Emits (emitRandom e vs) (randomised (e.len + 1) vs)
    ∧ (emitRandom e vs).pos = e.pos ∧ (emitRandom e vs).skip = e.skip ∧ (emitRandom e vs).new = e.new
    ∧ (emitRandom e vs).mode = e.mode := by
  induction vs with
  | nil => exact fun e => ⟨.nil rfl, rfl, rfl, rfl, rfl⟩
  | cons b rest ih =>
    intro e
    obtain ⟨hem, hrest⟩ := ih (e.emit (rand255 b (e.len + 1)))
    exact ⟨(e.emits_emit _).trans hem, hrest⟩

/-- The loop of a Base256 run has taken the characters `ws`. -/
structure B256Stop (i : EncIn) (e t : Enc) (ws : List Nat) : Prop where
  pre : ws <+: encRest i e
  vb : t.vb = 0 :: ws
  pos : t.pos = e.pos + ws.length
  skip : t.skip = e.skip
  mode : t.mode = e.mode
  rev : t.rev = e.rev

theorem b256Loop_spec {i : EncIn} {e : Enc} (chars : List Nat) : ∀ t ws, B256Stop i e t ws → t.new = e.new →
    ws ++ chars = encRest i e → ∃ xs, B256Stop i e (b256Loop i t chars) xs ∧ (ws ≠ [] ∨ chars ≠ [] → xs ≠ [])
      ∧ ((b256Loop i t chars).new = some .ascii
        ∨ (b256Loop i t chars).new = e.new ∧ encMore i (b256Loop i t chars) = false) := by
  induction chars with
  | nil =>
    intro t ws hs hnew hrest
    refine ⟨ws, hs, fun h => h.resolve_right (fun h => h rfl), .inr ⟨hnew, (encMore_eq_false i t).mpr ?_⟩⟩
    rw [encRest_drop hs.skip hs.pos, ← hrest, List.append_nil, List.drop_length]
  | cons c rest ih =>
    intro t ws hs hnew hrest
    have hsplit : ws ++ [c] ++ rest = encRest i e := by rw [← hrest]; simp
    have htaken : ∀ v : La, B256Stop i e (Enc.looked { t with pos := t.pos + 1, vb := t.vb ++ [c] } v) (ws ++ [c]) := fun v =>
      ⟨⟨rest, hsplit⟩, by simp [Enc.looked, hs.vb],
        by simp only [Enc.looked, hs.pos, List.length_append, List.length_singleton, Nat.add_assoc], hs.skip, hs.mode, hs.rev⟩
    have hne : ws ++ [c] ≠ [] := List.append_ne_nil_of_right_ne_nil _ (List.cons_ne_nil _ _)
    rw [b256Loop]
    dsimp only
    split
    · obtain ⟨h1, h2, h3, h4, h5, h6⟩ := htaken (encLook i { t with pos := t.pos + 1, vb := t.vb ++ [c] } .base256)
      exact ⟨_, ⟨h1, h2, h3, h4, h5, h6⟩, fun _ => hne, .inl rfl⟩
    · obtain ⟨xs, hxs, hsome, hend⟩ := ih _ _ (htaken _) hnew hsplit
      exact ⟨xs, hxs, fun _ => hsome (.inl hne), hend⟩

/-- A Base256 run from `e` to `t`: the bytes `ws` behind the length field `f`, randomised. -/
structure B256Run (i : EncIn) (e t : Enc) (ws f : List Nat) : Prop where
  pre : ws <+: encRest i e
  takes : ws ≠ []
  pos : t.pos = e.pos + ws.length
  skip : t.skip = e.skip
  mode : t.mode = e.mode
  new : t.new = some .ascii ∨ t.new = e.new ∧ encMore i t = false
  emits : e.Emits t (randomised (e.len + 1) (f ++ ws))
  field : b256Field ws = some (f ++ ws)
    ∨ f = [0] ∧ encMore i t = false ∧ ∃ p, dmLookup i.rom i.regs t.len = some p ∧ p.2.data = t.len

/-- The field of a payload is a list of its own before it. -/
theorem b256Field_eq_some {ws vs : List Nat} (h : b256Field ws = some vs) : ∃ f, vs = f ++ ws := by
  unfold b256Field at h
  dsimp only at h
  split at h
  · cases h; exact ⟨[_], rfl⟩
  split at h
  · cases h; exact ⟨[_, _], rfl⟩
  · cases h

theorem b256End_spec {i : EncIn} {e t u : Enc} {ws : List Nat} (hs : B256Stop i e t ws) (hne : ws ≠ [])
    (hnew : t.new = some .ascii ∨ t.new = e.new ∧ encMore i t = false) (h : b256End i t = .ok u) :
    ∃ f, B256Run i e u ws f := by
  have hlen : t.len = e.len := congrArg List.length hs.rev
  unfold b256End at h
  dsimp only at h
  split at h
  · cases h
  rename_i cap hcap
  obtain ⟨p, hp, rfl⟩ := capFor_eq_ok hcap
  have hfill := (dmLookup_some hp).2.2
  have run : ∀ (x : Enc) (f : List Nat), x.len = e.len → e.Emits x [] → x.pos = t.pos → x.skip = t.skip → x.new = t.new →
      x.mode = t.mode → (b256Field ws = some (f ++ ws) ∨ f = [0] ∧ encMore i (emitRandom x (f ++ ws)) = false
        ∧ ∃ p, dmLookup i.rom i.regs (emitRandom x (f ++ ws)).len = some p ∧ p.2.data = (emitRandom x (f ++ ws)).len) →
      B256Run i e (emitRandom x (f ++ ws)) ws f := by
    intro x f hxlen hxem hxpos hxskip hxnew hxmode hfield
    obtain ⟨hem, hpos, hskip, hn, hm⟩ := emitRandom_spec (f ++ ws) x
    have hem' := hxem.trans hem
    rw [List.nil_append, hxlen] at hem'
    refine ⟨hs.pre, hne, (hpos.trans hxpos).trans hs.pos, (hskip.trans hxskip).trans hs.skip,
      (hm.trans hxmode).trans hs.mode, ?_, hem', hfield⟩
    rw [hn, hxnew, encMore_congr (hskip.trans hxskip) (hpos.trans hxpos)]
    exact hnew
  rw [hs.vb, List.length_cons, Nat.add_sub_cancel] at h hp hfill
  split at h
  · split at h
    · cases h
    · rename_i vs hvs
      rw [List.tail_cons] at hvs
      obtain ⟨f, rfl⟩ := b256Field_eq_some hvs
      cases h
      exact ⟨f, run { t with vb := f ++ ws } f hlen (.nil hs.rev) rfl rfl rfl rfl (.inl hvs)⟩
  · rename_i hno
    cases h
    obtain ⟨hmore, hpad⟩ := not_or.mp hno
    obtain ⟨hem, hpos, hskip, -, -⟩ := emitRandom_spec ([0] ++ ws) t
    have hulen := hem.len
    rw [randomised_length, List.length_append, List.length_singleton] at hulen
    refine ⟨[0], run t [0] hlen (.nil hs.rev) rfl rfl rfl rfl (.inr ⟨rfl, ?_, p, ?_, ?_⟩)⟩
    · rw [encMore_congr hskip hpos]; exact Bool.not_eq_true _ ▸ hmore
    · rw [hulen, Nat.add_comm 1, ← Nat.add_assoc]; exact hp
    · rw [hulen]; omega

/-- Everything a Base256 run can do (rule R260 to R262). -/
theorem b256Run_spec {i : EncIn} {e u : Enc} (he : encMore i e = true) (h : b256Run i e = .ok u) :
    ∃ ws f, B256Run i e u ws f := by
  unfold b256Run at h
  have h0 : B256Stop i e { e with vb := [0], sz := [] } [] := ⟨List.nil_prefix, rfl, rfl, rfl, rfl, rfl⟩
  obtain ⟨ws, hs, hsome, hnew⟩ := b256Loop_spec _ _ [] h0 rfl rfl
  dsimp only at h
  split at h
  · cases h
  · exact ⟨ws, b256End_spec hs (hsome (.inr ((encMore_iff i e).mp he))) hnew h⟩

end Sys2Proof.Machine
end

section
/-! What holds between two rounds of ENC.DM, and how a run of rounds grows (40_tce_datamatrix.md rule R204). -/

namespace Sys2Proof.Machine

/-! ### Between two rounds -/

/-- What holds between two rounds of a run from the start of ENC.DM: no mode is pending, pos is inside the text, a text that is
done leaves ASCII or Base256 mode, and behind the total stands nothing or the envelope's trailer. -/
structure EncOk (i : EncIn) (e : Enc) : Prop where
  new : e.new = none
  pos : e.pos ≤ encTotal i e
  done : encMore i e = false → e.mode = .ascii ∨ e.mode = .base256
  tail : i.txt.drop (encTotal i e) = [] ∨ i.txt.drop (encTotal i e) = macroTrailer

/-- The pairs of digits in TXT are those of the text left: the trailer has no digit. -/
theorem EncOk.isPair_eq {i : EncIn} {e : Enc} (h : EncOk i e) (hm : encMore i e = true) :
    isPair (i.txt.drop e.pos) = isPair (encRest i e) := by
  rw [drop_pos_eq i h.pos]
  obtain ⟨c, rest, hr⟩ := List.exists_cons_of_ne_nil ((encMore_iff i e).mp hm)
  rw [hr]
  cases rest with
  | cons d xs => rfl
  | nil =>
    rcases h.tail with ht | ht <;> rw [ht]
    · rfl
    · exact Bool.and_false _

/-- A step in ASCII mode from `e` to `u`, `c` being the first character left and `rest` the others (rule R220). -/
inductive AsciiStep (i : EncIn) (e u : Enc) (c : Nat) (rest : List Nat) : Prop where
  | digits (d : Nat) (xs : List Nat) (h : rest = d :: xs) (hc : isDigit c = true) (hd : isDigit d = true)
      (pos : u.pos = e.pos + 2) (new : u.new = none) (emits : e.Emits u [130 + 10 * (c - 48) + (d - 48)])
  | latch (m : Mode) (hm : m ≠ .ascii) (verdict : (encLook i e .ascii).mode = m) (single : isPair (c :: rest) = false)
      (pos : u.pos = e.pos) (new : u.new = some m) (emits : e.Emits u [latch m])
  | upper (hc : 128 ≤ c) (single : isPair (c :: rest) = false) (pos : u.pos = e.pos + 1) (new : u.new = none)
      (emits : e.Emits u [235, c - 127])
  | plain (hc : c < 128) (single : isPair (c :: rest) = false) (pos : u.pos = e.pos + 1) (new : u.new = none)
      (emits : e.Emits u [c + 1])

theorem asciiStep_spec {i : EncIn} {e : Enc} {c : Nat} {rest : List Nat} (hok : EncOk i e) (hr : encRest i e = c :: rest) :
    AsciiStep i e (asciiStep i e) c rest ∧ (asciiStep i e).skip = e.skip ∧ (asciiStep i e).mode = e.mode := by
  have hmore : encMore i e = true := (encMore_iff i e).mpr (by rw [hr]; exact List.cons_ne_nil _ _)
  have hdrop := drop_pos_of_rest hr
  have hpair := hok.isPair_eq hmore
  rw [hdrop, hr] at hpair
  rcases asciiStep_cases hdrop with ⟨d, xs, hx, hc, hd, heq⟩ | ⟨hno, h⟩
  · rw [heq]
    refine ⟨?_, rfl, rfl⟩
    have htrue : isPair (c :: rest) = true := by rw [← hpair, hx]; exact Bool.and_eq_true_iff.mpr ⟨hc, hd⟩
    cases rest with
    | nil => cases htrue
    | cons d' ys =>
      rw [List.cons_append, List.cons.injEq] at hx
      obtain ⟨rfl, -⟩ := hx
      exact .digits d' ys rfl hc hd rfl hok.new (e.emits_emit _)
  · rw [hpair] at hno
    rcases h with ⟨hm, heq⟩ | ⟨-, hc, heq⟩ | ⟨-, hc, heq⟩ <;> rw [heq]
    · exact ⟨.latch _ hm rfl hno rfl rfl (Enc.emits_emit _ _), rfl, rfl⟩
    · exact ⟨.upper hc hno rfl hok.new ((Enc.emits_emit _ _).trans (Enc.emits_emit _ _)), rfl, rfl⟩
    · exact ⟨.plain hc hno rfl hok.new (Enc.emits_emit _ _), rfl, rfl⟩

/-! ### A round -/

@[simp] theorem takeNew_rev (e : Enc) : (takeNew e).rev = e.rev := by unfold takeNew; split <;> rfl
@[simp] theorem takeNew_pos (e : Enc) : (takeNew e).pos = e.pos := by unfold takeNew; split <;> rfl
@[simp] theorem takeNew_skip (e : Enc) : (takeNew e).skip = e.skip := by unfold takeNew; split <;> rfl
@[simp] theorem takeNew_new (e : Enc) : (takeNew e).new = none := by
  unfold takeNew
  split
  · assumption
  · rfl
@[simp] theorem takeNew_len (e : Enc) : (takeNew e).len = e.len := congrArg List.length (takeNew_rev e)
@[simp] theorem encRest_takeNew (i : EncIn) (e : Enc) : encRest i (takeNew e) = encRest i e :=
  encRest_congr (takeNew_skip e) (takeNew_pos e)
@[simp] theorem encMore_takeNew (i : EncIn) (e : Enc) : encMore i (takeNew e) = encMore i e :=
  encMore_congr (takeNew_skip e) (takeNew_pos e)
theorem takeNew_mode_of_some {e : Enc} {m : Mode} (h : e.new = some m) : (takeNew e).mode = m := by
  unfold takeNew; rw [h]
theorem takeNew_mode_of_none {e : Enc} (h : e.new = none) : (takeNew e).mode = e.mode := by
  unfold takeNew; rw [h]
theorem Enc.Emits.takeNew {e t : Enc} {cs : List Nat} (h : e.Emits t cs) : e.Emits (takeNew t) cs := by
  rw [Enc.Emits, takeNew_rev]; exact h

/-- A round is a step or run of the current mode's encoder, and then the pending mode. -/
theorem encRound_ok {i : EncIn} {e t : Enc} (h : encRound i e = .ok t) : ∃ u, encDispatch i e = .ok u ∧ t = takeNew u := by
  unfold encRound at h
  split at h
  · cases h
  · rename_i u hu
    split at h
    · cases h
    · cases h; exact ⟨u, hu, rfl⟩

/-- What every round keeps and does. -/
structure Advances (i : EncIn) (e t : Enc) : Prop where
  ok : EncOk i t
  skip : t.skip = e.skip
  mode : e.mode ≠ .ascii → t.mode = .ascii ∨ t.mode = .base256 ∧ encMore i t = false
  emits : ∃ cs, e.Emits t cs ∧ (cs ≠ [] ∨ e.mode ≠ .ascii ∧ t.mode = .ascii ∧ encMore i t = true)

theorem advances_of_run {i : EncIn} {e u : Enc} {n : Nat} (hok : EncOk i e) (hmode : e.mode ≠ .ascii) (hskip : u.skip = e.skip)
    (hpos : u.pos = e.pos + n) (hn : n ≤ (encRest i e).length)
    (hnew : u.new = some .ascii ∨ u.new = none ∧ u.mode = .base256 ∧ encMore i u = false)
    (hem : ∃ cs, e.Emits u cs ∧ (cs ≠ [] ∨ u.new = some .ascii ∧ encMore i u = true)) : Advances i e (takeNew u) := by
  have hmode' : (takeNew u).mode = .ascii ∨ (takeNew u).mode = .base256 ∧ encMore i (takeNew u) = false := by
    rcases hnew with h | ⟨h, hb, hm⟩
    · exact .inl (takeNew_mode_of_some h)
    · exact .inr ⟨(takeNew_mode_of_none h).trans hb, by rw [encMore_takeNew]; exact hm⟩
  have htot : encTotal i (takeNew u) = encTotal i e := by rw [encTotal, encTotal, takeNew_skip, hskip]
  refine ⟨⟨takeNew_new u, ?_, fun _ => hmode'.imp id And.left, ?_⟩, (takeNew_skip u).trans hskip, fun _ => hmode', ?_⟩
  · rw [encRest_length] at hn
    have := hok.pos
    rw [htot, takeNew_pos, hpos]; omega
  · rw [htot]; exact hok.tail
  · obtain ⟨cs, h, hcs⟩ := hem
    refine ⟨cs, h.takeNew, hcs.imp_right fun ⟨hn, hm⟩ => ⟨hmode, takeNew_mode_of_some hn, ?_⟩⟩
    rw [encMore_takeNew]; exact hm

theorem PairRun.advances {i : EncIn} {e u : Enc} {ws vs : List Nat} (h : PairRun i e u ws vs) (hok : EncOk i e)
    (hmode : e.mode ≠ .ascii) (hm : encMore i e = true) : Advances i e (takeNew u) := by
  refine advances_of_run hok hmode h.skip h.pos h.pre.length_le (.inl h.new) ?_
  cases h.ending with
  | unlatched hem => exact ⟨_, hem, .inl (by simp)⟩
  | bare hem =>
    refine ⟨_, hem, ?_⟩
    rcases h.takes with rfl | hvs
    · exact .inr ⟨h.new, (encMore_congr h.skip h.pos).trans hm⟩
    · left
      rw [← List.length_pos_iff] at hvs ⊢
      rw [tripletCodewords_length]
      have := h.whole
      omega

theorem EdfRun.advances {i : EncIn} {e u : Enc} {ws : List Nat} (h : EdfRun i e u ws) (hok : EncOk i e)
    (hmode : e.mode ≠ .ascii) (hm : encMore i e = true) : Advances i e (takeNew u) := by
  cases h.ending with
  | bare hpos hem =>
    refine advances_of_run hok hmode h.skip hpos h.pre.length_le (.inl h.new) ⟨_, hem, ?_⟩
    by_cases hx : ws = []
    · subst hx; exact .inr ⟨h.new, (encMore_congr h.skip hpos).trans hm⟩
    · left
      have := h.whole
      have := List.length_pos_iff.mpr hx
      rw [← List.length_pos_iff, groupCodewords_length, List.length_map]
      omega
  | group left hpos hpre hnat hfew n hn hem =>
    exact advances_of_run hok hmode h.skip hpos hpre.length_le (.inl h.new) ⟨_, hem, .inl (by simp [edfPack])⟩

theorem B256Run.advances {i : EncIn} {e u : Enc} {ws f : List Nat} (h : B256Run i e u ws f) (hok : EncOk i e)
    (hmode : e.mode = .base256) : Advances i e (takeNew u) := by
  refine advances_of_run hok (by rw [hmode]; decide) h.skip h.pos h.pre.length_le ?_ ⟨_, h.emits, .inl ?_⟩
  · exact h.new.imp_right fun ⟨hn, hm⟩ => ⟨hn.trans hok.new, h.mode.trans hmode, hm⟩
  · rw [← List.length_pos_iff, randomised_length, List.length_append]
    have := List.length_pos_iff.mpr h.takes
    omega

theorem AsciiStep.advances {i : EncIn} {e u : Enc} {c : Nat} {rest : List Nat} (h : AsciiStep i e u c rest) (hok : EncOk i e)
    (hr : encRest i e = c :: rest) (hmode : e.mode = .ascii) (hskip : u.skip = e.skip) (humode : u.mode = e.mode) :
    Advances i e (takeNew u) := by
  have htot : encTotal i (takeNew u) = encTotal i e := by rw [encTotal, encTotal, takeNew_skip, hskip]
  have hlen := encRest_length i e
  rw [hr, List.length_cons] at hlen
  have stays : u.new = none → u.pos ≤ encTotal i e → (∃ cs, e.Emits u cs ∧ cs ≠ []) → Advances i e (takeNew u) := by
    rintro hnew hpos ⟨cs, hem, hcs⟩
    have hm : (takeNew u).mode = .ascii := (takeNew_mode_of_none hnew).trans (humode.trans hmode)
    exact ⟨⟨takeNew_new u, by rw [htot, takeNew_pos]; exact hpos, fun _ => .inl hm, by rw [htot]; exact hok.tail⟩,
      (takeNew_skip u).trans hskip, fun h => absurd hmode h, cs, hem.takeNew, .inl hcs⟩
  cases h with
  | digits d xs h hc hd pos new emits =>
    rw [h, List.length_cons] at hlen
    exact stays new (by rw [pos]; omega) ⟨_, emits, List.cons_ne_nil _ _⟩
  | upper hc single pos new emits => exact stays new (by rw [pos]; omega) ⟨_, emits, List.cons_ne_nil _ _⟩
  | plain hc single pos new emits => exact stays new (by rw [pos]; omega) ⟨_, emits, List.cons_ne_nil _ _⟩
  | latch m hm verdict single pos new emits =>
    have hmore : encMore i (takeNew u) = true := by
      rw [encMore_takeNew, encMore_congr hskip pos, encMore_iff, hr]; exact List.cons_ne_nil _ _
    refine ⟨⟨takeNew_new u, by rw [htot, takeNew_pos, pos]; exact hok.pos, fun h => ?_, by rw [htot]; exact hok.tail⟩,
      (takeNew_skip u).trans hskip, fun h => absurd hmode h, _, emits.takeNew, .inl (List.cons_ne_nil _ _)⟩
    rw [hmore] at h
    cases h

/-- Everything one round of the main loop can do (rule R204). -/
inductive Round (i : EncIn) (e u : Enc) : Prop where
  | ascii (c : Nat) (rest : List Nat) (mode : e.mode = .ascii) (left : encRest i e = c :: rest) (h : AsciiStep i e u c rest)
      (skip : u.skip = e.skip) (umode : u.mode = e.mode)
  | c40 (m : Mode) (mode : e.mode = m) (hm : m = .c40 ∨ m = .text) (ws extra : List Nat) (dangling : Dangling extra)
      (run : PairRun i e u ws (ws.flatMap (c40TextValues m) ++ extra))
  | x12 (mode : e.mode = .x12) (ws : List Nat) (native : ∀ c ∈ ws, x12Value c = some (valueOf x12Value c))
      (run : PairRun i e u ws (ws.map (valueOf x12Value)))
  | edifact (mode : e.mode = .edifact) (ws : List Nat) (run : EdfRun i e u ws)
  | base256 (mode : e.mode = .base256) (ws f : List Nat) (run : B256Run i e u ws f)

theorem encDispatch_spec {i : EncIn} {e u : Enc} (hok : EncOk i e) (hm : encMore i e = true) (h : encDispatch i e = .ok u) :
    Round i e u := by
  unfold encDispatch at h
  split at h
  · rename_i hmode
    cases h
    obtain ⟨c, rest, hr⟩ := List.exists_cons_of_ne_nil ((encMore_iff i e).mp hm)
    obtain ⟨hs, hskip, hmode'⟩ := asciiStep_spec hok hr
    exact .ascii c rest hmode hr hs hskip hmode'
  · rename_i hmode
    obtain ⟨ws, extra, hd, hrun⟩ := c40Run_spec hm h
    exact .c40 .c40 hmode (.inl rfl) ws extra hd hrun
  · rename_i hmode
    obtain ⟨ws, extra, hd, hrun⟩ := c40Run_spec hm h
    exact .c40 .text hmode (.inr rfl) ws extra hd hrun
  · rename_i hmode
    obtain ⟨ws, hnat, hrun⟩ := x12Run_spec h
    exact .x12 hmode ws hnat hrun
  · rename_i hmode
    obtain ⟨ws, hrun⟩ := edfRun_spec h
    exact .edifact hmode ws hrun
  · rename_i hmode
    obtain ⟨ws, f, hrun⟩ := b256Run_spec hm h
    exact .base256 hmode ws f hrun

theorem Round.advances {i : EncIn} {e u : Enc} (h : Round i e u) (hok : EncOk i e) (hm : encMore i e = true) :
    Advances i e (takeNew u) := by
  cases h with
  | ascii c rest mode left h skip umode => exact h.advances hok left mode skip umode
  | c40 m mode hm' ws extra dangling run =>
    exact run.advances hok (by rw [mode]; rcases hm' with rfl | rfl <;> decide) hm
  | x12 mode ws native run => exact run.advances hok (by rw [mode]; decide) hm
  | edifact mode ws run => exact run.advances hok (by rw [mode]; decide) hm
  | base256 mode ws f run => exact run.advances hok mode

/-! ### The main loop -/

/-- A loop that ends the text: it has ended, or a round and the rest of the loop end it. -/
theorem encLoop_cases {i : EncIn} {e x : Enc} {fuel : Nat} (h : encLoop i fuel e = .ok (x, true)) :
    (encMore i e = false ∧ x = e)
      ∨ ∃ n u, encMore i e = true ∧ fuel = n + 1 ∧ encDispatch i e = .ok u ∧ encLoop i n (takeNew u) = .ok (x, true) := by
  cases fuel with
  | zero =>
    rw [encLoop] at h
    injection h with h
    injection h with he hm
    exact .inl ⟨by simpa using hm, he.symm⟩
  | succ n =>
    rw [encLoop] at h
    split at h
    · rename_i hm
      split at h
      · cases h
      · rename_i t ht
        obtain ⟨u, hu, rfl⟩ := encRound_ok ht
        exact .inr ⟨n, u, hm, rfl, hu, h⟩
    · rename_i hm; cases h; exact .inl ⟨Bool.not_eq_true _ ▸ hm, rfl⟩

/-- The rounds of a loop only add codewords, and at least one in ASCII mode where the text is not done. -/
theorem encLoop_emits {i : EncIn} {x : Enc} (fuel : Nat) : ∀ e, EncOk i e → encLoop i fuel e = .ok (x, true) →
    EncOk i x ∧ encMore i x = false ∧ ∃ cs, e.Emits x cs ∧ (encMore i e = true → cs ≠ []) := by
  induction fuel with
  | zero =>
    intro e hok h
    rcases encLoop_cases h with ⟨hm, rfl⟩ | ⟨n, u, _, hn, _⟩
    · exact ⟨hok, hm, [], .nil rfl, fun h => by rw [hm] at h; cases h⟩
    · cases hn
  | succ n ih =>
    intro e hok h
    rcases encLoop_cases h with ⟨hm, rfl⟩ | ⟨n', u, hm, hn, hu, hl⟩
    · exact ⟨hok, hm, [], .nil rfl, fun h => by rw [hm] at h; cases h⟩
    · obtain rfl : n = n' := Nat.succ.inj hn
      have hadv := (encDispatch_spec hok hm hu).advances hok hm
      obtain ⟨cs, hcs, hne⟩ := hadv.emits
      obtain ⟨hx, hdone, ds, hds, hmore⟩ := ih _ hadv.ok hl
      refine ⟨hx, hdone, _, hcs.trans hds, fun _ hnil => ?_⟩
      obtain ⟨h1, h2⟩ := List.append_eq_nil_iff.mp hnil
      rcases hne with hne | ⟨-, -, hm'⟩
      · exact hne h1
      · exact hmore hm' h2

end Sys2Proof.Machine
end

section
/-! The last characters of a text in ASCII mode: where they take two codewords at most, the lookahead latches nothing
(40_tce_datamatrix.md rule R210 to R215, R220). -/

namespace Sys2Proof.Machine

/-! ### The lookahead where ASCII leads -/

/-- ASCII costs fewer whole codewords than every other mode. -/
def AsciiLeads (k : Costs) : Prop :=
  ∃ a, k.ascii ≤ 12 * a ∧ 12 * a < k.c40 ∧ 12 * a < k.text ∧ 12 * a < k.x12 ∧ 12 * a < k.edifact ∧ 12 * a < k.base256

theorem ceil12_div (x : Nat) : ceil12 x / 12 = (x + 11) / 12 := Nat.mul_div_cancel _ (by decide)

theorem AsciiLeads.ceil {k : Costs} (h : AsciiLeads k) :
    k.ceil.ascii < k.ceil.base256 ∧ k.ceil.ascii < k.ceil.c40 ∧ k.ceil.ascii < k.ceil.text ∧ k.ceil.ascii < k.ceil.x12
      ∧ k.ceil.ascii < k.ceil.edifact := by
  obtain ⟨a, h0, h1, h2, h3, h4, h5⟩ := h
  simp only [Costs.ceil, ceil12_div]
  omega

theorem AsciiLeads.laAtEnd {k : Costs} (h : AsciiLeads k) : laAtEnd k = .ascii := by
  have hc := h.ceil
  have hleast : k.ceil.ascii = k.ceil.least := by simp only [Costs.least]; omega
  exact if_pos hleast

theorem AsciiLeads.laDecide {k : Costs} (h : AsciiLeads k) (unread : List Nat) : laDecide k unread = some .ascii :=
  if_pos h.ceil

/-- The verdict is ASCII where ASCII leads once the text ends within three characters, or at the fourth. -/
theorem laLoop_of_leads {cost : Costs} {xs : List Nat} (h : AsciiLeads ((xs.take 4).foldl charge cost)) (hne : xs ≠ []) :
    (laLoop cost 0 xs).mode = .ascii := by
  match xs, hne with
  | [a], _ => exact h.laAtEnd
  | [a, b], _ => exact h.laAtEnd
  | [a, b, c], _ => exact h.laAtEnd
  | a :: b :: c :: d :: rest, _ =>
    simp only [List.take_succ_cons, List.take_zero, List.foldl_cons, List.foldl_nil] at h
    simp [laLoop, h.laDecide]

theorem lookahead_of_leads {xs : List Nat} (h : AsciiLeads ((xs.take 4).foldl charge (laInit .ascii))) (hne : xs ≠ [])
    (cost : Costs) (k : Nat) : (lookahead xs .ascii cost k).mode = .ascii := by
  obtain ⟨c, rest, rfl⟩ := List.exists_cons_of_ne_nil hne
  rw [lookahead]
  dsimp only
  rw [laLoop_of_leads h hne]
  rfl

/-! ### What a character costs -/

theorem chargeBy_ge (native ext : Bool) {a b c : Nat} (hb : a ≤ b) (hc : a ≤ c) : a ≤ chargeBy native ext a b c := by
  unfold chargeBy; split <;> [skip; split] <;> omega

theorem charge_ge (k : Costs) (c : Nat) : k.c40 + 8 ≤ (charge k c).c40 ∧ k.text + 8 ≤ (charge k c).text
    ∧ k.x12 + 8 ≤ (charge k c).x12 ∧ k.edifact + 9 ≤ (charge k c).edifact ∧ (charge k c).base256 = k.base256 + 12 :=
  ⟨Nat.add_le_add_left (chargeBy_ge _ _ (by decide) (by decide)) _,
    Nat.add_le_add_left (chargeBy_ge _ _ (by decide) (by decide)) _,
    Nat.add_le_add_left (chargeBy_ge _ _ (by decide) (by decide)) _,
    Nat.add_le_add_left (chargeBy_ge _ _ (by decide) (by decide)) _, rfl⟩

theorem isExt_iff (c : Nat) : isExt c = true ↔ 128 ≤ c := by rw [isExt, decide_eq_true_eq]

theorem charge_ascii_of_lt (k : Costs) {c : Nat} (h : c < 128) : (charge k c).ascii ≤ ceil12 k.ascii + 12 := by
  have he : ¬ isExt c = true := by rw [isExt_iff]; omega
  have hk : k.ascii ≤ ceil12 k.ascii := by unfold ceil12; omega
  simp only [charge, if_neg he]
  split <;> omega

theorem charge_ascii_of_digit (k : Costs) {c : Nat} (h : isDigit c = true) : (charge k c).ascii = k.ascii + 6 := if_pos h

/-- An extended character is native to no mode. -/
theorem charge_of_ext (k : Costs) {c : Nat} (h : 128 ≤ c) : charge k c =
    ⟨ceil12 k.ascii + 24, k.c40 + 32, k.text + 32, k.x12 + 52, k.edifact + 51, k.base256 + 12⟩ := by
  have hd : isDigit c = false := by rw [← Bool.not_eq_true, isDigit_iff]; omega
  have hu : isUpper c = false := by rw [← Bool.not_eq_true, isUpper_iff]; omega
  have hl : isLower c = false := by rw [← Bool.not_eq_true, isLower_iff]; omega
  have hx : x12Sep c = false := by simp only [x12Sep, Bool.or_eq_false_iff, decide_eq_false_iff_not]; omega
  have hsp : decide (c = 32) = false := decide_eq_false (by omega)
  have he : natEdf c = false := by simp only [natEdf, Bool.and_eq_false_iff, decide_eq_false_iff_not]; omega
  simp [charge, chargeBy, natC40, natText, natX12, hd, hu, hl, hx, hsp, he, (isExt_iff c).mpr h, isSpecialB256]

theorem charge_trailer (k : Costs) : [30, 4].foldl charge k =
    ⟨ceil12 (ceil12 k.ascii + 12) + 12, k.c40 + 32, k.text + 32, k.x12 + 80, k.edifact + 78, k.base256 + 24⟩ := by
  simp [charge, chargeBy, natC40, natText, natX12, natEdf, x12Sep, isDigit, isUpper, isLower, isExt, isSpecialB256]

/-! ### The last characters -/

/-- A character that makes no pair with the next takes its codewords by itself. -/
theorem remCw_single {c : Nat} {rest : List Nat} (h : isPair (c :: rest) = false) :
    remCw (c :: rest) = (if isExt c then 2 else 1) + remCw rest := by
  cases rest with
  | nil => rw [remCw]; rfl
  | cons d xs =>
    rw [remCw, if_neg (by simpa [isPair] using h)]

theorem remCw_pair {c d : Nat} {rest : List Nat} (hc : isDigit c = true) (hd : isDigit d = true) :
    remCw (c :: d :: rest) = 1 + remCw rest := by
  rw [remCw, if_pos (Bool.and_eq_true_iff.mpr ⟨hc, hd⟩)]

theorem remCw_eq_zero {xs : List Nat} (h : remCw xs = 0) : xs = [] := by
  cases xs with
  | nil => rfl
  | cons c rest =>
    cases hp : isPair (c :: rest) with
    | false => rw [remCw_single hp] at h; split at h <;> omega
    | true =>
      cases rest with
      | nil => cases hp
      | cons d xs =>
        obtain ⟨hc, hd⟩ := Bool.and_eq_true_iff.mp hp
        rw [remCw_pair hc hd] at h; omega

/-- Where two codewords are enough and no pair is first: one character, two below 128, or one below 128 and a pair. -/
theorem remCw_le_two {c : Nat} {rest : List Nat} (h : remCw (c :: rest) ≤ 2) (hp : isPair (c :: rest) = false) :
    rest = [] ∨ (c < 128 ∧ ∃ d, rest = [d] ∧ d < 128)
      ∨ (c < 128 ∧ ∃ d d', rest = [d, d'] ∧ isDigit d = true ∧ isDigit d' = true) := by
  cases rest with
  | nil => exact .inl rfl
  | cons d xs =>
    right
    rw [remCw_single hp] at h
    have hpos : remCw (d :: xs) ≠ 0 := fun h0 => List.cons_ne_nil _ _ (remCw_eq_zero h0)
    have hc : c < 128 := by
      by_contra hx
      rw [if_pos ((isExt_iff c).mpr (by omega))] at h
      omega
    have h1 : remCw (d :: xs) ≤ 1 := by split at h <;> omega
    cases hq : isPair (d :: xs) with
    | false =>
      rw [remCw_single hq] at h1
      have hd : d < 128 := by
        by_contra hx
        rw [if_pos ((isExt_iff d).mpr (by omega))] at h1
        omega
      have : xs = [] := remCw_eq_zero (by split at h1 <;> omega)
      exact .inl ⟨hc, d, by rw [this], hd⟩
    | true =>
      cases xs with
      | nil => cases hq
      | cons d' ys =>
        obtain ⟨hd, hd'⟩ := Bool.and_eq_true_iff.mp hq
        rw [remCw_pair hd hd'] at h1
        have : ys = [] := remCw_eq_zero (by omega)
        exact .inr ⟨hc, d, d', by rw [this], hd, hd'⟩

theorem asciiLeads_of_short {c : Nat} {rest tail : List Nat} (h : remCw (c :: rest) ≤ 2) (hp : isPair (c :: rest) = false)
    (ht : tail = [] ∨ tail = macroTrailer) : AsciiLeads (((c :: rest ++ tail).take 4).foldl charge (laInit .ascii)) := by
  have g := charge_ge
  rcases remCw_le_two h hp with rfl | ⟨hc, d, rfl, hd⟩ | ⟨hc, d, d', rfl, hd, hd'⟩
  · have g1 := g (laInit .ascii) c
    by_cases hx : c < 128
    · have a1 := charge_ascii_of_lt (laInit .ascii) hx
      rcases ht with rfl | rfl
      · refine ⟨1, ?_⟩
        simp only [List.append_nil, List.take_succ_cons, List.take_nil, List.foldl_cons, List.foldl_nil]
        simp only [laInit, if_true, ceil12] at *
        omega
      · refine ⟨3, ?_⟩
        rw [show ([c] ++ macroTrailer).take 4 = c :: [30, 4] from rfl, List.foldl_cons, charge_trailer]
        simp only [laInit, if_true, ceil12] at *
        omega
    · rcases ht with rfl | rfl
      · refine ⟨2, ?_⟩
        simp only [List.append_nil, List.take_succ_cons, List.take_nil, List.foldl_cons, List.foldl_nil]
        rw [charge_of_ext _ (by omega)]
        decide
      · refine ⟨4, ?_⟩
        rw [show ([c] ++ macroTrailer).take 4 = c :: [30, 4] from rfl, List.foldl_cons, charge_trailer,
          charge_of_ext _ (by omega)]
        decide
  · have g1 := g (laInit .ascii) c
    have g2 := g (charge (laInit .ascii) c) d
    have a1 := charge_ascii_of_lt (laInit .ascii) hc
    have a2 := charge_ascii_of_lt (charge (laInit .ascii) c) hd
    rcases ht with rfl | rfl
    · refine ⟨2, ?_⟩
      simp only [List.append_nil, List.take_succ_cons, List.take_nil, List.foldl_cons, List.foldl_nil]
      simp only [laInit, if_true, ceil12] at *
      omega
    · refine ⟨4, ?_⟩
      rw [show ([c, d] ++ macroTrailer).take 4 = c :: d :: [30, 4] from rfl, List.foldl_cons, List.foldl_cons, charge_trailer]
      simp only [laInit, if_true, ceil12] at *
      omega
  · have g1 := g (laInit .ascii) c
    have g2 := g (charge (laInit .ascii) c) d
    have g3 := g (charge (charge (laInit .ascii) c) d) d'
    have a1 := charge_ascii_of_lt (laInit .ascii) hc
    have a2 := charge_ascii_of_digit (charge (laInit .ascii) c) hd
    have a3 := charge_ascii_of_digit (charge (charge (laInit .ascii) c) d) hd'
    rcases ht with rfl | rfl
    · refine ⟨2, ?_⟩
      simp only [List.append_nil, List.take_succ_cons, List.take_nil, List.foldl_cons, List.foldl_nil]
      simp only [laInit, if_true, ceil12] at *
      omega
    · refine ⟨3, ?_⟩
      rw [show ([c, d, d'] ++ macroTrailer).take 4 = [c, d, d', 30] from rfl, List.foldl_cons, List.foldl_cons,
        List.foldl_cons, List.foldl_cons, List.foldl_nil]
      have g4 := g (charge (charge (charge (laInit .ascii) c) d) d') 30
      have a4 := charge_ascii_of_lt (charge (charge (charge (laInit .ascii) c) d) d') (c := 30) (by decide)
      simp only [laInit, if_true, ceil12] at *
      omega

/-! ### The rounds at the end -/

/-- With two codewords to go at most, a step in ASCII mode latches nothing. -/
theorem encLook_of_short {i : EncIn} {e : Enc} {c : Nat} {rest : List Nat} (hok : EncOk i e) (hr : encRest i e = c :: rest)
    (h : remCw (c :: rest) ≤ 2) (hp : isPair (c :: rest) = false) : (encLook i e .ascii).mode = .ascii := by
  rw [encLook, drop_pos_eq i hok.pos, hr]
  exact lookahead_of_leads (asciiLeads_of_short h hp hok.tail) (List.cons_ne_nil _ _) _ _

/-- A run of rounds from ASCII mode with two codewords to go at most ends that many codewords later. -/
theorem encLoop_short {i : EncIn} {x : Enc} (fuel : Nat) : ∀ e, EncOk i e → e.mode = .ascii → remCw (encRest i e) ≤ 2 →
    encLoop i fuel e = .ok (x, true) → x.len = e.len + remCw (encRest i e) := by
  induction fuel with
  | zero =>
    intro e _ _ _ h
    rcases encLoop_cases h with ⟨hm, rfl⟩ | ⟨n, u, _, hn, _⟩
    · rw [(encMore_eq_false i x).mp hm]; rfl
    · cases hn
  | succ n ih =>
    intro e hok hmode hrem h
    rcases encLoop_cases h with ⟨hm, rfl⟩ | ⟨n', u, hm, hn, hu, hl⟩
    · rw [(encMore_eq_false i x).mp hm]; rfl
    obtain rfl : n = n' := Nat.succ.inj hn
    obtain ⟨c, rest, hr⟩ := List.exists_cons_of_ne_nil ((encMore_iff i e).mp hm)
    obtain ⟨hstep, hskip, hmode'⟩ := asciiStep_spec hok hr
    have hadv := hstep.advances hok hr hmode hskip hmode'
    rw [encDispatch, hmode] at hu
    cases hu
    rw [hr] at hrem ⊢
    have next : ∀ {k : Nat} {xs cs : List Nat}, (asciiStep i e).new = none → (asciiStep i e).pos = e.pos + k →
        (c :: rest).drop k = xs → e.Emits (asciiStep i e) cs → remCw (c :: rest) = cs.length + remCw xs →
        x.len = e.len + remCw (c :: rest) := by
      intro k xs cs hnew hpos hdrop hem hcount
      have hrest : encRest i (takeNew (asciiStep i e)) = xs := by
        rw [encRest_takeNew, encRest_drop hskip hpos, hr, hdrop]
      have := ih _ hadv.ok ((takeNew_mode_of_none hnew).trans (hmode'.trans hmode)) (by rw [hrest]; omega) hl
      rw [hrest, takeNew_len, hem.len] at this
      omega
    cases hstep with
    | digits d xs h hc hd pos new emits =>
      subst h
      exact next new pos rfl emits (remCw_pair hc hd)
    | latch m hm verdict single => exact absurd (verdict.symm.trans (encLook_of_short hok hr hrem single)) hm
    | upper hc single pos new emits =>
      exact next new pos rfl emits ((remCw_single single).trans (by rw [if_pos ((isExt_iff c).mpr hc)]; rfl))
    | plain hc single pos new emits =>
      exact next new pos rfl emits ((remCw_single single).trans (by rw [if_neg (by rw [isExt_iff]; omega)]; rfl))

/-- Text that needs two codewords or more in ASCII mode gets two or more, whatever the modes. -/
theorem encLoop_two {i : EncIn} {x e : Enc} {fuel : Nat} (hok : EncOk i e) (hmode : e.mode = .ascii)
    (hrem : 2 ≤ remCw (encRest i e)) (h : encLoop i fuel e = .ok (x, true)) : e.len + 2 ≤ x.len := by
  rcases encLoop_cases h with ⟨hm, rfl⟩ | ⟨n, u, hm, -, hu, hl⟩
  · rw [(encMore_eq_false i x).mp hm] at hrem
    exact absurd hrem (by decide)
  obtain ⟨c, rest, hr⟩ := List.exists_cons_of_ne_nil ((encMore_iff i e).mp hm)
  obtain ⟨hstep, hskip, hmode'⟩ := asciiStep_spec hok hr
  have hadv := hstep.advances hok hr hmode hskip hmode'
  rw [encDispatch, hmode] at hu
  cases hu
  obtain ⟨-, -, cs, hem, hsome⟩ := encLoop_emits n _ hadv.ok hl
  have hlen := hem.len
  rw [takeNew_len] at hlen
  have one : encRest i (asciiStep i e) ≠ [] → 1 ≤ cs.length := fun hne =>
    List.length_pos_iff.mpr (hsome (by rw [encMore_takeNew, encMore_iff]; exact hne))
  rw [hr] at hrem
  cases hstep with
  | digits d xs h hc hd pos new emits =>
    subst h
    rw [remCw_pair hc hd] at hrem
    have := emits.len
    have := one (by
      rw [encRest_drop hskip pos, hr]
      rintro (hnil : xs = [])
      rw [hnil] at hrem
      exact absurd hrem (by decide))
    simp only [List.length_singleton] at *
    omega
  | latch m hm verdict single pos new emits =>
    have := emits.len
    have := one (by rw [encRest_congr hskip pos, hr]; exact List.cons_ne_nil _ _)
    simp only [List.length_singleton] at *
    omega
  | upper hc single pos new emits =>
    have := emits.len
    simp only [List.length_cons, List.length_nil] at *
    omega
  | plain hc single pos new emits =>
    rw [remCw_single single, if_neg (by rw [isExt_iff]; omega)] at hrem
    have := emits.len
    have := one (by
      rw [encRest_drop hskip pos, hr]
      rintro (hnil : rest = [])
      rw [hnil] at hrem
      exact absurd hrem (by decide))
    simp only [List.length_singleton] at *
    omega

end Sys2Proof.Machine
end

section
/-! What DEC.DM does on a stream whose codewords are known: one lemma for each kind of codeword and segment
(44_bsp_datamatrix.md rule R392 to R410). -/

namespace Sys2Proof.Machine

/-! ### Where the decoder stands -/

/-- The stream of `u` is `W`, and `n` codewords of it are read. -/
structure StreamAt (W : List Nat) (u : State) (n : Nat) : Prop where
  len : u.regs.cwLen.toNat = W.length
  cws : ∀ k x, W[k]? = some x → u.cwAt k = x
  bp : u.work.bp = 8 * n

/-- `u` has read `n` codewords of the stream `W` and written `out`, with the envelope's trailer `trl` to come. -/
structure Reading (W trl : List Nat) (u : State) (n : Nat) (out : List Nat) : Prop extends StreamAt W u n where
  outLen : u.regs.outLen.toNat = out.length
  outs : ∀ j x, out[j]? = some x → (u.mem.out.read j).toNat = x
  trl : u.work.trl = trl.map (BitVec.ofNat 8)
  segs : u.regs.segCnt.toNat ≤ n

/-- DEC.DM has completed with the text `txt`. -/
structure Finished (u : State) (txt : List Nat) : Prop where
  completed : u.Completed
  outLen : u.regs.outLen.toNat = txt.length
  outs : ∀ j x, txt[j]? = some x → (u.mem.out.read j).toNat = x

section
variable {W trl : List Nat} {u v : State} {n : Nat} {out : List Nat}

theorem StreamAt.congr (h : StreamAt W u n) (hlen : v.regs.cwLen = u.regs.cwLen) (hcw : v.mem.cw = u.mem.cw)
    (hbp : v.work.bp = u.work.bp) : StreamAt W v n :=
  ⟨hlen ▸ h.len, fun k x hx => by rw [State.cwAt, hcw]; exact h.cws k x hx, hbp ▸ h.bp⟩

theorem StreamAt.advance (h : StreamAt W u n) (k : Nat) : StreamAt W (u.advance (8 * k)) (n + k) :=
  ⟨h.len, h.cws, by change u.work.bp + 8 * k = _; rw [h.bp]; omega⟩

theorem StreamAt.avail (h : StreamAt W u n) : u.avail = 8 * (W.length - n) := by
  rw [State.avail_eq, h.len, h.bp]; omega

/-- The next codeword. -/
theorem StreamAt.readBits (h : StreamAt W u n) {b : Nat} (hb : W[n]? = some b) : u.readBits 8 = .ok (b, u.advance 8) := by
  have hn := (List.getElem?_eq_some_iff.mp hb).1
  rw [State.readBits_ok (by rw [h.avail]; omega), h.bp, State.field_codeword, h.cws n b hb]

theorem StreamAt.byte (h : StreamAt W u n) {b : Nat} (hb : W[n]? = some b) : b < 256 := by
  rw [← h.cws n b hb, State.cwAt]; exact BitVec.isLt _

theorem Reading.advance (h : Reading W trl u n out) (k : Nat) : Reading W trl (u.advance (8 * k)) (n + k) out :=
  ⟨h.toStreamAt.advance k, h.outLen, h.outs, h.trl, h.segs.trans (Nat.le_add_right n k)⟩

/-- Changes of the working state that leave the cursor and the trailers. -/
theorem Reading.of_eq (h : Reading W trl u n out) (hregs : v.regs = u.regs) (hmem : v.mem = u.mem)
    (hbp : v.work.bp = u.work.bp) (htrl : v.work.trl = u.work.trl) : Reading W trl v n out :=
  ⟨h.toStreamAt.congr (by rw [hregs]) (by rw [hmem]) hbp, by rw [hregs]; exact h.outLen, by rw [hmem]; exact h.outs,
    htrl.trans h.trl, by rw [hregs]; exact h.segs⟩

/-- Code units appended to OUT. -/
theorem outs_appended (ho : u.regs.outLen.toNat = out.length) (hs : ∀ j x, out[j]? = some x → (u.mem.out.read j).toNat = x)
    {cs : List Nat} (hcs : ∀ c ∈ cs, c < 256) (hroom : out.length + cs.length < 65536) :
    (u.appended (cs.map (BitVec.ofNat 8))).regs.outLen.toNat = (out ++ cs).length
      ∧ ∀ j x, (out ++ cs)[j]? = some x → ((u.appended (cs.map (BitVec.ofNat 8))).mem.out.read j).toNat = x := by
  constructor
  · simp only [State.appended_regs, BitVec.toNat_add, BitVec.toNat_ofNat, ho, List.length_map, List.length_append]
    omega
  · intro j x hx
    rw [State.appended_mem, ho]
    dsimp only
    by_cases hj : j < out.length
    · rw [Buf.read_writeAll_lt _ _ hj]
      rw [List.getElem?_append_left hj] at hx
      exact hs j x hx
    · rw [List.getElem?_append_right (by omega)] at hx
      obtain ⟨hk, hval⟩ := List.getElem?_eq_some_iff.mp hx
      have hread := Buf.read_writeAll_get (cs.map (BitVec.ofNat 8)) u.mem.out out.length (j - out.length)
        (by rwa [List.length_map])
      rw [show out.length + (j - out.length) = j from by omega] at hread
      rw [hread, List.getElem_map, hval, BitVec.toNat_ofNat]
      exact Nat.mod_eq_of_lt (hcs x (hval ▸ List.getElem_mem hk))

theorem Reading.appended (h : Reading W trl u n out) {cs : List Nat} (hcs : ∀ c ∈ cs, c < 256)
    (hroom : out.length + cs.length < 65536) : Reading W trl (u.appended (cs.map (BitVec.ofNat 8))) n (out ++ cs) := by
  obtain ⟨ho, hs⟩ := outs_appended h.outLen h.outs hcs hroom
  exact ⟨h.toStreamAt.congr rfl rfl rfl, ho, hs, h.trl, h.segs⟩

/-! ### The end-of-stream test (rule R392) -/

/-- The decoder behind an element of the stream: it goes on in ASCII mode, or the stream is done and the command has ended. -/
def Settled (W trl : List Nat) (u : State) (n : Nat) (out : List Nat) : Prop :=
  (n < W.length ∧ Reading W trl u n out ∧ u.phase = .dmStream .ascii ∧ u.work.upper = false)
    ∨ (n = W.length ∧ Finished u (out ++ trl))

theorem Reading.dmFinish (h : Reading W trl u n out) (htrl : ∀ c ∈ trl, c < 256)
    (hroom : out.length + trl.length ≤ Config.outSize) : ∃ v, u.dmFinish = .ok v ∧ Finished v (out ++ trl) := by
  refine ⟨u.dmEnded, State.dmFinish_ok (by rw [h.outLen, h.trl, List.length_map]; exact hroom), ?_⟩
  obtain ⟨ho, hs⟩ := outs_appended h.outLen h.outs htrl (hroom.trans_lt (by decide))
  rw [← h.trl] at ho hs
  exact ⟨State.complete_completed _, ho, hs⟩

theorem Reading.dmNext (h : Reading W trl u n out) (htrl : ∀ c ∈ trl, c < 256)
    (hroom : out.length + trl.length ≤ Config.outSize) (hn : n ≤ W.length) (hup : u.work.upper = false) :
    ∃ v, u.dmNext = .ok v ∧ Settled W trl v n out := by
  rw [State.dmNext]
  split
  · rename_i h0
    rw [h.toStreamAt.avail] at h0
    obtain ⟨v, hv, hf⟩ := h.dmFinish htrl hroom
    exact ⟨v, hv, .inr ⟨by omega, hf⟩⟩
  · rename_i h0
    rw [h.toStreamAt.avail] at h0
    exact ⟨_, rfl, .inl ⟨by omega, h.of_eq rfl rfl rfl rfl, rfl, hup⟩⟩

/-! ### The codewords of ASCII mode (rule R393) -/

theorem dmRound_ascii (h : StreamAt W u n) (hp : u.phase = .dmStream .ascii) {b : Nat} (hb : W[n]? = some b) :
    u.dmRound = (u.advance 8).streamEnd writesDecDm (asciiCodeword (BitVec.ofNat 8 b) (u.advance 8)) := by
  rw [State.dmRound, hp]
  dsimp only
  rw [h.readBits hb]

theorem asciiCodeword_char {b : Nat} (s : State) (h1 : 1 ≤ b) (h2 : b ≤ 128) :
    asciiCodeword (BitVec.ofNat 8 b) s = dmAsciiBody (BitVec.ofNat 8 b) s := by
  have hb : (BitVec.ofNat 8 b).toNat = b := by rw [BitVec.toNat_ofNat]; omega
  unfold asciiCodeword
  dsimp only
  rw [hb, if_neg (by omega), if_pos h2]

theorem asciiCodeword_digits {b : Nat} (s : State) (h1 : 130 ≤ b) (h2 : b ≤ 229) :
    asciiCodeword (BitVec.ofNat 8 b) s = dmDigitsBody (BitVec.ofNat 8 b) s := by
  have hb : (BitVec.ofNat 8 b).toNat = b := by rw [BitVec.toNat_ofNat]; omega
  unfold asciiCodeword
  dsimp only
  rw [hb, if_neg (by omega), if_neg (by omega), if_neg (by omega), if_pos h2]

/-- The segment a mode's latch opens. -/
def Mode.seg (m : Mode) : DmSeg :=
  match m with
  | .ascii => .ascii
  | .c40 => .c40
  | .text => .text
  | .x12 => .x12
  | .edifact => .edifact
  | .base256 => .base256

theorem asciiCodeword_latch {m : Mode} (hm : m ≠ .ascii) (s : State) :
    asciiCodeword (BitVec.ofNat 8 (latch m)) s = s.dmLatch m.seg := by
  cases m
  · exact absurd rfl hm
  all_goals rfl

/-- A character's codeword, with an upper shift or without (rule R395). -/
theorem Reading.char (h : Reading W trl u n out) (hp : u.phase = .dmStream .ascii) (htrl : ∀ c ∈ trl, c < 256)
    {b c : Nat} (hb : W[n]? = some b) (h1 : 1 ≤ b) (h2 : b ≤ 128) (hc : c = if u.work.upper then b + 127 else b - 1)
    (hroom : out.length + 1 + trl.length ≤ Config.outSize) : Settled W trl u.dmRound (n + 1) (out ++ [c]) := by
  have hn := (List.getElem?_eq_some_iff.mp hb).1
  have hr : Reading W trl { u.advance 8 with work.upper := false } (n + 1) out := (h.advance 1).of_eq rfl rfl rfl rfl
  have hsize : Config.outSize = 16384 := rfl
  have hval : (if u.work.upper then BitVec.ofNat 8 b - 1 + 128 else BitVec.ofNat 8 b - 1) = BitVec.ofNat 8 c := by
    apply BitVec.eq_of_toNat_eq
    have one : (1 : Byte).toNat = 1 := rfl
    have upper : (128 : Byte).toNat = 128 := rfl
    subst hc
    cases u.work.upper <;>
      simp only [Bool.false_eq_true, if_true, if_false, BitVec.toNat_add, BitVec.toNat_sub, BitVec.toNat_ofNat, one,
        upper] <;> omega
  have happ := hr.appended (cs := [c]) (by
    intro d hd
    rw [List.mem_singleton.mp hd, hc]
    split <;> omega) (by simp only [List.length_singleton]; omega)
  obtain ⟨v, hv, hset⟩ := happ.dmNext htrl (by rw [List.length_append, List.length_singleton]; exact hroom) hn rfl
  rw [dmRound_ascii h.toStreamAt hp hb, asciiCodeword_char _ h1 h2, dmAsciiBody]
  change State.streamEnd _ _ (dmNextOf (State.out _ (if u.work.upper then _ else _))) |> fun x => Settled W trl x _ _
  rw [hval, State.out_ok _ (by rw [hr.outLen]; omega), dmNextOf_ok]
  change Settled W trl (State.streamEnd _ _ (State.dmNext _)) _ _
  rw [show [BitVec.ofNat 8 c] = [c].map (BitVec.ofNat 8) from rfl, hv]
  exact hset

/-- A digit pair's codeword (rule R397). -/
theorem Reading.digits (h : Reading W trl u n out) (hp : u.phase = .dmStream .ascii) (hup : u.work.upper = false)
    (htrl : ∀ c ∈ trl, c < 256) {c d : Nat} (hc : isDigit c = true) (hd : isDigit d = true)
    (hb : W[n]? = some (130 + 10 * (c - 48) + (d - 48)))
    (hroom : out.length + 2 + trl.length ≤ Config.outSize) : Settled W trl u.dmRound (n + 1) (out ++ [c, d]) := by
  have hn := (List.getElem?_eq_some_iff.mp hb).1
  rw [isDigit_iff] at hc hd
  have hsize : Config.outSize = 16384 := rfl
  have hr := h.advance 1
  have happ := hr.appended (cs := [c, d]) (by
    intro x hx
    rcases List.mem_cons.mp hx with rfl | hx
    · omega
    · rw [List.mem_singleton.mp hx]; omega) (by simp only [List.length_cons, List.length_nil]; omega)
  obtain ⟨v, hv, hset⟩ := happ.dmNext htrl (by simpa using hroom) hn hup
  have hb' : (BitVec.ofNat 8 (130 + 10 * (c - 48) + (d - 48))).toNat = 130 + 10 * (c - 48) + (d - 48) := by
    rw [BitVec.toNat_ofNat]; omega
  rw [dmRound_ascii h.toStreamAt hp hb, asciiCodeword_digits _ (by omega) (by omega), dmDigitsBody]
  rw [hb', show 48 + (130 + 10 * (c - 48) + (d - 48) - 130) / 10 = c from by omega,
    show 48 + (130 + 10 * (c - 48) + (d - 48) - 130) % 10 = d from by omega,
    show [BitVec.ofNat 8 c, BitVec.ofNat 8 d] = [c, d].map (BitVec.ofNat 8) from rfl,
    State.outAll_ok _ (by rw [hr.outLen]; simp only [List.length_map, List.length_cons, List.length_nil]; omega), dmNextOf_ok, hv]
  exact hset

/-- The pad ends the data (rule R396). -/
theorem Reading.pad (h : Reading W trl u n out) (hp : u.phase = .dmStream .ascii) (htrl : ∀ c ∈ trl, c < 256)
    (hb : W[n]? = some 129) (hroom : out.length + trl.length ≤ Config.outSize) : Finished u.dmRound (out ++ trl) := by
  obtain ⟨v, hv, hf⟩ := (h.advance 1).dmFinish htrl hroom
  rw [dmRound_ascii h.toStreamAt hp hb]
  change Finished (State.streamEnd _ _ (State.dmFinish _)) _
  rw [hv]
  exact hf

/-- The unlatch as the last codeword (rule R404). -/
theorem Reading.lastUnlatch (h : Reading W trl u n out) (hp : u.phase = .dmStream .ascii) (hup : u.work.upper = false)
    (htrl : ∀ c ∈ trl, c < 256) (hb : W[n]? = some 254) (hn : n + 1 = W.length)
    (hroom : out.length + trl.length ≤ Config.outSize) : Settled W trl u.dmRound (n + 1) out := by
  have hr := h.advance 1
  obtain ⟨v, hv, hset⟩ := hr.dmNext htrl hroom hn.le hup
  rw [dmRound_ascii h.toStreamAt hp hb]
  change Settled W trl (State.streamEnd _ _ (dmUnlatchBody _)) _ _
  rw [dmUnlatchBody, if_pos (by rw [show u.advance 8 = u.advance (8 * 1) from rfl, hr.toStreamAt.avail]; omega)]
  rw [hv]
  exact hset

/-- A latch with codewords behind it (rule R398). -/
theorem Reading.latch (h : Reading W trl u n out) (hp : u.phase = .dmStream .ascii) {m : Mode} (hm : m ≠ .ascii)
    (hb : W[n]? = some (latch m)) (hn : n + 1 < W.length) :
    Reading W trl u.dmRound (n + 1) out ∧ u.dmRound.phase = .dmStream m.seg ∧ u.dmRound.work.upper = false := by
  have hr := h.advance 1
  rw [dmRound_ascii h.toStreamAt hp hb, asciiCodeword_latch hm, State.dmLatch,
    if_neg (by rw [show u.advance 8 = u.advance (8 * 1) from rfl, hr.toStreamAt.avail]; omega)]
  exact ⟨hr.of_eq rfl rfl rfl rfl, rfl, rfl⟩

/-- The upper shift with a character behind it (rule R402). -/
theorem Reading.upshift (h : Reading W trl u n out) (hp : u.phase = .dmStream .ascii) (hb : W[n]? = some 235)
    (hn : n + 1 < W.length) :
    Reading W trl u.dmRound (n + 1) out ∧ u.dmRound.phase = .dmStream .ascii ∧ u.dmRound.work.upper = true := by
  have hr : Reading W trl { u.advance 8 with work.upper := true } (n + 1) out := (h.advance 1).of_eq rfl rfl rfl rfl
  rw [dmRound_ascii h.toStreamAt hp hb]
  change _ ∧ State.phase (State.streamEnd _ _ (dmUpshiftBody _)) = _ ∧ _
  change Reading W trl (State.streamEnd _ _ (dmUpshiftBody _)) _ _ ∧ _
  rw [show asciiCodeword (BitVec.ofNat 8 235) (u.advance 8) = dmUpshiftBody (u.advance 8) from rfl, dmUpshiftBody,
    State.dmNext, if_neg (by rw [hr.toStreamAt.avail]; omega)]
  exact ⟨hr.of_eq rfl rfl rfl rfl, rfl, rfl⟩

/-- The codeword of an envelope (rule R401). -/
theorem Reading.macroWord (h : Reading W [] u n out) (hp : u.phase = .dmStream .ascii) (hup : u.work.upper = false)
    {b : Nat} {header : List Nat} (hbh : (b = 236 ∧ header = macroHeader05) ∨ (b = 237 ∧ header = macroHeader06))
    (hb : W[n]? = some b) (hroom : out.length + 9 ≤ Config.outSize) :
    Settled W macroTrailer u.dmRound (n + 1) (out ++ header) := by
  have hn := (List.getElem?_eq_some_iff.mp hb).1
  have hsize : Config.outSize = 16384 := rfl
  have hlen : header.length = 7 := by rcases hbh with ⟨-, rfl⟩ | ⟨-, rfl⟩ <;> rfl
  have hsmall : ∀ c ∈ header, c < 256 := by rcases hbh with ⟨-, rfl⟩ | ⟨-, rfl⟩ <;> decide
  have hr : Reading W macroTrailer
      { u.advance 8 with work.trl := macroTrailer.map (BitVec.ofNat 8) ++ u.work.trl } (n + 1) out := by
    have := h.advance 1
    exact ⟨this.toStreamAt.congr rfl rfl rfl, this.outLen, this.outs, by dsimp only; rw [h.trl]; rfl, this.segs⟩
  obtain ⟨v, hv, hset⟩ := (hr.appended hsmall (by omega)).dmNext (by decide)
    (by rw [List.length_append, hlen]; exact hroom) hn hup
  rw [dmRound_ascii h.toStreamAt hp hb]
  have hbody : asciiCodeword (BitVec.ofNat 8 b) (u.advance 8) = dmMacroBody header (u.advance 8) := by
    rcases hbh with ⟨rfl, rfl⟩ | ⟨rfl, rfl⟩ <;> rfl
  rw [hbody, dmMacroBody]
  change Settled W _ (State.streamEnd _ _ (dmNextOf (State.outAll
    { u.advance 8 with work.trl := macroTrailer.map (BitVec.ofNat 8) ++ u.work.trl } _))) _ _
  rw [State.outAll_ok _ (by rw [hr.outLen, List.length_map]; omega), dmNextOf_ok, hv]
  exact hset

end

end Sys2Proof.Machine
end

section
/-! The segments of DEC.DM on a stream whose codewords are known (44_bsp_datamatrix.md rule R405 to R410). -/

namespace Sys2Proof.Machine

/-! ### A list of codewords in the stream -/

theorem infix_getElem {W cs : List Nat} {n j x : Nat} (h : cs <+: W.drop n) (hx : cs[j]? = some x) : W[n + j]? = some x := by
  obtain ⟨tail, ht⟩ := h
  rw [← List.getElem?_drop, ← ht, List.getElem?_append_left (List.getElem?_eq_some_iff.mp hx).1, hx]

theorem infix_append {W a b : List Nat} {n : Nat} (h : a ++ b <+: W.drop n) :
    a <+: W.drop n ∧ b <+: W.drop (n + a.length) := by
  obtain ⟨tail, ht⟩ := h
  refine ⟨⟨b ++ tail, by rw [← List.append_assoc]; exact ht⟩, tail, ?_⟩
  rw [← List.drop_drop, ← ht, List.append_assoc, List.drop_left]

theorem infix_length {W cs : List Nat} {n : Nat} (h : cs <+: W.drop n) (hne : cs ≠ [] ∨ n ≤ W.length) :
    n + cs.length ≤ W.length := by
  have hl := h.length_le
  rw [List.length_drop] at hl
  rcases hne with hne | hn
  · have := List.length_pos_iff.mpr hne; omega
  · omega

/-! ### A whole segment -/

/-- The round of a segment that ends at codeword `n` with `out` written. -/
theorem dmRound_segment {W trl : List Nat} {u t : State} {n : Nat} {out : List Nat} {m : Mode}
    (hp : u.phase = .dmStream m.seg) (hm : m ≠ .ascii) (hseg : dmSegment m.seg u = .ok t) (ht : Reading W trl t n out)
    (htrl : ∀ c ∈ trl, c < 256) (hroom : out.length + trl.length ≤ Config.outSize) (hn : n ≤ W.length) :
    Settled W trl u.dmRound n out := by
  have hr : Reading W trl { t with work.upper := false } n out := ht.of_eq rfl rfl rfl rfl
  obtain ⟨v, hv, hset⟩ := hr.dmNext htrl hroom hn rfl
  have hround : u.dmRound = u.streamEnd writesDecDm (dmSegmentThen m.seg u) := by
    rw [State.dmRound, hp]
    cases m
    · exact absurd rfl hm
    all_goals rfl
  rw [hround, dmSegmentThen, hseg]
  dsimp only
  rw [hv]
  exact hset

/-! ### Pairs of codewords (rule R405) -/

/-- The cursor and the codewords are the same. -/
def SameStream (s t : State) : Prop := t.regs.cwLen = s.regs.cwLen ∧ t.mem.cw = s.mem.cw ∧ t.work.bp = s.work.bp

/-- `vals` takes values in order, and neither reads the stream nor moves the cursor. -/
structure ValueReader (vals : List Nat → State → Except Raise State) : Prop where
  nil : ∀ s, vals [] s = .ok s
  append : ∀ {a b : List Nat} {s t : State}, vals (a ++ b) s = .ok t → ∃ m, vals a s = .ok m ∧ vals b m = .ok t
  advance : ∀ {vs : List Nat} {s t : State} (k : Nat), vals vs s = .ok t → vals vs (s.advance k) = .ok (t.advance k)
  stream : ∀ {vs : List Nat} {s t : State}, vals vs s = .ok t → SameStream s t

section
variable {W : List Nat} {vals : List Nat → State → Except Raise State} {u w : State} {n : Nat}

/-- One pair of codewords read. -/
theorem pairSeg_triplet (hv : ValueReader vals) {a b c : Nat} (ha : a < 40) (hb : b < 40) (hc : c < 40) (h : StreamAt W u n)
    (hcs : packTriplet a b c <+: W.drop n) (hw : vals [a, b, c] u = .ok w) (fuel : Nat) :
    StreamAt W (w.advance 16) (n + 2) ∧ pairSeg vals (fuel + 1) u =
      if n + 2 = W.length then .ok (w.advance 16) else pairSeg vals fuel (w.advance 16) := by
  obtain ⟨x, y, hpack, -, -, hun⟩ := unpackTriplet_packTriplet ha hb hc
  have hx : W[n]? = some x := infix_getElem (j := 0) hcs (by rw [hpack]; rfl)
  have hy : W[n + 1]? = some y := infix_getElem (j := 1) hcs (by rw [hpack]; rfl)
  have hn := (List.getElem?_eq_some_iff.mp hy).1
  have hne : x ≠ 254 := by
    have : x = (1600 * a + 40 * b + c + 1) / 256 := by
      rw [packTriplet] at hpack
      exact (List.cons.inj hpack).1.symm
    omega
  obtain ⟨s1, s2, s3⟩ := hv.stream hw
  have hat : StreamAt W (w.advance 16) (n + 2) := (h.congr s1 s2 s3).advance 2
  refine ⟨hat, ?_⟩
  have h8 : StreamAt W (u.advance 8) (n + 1) := h.advance 1
  rw [pairSeg, if_neg (by rw [h.avail]; omega), h.readBits hx]
  dsimp only
  rw [if_neg hne, h8.readBits hy]
  dsimp only
  rw [hun]
  dsimp only
  rw [State.advance_advance, hv.advance 16 hw]
  dsimp only
  rw [hat.avail]
  by_cases hend : n + 2 = W.length
  · rw [if_pos hend, if_pos (by omega)]
  · rw [if_neg hend, if_neg (by omega)]

/-- Whole triplets read, up to the end of the stream or not. -/
theorem pairSeg_triplets (hv : ValueReader vals) (vs : List Nat) : ∀ {u w : State} {n : Nat}, vs.length % 3 = 0 →
    (∀ v ∈ vs, v < 40) → StreamAt W u n → tripletCodewords vs <+: W.drop n → vals vs u = .ok w → ∀ fuel,
    StreamAt W (w.advance (16 * (vs.length / 3))) (n + 2 * (vs.length / 3))
      ∧ pairSeg vals (fuel + vs.length / 3) u =
        if vs ≠ [] ∧ n + 2 * (vs.length / 3) = W.length then .ok (w.advance (16 * (vs.length / 3)))
        else pairSeg vals fuel (w.advance (16 * (vs.length / 3))) := by
  induction vs using tripletCodewords.induct with
  | case1 a b c rest ih =>
    intro u w n hlen hlt h hcs hw fuel
    simp only [List.length_cons] at hlen
    rw [tripletCodewords] at hcs
    obtain ⟨hhead, htail⟩ := infix_append hcs
    obtain ⟨m, hm, hrest⟩ := hv.append (a := [a, b, c]) hw
    obtain ⟨hat, heq⟩ := pairSeg_triplet hv (hlt a (by simp)) (hlt b (by simp)) (hlt c (by simp)) h hhead hm
      (fuel + rest.length / 3)
    obtain ⟨hat', heq'⟩ := ih (by omega) (fun v hvm => hlt v (by simp [hvm])) hat htail (hv.advance 16 hrest) fuel
    have hcount : (a :: b :: c :: rest).length / 3 = rest.length / 3 + 1 := by
      simp only [List.length_cons]; omega
    rw [State.advance_advance, show 16 + 16 * (rest.length / 3) = 16 * (rest.length / 3 + 1) from by omega] at hat' heq'
    rw [hcount, ← Nat.add_assoc, heq]
    refine ⟨by rwa [show n + 2 * (rest.length / 3 + 1) = n + 2 + 2 * (rest.length / 3) from by omega], ?_⟩
    by_cases hend : n + 2 = W.length
    · have hnil : rest = [] := by
        by_contra hne
        have h3 := List.length_pos_iff.mpr hne
        have := infix_length htail (.inr (by rw [show (packTriplet a b c).length = 2 from rfl]; omega))
        rw [tripletCodewords_length, show (packTriplet a b c).length = 2 from rfl] at this
        omega
      subst hnil
      rw [if_pos hend, if_pos ⟨List.cons_ne_nil _ _, by simpa using hend⟩]
      have hmw := Except.ok.inj ((hv.nil m).symm.trans hrest)
      rw [hmw]
      rfl
    · rw [if_neg hend, heq']
      by_cases hrest' : rest = []
      · subst hrest'
        rw [if_neg (fun h => h.1 rfl), if_neg (fun h => hend (by simpa using h.2))]
      · by_cases hfull : n + 2 + 2 * (rest.length / 3) = W.length
        · rw [if_pos ⟨hrest', hfull⟩, if_pos ⟨List.cons_ne_nil _ _, by omega⟩]
        · rw [if_neg (fun h => hfull h.2), if_neg (fun h => hfull (by omega))]
  | case2 xs hx =>
    intro u w n hlen _ h _ hw fuel
    match xs, hx with
    | [], _ =>
      have := Except.ok.inj ((hv.nil u).symm.trans hw)
      subst this
      exact ⟨h.advance 0, by rw [if_neg (fun h => h.1 rfl)]; rfl⟩
    | [_], _ => simp at hlen
    | [_, _], _ => simp at hlen
    | _ :: _ :: _ :: _, hx => exact absurd rfl (hx _ _ _ _)

/-- How the pairs of a segment stop at codeword `n`: at the end of the stream or its last codeword, or behind an unlatch. -/
theorem pairSeg_stop (h : StreamAt W u n) (fuel : Nat) :
    (n + 1 = W.length → pairSeg vals (fuel + 1) u = .ok u)
      ∧ (W[n]? = some 254 → n + 1 < W.length → pairSeg vals (fuel + 1) u = .ok (u.advance 8)) := by
  constructor
  · intro hn
    rw [pairSeg, if_pos (by rw [h.avail]; omega)]
  · intro hb hn
    rw [pairSeg, if_neg (by rw [h.avail]; omega), h.readBits hb]
    exact if_pos rfl

/-- A run of whole triplets that is left open ends where they do (rule R405). -/
theorem pairSeg_bare (hv : ValueReader vals) {vs : List Nat} (hlen : vs.length % 3 = 0) (hlt : ∀ v ∈ vs, v < 40)
    (h : StreamAt W u n) (hn : n < W.length) (hcs : tripletCodewords vs <+: W.drop n) (hw : vals vs u = .ok w)
    (hend : n + 2 * (vs.length / 3) + 1 ≥ W.length) {fuel : Nat} (hfuel : vs.length / 3 < fuel) :
    pairSeg vals fuel u = .ok (w.advance (16 * (vs.length / 3))) := by
  obtain ⟨f, rfl⟩ := Nat.exists_eq_add_of_lt hfuel
  obtain ⟨hat, heq⟩ := pairSeg_triplets hv vs hlen hlt h hcs hw (f + 1)
  have hle := infix_length hcs (.inr hn.le)
  rw [tripletCodewords_length] at hle
  rw [show vs.length / 3 + f + 1 = f + 1 + vs.length / 3 from by omega, heq]
  split
  · rfl
  · rename_i hno
    refine (pairSeg_stop hat f).1 ?_
    by_cases hnil : vs = []
    · subst hnil
      simp only [List.length_nil, Nat.zero_div] at hend hle ⊢
      omega
    · have : ¬ n + 2 * (vs.length / 3) = W.length := fun h => hno ⟨hnil, h⟩
      omega

/-- A run of whole triplets with an unlatch behind it ends behind that, or before it where it is the last codeword. -/
theorem pairSeg_unlatched (hv : ValueReader vals) {vs : List Nat} (hlen : vs.length % 3 = 0) (hlt : ∀ v ∈ vs, v < 40)
    (h : StreamAt W u n) (hcs : tripletCodewords vs ++ [254] <+: W.drop n) (hw : vals vs u = .ok w)
    {fuel : Nat} (hfuel : vs.length / 3 < fuel) :
    pairSeg vals fuel u = .ok (w.advance (8 * (if n + 2 * (vs.length / 3) + 1 = W.length then 2 * (vs.length / 3)
      else 2 * (vs.length / 3) + 1))) := by
  obtain ⟨f, rfl⟩ := Nat.exists_eq_add_of_lt hfuel
  obtain ⟨hbody, hun⟩ := infix_append hcs
  rw [tripletCodewords_length] at hun
  obtain ⟨hat, heq⟩ := pairSeg_triplets hv vs hlen hlt h hbody hw (f + 1)
  have h254 : W[n + 2 * (vs.length / 3)]? = some 254 := infix_getElem (j := 0) hun rfl
  have hlt' := (List.getElem?_eq_some_iff.mp h254).1
  rw [show vs.length / 3 + f + 1 = f + 1 + vs.length / 3 from by omega, heq, if_neg (fun h => by omega)]
  split
  · rename_i hlast
    rw [(pairSeg_stop hat f).1 hlast, show 8 * (2 * (vs.length / 3)) = 16 * (vs.length / 3) from by omega]
  · rw [(pairSeg_stop hat f).2 h254 (by omega), State.advance_advance,
      show 8 * (2 * (vs.length / 3) + 1) = 16 * (vs.length / 3) + 8 from by omega]

end

/-! ### The values of X12 (rule R408) -/

theorem State.out_advance {s t : State} {c : Byte} (k : Nat) (h : s.out c = .ok t) :
    (s.advance k).out c = .ok (t.advance k) := by
  unfold State.out at h ⊢
  split at h
  · rename_i hlt
    cases h
    exact if_pos hlt
  · cases h

theorem State.out_stream {s t : State} {c : Byte} (h : s.out c = .ok t) : SameStream s t := by
  unfold State.out at h
  split at h
  · cases h; exact ⟨rfl, rfl, rfl⟩
  · cases h

theorem SameStream.trans {s t u : State} (h : SameStream s t) (k : SameStream t u) : SameStream s u :=
  ⟨k.1.trans h.1, k.2.1.trans h.2.1, k.2.2.trans h.2.2⟩

/-- A reader that takes one value after the other with `one`. -/
theorem ValueReader.of_one {vals : List Nat → State → Except Raise State} {one : Nat → State → Except Raise State}
    (hnil : ∀ s, vals [] s = .ok s)
    (hcons : ∀ v vs s, vals (v :: vs) s = match one v s with
      | .error r => .error r
      | .ok t => vals vs t)
    (hadv : ∀ v s t k, one v s = .ok t → one v (s.advance k) = .ok (t.advance k))
    (hstream : ∀ v s t, one v s = .ok t → SameStream s t) : ValueReader vals := by
  have step : ∀ {v vs s t}, vals (v :: vs) s = .ok t → ∃ m, one v s = .ok m ∧ vals vs m = .ok t := by
    intro v vs s t h
    rw [hcons] at h
    split at h
    · cases h
    · exact ⟨_, ‹_›, h⟩
  refine ⟨hnil, fun {a} => ?_, fun {vs} => ?_, fun {vs} => ?_⟩
  · induction a with
    | nil => exact fun h => ⟨_, hnil _, h⟩
    | cons v a ih =>
      intro b s t h
      obtain ⟨m, hm, hrest⟩ := step h
      obtain ⟨m', hm', hb⟩ := ih hrest
      exact ⟨m', by rw [hcons, hm]; exact hm', hb⟩
  · induction vs with
    | nil => intro s t k h; cases (hnil s).symm.trans h; exact hnil _
    | cons v vs ih =>
      intro s t k h
      obtain ⟨m, hm, hrest⟩ := step h
      rw [hcons, hadv v s m k hm]
      exact ih k hrest
  · induction vs with
    | nil => intro s t h; cases (hnil s).symm.trans h; exact ⟨rfl, rfl, rfl⟩
    | cons v vs ih =>
      intro s t h
      obtain ⟨m, hm, hrest⟩ := step h
      exact (hstream v s m hm).trans (ih hrest)

/-- One X12 value (rule R408). -/
def x12One (v : Nat) (s : State) : Except Raise State :=
  match x12Char v with
  | none => .error s.formatErr
  | some c => s.out (BitVec.ofNat 8 c)

theorem x12ValuesIn_cons (v : Nat) (vs : List Nat) (s : State) : x12ValuesIn (v :: vs) s = match x12One v s with
    | .error r => .error r
    | .ok t => x12ValuesIn vs t := by
  rw [x12ValuesIn, x12One]
  cases x12Char v <;> rfl

theorem x12ValuesIn_reader : ValueReader x12ValuesIn := by
  refine .of_one (one := x12One) (fun _ => rfl) x12ValuesIn_cons (fun v s t k h => ?_) (fun v s t h => ?_)
  · unfold x12One at h ⊢
    split at h
    · cases h
    · exact State.out_advance k h
  · unfold x12One at h
    split at h
    · cases h
    · exact State.out_stream h

theorem appended_cons {s : State} {c : Nat} {cs : List Nat} (h : s.regs.outLen.toNat + 1 < 65536) :
    (s.appended [BitVec.ofNat 8 c]).appended (cs.map (BitVec.ofNat 8)) = s.appended ((c :: cs).map (BitVec.ofNat 8)) :=
  State.appended_append s [BitVec.ofNat 8 c] _ h

theorem outLen_appended_one {s : State} (c : Byte) (h : s.regs.outLen.toNat < Config.outSize) :
    (s.appended [c]).regs.outLen.toNat = s.regs.outLen.toNat + 1 := by
  have hsize : Config.outSize = 16384 := rfl
  simp only [State.appended_regs, List.length_singleton, BitVec.toNat_add, BitVec.toNat_ofNat]
  omega

/-- The values of native characters give the characters. -/
theorem x12ValuesIn_chars (cs : List Nat) : ∀ {s : State}, (∀ c ∈ cs, x12Value c = some (valueOf x12Value c)) →
    s.regs.outLen.toNat + cs.length ≤ Config.outSize →
    x12ValuesIn (cs.map (valueOf x12Value)) s = .ok (s.appended (cs.map (BitVec.ofNat 8))) := by
  induction cs with
  | nil => intro s _ _; exact congrArg Except.ok (State.appended_nil s).symm
  | cons c cs ih =>
    intro s hnat hroom
    have hsize : Config.outSize = 16384 := rfl
    rw [List.length_cons] at hroom
    have hlen := outLen_appended_one (s := s) (BitVec.ofNat 8 c) (by omega)
    rw [List.map_cons, x12ValuesIn, (x12Char_x12Value (hnat c (by simp))).2]
    dsimp only
    rw [State.out_ok _ (by omega)]
    dsimp only
    rw [ih (fun d hd => hnat d (List.mem_cons_of_mem _ hd)) (by rw [hlen]; omega), appended_cons (by omega)]

/-! ### The values of C40 and Text (rule R406) -/

theorem State.put_advance {s t : State} {c : Nat} (k : Nat) (h : s.put c = .ok t) : (s.advance k).put c = .ok (t.advance k) :=
  State.out_advance (s := { s with work.upper := false }) k h

theorem State.put_stream {s t : State} {c : Nat} (h : s.put c = .ok t) : SameStream s t :=
  State.out_stream (s := { s with work.upper := false }) h

theorem State.addFnc1_advance {s t : State} (k : Nat) (h : s.addFnc1 = .ok t) : (s.advance k).addFnc1 = .ok (t.advance k) := by
  unfold State.addFnc1 at h ⊢
  split at h
  · rename_i hlt
    exact (if_pos hlt).trans (State.out_advance (s := s.withFnc1) k h)
  · cases h

theorem State.addFnc1_stream {s t : State} (h : s.addFnc1 = .ok t) : SameStream s t := by
  unfold State.addFnc1 at h
  split at h
  · exact State.out_stream (s := s.withFnc1) h
  · cases h

theorem c40Value_advance {text : Bool} {v : Nat} {s t : State} (k : Nat) (h : c40Value text v s = .ok t) :
    c40Value text v (s.advance k) = .ok (t.advance k) := by
  unfold c40Value at h ⊢
  rw [show (s.advance k).work.shift = s.work.shift from rfl]
  split at h
  · split at h
    · next hv => cases h; exact if_pos hv
    split at h
    · next hv h40 => exact (if_neg hv).trans ((if_pos h40).trans (State.put_advance k h))
    · cases h
  · exact State.put_advance (s := s.setShift 0) k h
  · split at h
    · next hv => exact (if_pos hv).trans (State.put_advance (s := s.setShift 0) k h)
    split at h
    · next hv h27 => exact (if_neg hv).trans ((if_pos h27).trans (State.addFnc1_advance (s := s.setShift 0) k h))
    split at h
    · next hv h27 h30 => cases h; exact (if_neg hv).trans ((if_neg h27).trans (if_pos h30))
    · cases h
  · split at h
    · next ht =>
      split at h
      · next hv => exact (if_pos ht).trans ((if_pos hv).trans (State.put_advance (s := s.setShift 0) k h))
      · cases h
    · next ht => exact (if_neg ht).trans (State.put_advance (s := s.setShift 0) k h)

theorem c40Value_stream {text : Bool} {v : Nat} {s t : State} (h : c40Value text v s = .ok t) : SameStream s t := by
  unfold c40Value at h
  split at h
  · split at h
    · cases h; exact ⟨rfl, rfl, rfl⟩
    split at h
    · exact State.put_stream h
    · cases h
  · exact State.put_stream (s := s.setShift 0) h
  · split at h
    · exact State.put_stream (s := s.setShift 0) h
    split at h
    · exact State.addFnc1_stream (s := s.setShift 0) h
    split at h
    · cases h; exact ⟨rfl, rfl, rfl⟩
    · cases h
  · split at h
    · split at h
      · exact State.put_stream (s := s.setShift 0) h
      · cases h
    · exact State.put_stream (s := s.setShift 0) h

theorem c40ValuesIn_cons (text : Bool) (v : Nat) (vs : List Nat) (s : State) :
    c40ValuesIn text (v :: vs) s = match c40Value text v s with
      | .error r => .error r
      | .ok t => c40ValuesIn text vs t := rfl

theorem c40ValuesIn_reader (text : Bool) : ValueReader (c40ValuesIn text) :=
  .of_one (fun _ => rfl) (c40ValuesIn_cons text) (fun _ _ _ k h => c40Value_advance k h) (fun _ _ _ h => c40Value_stream h)

theorem c40ValuesIn_append {text : Bool} {a : List Nat} : ∀ {s m : State} (b : List Nat), c40ValuesIn text a s = .ok m →
    c40ValuesIn text (a ++ b) s = c40ValuesIn text b m := by
  induction a with
  | nil => intro s m b h; cases h; rfl
  | cons v a ih =>
    intro s m b h
    rw [c40ValuesIn_cons] at h
    rw [List.cons_append, c40ValuesIn_cons]
    split at h
    · cases h
    · rename_i t ht
      exact ih b h

end Sys2Proof.Machine
end

section
/-! What the segments of DEC.DM make of the codewords of a run of ENC.DM: C40, Text and X12 (44_bsp_datamatrix.md rule R405 to
R408). -/

namespace Sys2Proof.Machine

/-! ### The values of a character (rule R406) -/

/-- The third shift's characters. -/
def shift3Of (text : Bool) : Nat → Nat := if text then textShift3 else fun v => v + 96

/-- The state of U4 with the upper shift set or not. -/
def State.setUpper (s : State) (b : Bool) : State := { s with work.upper := b }

theorem State.put_ok {s : State} {c d : Nat} (hd : d = if s.work.upper then (c + 128) % 256 else c)
    (hroom : s.regs.outLen.toNat < Config.outSize) : s.put c = .ok ((s.setUpper false).appended [BitVec.ofNat 8 d]) := by
  rw [State.put, ← hd]
  exact State.out_ok _ hroom

theorem State.setShift_back {s : State} (h : s.work.shift = 0) (n : Nat) : (s.setShift n).setShift 0 = s := by
  change s.setShift 0 = s
  rw [← h]; rfl

theorem State.setUpper_back {s : State} {b : Bool} (h : s.work.upper = b) : s.setUpper b = s := by
  rw [← h]; rfl

section
variable {text : Bool} {s : State} {c d : Nat}

/-- A value that is a shift. -/
theorem c40Value_shift (h0 : s.work.shift = 0) {v : Nat} (hv : v < 3) : c40Value text v s = .ok (s.setShift (v + 1)) := by
  unfold c40Value
  rw [h0]
  exact if_pos hv

/-- The values of a character below 128 give it, or the one 128 above it where an upper shift is pending. -/
theorem c40ValuesIn_spelt {vs : List Nat} (h : SpeltBy (c40Basic text) (shift3Of text) c vs) (h0 : s.work.shift = 0)
    (hd : d = if s.work.upper then (c + 128) % 256 else c) (hroom : s.regs.outLen.toNat < Config.outSize) :
    c40ValuesIn text vs s = .ok ((s.setUpper false).appended [BitVec.ofNat 8 d]) := by
  have one : ∀ {v : Nat} {t : State}, c40Value text v t = t.put c → t = s →
      c40ValuesIn text [v] t = .ok ((s.setUpper false).appended [BitVec.ofNat 8 d]) := by
    rintro v t hv rfl
    rw [c40ValuesIn_cons, hv, State.put_ok hd hroom]
    rfl
  have two : ∀ {k v : Nat}, k < 3 → c40Value text v (s.setShift (k + 1)) = ((s.setShift (k + 1)).setShift 0).put c →
      c40ValuesIn text [k, v] s = .ok ((s.setUpper false).appended [BitVec.ofNat 8 d]) := by
    intro k v hk hv
    rw [State.setShift_back h0] at hv
    rw [c40ValuesIn_cons, c40Value_shift h0 hk]
    dsimp only
    rw [c40ValuesIn_cons, hv, State.put_ok hd hroom]
    rfl
  rcases h with ⟨v, rfl, hlo, hhi, rfl⟩ | ⟨rfl, -⟩ | ⟨v, rfl, hv, rfl⟩ | ⟨v, rfl, hv, rfl⟩
  · refine one ?_ rfl
    unfold c40Value
    rw [h0]
    exact (if_neg (by omega)).trans (if_pos hhi)
  · exact two (by decide) rfl
  · exact two (by decide) (if_pos hv)
  · refine two (by decide) ?_
    cases text
    · rfl
    · exact if_pos hv

end

/-- C40 or Text mode. -/
def isText (m : Mode) : Bool := decide (m = .text)

theorem c40TextValues_speltBy (m : Mode) {c : Nat} (h : c < 128) :
    SpeltBy (c40Basic (isText m)) (shift3Of (isText m)) c (c40TextValues m c) := by
  unfold c40TextValues isText
  by_cases hm : m = .text
  · rw [if_pos hm, decide_eq_true hm, textValues_of_lt h]; exact textLow_speltBy h
  · rw [if_neg hm, decide_eq_false hm, c40Values_of_lt h]; exact c40Low_speltBy h

theorem c40TextValues_of_ext (m : Mode) {c : Nat} (h : 128 ≤ c) (h2 : c < 256) :
    c40TextValues m c = [1, 30] ++ c40TextValues m (c - 128) := by
  obtain ⟨d, rfl⟩ := Nat.exists_eq_add_of_le' h
  unfold c40TextValues
  rw [Nat.add_sub_cancel]
  split
  · exact textValues_add_128 (by omega)
  · exact c40Values_add_128 (by omega)

/-- The values of a byte are below 40. -/
theorem c40TextValues_lt (m : Mode) {c : Nat} (h : c < 256) : ∀ v ∈ c40TextValues m c, v < 40 := by
  have low : ∀ c, c < 128 → ∀ v ∈ c40TextValues m c, v < 40 := by
    intro c hc
    rcases c40TextValues_speltBy m hc with ⟨v, hv, -, hhi, -⟩ | ⟨hv, hc⟩ | ⟨v, hv, hlt, -⟩ | ⟨v, hv, hlt, -⟩ <;> rw [hv] <;>
      simp <;> omega
  by_cases hc : c < 128
  · exact low c hc
  · rw [c40TextValues_of_ext m (by omega) h]
    intro v hv
    rcases List.mem_append.mp hv with hv | hv
    · simp at hv; omega
    · exact low _ (by omega) v hv

/-- The values of a byte give it. -/
theorem c40ValuesIn_char (m : Mode) {s : State} {c : Nat} (hc : c < 256) (h0 : s.work.shift = 0) (hup : s.work.upper = false)
    (hroom : s.regs.outLen.toNat < Config.outSize) :
    c40ValuesIn (isText m) (c40TextValues m c) s = .ok (s.appended [BitVec.ofNat 8 c]) := by
  by_cases h : c < 128
  · rw [c40ValuesIn_spelt (c40TextValues_speltBy m h) h0 (d := c) (by rw [hup]; rfl) hroom, State.setUpper_back hup]
  · have hshift : c40ValuesIn (isText m) [1, 30] s = .ok (s.setUpper true) := by
      rw [c40ValuesIn_cons, c40Value_shift h0 (by decide)]
      change Except.ok ((((s.setShift 2).setShift 0).setUpper true)) = _
      rw [State.setShift_back h0]
    have hd : c = (c - 128 + 128) % 256 := by omega
    have hbase := c40ValuesIn_spelt (s := s.setUpper true) (c40TextValues_speltBy m (c := c - 128) (by omega)) h0 hd hroom
    rw [show (s.setUpper true).setUpper false = s.setUpper false from rfl, State.setUpper_back hup] at hbase
    rw [c40TextValues_of_ext m (by omega) hc, c40ValuesIn_append _ hshift, hbase]

/-- The values of bytes give them. -/
theorem c40ValuesIn_chars (m : Mode) (ws : List Nat) : ∀ {s : State}, (∀ c ∈ ws, c < 256) → s.work.shift = 0 →
    s.work.upper = false → s.regs.outLen.toNat + ws.length ≤ Config.outSize →
    c40ValuesIn (isText m) (ws.flatMap (c40TextValues m)) s = .ok (s.appended (ws.map (BitVec.ofNat 8))) := by
  induction ws with
  | nil => intro s _ _ _ _; exact congrArg Except.ok (State.appended_nil s).symm
  | cons c ws ih =>
    intro s hb h0 hup hroom
    have hsize : Config.outSize = 16384 := rfl
    rw [List.length_cons] at hroom
    have hlen := outLen_appended_one (s := s) (BitVec.ofNat 8 c) (by omega)
    rw [List.flatMap_cons, c40ValuesIn_append _ (c40ValuesIn_char m (hb c (by simp)) h0 hup (by omega)),
      ih (s := s.appended [BitVec.ofNat 8 c]) (fun d hd => hb d (List.mem_cons_of_mem _ hd)) h0 hup (by rw [hlen]; omega),
      appended_cons (by omega)]

/-- A shift value with no value behind it gives nothing. -/
theorem c40ValuesIn_dangling (text : Bool) {s : State} {extra : List Nat} (h : Dangling extra) (h0 : s.work.shift = 0) :
    ∃ n, c40ValuesIn text extra s = .ok (s.setShift n) := by
  rcases h with rfl | ⟨v, hv, rfl⟩
  · exact ⟨0, congrArg Except.ok (by rw [← h0]; rfl)⟩
  · exact ⟨v + 1, by rw [c40ValuesIn_cons, c40Value_shift h0 hv]; rfl⟩

/-! ### A segment of pairs -/

section
variable {W trl : List Nat} {u : State} {n : Nat} {out : List Nat}

/-- `P` holds after at most `k` rounds of DEC.DM. -/
def Within (k : Nat) (u : State) (P : State → Prop) : Prop := ∃ j, j ≤ k ∧ P (State.dmRound^[j] u)

theorem Within.now {P : State → Prop} (h : P u) (k : Nat) : Within k u P := ⟨0, Nat.zero_le k, h⟩

theorem Within.round {P : State → Prop} {k : Nat} (h : Within k u.dmRound P) : Within (k + 1) u P := by
  obtain ⟨j, hj, hp⟩ := h
  exact ⟨j + 1, Nat.succ_le_succ hj, hp⟩

theorem Within.mono {P : State → Prop} {j k : Nat} (h : Within j u P) (hjk : j ≤ k) : Within k u P :=
  h.imp fun _ h => ⟨h.1.trans hjk, h.2⟩

theorem Within.mono_pred {P Q : State → Prop} {k : Nat} (h : Within k u P) (hpq : ∀ v, P v → Q v) : Within k u Q :=
  h.imp fun _ h => ⟨h.1, hpq _ h.2⟩

/-- After at most `j` rounds a state from where `P` holds after at most `k`. -/
theorem Within.bind {P Q : State → Prop} {j k : Nat} (h : Within j u P) (hq : ∀ v, P v → Within k v Q) : Within (j + k) u Q := by
  obtain ⟨a, ha, hp⟩ := h
  obtain ⟨b, hb, hq⟩ := hq _ hp
  exact ⟨b + a, by omega, by rw [Function.iterate_add_apply]; exact hq⟩

/-- What the segment of a mode reads of pairs. -/
structure PairReads (m : Mode) (u : State) (vs : List Nat) (w : State) : Prop where
  mode : m ≠ .ascii
  reads : ∃ vals u0, ValueReader vals ∧ SameStream u u0 ∧ dmSegment m.seg u = pairSeg vals (u.avail + 1) u0
    ∧ vals vs u0 = .ok w
  lt : ∀ v ∈ vs, v < 40
  whole : vs.length % 3 = 0

/-- Behind a run left open, which ends the stream or leaves one codeword of it. -/
theorem PairReads.bare {m : Mode} {vs : List Nat} {w : State} (h : PairReads m u vs w) (hp : u.phase = .dmStream m.seg)
    (hu : StreamAt W u n) (hw : Reading W trl w n out) (htrl : ∀ c ∈ trl, c < 256)
    (hroom : out.length + trl.length ≤ Config.outSize) (hn : n < W.length) (hcs : tripletCodewords vs <+: W.drop n)
    (hend : W.length ≤ n + 2 * (vs.length / 3) + 1) :
    Within 1 u (Settled W trl · (n + 2 * (vs.length / 3)) out) := by
  obtain ⟨vals, u0, hv, ⟨s1, s2, s3⟩, hseg, hvals⟩ := h.reads
  have hle := infix_length hcs (.inr hn.le)
  rw [tripletCodewords_length] at hle
  refine .round (.now ?_ 0)
  refine dmRound_segment hp h.mode (hseg.trans (pairSeg_bare hv h.whole h.lt (hu.congr s1 s2 s3) hn hcs hvals hend ?_)) ?_ htrl
    hroom hle
  · rw [hu.avail]; omega
  · rw [show 16 * (vs.length / 3) = 8 * (2 * (vs.length / 3)) from by omega]
    exact hw.advance _

/-- Behind a run and its unlatch. -/
theorem PairReads.unlatched {m : Mode} {vs : List Nat} {w : State} (h : PairReads m u vs w) (hp : u.phase = .dmStream m.seg)
    (hu : StreamAt W u n) (hw : Reading W trl w n out) (htrl : ∀ c ∈ trl, c < 256)
    (hroom : out.length + trl.length ≤ Config.outSize) (hcs : tripletCodewords vs ++ [254] <+: W.drop n) :
    Within 2 u (Settled W trl · (n + 2 * (vs.length / 3) + 1) out) := by
  obtain ⟨vals, u0, hv, ⟨s1, s2, s3⟩, hseg, hvals⟩ := h.reads
  have hle := infix_length hcs (.inl (by simp))
  rw [List.length_append, tripletCodewords_length, List.length_singleton] at hle
  have hcall := hseg.trans (pairSeg_unlatched hv h.whole h.lt (hu.congr s1 s2 s3) hcs hvals
    (fuel := u.avail + 1) (by rw [hu.avail]; omega))
  by_cases hlast : n + 2 * (vs.length / 3) + 1 = W.length
  · rw [if_pos hlast] at hcall
    have h254 : W[n + 2 * (vs.length / 3)]? = some 254 := by
      have := (infix_append hcs).2
      rw [tripletCodewords_length] at this
      exact infix_getElem (j := 0) this rfl
    rcases dmRound_segment hp h.mode hcall (hw.advance _) htrl hroom (by omega) with ⟨-, hr, hph, hup⟩ | ⟨hd, -⟩
    · exact .round (.round (.now (hr.lastUnlatch hph hup htrl h254 hlast hroom) 0))
    · omega
  · rw [if_neg hlast] at hcall
    exact .mono (.round (.now (dmRound_segment hp h.mode hcall (hw.advance _) htrl hroom (by omega)) 0)) (by decide)

/-- A run in C40 or Text mode. -/
theorem pairReads_c40 {m : Mode} (hm : m = .c40 ∨ m = .text) (h : Reading W trl u n out) {ws extra : List Nat}
    (hb : ∀ c ∈ ws, c < 256) (hd : Dangling extra) (hwhole : (ws.flatMap (c40TextValues m) ++ extra).length % 3 = 0)
    (hroom : out.length + ws.length ≤ Config.outSize) :
    ∃ w, PairReads m u (ws.flatMap (c40TextValues m) ++ extra) w ∧ Reading W trl w n (out ++ ws) := by
  have hsize : Config.outSize = 16384 := rfl
  have hr : Reading W trl ((u.setUpper false).setShift 0) n out := h.of_eq rfl rfl rfl rfl
  have hchars := c40ValuesIn_chars m ws (s := (u.setUpper false).setShift 0) hb rfl rfl (by rw [hr.outLen]; exact hroom)
  obtain ⟨k, hk⟩ := c40ValuesIn_dangling (isText m)
    (s := ((u.setUpper false).setShift 0).appended (ws.map (BitVec.ofNat 8))) hd rfl
  refine ⟨_, ⟨by rcases hm with rfl | rfl <;> decide, ⟨_, (u.setUpper false).setShift 0, c40ValuesIn_reader (isText m),
    ⟨rfl, rfl, rfl⟩, ?_, (c40ValuesIn_append extra hchars).trans hk⟩, ?_, hwhole⟩, ?_⟩
  · rcases hm with rfl | rfl <;> rfl
  · intro v hv
    rcases List.mem_append.mp hv with hv | hv
    · obtain ⟨c, hc, hvc⟩ := List.mem_flatMap.mp hv
      exact c40TextValues_lt m (hb c hc) v hvc
    · rcases hd with rfl | ⟨x, hx, rfl⟩
      · cases hv
      · rw [List.mem_singleton.mp hv]; omega
  · exact (hr.appended hb (by omega)).of_eq rfl rfl rfl rfl

/-- A run in X12 mode. -/
theorem pairReads_x12 (h : Reading W trl u n out) {ws : List Nat} (hb : ∀ c ∈ ws, c < 256)
    (hnat : ∀ c ∈ ws, x12Value c = some (valueOf x12Value c)) (hwhole : (ws.map (valueOf x12Value)).length % 3 = 0)
    (hroom : out.length + ws.length ≤ Config.outSize) :
    ∃ w, PairReads .x12 u (ws.map (valueOf x12Value)) w ∧ Reading W trl w n (out ++ ws) := by
  have hsize : Config.outSize = 16384 := rfl
  refine ⟨_, ⟨by decide, ⟨_, u, x12ValuesIn_reader, ⟨rfl, rfl, rfl⟩, rfl,
    x12ValuesIn_chars ws hnat (by rw [h.outLen]; exact hroom)⟩, ?_, hwhole⟩, h.appended hb (by omega)⟩
  intro v hv
  obtain ⟨c, hc, rfl⟩ := List.mem_map.mp hv
  exact (x12Char_x12Value (hnat c hc)).1

end

end Sys2Proof.Machine
end

section
/-! What the segments of DEC.DM make of the codewords of a run of ENC.DM: EDIFACT and Base256 (44_bsp_datamatrix.md rule R409,
R410). -/

namespace Sys2Proof.Machine

/-! ### Six-bit values of the stream (rule R409) -/

/-- A field in two parts. -/
theorem State.field_add (s : State) (p m k : Nat) :
    s.streamField 0 p (m + k) = s.streamField 0 p m * 2 ^ k + s.streamField 0 (p + m) k := by
  rw [State.streamField_split, State.streamField_acc]

/-- A part of a field. -/
theorem State.field_mid (s : State) (p m l k : Nat) :
    s.streamField 0 (p + m) l = s.streamField 0 p (m + l + k) / 2 ^ k % 2 ^ l := by
  have hk := s.field_lt (p + (m + l)) k
  have hl := s.field_lt (p + m) l
  rw [State.field_add, Nat.add_comm (_ * _), Nat.add_mul_div_right _ _ (Nat.two_pow_pos k), Nat.div_eq_of_lt hk, Nat.zero_add,
    State.field_add, Nat.add_comm (_ * _), Nat.add_mul_mod_self_right, Nat.mod_eq_of_lt hl]

section
variable {W trl : List Nat} {u : State} {n : Nat} {out : List Nat}

/-- Bytes of the stream as fields. -/
theorem StreamAt.field_bytes (h : StreamAt W u n) {x y z : Nat} (hx : W[n]? = some x) :
    u.streamField 0 (8 * n) 8 = x
      ∧ (W[n + 1]? = some y → u.streamField 0 (8 * n) 16 = x * 256 + y
        ∧ (W[n + 2]? = some z → u.streamField 0 (8 * n) 24 = (x * 256 + y) * 256 + z)) := by
  have byte : ∀ {k v}, W[k]? = some v → u.streamField 0 (8 * k) 8 = v := fun hv => by
    rw [State.field_codeword, h.cws _ _ hv]
  refine ⟨byte hx, fun hy => ?_⟩
  have h16 : u.streamField 0 (8 * n) 16 = x * 256 + y := by
    rw [State.field_add u (8 * n) 8 8, byte hx, show 8 * n + 8 = 8 * (n + 1) from by omega, byte hy]
    rfl
  refine ⟨h16, fun hz => ?_⟩
  rw [State.field_add u (8 * n) 16 8, h16, show 8 * n + 16 = 8 * (n + 2) from by omega, byte hz]
  rfl

/-- The six-bit values packed in the codewords, as the stream has them. -/
theorem StreamAt.sextets (h : StreamAt W u n) {vs : List Nat} (hlen : vs.length ≤ 4) (hlt : ∀ v ∈ vs, v < 64)
    (hcs : edfPack vs <+: W.drop n) {j v : Nat} (hv : vs[j]? = some v) : u.streamField 0 (8 * n + 6 * j) 6 = v := by
  have byte : ∀ {j x}, (edfPack vs)[j]? = some x → W[n + j]? = some x := fun hx => infix_getElem hcs hx
  have part : ∀ (k : Nat) {V : Nat}, u.streamField 0 (8 * n) (6 * j + 6 + k) = V → V / 2 ^ k % 64 = v →
      u.streamField 0 (8 * n + 6 * j) 6 = v := by
    rintro k V rfl hV
    rw [State.field_mid u (8 * n) (6 * j) 6 k]
    exact hV
  have hj := (List.getElem?_eq_some_iff.mp hv).1
  have hvlt := hlt v (List.mem_of_getElem? hv)
  rcases vs with _ | ⟨a, _ | ⟨b, _ | ⟨c, _ | ⟨d, vs⟩⟩⟩⟩
  · cases hv
  · have hf := (h.field_bytes (y := 0) (z := 0) (byte (j := 0) rfl)).1
    obtain rfl : j = 0 := by simpa using hj
    cases hv
    refine part 2 hf ?_
    simp only [List.getElem?_cons_zero, List.getElem?_cons_succ, List.getElem?_nil, Option.getD_some, Option.getD_none]
    omega
  · have hf := ((h.field_bytes (z := 0) (byte (j := 0) rfl)).2 (byte (j := 1) rfl)).1
    have hb := hlt b (by simp)
    simp only [List.getElem?_cons_zero, List.getElem?_cons_succ, List.getElem?_nil, Option.getD_some, Option.getD_none] at hf
    simp only [List.length_cons, List.length_nil] at hj
    interval_cases j
    · cases hv; exact part 10 hf (by omega)
    · cases hv; exact part 4 hf (by omega)
  · have hf := ((h.field_bytes (byte (j := 0) rfl)).2 (byte (j := 1) rfl)).2 (byte (j := 2) rfl)
    have hb := hlt b (by simp)
    have hc := hlt c (by simp)
    simp only [List.getElem?_cons_zero, List.getElem?_cons_succ, List.getElem?_nil, Option.getD_some, Option.getD_none] at hf
    simp only [List.length_cons, List.length_nil] at hj
    interval_cases j
    · cases hv; exact part 18 hf (by omega)
    · cases hv; exact part 12 hf (by omega)
    · cases hv; exact part 6 hf (by omega)
  · obtain rfl : vs = [] := List.length_eq_zero_iff.mp (by simp only [List.length_cons] at hlen; omega)
    have hf := ((h.field_bytes (byte (j := 0) rfl)).2 (byte (j := 1) rfl)).2 (byte (j := 2) rfl)
    have hb := hlt b (by simp)
    have hc := hlt c (by simp)
    have hd := hlt d (by simp)
    simp only [List.getElem?_cons_zero, List.getElem?_cons_succ, Option.getD_some] at hf
    simp only [List.length_cons, List.length_nil] at hj
    interval_cases j
    · cases hv; exact part 18 hf (by omega)
    · cases hv; exact part 12 hf (by omega)
    · cases hv; exact part 6 hf (by omega)
    · cases hv; exact part 0 hf (by omega)

/-! ### The groups of an EDIFACT segment -/

theorem State.appended_advance (s : State) (cs : List Byte) (k : Nat) :
    (s.appended cs).advance k = (s.advance k).appended cs := rfl

/-- Native characters read from their six-bit values. -/
theorem edfGroup_chars (ws : List Nat) (k : Nat) : ∀ u : State, (∀ c ∈ ws, edfValue c = some (valueOf edfValue c)) →
    (∀ j v, (ws.map (valueOf edfValue))[j]? = some v → u.streamField 0 (u.work.bp + 6 * j) 6 = v) →
    6 * ws.length ≤ u.avail → u.regs.outLen.toNat + ws.length ≤ Config.outSize →
    edfGroup (ws.length + k) u = edfGroup k ((u.advance (6 * ws.length)).appended (ws.map (BitVec.ofNat 8))) := by
  induction ws with
  | nil =>
    intro u _ _ _ _
    rw [List.map_nil, State.appended_nil, List.length_nil, Nat.zero_add]
    rfl
  | cons c ws ih =>
    intro u hnat hsix hav hroom
    have hsize : Config.outSize = 16384 := rfl
    rw [List.length_cons] at hav hroom
    obtain ⟨-, hne, hchar⟩ := edfChar_edfValue (hnat c (by simp))
    have hlen := outLen_appended_one (s := u.advance 6) (BitVec.ofNat 8 c) (by change u.regs.outLen.toNat < _; omega)
    have hfield : u.streamField 0 u.work.bp 6 = valueOf edfValue c := hsix 0 _ rfl
    rw [List.length_cons, show ws.length + 1 + k = ws.length + k + 1 from by omega, edfGroup,
      State.readBits_ok (by omega), hfield]
    dsimp only
    rw [if_neg hne, State.out_ok _ (by change u.regs.outLen.toNat < _; omega), hchar]
    dsimp only
    rw [ih _ (fun d hd => hnat d (List.mem_cons_of_mem _ hd))]
    · rw [State.appended_advance, State.advance_advance, appended_cons (by change u.regs.outLen.toNat + 1 < _; omega),
        show 6 + 6 * ws.length = 6 * (ws.length + 1) from by omega]
    · intro j v hv
      have := hsix (j + 1) v hv
      rw [show u.work.bp + 6 * (j + 1) = u.work.bp + 6 + 6 * j from by omega] at this
      exact this
    · change 6 * ws.length ≤ 8 * u.regs.cwLen.toNat - (u.work.bp + 6)
      rw [State.avail_eq] at hav
      omega
    · rw [hlen]; change u.regs.outLen.toNat + 1 + ws.length ≤ _; omega

/-- The unlatch value ends the segment at the next codeword. -/
theorem edfGroup_unlatch (k : Nat) (hv : u.streamField 0 u.work.bp 6 = 31) {m : Nat} (hm : u.work.bp + 6 ≤ 8 * m)
    (hm' : 8 * m < u.work.bp + 14) (hav : 8 * m ≤ 8 * u.regs.cwLen.toNat) :
    edfGroup (k + 1) u = .ok (u.advance (8 * m - u.work.bp), true) := by
  rw [edfGroup, State.readBits_ok (by rw [State.avail_eq]; omega), hv]
  dsimp only
  rw [if_pos rfl, show (u.advance 6).work.bp = u.work.bp + 6 from rfl]
  split
  · rw [show 8 * m - u.work.bp = 6 from by omega]
  · rw [State.readBits_ok (by change _ ≤ 8 * u.regs.cwLen.toNat - (u.work.bp + 6); omega)]
    dsimp only
    rw [State.advance_advance, show 6 + (8 - (u.work.bp + 6) % 8) = 8 * m - u.work.bp from by omega]

theorem valueOf_edf_lt {ws : List Nat} (hnat : ∀ c ∈ ws, edfValue c = some (valueOf edfValue c)) :
    ∀ v ∈ ws.map (valueOf edfValue), v < 64 := by
  intro v hv
  obtain ⟨c, hc, rfl⟩ := List.mem_map.mp hv
  exact (edfChar_edfValue (hnat c hc)).1

/-- A whole group. -/
theorem edfGroup_four (h : StreamAt W u n) {ws : List Nat} (hlen : ws.length = 4)
    (hnat : ∀ c ∈ ws, edfValue c = some (valueOf edfValue c)) (hcs : edfPack (ws.map (valueOf edfValue)) <+: W.drop n)
    (hn : n + 3 ≤ W.length) (hroom : u.regs.outLen.toNat + 4 ≤ Config.outSize) :
    edfGroup 4 u = .ok ((u.advance 24).appended (ws.map (BitVec.ofNat 8)), false) := by
  have hsix := fun j v => h.sextets (by rw [List.length_map]; omega) (valueOf_edf_lt hnat) hcs (j := j) (v := v)
  have := edfGroup_chars ws 0 u hnat (by rw [h.bp]; exact hsix) (by rw [h.avail]; omega) (by rw [hlen]; exact hroom)
  rw [hlen] at this
  rw [this]
  rfl

/-- The last group: fewer than four characters, and the unlatch value. -/
theorem edfGroup_last (h : StreamAt W u n) {ws : List Nat} (hlen : ws.length < 4)
    (hnat : ∀ c ∈ ws, edfValue c = some (valueOf edfValue c))
    (hcs : edfPack (ws.map (valueOf edfValue) ++ [31]) <+: W.drop n) (hn : n + 3 ≤ W.length)
    (hroom : u.regs.outLen.toNat + 4 ≤ Config.outSize) :
    edfGroup 4 u = .ok ((u.advance (8 * (min (ws.length + 1) 3))).appended (ws.map (BitVec.ofNat 8)), true) := by
  have hlt : ∀ v ∈ ws.map (valueOf edfValue) ++ [31], v < 64 := by
    intro v hv
    rcases List.mem_append.mp hv with hv | hv
    · exact valueOf_edf_lt hnat v hv
    · rw [List.mem_singleton.mp hv]; decide
  have hsix := fun j v => h.sextets (by rw [List.length_append, List.length_map, List.length_singleton]; omega) hlt hcs
    (j := j) (v := v)
  have hchars := edfGroup_chars ws (4 - ws.length) u hnat (fun j v hv => by
    rw [h.bp]
    refine hsix j v ?_
    rw [List.getElem?_append_left (List.getElem?_eq_some_iff.mp hv).1, hv]) (by rw [h.avail]; omega) (by omega)
  rw [show ws.length + (4 - ws.length) = 4 from by omega] at hchars
  have hlast : ((u.advance (6 * ws.length)).appended (ws.map (BitVec.ofNat 8))).streamField 0
      ((u.advance (6 * ws.length)).appended (ws.map (BitVec.ofNat 8))).work.bp 6 = 31 := by
    change u.streamField 0 (u.work.bp + 6 * ws.length) 6 = 31
    rw [h.bp]
    refine hsix ws.length 31 ?_
    rw [List.getElem?_append_right (by rw [List.length_map]), List.length_map, Nat.sub_self]
    rfl
  have hun := edfGroup_unlatch (3 - ws.length) hlast (m := n + min (ws.length + 1) 3)
    (by change u.work.bp + 6 * ws.length + 6 ≤ _; rw [h.bp]; omega)
    (by change _ < u.work.bp + 6 * ws.length + 14; rw [h.bp]; omega) (by change _ ≤ 8 * u.regs.cwLen.toNat; rw [h.len]; omega)
  rw [show 3 - ws.length + 1 = 4 - ws.length from by omega] at hun
  rw [hchars, hun, State.appended_advance, State.advance_advance]
  change Except.ok ((u.advance (6 * ws.length + (8 * (n + min (ws.length + 1) 3) - (u.work.bp + 6 * ws.length)))).appended _,
    true) = _
  rw [h.bp, show 6 * ws.length + (8 * (n + min (ws.length + 1) 3) - (8 * n + 6 * ws.length)) = 8 * min (ws.length + 1) 3
    from by omega]

/-- What is left of the stream where the groups stop. -/
theorem edfGroups_stop (h : StreamAt W u n) (hn : W.length ≤ n + 2) (fuel : Nat) : edfGroups (fuel + 1) u = .ok u := by
  rw [edfGroups, if_pos (by rw [h.avail]; omega)]

/-- Whole groups read, up to the end of the stream or not. -/
theorem edfGroups_fours (ws : List Nat) : ∀ {u : State} {n : Nat}, ws.length % 4 = 0 → StreamAt W u n →
    (∀ c ∈ ws, edfValue c = some (valueOf edfValue c)) → groupCodewords (ws.map (valueOf edfValue)) <+: W.drop n →
    n ≤ W.length → u.regs.outLen.toNat + ws.length ≤ Config.outSize → ∀ fuel,
    edfGroups (fuel + ws.length / 4) u =
      if ws ≠ [] ∧ n + 3 * (ws.length / 4) = W.length
      then .ok ((u.advance (8 * (3 * (ws.length / 4)))).appended (ws.map (BitVec.ofNat 8)))
      else edfGroups fuel ((u.advance (8 * (3 * (ws.length / 4)))).appended (ws.map (BitVec.ofNat 8))) := by
  induction ws using groupCodewords.induct with
  | case1 a b c d rest ih =>
    intro u n hlen h hnat hcs hn hroom fuel
    have hsize : Config.outSize = 16384 := rfl
    simp only [List.length_cons] at hlen hroom
    have hsplit : groupCodewords ((a :: b :: c :: d :: rest).map (valueOf edfValue))
        = edfPack ([a, b, c, d].map (valueOf edfValue)) ++ groupCodewords (rest.map (valueOf edfValue)) := rfl
    rw [hsplit] at hcs
    obtain ⟨hhead, htail⟩ := infix_append hcs
    have hthree : (edfPack ([a, b, c, d].map (valueOf edfValue))).length = 3 := rfl
    have hle := infix_length hhead (.inr hn)
    rw [hthree] at htail hle
    have hfour := edfGroup_four h (ws := [a, b, c, d]) rfl (fun x hx => hnat x (by simp at hx ⊢; tauto)) hhead hle (by omega)
    have hat : StreamAt W ((u.advance 24).appended ([a, b, c, d].map (BitVec.ofNat 8))) (n + 3) :=
      (h.advance 3).congr rfl rfl rfl
    have hout : ((u.advance 24).appended ([a, b, c, d].map (BitVec.ofNat 8))).regs.outLen.toNat = u.regs.outLen.toNat + 4 := by
      change (u.regs.outLen + 4#16).toNat = _
      rw [BitVec.toNat_add, show (4#16).toNat = 4 from rfl]
      omega
    have hrest := ih (by omega) hat (fun x hx => hnat x (by simp [hx])) htail hle (by rw [hout]; omega) fuel
    rw [State.appended_advance, State.advance_advance, State.appended_append _ _ _ (by
        change u.regs.outLen.toNat + 4 < _; omega), ← List.map_append,
      show 24 + 8 * (3 * (rest.length / 4)) = 8 * (3 * (rest.length / 4 + 1)) from by omega] at hrest
    have hcount : (a :: b :: c :: d :: rest).length / 4 = rest.length / 4 + 1 := by
      simp only [List.length_cons]; omega
    rw [hcount, ← Nat.add_assoc, edfGroups, if_neg (by rw [h.avail]; omega), hfour]
    dsimp only
    rw [hat.avail]
    by_cases hend : n + 3 = W.length
    · have hnil : rest = [] := by
        by_contra hne
        have h4 := List.length_pos_iff.mpr hne
        have := infix_length htail (.inr hle)
        rw [groupCodewords_length, List.length_map] at this
        omega
      subst hnil
      rw [if_pos (by omega), if_pos ⟨List.cons_ne_nil _ _, by simpa using hend⟩]
      rfl
    · rw [if_neg (by omega), hrest]
      by_cases hnil : rest = []
      · subst hnil
        rw [if_neg (fun h => h.1 rfl), if_neg (fun h => hend (by simpa using h.2))]
        rfl
      · by_cases hfull : n + 3 + 3 * (rest.length / 4) = W.length
        · rw [if_pos ⟨hnil, hfull⟩, if_pos ⟨List.cons_ne_nil _ _, by omega⟩]; rfl
        · rw [if_neg (fun h => hfull h.2), if_neg (fun h => hfull (by omega))]; rfl
  | case2 xs hx =>
    intro u n hlen _ _ _ _ _ fuel
    match xs, hx with
    | [], _ =>
      rw [if_neg (fun h => h.1 rfl), List.map_nil, State.appended_nil]
      rfl
    | [_], _ => simp at hlen
    | [_, _], _ => simp at hlen
    | [_, _, _], _ => simp at hlen
    | _ :: _ :: _ :: _ :: _, hx => exact absurd rfl (hx _ _ _ _ _)

/-- Behind whole groups that leave at most two codewords of the stream. -/
theorem Reading.edfBare (h : Reading W trl u n out) (hp : u.phase = .dmStream .edifact) (htrl : ∀ c ∈ trl, c < 256)
    {ws : List Nat} (hb : ∀ c ∈ ws, c < 256) (hlen : ws.length % 4 = 0)
    (hnat : ∀ c ∈ ws, edfValue c = some (valueOf edfValue c))
    (hcs : groupCodewords (ws.map (valueOf edfValue)) <+: W.drop n) (hn : n ≤ W.length)
    (hend : W.length ≤ n + 3 * (ws.length / 4) + 2) (hroom : out.length + ws.length + trl.length ≤ Config.outSize) :
    Within 1 u (Settled W trl · (n + 3 * (ws.length / 4)) (out ++ ws)) := by
  have hsize : Config.outSize = 16384 := rfl
  have hle := infix_length hcs (.inr hn)
  rw [groupCodewords_length, List.length_map] at hle
  have hr : Reading W trl ((u.advance (8 * (3 * (ws.length / 4)))).appended (ws.map (BitVec.ofNat 8)))
      (n + 3 * (ws.length / 4)) (out ++ ws) := (h.advance _).appended hb (by omega)
  have hseg : dmSegment .edifact u
      = .ok ((u.advance (8 * (3 * (ws.length / 4)))).appended (ws.map (BitVec.ofNat 8))) := by
    have hfuel : u.avail + 1 = (u.avail - ws.length / 4) + 1 + ws.length / 4 := by rw [h.toStreamAt.avail]; omega
    change edfGroups (u.avail + 1) u = _
    rw [hfuel, edfGroups_fours ws hlen h.toStreamAt hnat hcs hn (by rw [h.outLen]; omega)]
    split
    · rfl
    · exact edfGroups_stop hr.toStreamAt hend _
  exact .round (.now (dmRound_segment (m := .edifact) hp (by decide) hseg hr htrl
    (by rw [List.length_append]; exact hroom) hle) 0)

/-- Behind whole groups and a last group with the unlatch value. -/
theorem Reading.edfUnlatched (h : Reading W trl u n out) (hp : u.phase = .dmStream .edifact) (htrl : ∀ c ∈ trl, c < 256)
    {ws left : List Nat} (hb : ∀ c ∈ ws ++ left, c < 256) (hlen : ws.length % 4 = 0) (hfew : left.length < 4)
    (hnat : ∀ c ∈ ws ++ left, edfValue c = some (valueOf edfValue c))
    (hcs : groupCodewords (ws.map (valueOf edfValue)) ++ edfPack (left.map (valueOf edfValue) ++ [31]) <+: W.drop n)
    (hend : n + 3 * (ws.length / 4) + 3 ≤ W.length)
    (hroom : out.length + (ws ++ left).length + trl.length + 4 ≤ Config.outSize) :
    Within 1 u (Settled W trl · (n + 3 * (ws.length / 4) + min (left.length + 1) 3) (out ++ (ws ++ left))) := by
  have hsize : Config.outSize = 16384 := rfl
  rw [List.length_append] at hroom
  obtain ⟨hwhole, hlast⟩ := infix_append hcs
  rw [groupCodewords_length, List.length_map] at hlast
  have hr : Reading W trl ((u.advance (8 * (3 * (ws.length / 4)))).appended (ws.map (BitVec.ofNat 8)))
      (n + 3 * (ws.length / 4)) (out ++ ws) :=
    (h.advance _).appended (fun c hc => hb c (List.mem_append_left _ hc)) (by omega)
  have hr' := (hr.advance (min (left.length + 1) 3)).appended (fun c hc => hb c (List.mem_append_right _ hc))
    (by rw [List.length_append]; omega)
  have hgroup := edfGroup_last hr.toStreamAt hfew (fun c hc => hnat c (List.mem_append_right _ hc)) hlast hend
    (by rw [hr.outLen, List.length_append]; omega)
  have hseg : dmSegment .edifact u = .ok ((((u.advance (8 * (3 * (ws.length / 4)))).appended
      (ws.map (BitVec.ofNat 8))).advance (8 * min (left.length + 1) 3)).appended (left.map (BitVec.ofNat 8))) := by
    have hfuel : u.avail + 1 = (u.avail - ws.length / 4) + 1 + ws.length / 4 := by rw [h.toStreamAt.avail]; omega
    change edfGroups (u.avail + 1) u = _
    rw [hfuel, edfGroups_fours ws hlen h.toStreamAt (fun c hc => hnat c (List.mem_append_left _ hc)) hwhole (by omega)
      (by rw [h.outLen]; omega), if_neg (by omega), edfGroups, if_neg (by rw [hr.toStreamAt.avail]; omega), hgroup]
  rw [← List.append_assoc]
  exact .round (.now (dmRound_segment (m := .edifact) hp (by decide) hseg hr' htrl
    (by rw [List.length_append, List.length_append]; omega) (by omega)) 0)

/-! ### Base256 (rule R410) -/

/-- Randomised bytes read. -/
theorem b256Bytes_randomised (ws : List Nat) : ∀ {u : State} {n : Nat} (p : Nat), StreamAt W u n → (∀ c ∈ ws, c < 256) →
    randomised p ws <+: W.drop n → u.regs.outLen.toNat + ws.length ≤ Config.outSize →
    b256Bytes ws.length p u = .ok ((u.advance (8 * ws.length)).appended (ws.map (BitVec.ofNat 8))) := by
  induction ws with
  | nil =>
    intro u n p _ _ _ _
    rw [List.map_nil, State.appended_nil]
    rfl
  | cons c ws ih =>
    intro u n p h hb hcs hroom
    have hsize : Config.outSize = 16384 := rfl
    rw [List.length_cons] at hroom
    have hhead : W[n]? = some (rand255 c p) := infix_getElem (j := 0) hcs rfl
    have htail : randomised (p + 1) ws <+: W.drop (n + 1) := (infix_append (a := [rand255 c p]) hcs).2
    have hat : StreamAt W ((u.advance 8).appended [BitVec.ofNat 8 c]) (n + 1) := (h.advance 1).congr rfl rfl rfl
    have hout := outLen_appended_one (s := u.advance 8) (BitVec.ofNat 8 c) (by change u.regs.outLen.toNat < _; omega)
    rw [List.length_cons, b256Bytes, h.readBits hhead]
    dsimp only
    rw [(unrand255_rand255 p (hb c (by simp))).2, State.out_ok _ (by change u.regs.outLen.toNat < _; omega)]
    dsimp only
    rw [ih (p + 1) hat (fun d hd => hb d (List.mem_cons_of_mem _ hd)) htail (by
        rw [hout]; change u.regs.outLen.toNat + 1 + _ ≤ _; omega), State.appended_advance, State.advance_advance,
      appended_cons (by change u.regs.outLen.toNat + 1 < _; omega),
      show 8 + 8 * ws.length = 8 * (ws.length + 1) from by omega]

/-- The payload of a Base256 segment, which begins at codeword `n`. -/
theorem Reading.b256Payload (h : Reading W trl u n out) {ws : List Nat} (hb : ∀ c ∈ ws, c < 256) (p : Nat)
    (hcs : randomised p ws <+: W.drop n) (hne : ws ≠ []) (hsegs : u.regs.segCnt.toNat < n) (hW : W.length ≤ Config.segSize)
    (hroom : out.length + ws.length ≤ Config.outSize) :
    ∃ v, Machine.b256Payload ws.length p u = .ok v ∧ Reading W trl v (n + ws.length) (out ++ ws) := by
  have hsize : Config.outSize = 16384 := rfl
  have hsize' : Config.segSize = 2048 := rfl
  have hle := infix_length hcs (.inl (by rw [← List.length_pos_iff, randomised_length]; exact List.length_pos_iff.mpr hne))
  have hr := (h.advance ws.length).appended hb (by omega)
  rw [randomised_length] at hle
  have hcnt : (u.regs.segCnt + 1).toNat = u.regs.segCnt.toNat + 1 := by
    rw [BitVec.toNat_add, show (1 : BitVec 16).toNat = 1 from rfl]; omega
  refine ⟨State.withSegment ((u.advance (8 * ws.length)).appended (ws.map (BitVec.ofNat 8))) u.regs.outLen.toNat
    ws.length, ?_, hr.toStreamAt.congr rfl rfl rfl, hr.outLen, hr.outs, hr.trl, ?_⟩
  · rw [Machine.b256Payload, b256Bytes_randomised ws p h.toStreamAt hb hcs (by rw [h.outLen]; exact hroom)]
    exact State.addSegment_ok _ _ (by change u.regs.segCnt.toNat < _; omega)
  · change (u.regs.segCnt + 1).toNat ≤ _
    rw [hcnt]; omega

/-- Behind the length field and the bytes of a Base256 run. -/
theorem Reading.b256 (h : Reading W trl u n out) (hp : u.phase = .dmStream .base256) (htrl : ∀ c ∈ trl, c < 256)
    {ws f : List Nat} (hb : ∀ c ∈ ws, c < 256) (hne : ws ≠ []) (hcs : randomised (n + 1) (f ++ ws) <+: W.drop n)
    (hfield : b256Field ws = some (f ++ ws) ∨ f = [0] ∧ W.length = n + (f ++ ws).length) (hW : W.length ≤ Config.segSize)
    (hroom : out.length + ws.length + trl.length ≤ Config.outSize) :
    Within 1 u (Settled W trl · (n + (f ++ ws).length) (out ++ ws)) := by
  have hle := infix_length hcs (.inl (by
    rw [← List.length_pos_iff, randomised_length, List.length_append]
    have := List.length_pos_iff.mpr hne
    omega))
  rw [randomised_length] at hle
  have done : ∀ v, dmSegment .base256 u = .ok v → Reading W trl v (n + (f ++ ws).length) (out ++ ws) →
      Within 1 u (Settled W trl · (n + (f ++ ws).length) (out ++ ws)) := fun v hseg hv =>
    .round (.now (dmRound_segment (m := .base256) hp (by decide) hseg hv htrl (by rw [List.length_append]; exact hroom) hle) 0)
  have start : ∀ {d rest}, f ++ ws = d :: rest → u.readBits 8 = .ok (rand255 d (n + 1), u.advance 8) := fun hd =>
    h.toStreamAt.readBits (infix_getElem (j := 0) hcs (by rw [hd]; rfl))
  have hpos : u.work.bp / 8 + 1 = n + 1 := by rw [h.bp]; omega
  /- One codeword of length field, `d`, for `count` bytes. -/
  have one : ∀ d, d < 250 → f = [d] → (if d = 0 then (u.advance 8).avail / 8 else d) = ws.length →
      Within 1 u (Settled W trl · (n + (f ++ ws).length) (out ++ ws)) := by
    rintro d hd rfl hcount
    obtain ⟨v, hv, hr⟩ := (h.advance 1).b256Payload hb (n + 2) (infix_append (a := [rand255 d (n + 1)]) hcs).2 hne
      (Nat.lt_succ_of_le h.segs) hW (by omega)
    refine done v ?_ (by rw [show n + ([d] ++ ws).length = n + 1 + ws.length from by simp; omega]; exact hr)
    change b256Seg u = _
    rw [b256Seg, start (d := d) rfl]
    dsimp only
    rw [hpos, (unrand255_rand255 (n + 1) (by omega)).2, ← hv]
    by_cases h0 : d = 0
    · rw [if_pos h0] at hcount ⊢; rw [hcount]
    · rw [if_neg h0] at hcount ⊢; rw [if_pos hd, hcount]
  rcases hfield with hfield | ⟨hf, hfull⟩
  · obtain ⟨hshort, hlong, hover⟩ := b256Field_cases ws
    have hpos' := List.length_pos_iff.mpr hne
    by_cases h1 : ws.length ≤ 249
    · rw [hshort h1] at hfield
      have hf : f = [ws.length] := (List.append_cancel_right (Option.some.inj hfield : [ws.length] ++ ws = f ++ ws)).symm
      exact one _ (by omega) hf (if_neg (by omega))
    by_cases h2 : ws.length ≤ 1555
    · obtain ⟨d1, d2, hd, hlo, hhi, hlt, hsum⟩ := hlong (by omega) h2
      rw [hd] at hfield
      have hf : f = [d1, d2] := (List.append_cancel_right (Option.some.inj hfield : [d1, d2] ++ ws = f ++ ws)).symm
      subst hf
      have hcs' : [rand255 d1 (n + 1), rand255 d2 (n + 1 + 1)] ++ randomised (n + 3) ws <+: W.drop n := hcs
      obtain ⟨v, hv, hr⟩ := (h.advance 2).b256Payload hb (n + 3) (infix_append hcs').2 hne
        (Nat.lt_succ_of_lt (Nat.lt_succ_of_le h.segs)) hW (by omega)
      refine done v ?_ (by rw [show n + ([d1, d2] ++ ws).length = n + 2 + ws.length from by simp; omega]; exact hr)
      change b256Seg u = _
      have h8 : StreamAt W (u.advance 8) (n + 1) := h.toStreamAt.advance 1
      rw [b256Seg, start (d := d1) rfl]
      dsimp only
      rw [hpos, (unrand255_rand255 (n + 1) (by omega)).2, if_neg (by omega), if_neg (by omega),
        h8.readBits (infix_getElem (j := 1) hcs' rfl)]
      dsimp only
      rw [(unrand255_rand255 (n + 1 + 1) (by omega)).2, hsum, ← hv, State.advance_advance]
    · rw [hover (by omega)] at hfield; cases hfield
  · refine one 0 (by decide) hf ?_
    have h8 : StreamAt W (u.advance 8) (n + 1) := h.toStreamAt.advance 1
    rw [if_pos rfl, h8.avail, hfull, hf, List.length_append, List.length_singleton]
    omega

end

end Sys2Proof.Machine
end

section
/-! DEC.DM reads the codewords of a run of ENC.DM round by round (40_tce_datamatrix.md rule R206). -/

namespace Sys2Proof.Machine

/-! ### The codewords of a completed run -/

/-- `W` is what a run of ENC.DM on `i` that ended with `x` leaves in CW, and `trl` what the envelope leaves out at the end
of the text. -/
structure Written (i : EncIn) (x : Enc) (W trl : List Nat) : Prop where
  done : encMore i x = false
  pos : x.pos ≤ encTotal i x
  tail : i.txt.drop (encTotal i x) = trl
  front : x.rev.reverse <+: W
  pad : x.len < W.length → W[x.len]? = some 129
  lookup : ∃ p, dmLookup i.rom i.regs x.len = some p ∧ p.2.data = W.length
  segs : W.length ≤ Config.segSize
  bytes : ∀ c ∈ i.txt, c < 256
  short : i.txt.length ≤ Config.txtSize
  trl : trl = [] ∨ trl = macroTrailer

section
variable {i : EncIn} {x e t : Enc} {W trl : List Nat} {u : State}

theorem Written.le (h : Written i x W trl) : x.len ≤ W.length := by
  obtain ⟨p, hp, hd⟩ := h.lookup
  rw [← hd]
  exact (dmLookup_some hp).2.2

/-- What is emitted between two points of the run stands there in CW. -/
theorem Written.emitted (h : Written i x W trl) {cs ds : List Nat} (hc : e.Emits t cs) (hd : t.Emits x ds) :
    cs <+: W.drop e.len := by
  obtain ⟨rest, hrest⟩ := h.front
  refine ⟨ds ++ rest, ?_⟩
  rw [← hrest, hd, hc, List.append_assoc, List.append_assoc,
    show e.len = e.rev.reverse.length from (List.length_reverse ..).symm, List.drop_left]

theorem Written.trl_lt (h : Written i x W trl) : ∀ c ∈ trl, c < 256 := by
  rcases h.trl with rfl | rfl <;> decide

theorem Written.take_le (h : Written i x W trl) (n : Nat) : (i.txt.take n).length + trl.length + 8 ≤ Config.outSize := by
  have hs : Config.txtSize = 8192 := rfl
  have ho : Config.outSize = 16384 := rfl
  have := h.short
  have hl : trl.length ≤ 2 := by rcases h.trl with rfl | rfl <;> decide
  rw [List.length_take]
  omega

/-- A capacity query that answered with room for what the run emits in the end was the last one's. -/
theorem Written.length_le (h : Written i x W trl) {n : Nat} {p : Nat × DmRow} (hp : dmLookup i.rom i.regs n = some p)
    (hn : x.len ≤ n) : W.length ≤ p.2.data := by
  obtain ⟨q, hq, hd⟩ := h.lookup
  rw [← hd]
  exact dmLookup_data_le hq hp hn

theorem Written.le_length (h : Written i x W trl) {n : Nat} {p : Nat × DmRow} (hp : dmLookup i.rom i.regs n = some p)
    (hn : n ≤ x.len) : p.2.data ≤ W.length := by
  obtain ⟨q, hq, hd⟩ := h.lookup
  rw [← hd]
  exact dmLookup_data_le hp hq hn

/-- The characters taken since `e` extend the text read. -/
theorem take_append_of_prefix {ws : List Nat} (h : ws <+: encRest i e) (hp : t.pos = e.pos + ws.length) :
    i.txt.take e.pos ++ ws = i.txt.take t.pos := by
  have hpre : ws <+: i.txt.drop e.pos := h.trans (List.take_prefix _ _)
  rw [hp, List.take_add, List.prefix_iff_eq_take.mp hpre, List.length_take]
  congr 1
  rw [List.take_eq_take_iff]
  omega

theorem bytes_of_prefix (h : Written i x W trl) {ws : List Nat} (hp : ws <+: encRest i e) : ∀ c ∈ ws, c < 256 :=
  fun c hc => h.bytes c (List.mem_of_mem_drop (List.mem_of_mem_take (hp.subset hc)))

theorem room_of_prefix (h : Written i x W trl) {ws : List Nat} (hp : ws <+: encRest i e) (ht : t.pos = e.pos + ws.length) :
    (i.txt.take e.pos).length + ws.length + trl.length + 8 ≤ Config.outSize := by
  rw [← List.length_append, take_append_of_prefix hp ht]
  exact h.take_le _

/-! ### One round -/

/-- The decoder is where the encoder is: in ASCII mode or done, or else before the current mode's segment. -/
def Synced (i : EncIn) (W trl : List Nat) (e : Enc) (u : State) : Prop :=
  ((e.mode = .ascii ∨ encMore i e = false) ∧ Settled W trl u e.len (i.txt.take e.pos))
    ∨ (e.mode ≠ .ascii ∧ encMore i e = true ∧ e.len < W.length ∧ Reading W trl u e.len (i.txt.take e.pos)
      ∧ u.phase = .dmStream e.mode.seg)

/-- Rounds of DEC.DM left for the codewords from `e` on. -/
def roundsLeft (W : List Nat) (e : Enc) : Nat := 2 * (W.length - e.len) + if e.mode = .ascii then 0 else 1

/-- The end of the stream: the pad, or the last codeword. -/
theorem Written.finish (h : Written i x W trl) (hs : Settled W trl u x.len (i.txt.take x.pos)) :
    Within (roundsLeft W x) u (Finished · i.txt) := by
  have hall : i.txt.take x.pos ++ trl = i.txt := by
    have := (decide_eq_false_iff_not.mp h.done)
    rw [show x.pos = encTotal i x from Nat.le_antisymm h.pos (Nat.le_of_not_lt this), ← h.tail, List.take_append_drop]
  rcases hs with ⟨hlt, hr, hp, -⟩ | ⟨-, hf⟩
  · refine .mono (.round (k := 0) (.now ?_ 0)) (by rw [roundsLeft]; omega)
    have := hr.pad hp h.trl_lt (h.pad hlt) (by have := h.take_le x.pos; omega)
    rwa [hall] at this
  · rw [hall] at hf
    exact .now hf _

/-- A step in ASCII mode. -/
theorem AsciiStep.synced (h : Written i x W trl) {v : Enc} {c : Nat} {rest ds : List Nat} (hstep : AsciiStep i e v c rest)
    (hr : encRest i e = c :: rest) (hmode : e.mode = .ascii) (hskip : v.skip = e.skip) (hvmode : v.mode = e.mode)
    (hemits : (takeNew v).Emits x ds) (hmore : encMore i (takeNew v) = true → ds ≠ [])
    (hn : e.len < W.length) (hs : Settled W trl u e.len (i.txt.take e.pos)) :
    ∃ k, k + roundsLeft W (takeNew v) ≤ roundsLeft W e ∧ Within k u (Synced i W trl (takeNew v)) := by
  have hle := h.le
  have hlen := hemits.len
  have hsmall : c < 256 := bytes_of_prefix h (List.prefix_refl (encRest i e)) c (by rw [hr]; exact List.mem_cons_self)
  have hroom := h.take_le e.pos
  have hone : i.txt.take e.pos ++ [c] = i.txt.take (e.pos + 1) :=
    take_append_of_prefix (t := { e with pos := e.pos + 1 }) ⟨rest, hr.symm⟩ rfl
  have cws : ∀ {cs}, e.Emits v cs → cs <+: W.drop e.len ∧ (takeNew v).len = e.len + cs.length := fun hem =>
    ⟨h.emitted hem.takeNew hemits, hem.takeNew.len⟩
  /- A step that stays in ASCII mode. -/
  have stays : ∀ {k n : Nat} {cs : List Nat}, v.new = none → v.pos = e.pos + n → e.Emits v cs → k ≤ cs.length →
      Within k u (Settled W trl · (e.len + cs.length) (i.txt.take (e.pos + n))) →
      ∃ k, k + roundsLeft W (takeNew v) ≤ roundsLeft W e ∧ Within k u (Synced i W trl (takeNew v)) := by
    intro k n cs hnew hpos hem hk hw
    have hm : (takeNew v).mode = .ascii := (takeNew_mode_of_none hnew).trans (hvmode.trans hmode)
    have hl := (cws hem).2
    refine ⟨k, ?_, hw.mono_pred fun w hw => .inl ⟨.inl hm, ?_⟩⟩
    · rw [roundsLeft, roundsLeft, if_pos hmode, if_pos hm]; omega
    · rw [hl, takeNew_pos, hpos]; exact hw
  rcases hs with ⟨hlt, hR, hp, hup⟩ | ⟨heq, -⟩
  · cases hstep with
    | digits d xs hrest hc hd pos new emits =>
      subst hrest
      have hset := hR.digits hp hup h.trl_lt hc hd (infix_getElem (j := 0) (cws emits).1 rfl) (by omega)
      rw [take_append_of_prefix (t := { e with pos := e.pos + 2 }) ⟨xs, hr.symm⟩ rfl] at hset
      exact stays new pos emits (Nat.le_refl 1) (.round (.now hset 0))
    | plain hc single pos new emits =>
      have hset := hR.char hp h.trl_lt (infix_getElem (j := 0) (cws emits).1 rfl) (by omega) (by omega) (c := c)
        (by rw [hup]; rfl) (by omega)
      rw [hone] at hset
      exact stays new pos emits (Nat.le_refl 1) (.round (.now hset 0))
    | upper hc single pos new emits =>
      have hl := (cws emits).2
      rw [List.length_cons, List.length_singleton] at hl
      obtain ⟨hR', hp', hup'⟩ := hR.upshift hp (infix_getElem (j := 0) (cws emits).1 rfl) (by omega)
      have hset := hR'.char hp' h.trl_lt (infix_getElem (j := 1) (cws emits).1 rfl) (by omega) (by omega) (c := c)
        (by rw [hup']; change c = c - 127 + 127; omega) (by omega)
      rw [hone] at hset
      exact stays new pos emits (Nat.le_refl 2) (.round (.round (.now hset 0)))
    | latch m hm verdict single pos new emits =>
      have hl := (cws emits).2
      rw [List.length_singleton] at hl
      have hm' : (takeNew v).mode = m := takeNew_mode_of_some new
      have hmore' : encMore i (takeNew v) = true := by
        rw [encMore_takeNew, encMore_congr hskip pos, encMore_iff, hr]; exact List.cons_ne_nil _ _
      have hds := List.length_pos_iff.mpr (hmore hmore')
      obtain ⟨hR', hp', -⟩ := hR.latch hp hm (infix_getElem (j := 0) (cws emits).1 rfl) (by omega)
      refine ⟨1, ?_, .round (.now (.inr ⟨by rw [hm']; exact hm, hmore', by omega, ?_, by rw [hm']; exact hp'⟩) 0)⟩
      · rw [roundsLeft, roundsLeft, if_pos hmode, if_neg (by rw [hm']; exact hm)]; omega
      · rw [hl, takeNew_pos, pos]; exact hR'
  · omega

/-- A run of pairs. -/
theorem PairRun.synced (h : Written i x W trl) {v : Enc} {ws vs ds : List Nat} {m : Mode} {fuel : Nat}
    (hrun : PairRun i e v ws vs) (hm : e.mode = m) (hadv : Advances i e (takeNew v))
    (hl : encLoop i fuel (takeNew v) = .ok (x, true)) (hemits : (takeNew v).Emits x ds) (hn : e.len < W.length)
    (hR : Reading W trl u e.len (i.txt.take e.pos)) (hp : u.phase = .dmStream e.mode.seg)
    (hreads : ∃ w, PairReads m u vs w ∧ Reading W trl w e.len (i.txt.take e.pos ++ ws)) :
    ∃ k, k + roundsLeft W (takeNew v) ≤ roundsLeft W e ∧ Within k u (Synced i W trl (takeNew v)) := by
  obtain ⟨w, hreads, hw⟩ := hreads
  subst hm
  have hmode : (takeNew v).mode = .ascii := takeNew_mode_of_some hrun.new
  have hroom := room_of_prefix h hrun.pre hrun.pos
  have hroom' : (i.txt.take e.pos ++ ws).length + trl.length ≤ Config.outSize := by rw [List.length_append]; omega
  have hle := h.le
  have hxlen := hemits.len
  rw [takeNew_len] at hxlen
  rw [take_append_of_prefix hrun.pre hrun.pos] at hw hroom'
  have finish : ∀ {k n : Nat}, v.len = e.len + n → k ≤ 2 * n + 1 →
      Within k u (Settled W trl · (e.len + n) (i.txt.take v.pos)) →
      ∃ k, k + roundsLeft W (takeNew v) ≤ roundsLeft W e ∧ Within k u (Synced i W trl (takeNew v)) := by
    intro k n hlen hk hset
    refine ⟨k, ?_, hset.mono_pred fun w hw => .inl ⟨.inl hmode, by rw [takeNew_len, takeNew_pos, hlen]; exact hw⟩⟩
    rw [roundsLeft, roundsLeft, if_pos hmode, if_neg hreads.mode, takeNew_len]
    omega
  cases hrun.ending with
  | unlatched hem =>
    have hlen := hem.len
    rw [List.length_append, tripletCodewords_length, List.length_singleton] at hlen
    exact finish hlen (by omega) (hreads.unlatched hp hR.toStreamAt hw h.trl_lt hroom' (h.emitted hem.takeNew hemits))
  | bare hem p lookup one fills =>
    have hlen := hem.len
    rw [tripletCodewords_length] at hlen
    have hfinal := encLoop_short fuel (takeNew v) hadv.ok hmode (by rw [encRest_takeNew]; omega) hl
    rw [encRest_takeNew, takeNew_len] at hfinal
    have hW := h.length_le (dmLookup_between lookup (Nat.le_add_right _ _) fills.ge) (n := v.len + remCw (encRest i v)) (by omega)
    exact finish hlen (by omega) (hreads.bare hp hR.toStreamAt hw h.trl_lt hroom' hn (h.emitted hem.takeNew hemits) (by omega))

/-- A run of EDIFACT groups. -/
theorem EdfRun.synced (h : Written i x W trl) {v : Enc} {ws ds : List Nat} {fuel : Nat}
    (hrun : EdfRun i e v ws) (hm : e.mode = .edifact) (hadv : Advances i e (takeNew v))
    (hl : encLoop i fuel (takeNew v) = .ok (x, true)) (hemits : (takeNew v).Emits x ds) (hn : e.len < W.length)
    (hR : Reading W trl u e.len (i.txt.take e.pos)) (hp : u.phase = .dmStream e.mode.seg) :
    ∃ k, k + roundsLeft W (takeNew v) ≤ roundsLeft W e ∧ Within k u (Synced i W trl (takeNew v)) := by
  have hmode : (takeNew v).mode = .ascii := takeNew_mode_of_some hrun.new
  have hle := h.le
  have hxlen := hemits.len
  rw [takeNew_len] at hxlen
  rw [hm] at hp
  have finish : ∀ {n : Nat}, v.len = e.len + n → Within 1 u (Settled W trl · (e.len + n) (i.txt.take v.pos)) →
      ∃ k, k + roundsLeft W (takeNew v) ≤ roundsLeft W e ∧ Within k u (Synced i W trl (takeNew v)) := by
    intro n hlen hset
    refine ⟨1, ?_, hset.mono_pred fun w hw => .inl ⟨.inl hmode, by rw [takeNew_len, takeNew_pos, hlen]; exact hw⟩⟩
    rw [roundsLeft, roundsLeft, if_pos hmode, if_neg (by rw [hm]; decide), takeNew_len]
    omega
  cases hrun.ending with
  | bare hpos hem m p lookup rest two =>
    have hlen := hem.len
    rw [groupCodewords_length, List.length_map] at hlen
    have hroom := room_of_prefix h hrun.pre hpos
    have hpm := (dmLookup_some lookup).2.2
    have hfinal := encLoop_short fuel (takeNew v) hadv.ok hmode (by rw [encRest_takeNew]; omega) hl
    rw [encRest_takeNew, takeNew_len] at hfinal
    have hW := h.length_le lookup (by omega)
    have hset := hR.edfBare hp h.trl_lt (bytes_of_prefix h hrun.pre) hrun.whole hrun.native (h.emitted hem.takeNew hemits) hn.le
      (by omega) (by omega)
    rw [take_append_of_prefix hrun.pre hpos] at hset
    exact finish hlen hset
  | group left hpos hpre hnat hfew n hn' hem room =>
    have hlen := hem.len
    rw [groupCodewords_length, List.length_map] at hn'
    rw [List.length_append, groupCodewords_length, List.length_map, edfPack_length (by simp), List.length_append, List.length_map,
      List.length_singleton] at hlen
    have hroom := room_of_prefix h hpre hpos
    have hthree : n + 3 ≤ W.length := by
      rcases room with hroom | ⟨m, p, hm, hp, h3⟩ | ⟨hone, p, hp, hlt⟩
      · omega
      · exact h3.trans (h.le_length hp (by omega))
      · have hpm := (dmLookup_some hp).2.2
        have := encLoop_two hadv.ok hmode (by rw [encRest_takeNew]; omega) hl
        rw [takeNew_len] at this
        omega
    have hset := hR.edfUnlatched hp h.trl_lt (bytes_of_prefix h hpre) hrun.whole hfew (fun c hc => by
      rcases List.mem_append.mp hc with hc | hc
      · exact hrun.native c hc
      · exact hnat c hc) (h.emitted hem.takeNew hemits) (by omega) (by omega)
    rw [take_append_of_prefix hpre hpos, Nat.add_assoc] at hset
    exact finish hlen hset

/-- A run of Base256 bytes. -/
theorem B256Run.synced (h : Written i x W trl) {v : Enc} {ws f ds : List Nat} {fuel : Nat} (hrun : B256Run i e v ws f)
    (hm : e.mode = .base256) (hadv : Advances i e (takeNew v)) (hl : encLoop i fuel (takeNew v) = .ok (x, true))
    (hemits : (takeNew v).Emits x ds) (hR : Reading W trl u e.len (i.txt.take e.pos)) (hp : u.phase = .dmStream e.mode.seg) :
    ∃ k, k + roundsLeft W (takeNew v) ≤ roundsLeft W e ∧ Within k u (Synced i W trl (takeNew v)) := by
  have hlen := hrun.emits.len
  have hle := h.le
  have hxlen := hemits.len
  rw [randomised_length] at hlen
  rw [takeNew_len] at hxlen
  rw [hm] at hp
  have hfull : b256Field ws = some (f ++ ws) ∨ f = [0] ∧ W.length = e.len + (f ++ ws).length := by
    refine hrun.field.imp_right fun ⟨hf, hdone, p, hp, hd⟩ => ⟨hf, ?_⟩
    rcases encLoop_cases hl with ⟨-, rfl⟩ | ⟨n, y, hmore, -⟩
    · have h1 := h.length_le hp (by rw [takeNew_len])
      rw [takeNew_len] at hle
      omega
    · rw [encMore_takeNew, hdone] at hmore; cases hmore
  have hroom := room_of_prefix h hrun.pre hrun.pos
  have hset := hR.b256 hp h.trl_lt (bytes_of_prefix h hrun.pre) hrun.takes (h.emitted hrun.emits.takeNew hemits) hfull h.segs
    (by omega)
  rw [take_append_of_prefix hrun.pre hrun.pos] at hset
  have hpos := List.length_pos_iff.mpr hrun.takes
  rw [List.length_append] at hlen hset
  refine ⟨1, ?_, hset.mono_pred fun w hw => .inl ⟨?_, by rw [takeNew_len, takeNew_pos, hlen]; exact hw⟩⟩
  · rw [roundsLeft, roundsLeft, if_neg (by rw [hm]; decide : e.mode ≠ .ascii), takeNew_len]
    split <;> omega
  · exact (hadv.mode (by rw [hm]; decide)).imp_right And.right

/-- Any round. -/
theorem Round.synced (h : Written i x W trl) {v : Enc} {ds : List Nat} {fuel : Nat} (hround : Round i e v) (hok : EncOk i e)
    (hmore : encMore i e = true) (hl : encLoop i fuel (takeNew v) = .ok (x, true))
    (hemits : (takeNew v).Emits x ds) (hds : encMore i (takeNew v) = true → ds ≠ [])
    (hlt : e.len < W.length) (hs : Synced i W trl e u) :
    ∃ k, k + roundsLeft W (takeNew v) ≤ roundsLeft W e ∧ Within k u (Synced i W trl (takeNew v)) := by
  have hadv := hround.advances hok hmore
  rcases hs with ⟨ha | hf, hs⟩ | ⟨hne, -, hn, hR, hp⟩
  · cases hround with
    | ascii c rest mode left hstep skip umode => exact hstep.synced h left mode skip umode hemits hds hlt hs
    | c40 m mode hm => rw [ha] at mode; subst mode; rcases hm with hm | hm <;> cases hm
    | x12 mode => rw [ha] at mode; cases mode
    | edifact mode => rw [ha] at mode; cases mode
    | base256 mode => rw [ha] at mode; cases mode
  · rw [hf] at hmore; cases hmore
  · cases hround with
    | ascii c rest mode => exact absurd mode hne
    | c40 m mode hm ws extra dangling run =>
      exact run.synced h mode hadv hl hemits hn hR hp (pairReads_c40 hm hR (bytes_of_prefix h run.pre) dangling run.whole
        (by have := room_of_prefix h run.pre run.pos; omega))
    | x12 mode ws native run =>
      exact run.synced h mode hadv hl hemits hn hR hp (pairReads_x12 hR (bytes_of_prefix h run.pre) native run.whole
        (by have := room_of_prefix h run.pre run.pos; omega))
    | edifact mode ws run => exact run.synced h mode hadv hl hemits hn hR hp
    | base256 mode ws f run => exact run.synced h mode hadv hl hemits hR hp

/-- DEC.DM reads what the rest of the main loop emits. -/
theorem Written.follow (h : Written i x W trl) (fuel : Nat) : ∀ {e : Enc} {u : State}, EncOk i e →
    encLoop i fuel e = .ok (x, true) → Synced i W trl e u → Within (roundsLeft W e) u (Finished · i.txt) := by
  induction fuel with
  | zero =>
    intro e u _ hl hs
    rcases encLoop_cases hl with ⟨-, rfl⟩ | ⟨n, v, -, hn, -⟩
    · rcases hs with ⟨-, hs⟩ | ⟨-, hm, -⟩
      · exact h.finish hs
      · rw [h.done] at hm; cases hm
    · cases hn
  | succ fuel ih =>
    intro e u hok hl hs
    rcases encLoop_cases hl with ⟨-, rfl⟩ | ⟨n, v, hmore, hn, hv, hrest⟩
    · rcases hs with ⟨-, hs⟩ | ⟨-, hm, -⟩
      · exact h.finish hs
      · rw [h.done] at hm; cases hm
    · obtain rfl : fuel = n := Nat.succ.inj hn
      have hround := encDispatch_spec hok hmore hv
      have hadv := hround.advances hok hmore
      obtain ⟨-, -, ds, hemits, hds⟩ := encLoop_emits fuel _ hadv.ok hrest
      obtain ⟨-, -, cs, hcs, hne⟩ := encLoop_emits (fuel + 1) e hok hl
      have hlen := hcs.len
      have hpos := List.length_pos_iff.mpr (hne hmore)
      have hle := h.le
      obtain ⟨k, hk, hw⟩ := hround.synced h hok hmore hrest hemits hds (by omega) hs
      exact (hw.bind fun w hw => ih hadv.ok hrest hw).mono hk

end

end Sys2Proof.Machine
end

section
/-! Where a run of ENC.DM begins (40_tce_datamatrix.md rule R203), and that DEC.DM gives back what it encoded (rule R206;
O45). -/

namespace Sys2Proof.Machine

/-! ### The text -/

theorem State.text_length (s : State) : s.text.length = s.regs.txtLen.toNat := by simp [State.text, Buf.take]

theorem State.text_getElem? (s : State) {j : Nat} (h : j < s.regs.txtLen.toNat) : s.text[j]? = some (s.mem.txt.read j).toNat := by
  simp [State.text, Buf.take, h]

theorem State.text_lt (s : State) : ∀ c ∈ s.text, c < 256 := by
  intro c hc
  obtain ⟨b, -, rfl⟩ := List.mem_map.mp hc
  exact b.isLt

/-! ### The first point of the main loop -/

/-- The codeword of an envelope and the header it stands for (30_encoding.md rule R142). -/
def IsEnvelope (b : Nat) (header : List Nat) : Prop := (b = 236 ∧ header = macroHeader05) ∨ (b = 237 ∧ header = macroHeader06)

/-- Where the main loop begins on the text `txt`: at its start, or inside an envelope. -/
inductive Opening (txt : List Nat) (e : Enc) : Prop where
  | bare (mode : e.mode = .ascii) (pos : e.pos = 0) (skip : e.skip = 0) (new : e.new = none) (rev : e.rev = [])
      (no05 : isMacroText txt macroHeader05 = false) (no06 : isMacroText txt macroHeader06 = false)
  | envelope (b : Nat) (header : List Nat) (h : IsEnvelope b header) (mode : e.mode = .ascii) (pos : e.pos = 7)
      (skip : e.skip = 2)
      (new : e.new = none) (rev : e.rev = [b]) (text : isMacroText txt header = true)

theorem isMacroText_iff (txt h : List Nat) :
    isMacroText txt h = true ↔ 9 ≤ txt.length ∧ txt.take 7 = h ∧ txt.drop (txt.length - 2) = macroTrailer := by
  rw [isMacroText, Bool.and_eq_true, Bool.and_eq_true, decide_eq_true_eq, decide_eq_true_eq, decide_eq_true_eq, and_assoc]

/-- The registers hold where the main loop begins. -/
theorem State.encBegin_opening (s : State) : Opening s.text s.encBegin.enc := by
  by_cases h5 : isMacroText s.text macroHeader05 = true
  · have he : encStart s.encIn s.enc = { s.enc with mode := .ascii, pos := 7, skip := 2, new := none, rev := [236] } := if_pos h5
    unfold State.encBegin
    rw [he]
    exact .envelope 236 _ (.inl ⟨rfl, rfl⟩) rfl rfl rfl rfl rfl h5
  by_cases h6 : isMacroText s.text macroHeader06 = true
  · have he : encStart s.encIn s.enc = { s.enc with mode := .ascii, pos := 7, skip := 2, new := none, rev := [237] } :=
      (if_neg h5).trans (if_pos h6)
    unfold State.encBegin
    rw [he]
    exact .envelope 237 _ (.inr ⟨rfl, rfl⟩) rfl rfl rfl rfl rfl h6
  · have he : encStart s.encIn s.enc = { s.enc with mode := .ascii, pos := 0, skip := 0, new := none, rev := [] } :=
      (if_neg h5).trans (if_neg h6)
    unfold State.encBegin
    rw [he]
    exact .bare rfl rfl rfl rfl rfl (Bool.not_eq_true _ ▸ h5) (Bool.not_eq_true _ ▸ h6)

theorem Opening.mode {txt : List Nat} {e : Enc} (h : Opening txt e) : e.mode = .ascii := by
  cases h with
  | bare mode => exact mode
  | envelope b header h mode => exact mode

theorem Opening.ok {i : EncIn} {e : Enc} (h : Opening i.txt e) : EncOk i e := by
  cases h with
  | bare mode pos skip new rev =>
    refine ⟨new, by rw [pos]; exact Nat.zero_le _, fun _ => .inl mode, .inl ?_⟩
    rw [encTotal, skip, Nat.sub_zero, List.drop_length]
  | envelope b header h mode pos skip new rev text =>
    obtain ⟨h9, -, htail⟩ := (isMacroText_iff _ _).mp text
    refine ⟨new, by rw [pos, encTotal, skip]; omega, fun _ => .inl mode, .inr ?_⟩
    rw [encTotal, skip, htail]

/-! ### Codewords are bytes -/

/-- All elements are bytes. -/
def Bytes (cs : List Nat) : Prop := ∀ c ∈ cs, c < 256

theorem Bytes.nil : Bytes [] := fun _ h => nomatch h

theorem Bytes.cons {c : Nat} {cs : List Nat} (h : c < 256) (hs : Bytes cs) : Bytes (c :: cs) := List.forall_mem_cons.mpr ⟨h, hs⟩

theorem Bytes.append {a b : List Nat} (ha : Bytes a) (hb : Bytes b) : Bytes (a ++ b) := List.forall_mem_append.mpr ⟨ha, hb⟩

theorem bytes_tripletCodewords (vs : List Nat) : (∀ v ∈ vs, v < 40) → Bytes (tripletCodewords vs) := by
  induction vs using tripletCodewords.induct with
  | case1 a b c rest ih =>
    intro h
    have ha := h a (by simp)
    have hb := h b (by simp)
    have hc := h c (by simp)
    exact .append (.cons (by omega) (.cons (by omega) .nil)) (ih fun v hv => h v (by simp [hv]))
  | case2 xs hx => intro _; rw [tripletCodewords]; exacts [.nil, hx]

theorem bytes_edfPack (vs : List Nat) : Bytes (edfPack vs) := by
  refine .append (.append (.cons (by omega) .nil) ?_) ?_
  · split
    · exact .cons (by omega) .nil
    · exact .nil
  · split
    · exact .cons (by omega) .nil
    · exact .nil

theorem bytes_groupCodewords (vs : List Nat) : Bytes (groupCodewords vs) := by
  induction vs using groupCodewords.induct with
  | case1 a b c d rest ih => exact .append (bytes_edfPack _) ih
  | case2 xs hx => rw [groupCodewords]; exacts [.nil, hx]

theorem bytes_randomised (bs : List Nat) : ∀ p, Bytes bs → Bytes (randomised p bs) := by
  induction bs with
  | nil => exact fun _ _ => .nil
  | cons b rest ih =>
    exact fun p h => .cons (unrand255_rand255 p (h b (by simp))).1 (ih _ fun c hc => h c (List.mem_cons_of_mem _ hc))

theorem bytes_padding (n cap : Nat) : Bytes (padding n cap) := by
  unfold padding
  split
  · refine .cons (by decide) fun c hc => ?_
    obtain ⟨j, -, rfl⟩ := List.mem_map.mp hc
    unfold rand253
    dsimp only
    split <;> omega
  · exact .nil

/-- The length field and the payload of a Base256 run. -/
theorem bytes_field {ws f : List Nat} (hw : Bytes ws) (h : b256Field ws = some (f ++ ws) ∨ f = [0]) : Bytes (f ++ ws) := by
  refine .append ?_ hw
  rcases h with h | rfl
  · obtain ⟨hshort, hlong, hover⟩ := b256Field_cases ws
    by_cases h1 : ws.length ≤ 249
    · rw [hshort h1] at h
      rw [← List.append_cancel_right (Option.some.inj h : [ws.length] ++ ws = f ++ ws)]
      exact .cons (by omega) .nil
    by_cases h2 : ws.length ≤ 1555
    · obtain ⟨d1, d2, hd, hlo, hhi, hlt, hsum⟩ := hlong (by omega) h2
      rw [hd] at h
      rw [← List.append_cancel_right (Option.some.inj h : [d1, d2] ++ ws = f ++ ws)]
      exact .cons (by omega) (.cons (by omega) .nil)
    · rw [hover (by omega)] at h; cases h
  · exact .cons (by decide) .nil

theorem PairRun.bytes {i : EncIn} {e u : Enc} {ws vs : List Nat} (h : PairRun i e u ws vs) (hv : ∀ v ∈ vs, v < 40) :
    ∃ cs, e.Emits u cs ∧ Bytes cs := by
  cases h.ending with
  | unlatched hem => exact ⟨_, hem, .append (bytes_tripletCodewords vs hv) (.cons (by decide) .nil)⟩
  | bare hem => exact ⟨_, hem, bytes_tripletCodewords vs hv⟩

/-- A round emits bytes. -/
theorem Round.bytes {i : EncIn} {e u : Enc} (h : Round i e u) (hi : Bytes i.txt) : ∃ cs, e.Emits u cs ∧ Bytes cs := by
  have hrest : ∀ {ws}, ws <+: encRest i e → Bytes ws := fun hp c hc =>
    hi c (List.mem_of_mem_drop (List.mem_of_mem_take (hp.subset hc)))
  cases h with
  | ascii c rest mode left hstep skip umode =>
    have hc : c < 256 := hrest (List.prefix_refl _) c (by rw [left]; exact List.mem_cons_self)
    cases hstep with
    | digits d xs hx hc hd pos new emits =>
      rw [isDigit_iff] at hc hd
      exact ⟨_, emits, .cons (by omega) .nil⟩
    | latch m hm verdict single pos new emits => exact ⟨_, emits, .cons (by cases m <;> decide) .nil⟩
    | upper h128 single pos new emits => exact ⟨_, emits, .cons (by decide) (.cons (by omega) .nil)⟩
    | plain h128 single pos new emits => exact ⟨_, emits, .cons (by omega) .nil⟩
  | c40 m mode hm ws extra dangling run =>
    refine run.bytes fun v hv => ?_
    rcases List.mem_append.mp hv with hv | hv
    · obtain ⟨c, hc, hvc⟩ := List.mem_flatMap.mp hv
      exact c40TextValues_lt m (hrest run.pre c hc) v hvc
    · rcases dangling with rfl | ⟨y, hy, rfl⟩
      · cases hv
      · rw [List.mem_singleton.mp hv]; omega
  | x12 mode ws native run =>
    refine run.bytes fun v hv => ?_
    obtain ⟨c, hc, rfl⟩ := List.mem_map.mp hv
    exact (x12Char_x12Value (native c hc)).1
  | edifact mode ws run =>
    cases run.ending with
    | bare pos hem => exact ⟨_, hem, bytes_groupCodewords _⟩
    | group left pos pre native few n hn hem => exact ⟨_, hem, .append (bytes_groupCodewords _) (bytes_edfPack _)⟩
  | base256 mode ws f run =>
    exact ⟨_, run.emits, bytes_randomised _ _ (bytes_field (hrest run.pre) (run.field.imp_right And.left))⟩

theorem encLoop_bytes {i : EncIn} {x : Enc} (hi : Bytes i.txt) (fuel : Nat) : ∀ e, EncOk i e →
    encLoop i fuel e = .ok (x, true) → Bytes e.rev → Bytes x.rev := by
  induction fuel with
  | zero =>
    intro e _ h hb
    rcases encLoop_cases h with ⟨-, rfl⟩ | ⟨n, u, -, hn, -⟩
    · exact hb
    · cases hn
  | succ fuel ih =>
    intro e hok h hb
    rcases encLoop_cases h with ⟨-, rfl⟩ | ⟨n, u, hm, hn, hu, hl⟩
    · exact hb
    · obtain rfl : fuel = n := Nat.succ.inj hn
      have hround := encDispatch_spec hok hm hu
      obtain ⟨cs, hcs, hbytes⟩ := hround.bytes hi
      refine ih _ (hround.advances hok hm).ok hl fun c hc => ?_
      rw [← List.mem_reverse, hcs.takeNew, List.mem_append, List.mem_reverse] at hc
      exact hc.elim (hb c) (hbytes c)

theorem encLoop_skip {i : EncIn} {x : Enc} (fuel : Nat) : ∀ e, EncOk i e → encLoop i fuel e = .ok (x, true) →
    x.skip = e.skip := by
  induction fuel with
  | zero =>
    intro e _ h
    rcases encLoop_cases h with ⟨-, rfl⟩ | ⟨n, u, -, hn, -⟩
    · rfl
    · cases hn
  | succ fuel ih =>
    intro e hok h
    rcases encLoop_cases h with ⟨-, rfl⟩ | ⟨n, u, hm, hn, hu, hl⟩
    · rfl
    · obtain rfl : fuel = n := Nat.succ.inj hn
      have hadv := (encDispatch_spec hok hm hu).advances hok hm
      exact (ih _ hadv.ok hl).trans hadv.skip

theorem Opening.bytes {txt : List Nat} {e : Enc} (h : Opening txt e) : Bytes e.rev := by
  cases h with
  | bare mode pos skip new rev => rw [rev]; exact .nil
  | envelope b header h mode pos skip new rev =>
    rw [rev]
    exact .cons (by rcases h with ⟨rfl, -⟩ | ⟨rfl, -⟩ <;> decide) .nil

/-! ### A completed run (O45) -/

theorem tDmSym_data_bounds : ∀ r ∈ tDmSym, 0 < r.data ∧ r.data ≤ 1558 := by decide

/-- What a completed run of ENC.DM with the default table leaves in CW. -/
theorem EncDone.written {s t : State} {e : Enc} {idx : Nat} {row : DmRow} (h : EncDone s t e idx row) (hr : s.rom = romDefault)
    (hlen : s.regs.txtLen.toNat ≤ 8192) {trl : List Nat}
    (htrl : s.text.drop (encTotal s.encBegin.encIn s.encBegin.enc) = trl) :
    Written s.encBegin.encIn e (finalCodewords e row.data) trl := by
  have hok := s.encBegin_opening.ok (i := s.encBegin.encIn)
  obtain ⟨hok', hdone, -⟩ := encLoop_emits _ _ hok h.loop
  have hfinal := finalCodewords_of_mode (hok'.done hdone) row.data
  have hflen := finalCodewords_length e h.le
  have hmem : row ∈ tDmSym := by
    have := List.mem_of_getElem? (dmLookup_some h.lookup).1
    rwa [hr] at this
  have htotal : encTotal s.encBegin.encIn e = encTotal s.encBegin.encIn s.encBegin.enc := by
    rw [encTotal, encTotal, encLoop_skip _ _ hok h.loop]
  have htail := hok'.tail
  rw [htotal] at htail
  subst htrl
  refine ⟨hdone, hok'.pos, by rw [htotal]; rfl, ?_, ?_, ⟨_, h.lookup, hflen.symm⟩, ?_, s.text_lt,
    ?_, htail⟩
  · rw [hfinal]; exact List.prefix_append _ _
  · intro hlt
    rw [hflen] at hlt
    have := padding_zero hlt
    rwa [hfinal, List.getElem?_append_right (by rw [List.length_reverse]; exact Nat.le_refl _), List.length_reverse,
      show e.len - e.rev.length = 0 from Nat.sub_self _]
  · have := (tDmSym_data_bounds row hmem).2
    rw [hflen]
    exact this.trans (by decide)
  · change s.text.length ≤ _
    rw [s.text_length]; exact hlen

/-- DEC.DM begun, on the codewords of a completed run. -/
theorem EncDone.dmBegin_reading {s t : State} {e : Enc} {idx : Nat} {row : DmRow} (h : EncDone s t e idx row)
    (hb : ∀ x ∈ finalCodewords e row.data, x < 256) : Reading (finalCodewords e row.data) [] t.dmBegin 0 [] := by
  refine ⟨⟨?_, fun k x hx => ?_, rfl⟩, rfl, fun _ _ hx => (nomatch hx), rfl, Nat.le_refl 0⟩
  · rw [finalCodewords_length e h.le]; exact h.cwLen
  · change (t.mem.cw.read k).toNat = x
    rw [h.cws k x hx, BitVec.toNat_ofNat]
    exact Nat.mod_eq_of_lt (hb x (List.mem_of_getElem? hx))

/-- Rounds enough to end the command end the loop. -/
theorem dmLoop_of_within {k fuel : Nat} {u : State} {txt : List Nat} (h : Within k u (Finished · txt)) (hk : k ≤ fuel) :
    Finished (dmLoop fuel u) txt := by
  obtain ⟨j, hj, hf⟩ := h
  replace hj := hj.trans hk
  clear hk
  induction j generalizing u fuel with
  | zero =>
    have hp : u.phase = .idle := hf.completed.1
    cases fuel with
    | zero => exact hf
    | succ fuel => rw [dmLoop, hp]; exact hf
  | succ j ih =>
    cases fuel with
    | zero => omega
    | succ fuel =>
      have stuck : u.dmRound = u → Finished u txt := fun heq => by
        rwa [Function.iterate_fixed heq] at hf
      rw [dmLoop]
      split
      · exact ih hf (by omega)
      · rename_i hp; exact stuck (by rw [State.dmRound, hp])
      · rename_i hp; exact stuck (by rw [State.dmRound, hp])
      · rename_i hp; exact stuck (by rw [State.dmRound, hp])
      · rename_i hp; exact stuck (by rw [State.dmRound, hp])

theorem Finished.out_eq {s u : State} (h : Finished u s.text) : u.Completed ∧ u.regs.outLen = s.regs.txtLen
    ∧ ∀ j, j < s.regs.txtLen.toNat → u.mem.out.read j = s.mem.txt.read j :=
  ⟨h.completed, BitVec.eq_of_toNat_eq (h.outLen.trans s.text_length),
    fun j hj => BitVec.eq_of_toNat_eq (h.outs j _ (s.text_getElem? hj))⟩

theorem execDecDm_of_legal {t : State} (h : t.regs.cwLen.toNat ≤ 4096) :
    exec .decDm t = .next (dmLoop (2 * t.regs.cwLen.toNat + 2) t.dmBegin) := by
  change execDecDm t = _
  rw [execDecDm, if_pos (show decDmLegal t.regs = true from (cwLenLegal_iff _).mpr h)]

theorem EncDone.bytes {s t : State} {e : Enc} {idx : Nat} {row : DmRow} (h : EncDone s t e idx row) :
    Bytes (finalCodewords e row.data) := by
  have hop := s.encBegin_opening
  have hok := hop.ok (i := s.encBegin.encIn)
  have hb := encLoop_bytes (i := s.encBegin.encIn) s.text_lt _ _ hok h.loop hop.bytes
  obtain ⟨hok', hdone, -⟩ := encLoop_emits _ _ hok h.loop
  rw [finalCodewords_of_mode (hok'.done hdone)]
  exact .append (fun c hc => hb c (List.mem_reverse.mp hc)) (bytes_padding _ _)

/-- Settles O45: DEC.DM follows the encoder's main loop round by round. -/
theorem decDmReadsWhatEncDmWrote : Obligations.DecDmReadsWhatEncDmWrote := by
  intro s t hr h hc
  obtain ⟨⟨-, hlen⟩, e, idx, row, hd⟩ := execEncDm_completed h hc
  have hflen := finalCodewords_length e hd.le
  have hread := hd.dmBegin_reading hd.bytes
  have hop := s.encBegin_opening
  have hok := hop.ok (i := s.encBegin.encIn)
  obtain ⟨-, -, cs, hem, -⟩ := encLoop_emits _ _ hok hd.loop
  have hmem : row ∈ tDmSym := by
    have := List.mem_of_getElem? (dmLookup_some hd.lookup).1
    rwa [hr] at this
  have hpos : 0 < (finalCodewords e row.data).length := by rw [hflen]; exact (tDmSym_data_bounds row hmem).1
  have hfin : Within (2 * row.data + 2) t.dmBegin (Finished · s.text) := by
    cases hop with
    | bare mode pos skip new rev no05 no06 =>
      have hlen0 : s.encBegin.enc.len = 0 := congrArg List.length rev
      have hw := hd.written hr hlen (trl := []) (by
        rw [encTotal, skip, Nat.sub_zero]
        exact List.drop_length)
      refine .mono (hw.follow _ hok hd.loop (.inl ⟨.inl mode, .inl ⟨by rw [hlen0]; exact hpos, ?_, rfl, rfl⟩⟩)) ?_
      · rw [hlen0, pos]; exact hread
      · rw [roundsLeft, if_pos mode, hflen]; omega
    | envelope b header hb mode pos skip new rev text =>
      have hlen1 : s.encBegin.enc.len = 1 := congrArg List.length rev
      obtain ⟨-, hhead, htail⟩ := (isMacroText_iff _ _).mp text
      have hw := hd.written hr hlen (trl := macroTrailer) (by rw [encTotal, skip]; exact htail)
      have hword : (finalCodewords e row.data)[0]? = some b := by
        obtain ⟨rest, hrest⟩ := hw.front
        rw [← hrest, hem, rev]
        rfl
      have hset := hread.macroWord rfl rfl hb hword (by decide)
      refine .mono (.round (hw.follow _ hok hd.loop (.inl ⟨.inl mode, ?_⟩))) ?_
      · rw [hlen1, pos]
        change Settled _ _ _ _ (s.text.take 7)
        rw [hhead]
        exact hset
      · rw [roundsLeft, if_pos mode, hflen]; omega
  obtain ⟨-, hle⟩ := hd.small
  refine ⟨_, execDecDm_of_legal (by rw [hd.cwLen]; exact hle), (dmLoop_of_within hfin ?_).out_eq⟩
  rw [hd.cwLen]

end Sys2Proof.Machine
end

section
/-! A run of ENC.DM on pairs of digits (40_tce_datamatrix.md rule R220), and DEC.DM on what it wrote (O44). -/

namespace Sys2Proof.Machine

/-! ### A round of the main loop, computed -/

section
variable {i : EncIn} {e u : Enc}

theorem encLoop_done (h : encMore i e = false) (fuel : Nat) : encLoop i fuel e = .ok (e, true) := by
  cases fuel with
  | zero => rw [encLoop, h]; rfl
  | succ fuel => rw [encLoop, if_neg (by rw [h]; exact Bool.false_ne_true)]

/-- A round that does not overflow CW. -/
theorem encLoop_round (hm : encMore i e = true) (hd : encDispatch i e = .ok u) (ho : encOverflow i u = false) (fuel : Nat) :
    encLoop i (fuel + 1) e = encLoop i fuel (takeNew u) := by
  rw [encLoop, if_pos hm, encRound, hd]
  dsimp only
  rw [ho]
  rfl

theorem encLoop_raises {r : Raise} (hm : encMore i e = true) (hd : encDispatch i e = .error r) (fuel : Nat) :
    encLoop i (fuel + 1) e = .error r := by
  rw [encLoop, if_pos hm, encRound, hd]

theorem encOverflow_of_le (h : u.len ≤ Config.cwSize) : encOverflow i u = false := by
  rw [encOverflow, decide_eq_false (by omega), Bool.false_and]

end

/-! ### Pairs of digits -/

/-- The codewords of pairs of digits. -/
def pairCodewords (ds : List Nat) : List Nat :=
  match ds with
  | c :: d :: rest => (130 + 10 * (c - 48) + (d - 48)) :: pairCodewords rest
  | _ => []

theorem pairCodewords_length (ds : List Nat) : (pairCodewords ds).length = ds.length / 2 := by
  induction ds using pairCodewords.induct with
  | case1 c d rest ih => simp only [pairCodewords, List.length_cons, ih]; omega
  | case2 xs hx =>
    match xs, hx with
    | [], _ => rfl
    | [_], _ => simp [pairCodewords]
    | _ :: _ :: _, hx => exact absurd rfl (hx _ _ _)

theorem pairCodewords_getElem? (ds : List Nat) : ∀ {j c d : Nat}, ds[2 * j]? = some c → ds[2 * j + 1]? = some d →
    (pairCodewords ds)[j]? = some (130 + 10 * (c - 48) + (d - 48)) := by
  induction ds using pairCodewords.induct with
  | case1 a b rest ih =>
    intro j c d hc hd
    cases j with
    | zero => cases hc; cases hd; rfl
    | succ j => exact ih hc hd
  | case2 xs hx =>
    intro j c d hc hd
    match xs, hx with
    | [], _ => cases hc
    | [_], _ => cases j <;> cases hd
    | _ :: _ :: _, hx => exact absurd rfl (hx _ _ _)

/-- The encoder behind the pairs `ds`. -/
def Enc.afterPairs (e : Enc) (ds : List Nat) : Enc :=
  { e with rev := (pairCodewords ds).reverse ++ e.rev, pos := e.pos + ds.length }

theorem asciiStep_pair {i : EncIn} {e : Enc} {c d : Nat} {rest : List Nat} (h : i.txt.drop e.pos = c :: d :: rest)
    (hc : isDigit c = true) (hd : isDigit d = true) : asciiStep i e = e.afterPairs [c, d] := by
  unfold asciiStep
  rw [h]
  exact if_pos (Bool.and_eq_true_iff.mpr ⟨hc, hd⟩)

/-- The pairs in the text take a round each. -/
theorem encLoop_pairs {i : EncIn} {tail : List Nat} (ds : List Nat) : ∀ {e : Enc}, encRest i e = ds ++ tail →
    (∀ c ∈ ds, isDigit c = true) → ds.length % 2 = 0 → e.mode = .ascii → e.new = none →
    e.len + ds.length / 2 ≤ Config.cwSize → ∀ fuel, encLoop i (fuel + ds.length / 2) e = encLoop i fuel (e.afterPairs ds) := by
  induction ds using pairCodewords.induct with
  | case1 c d rest ih =>
    intro e hr hdig heven hmode hnew hfit fuel
    simp only [List.length_cons] at heven hfit
    have hstep := asciiStep_pair (drop_pos_of_rest hr) (hdig c (by simp)) (hdig d (by simp))
    have hdisp : encDispatch i e = .ok (e.afterPairs [c, d]) := by rw [encDispatch, hmode, ← hstep]
    have hlen : (e.afterPairs [c, d]).len = e.len + 1 := rfl
    have hkeep : takeNew (e.afterPairs [c, d]) = e.afterPairs [c, d] := by
      rw [takeNew, show (e.afterPairs [c, d]).new = none from hnew]
    have hrest : encRest i (e.afterPairs [c, d]) = rest ++ tail := by
      rw [encRest_drop (e := e) (t := e.afterPairs [c, d]) (n := 2) rfl rfl, hr]; rfl
    rw [show fuel + (c :: d :: rest).length / 2 = fuel + rest.length / 2 + 1 from by simp only [List.length_cons]; omega,
      encLoop_round ((encMore_iff i e).mpr (by rw [hr]; exact List.cons_ne_nil _ _)) hdisp
        (encOverflow_of_le (by rw [hlen]; omega)), hkeep,
      ih hrest (fun x hx => hdig x (by simp [hx])) (by omega) hmode hnew (by rw [hlen]; omega)]
    congr 1
    simp only [Enc.afterPairs, pairCodewords, List.reverse_cons, List.append_assoc, List.length_cons, List.reverse_nil,
      List.length_nil, List.nil_append, Enc.mk.injEq, and_true, true_and]
    omega
  | case2 xs hx =>
    intro e _ _ heven _ _ _ fuel
    match xs, hx with
    | [], _ => rfl
    | [_], _ => simp at heven
    | _ :: _ :: _, hx => exact absurd rfl (hx _ _ _)

/-- A text of pairs of digits to its end. -/
theorem encLoop_allPairs {i : EncIn} {e : Enc} (hrest : ∀ c ∈ encRest i e, isDigit c = true)
    (heven : (encRest i e).length % 2 = 0) (hmode : e.mode = .ascii) (hnew : e.new = none)
    (hfit : e.len + (encRest i e).length / 2 ≤ Config.cwSize) {fuel : Nat} (hfuel : (encRest i e).length / 2 ≤ fuel) :
    encLoop i fuel e = .ok (e.afterPairs (encRest i e), true) := by
  obtain ⟨k, rfl⟩ := Nat.exists_eq_add_of_le' hfuel
  rw [encLoop_pairs (tail := []) _ (List.append_nil _).symm hrest heven hmode hnew hfit]
  refine encLoop_done ((encMore_eq_false _ _).mpr ?_) k
  rw [encRest_drop (e := e) (t := e.afterPairs (encRest i e)) (n := (encRest i e).length) rfl rfl, List.drop_length]

/-! ### DEC.DM on pairs of digits (O44) -/

/-- Pairs of digits read. -/
theorem Settled.pairs {W trl : List Nat} (htrl : ∀ c ∈ trl, c < 256) (ds : List Nat) : ∀ {u : State} {n : Nat} {out : List Nat},
    Settled W trl u n out → (∀ c ∈ ds, isDigit c = true) → ds.length % 2 = 0 → pairCodewords ds <+: W.drop n →
    n + ds.length / 2 ≤ W.length → out.length + ds.length + trl.length ≤ Config.outSize →
    Within (ds.length / 2) u (Settled W trl · (n + ds.length / 2) (out ++ ds)) := by
  induction ds using pairCodewords.induct with
  | case1 c d rest ih =>
    intro u n out hs hdig heven hcs hle hroom
    simp only [List.length_cons] at heven hle hroom
    rcases hs with ⟨-, hr, hp, hup⟩ | ⟨hn, -⟩
    · have hcs' : [130 + 10 * (c - 48) + (d - 48)] ++ pairCodewords rest <+: W.drop n := hcs
      obtain ⟨hhead, htail⟩ := infix_append hcs'
      have hset := hr.digits hp hup htrl (hdig c (by simp)) (hdig d (by simp)) (infix_getElem (j := 0) hhead rfl) (by omega)
      have hrest := ih hset (fun x hx => hdig x (by simp [hx])) (by omega) htail (by omega)
        (by simp only [List.length_append, List.length_cons, List.length_nil]; omega)
      rw [List.append_assoc] at hrest
      have hcount : (c :: d :: rest).length / 2 = rest.length / 2 + 1 := by simp only [List.length_cons]; omega
      rw [hcount, show n + (rest.length / 2 + 1) = n + 1 + rest.length / 2 from by omega]
      exact .round hrest
    · omega
  | case2 xs hx =>
    intro u n out hs _ heven _ _ _
    match xs, hx with
    | [], _ => rw [List.append_nil]; exact .now hs _
    | [_], _ => simp at heven
    | _ :: _ :: _, hx => exact absurd rfl (hx _ _ _)

theorem isDigit_text {s : State} (h : ∀ j, j < s.regs.txtLen.toNat → 48 ≤ (s.mem.txt.read j).toNat
    ∧ (s.mem.txt.read j).toNat ≤ 57) : ∀ c ∈ s.text, isDigit c = true := by
  intro c hc
  obtain ⟨j, hj⟩ := List.mem_iff_getElem?.mp hc
  have hlt : j < s.regs.txtLen.toNat := by
    rw [← s.text_length]; exact (List.getElem?_eq_some_iff.mp hj).1
  rw [s.text_getElem? hlt] at hj
  cases hj
  exact (isDigit_iff _).mpr (h j hlt)

/-- A text without the separator of the headers is in no envelope. -/
theorem Opening.of_not_mem {s : State} (h : 0x1E ∉ s.text) : s.encBegin.enc.mode = .ascii ∧ s.encBegin.enc.pos = 0
    ∧ s.encBegin.enc.skip = 0 ∧ s.encBegin.enc.new = none ∧ s.encBegin.enc.rev = [] := by
  cases s.encBegin_opening with
  | bare mode pos skip new rev => exact ⟨mode, pos, skip, new, rev⟩
  | envelope b header hb mode pos skip new rev text =>
    obtain ⟨-, hhead, -⟩ := (isMacroText_iff _ _).mp text
    refine absurd (List.mem_of_mem_take (i := 7) ?_) h
    rw [hhead]
    rcases hb with ⟨-, rfl⟩ | ⟨-, rfl⟩ <;> decide

/-- The rest at the start of a text in no envelope is the text. -/
theorem encRest_start {s : State} (hp : s.encBegin.enc.pos = 0) (hs : s.encBegin.enc.skip = 0) :
    encRest s.encBegin.encIn s.encBegin.enc = s.text := by
  rw [encRest, encTotal, hp, hs, List.drop_zero]
  exact List.take_length

/-- The end of DEC.DM behind the last codeword of the text. -/
theorem Settled.finish {W trl : List Nat} {u : State} {n : Nat} {out : List Nat} (h : Settled W trl u n out)
    (hpad : n < W.length → W[n]? = some 129) (htrl : ∀ c ∈ trl, c < 256) (hroom : out.length + trl.length ≤ Config.outSize) :
    Within 1 u (Finished · (out ++ trl)) := by
  rcases h with ⟨hlt, hr, hp, -⟩ | ⟨-, hf⟩
  · exact .round (.now (hr.pad hp htrl (hpad hlt) hroom) 0)
  · exact .now hf 1

/-- Settles O44: the pairs one by one; the empty text is a case of `decDmReadsWhatEncDmWrote`. -/
theorem decDmReadsDigitPairsBack : Obligations.DecDmReadsDigitPairsBack := by
  intro s t k htxt hk hdig h hc
  rw [← htxt] at hdig ⊢
  by_cases hr : s.rom = romDefault
  · exact decDmReadsWhatEncDmWrote s t hr h hc
  have hk1 : 1 ≤ k := hk.resolve_right hr
  obtain ⟨⟨-, hlen⟩, e, idx, row, hd⟩ := execEncDm_completed h hc
  have hdigits := isDigit_text hdig
  have hlength := s.text_length
  have hsize : Config.outSize = 16384 := rfl
  obtain ⟨mode, pos, skip, new, rev⟩ := Opening.of_not_mem (s := s) (fun hx => by
    have := hdigits _ hx
    revert this; decide)
  have hrest := encRest_start pos skip
  have hlen0 : s.encBegin.enc.len = 0 := congrArg List.length rev
  have hl := encLoop_allPairs (fuel := Config.fuelEncDm s.regs.txtLen.toNat) (hrest.symm ▸ hdigits)
    (by rw [hrest, hlength, htxt]; omega) mode new (by rw [hrest, hlength, hlen0]; change _ ≤ 4096; omega)
    (by rw [hrest, hlength, Config.fuelEncDm]; omega)
  rw [hrest] at hl
  obtain rfl : e = s.encBegin.enc.afterPairs s.text := congrArg Prod.fst (Except.ok.inj (hd.loop.symm.trans hl))
  have helen : (s.encBegin.enc.afterPairs s.text).len = s.text.length / 2 := by
    rw [Enc.len, Enc.afterPairs, rev, List.append_nil, List.length_reverse, pairCodewords_length]
  have hle := hd.le
  have hflen := finalCodewords_length _ hle
  have hW : finalCodewords (s.encBegin.enc.afterPairs s.text) row.data
      = pairCodewords s.text ++ padding (s.text.length / 2) row.data := by
    rw [finalCodewords_of_mode (e := s.encBegin.enc.afterPairs s.text) (.inl mode), helen]
    simp only [Enc.afterPairs, rev, List.append_nil, List.reverse_reverse]
  rw [helen] at hle
  have hread := hd.dmBegin_reading hd.bytes
  have hstart : Settled (finalCodewords (s.encBegin.enc.afterPairs s.text) row.data) [] t.dmBegin 0 [] :=
    .inl ⟨by omega, hread, rfl, rfl⟩
  have hpairs := hstart.pairs (List.forall_mem_nil _) s.text hdigits (by omega)
    (by rw [hW, List.drop_zero]; exact List.prefix_append _ _) (by omega)
    (by simp only [List.length_nil]; omega)
  have hfin := hpairs.bind fun v hv => hv.finish (fun hlt => by
    rw [hW, List.getElem?_append_right (by rw [pairCodewords_length]; omega), pairCodewords_length, Nat.zero_add, Nat.sub_self]
    exact padding_zero (by omega)) (List.forall_mem_nil _) (by simp only [List.nil_append, List.length_nil]; omega)
  rw [List.nil_append, List.append_nil] at hfin
  obtain ⟨-, hsmall⟩ := hd.small
  exact ⟨_, execDecDm_of_legal (by rw [hd.cwLen]; exact hsmall), (dmLoop_of_within hfin (by rw [hd.cwLen]; omega)).out_eq⟩

end Sys2Proof.Machine
end

section
/-! ENC.DM on pairs of digits, bare and in an envelope (40_tce_datamatrix.md rule R203 to R205, R220; O37). -/

namespace Sys2Proof.Machine

section
variable {s t : State} {e : Enc} {idx : Nat} {row : DmRow}

/-- A codeword of the completed command. -/
theorem EncDone.cwAt (h : EncDone s t e idx row) {j x : Nat} (hx : (finalCodewords e row.data)[j]? = some x) : t.cwAt j = x := by
  rw [State.cwAt, h.cws j x hx, BitVec.toNat_ofNat]
  exact Nat.mod_eq_of_lt (h.bytes x (List.mem_of_getElem? hx))

/-- A codeword of the main loop. -/
theorem EncDone.cwAt_front (h : EncDone s t e idx row) {j x : Nat} (hx : e.rev.reverse[j]? = some x) : t.cwAt j = x := by
  refine h.cwAt ?_
  rw [finalCodewords, List.getElem?_append_left (List.getElem?_eq_some_iff.mp hx).1, hx]

/-- The padding begins behind the codewords of the main loop, where that ends in ASCII or Base256 mode. -/
theorem EncDone.padded (h : EncDone s t e idx row) (hm : e.mode = .ascii ∨ e.mode = .base256) : t.padded e.len row.data := by
  have pad : ∀ {j x}, e.len ≤ j → (padding e.len row.data)[j - e.len]? = some x → t.cwAt j = x := fun hj hx => by
    refine h.cwAt ?_
    have hlen : e.rev.reverse.length = e.len := List.length_reverse
    rw [finalCodewords_of_mode hm, List.getElem?_append_right (by rw [hlen]; exact hj), hlen, hx]
  exact ⟨fun hlt => pad (Nat.le_refl _) (by rw [Nat.sub_self]; exact padding_zero hlt),
    fun j hj hlt => pad hj.le (padding_succ hj hlt)⟩

theorem EncDone.resMode_of_ascii (h : EncDone s t e idx row) (hm : e.mode = .ascii) : t.regs.resMode = 0 := by
  rw [h.resMode, hm]; rfl

end

/-- The room of the default table's rows. -/
theorem dmLookup_default_le {r : Regs} {n : Nat} {p : Nat × DmRow} (h : dmLookup romDefault r n = some p) : n ≤ 1558 := by
  obtain ⟨hrow, -, hle⟩ := dmLookup_some h
  exact hle.trans (tDmSym_data_bounds _ (List.mem_of_getElem? hrow)).2

/-- ENC.DM on a text whose main loop has only pairs of digits to encode. -/
theorem encDm_pairs {s : State} (hr : s.rom = romDefault) (hshape : s.regs.cfgShape ≠ 3) {ds : List Nat} {idx : Nat} {row : DmRow}
    (htxt : s.regs.txtLen.toNat ≤ 8192) (hrest : encRest s.encBegin.encIn s.encBegin.enc = ds) (hdig : ∀ c ∈ ds, isDigit c = true)
    (heven : ds.length % 2 = 0) (hnew : s.encBegin.enc.new = none)
    (hlookup : dmLookup s.rom s.regs (s.encBegin.enc.len + ds.length / 2) = some (idx, row)) :
    ∃ t, exec .encDm s = .next t ∧ EncDone s t (s.encBegin.enc.afterPairs ds) idx row := by
  have hle : ds.length ≤ s.regs.txtLen.toNat := by
    rw [← hrest, encRest_length, encTotal, ← s.text_length]
    change s.text.length - _ - _ ≤ _
    omega
  have hfit : s.encBegin.enc.len + ds.length / 2 ≤ Config.cwSize :=
    (dmLookup_default_le (hr ▸ hlookup)).trans (by decide)
  have hl := encLoop_allPairs (fuel := Config.fuelEncDm s.regs.txtLen.toNat) (hrest.symm ▸ hdig) (hrest.symm ▸ heven)
    s.encBegin_opening.mode hnew (hrest.symm ▸ hfit) (by rw [hrest, Config.fuelEncDm]; omega)
  rw [hrest] at hl
  refine execEncDm_completes ⟨hshape, htxt⟩ hr hl ?_
  rw [show (s.encBegin.enc.afterPairs ds).len = s.encBegin.enc.len + ds.length / 2 from ?_]
  · exact hlookup
  · rw [Enc.len, Enc.afterPairs, List.length_append, List.length_reverse, pairCodewords_length, Nat.add_comm]
    rfl

/-- What stands in CW behind the first codewords `front`. -/
theorem EncDone.pairs {s t : State} {ds : List Nat} {idx : Nat} {row : DmRow}
    (h : EncDone s t (s.encBegin.enc.afterPairs ds) idx row) (hnew : s.encBegin.enc.mode = .ascii) :
    t.Completed ∧ t.regs.sym.toNat = idx ∧ t.regs.cwLen.toNat = row.data ∧ t.regs.resMode = 0
      ∧ (∀ j x, s.encBegin.enc.rev.reverse[j]? = some x → t.cwAt j = x)
      ∧ (∀ j c d, ds[2 * j]? = some c → ds[2 * j + 1]? = some d →
          t.cwAt (s.encBegin.enc.len + j) = 130 + 10 * (c - 48) + (d - 48))
      ∧ t.padded (s.encBegin.enc.len + ds.length / 2) row.data := by
  have hlen : (s.encBegin.enc.afterPairs ds).len = s.encBegin.enc.len + ds.length / 2 := by
    rw [Enc.len, Enc.afterPairs, List.length_append, List.length_reverse, pairCodewords_length, Nat.add_comm]
    rfl
  have hrev : (s.encBegin.enc.afterPairs ds).rev.reverse = s.encBegin.enc.rev.reverse ++ pairCodewords ds := by
    rw [Enc.afterPairs, List.reverse_append, List.reverse_reverse]
  refine ⟨h.completed, h.sym, h.cwLen, h.resMode_of_ascii hnew, fun j x hx => h.cwAt_front ?_, fun j c d hc hd => h.cwAt_front ?_,
    hlen ▸ h.padded (.inl hnew)⟩
  · rw [hrev, List.getElem?_append_left (List.getElem?_eq_some_iff.mp hx).1, hx]
  · have hl : s.encBegin.enc.rev.reverse.length = s.encBegin.enc.len := List.length_reverse
    rw [hrev, List.getElem?_append_right (by rw [hl]; exact Nat.le_add_right _ _), hl, Nat.add_sub_cancel_left]
    exact pairCodewords_getElem? ds hc hd

/-- The text in an envelope. -/
theorem isMacroText_of_txt {s : State} {k : Nat} {header : List Byte} (hlen : s.regs.txtLen.toNat = 2 * k + 9)
    (hhead : s.mem.txt.take 7 = header) (h1 : s.mem.txt.read (2 * k + 7) = 0x1E) (h2 : s.mem.txt.read (2 * k + 8) = 0x04) :
    isMacroText s.text (header.map BitVec.toNat) = true := by
  have hl := s.text_length
  refine (isMacroText_iff _ _).mpr ⟨by omega, ?_, ?_⟩
  · rw [← hhead]
    refine List.ext_getElem? fun j => ?_
    by_cases hj : j < 7
    · rw [List.getElem?_take_of_lt hj, s.text_getElem? (by omega)]
      simp [Buf.take, hj]
    · rw [List.getElem?_eq_none (by rw [List.length_take]; omega),
        List.getElem?_eq_none (by simp [Buf.take]; omega)]
  · refine List.ext_getElem? fun j => ?_
    rw [List.getElem?_drop, hl, hlen, show 2 * k + 9 - 2 = 2 * k + 7 from by omega]
    match j with
    | 0 => rw [s.text_getElem? (by omega), h1]; rfl
    | 1 => rw [s.text_getElem? (by omega), h2]; rfl
    | j + 2 => rw [List.getElem?_eq_none (by omega)]; rfl

theorem IsEnvelope.unique {a b : Nat} {header : List Nat} (ha : IsEnvelope a header) (hb : IsEnvelope b header) : a = b := by
  rcases ha with ⟨rfl, rfl⟩ | ⟨rfl, rfl⟩ <;> rcases hb with ⟨rfl, hh⟩ | ⟨rfl, hh⟩
  · rfl
  · exact absurd hh (by decide)
  · exact absurd hh (by decide)
  · rfl

/-- A text in the envelope of codeword `m` begins with that codeword. -/
theorem IsEnvelope.opening {s : State} {m : Nat} {header : List Nat} (hm : IsEnvelope m header)
    (htext : isMacroText s.text header = true) : s.encBegin.enc.mode = .ascii ∧ s.encBegin.enc.pos = 7
      ∧ s.encBegin.enc.skip = 2 ∧ s.encBegin.enc.new = none ∧ s.encBegin.enc.rev = [m] := by
  cases s.encBegin_opening with
  | bare mode pos skip new rev no05 no06 =>
    rcases hm with ⟨-, rfl⟩ | ⟨-, rfl⟩
    · rw [htext] at no05; cases no05
    · rw [htext] at no06; cases no06
  | envelope b header' hb mode pos skip new rev text =>
    have hsame := ((isMacroText_iff _ _).mp text).2.1.symm.trans ((isMacroText_iff _ _).mp htext).2.1
    exact ⟨mode, pos, skip, new, by rw [rev, hb.unique (hsame ▸ hm)]⟩

/-- What is left to encode inside an envelope. -/
theorem encRest_envelope {s : State} {k : Nat} (hlen : s.regs.txtLen.toNat = 2 * k + 9) (pos : s.encBegin.enc.pos = 7)
    (skip : s.encBegin.enc.skip = 2) : (encRest s.encBegin.encIn s.encBegin.enc).length = 2 * k
      ∧ ∀ j, j < 2 * k → (encRest s.encBegin.encIn s.encBegin.enc)[j]? = some (s.mem.txt.read (7 + j)).toNat := by
  have hl := s.text_length
  have htotal : encTotal s.encBegin.encIn s.encBegin.enc = 2 * k + 7 := by
    rw [encTotal, skip]; change s.text.length - 2 = _; omega
  refine ⟨by rw [encRest_length, htotal, pos]; omega, fun j hj => ?_⟩
  rw [encRest, htotal, pos, List.getElem?_take_of_lt (by omega), List.getElem?_drop]
  exact s.text_getElem? (by omega)

/-- Settles O37: the main loop takes the pairs one by one from where it begins. -/
theorem encDmEncodesDigitPairs : Obligations.EncDmEncodesDigitPairs := by
  constructor
  · intro s k idx row hr hshape htxt hdig hlookup
    rw [← htxt] at hdig
    have hdigits := isDigit_text hdig
    have hl := s.text_length
    have hk := dmLookup_default_le (hr ▸ hlookup)
    obtain ⟨mode, pos, skip, new, rev⟩ := Opening.of_not_mem (s := s) (fun hx => absurd (hdigits _ hx) (by decide))
    have hlen0 : s.encBegin.enc.len = 0 := congrArg List.length rev
    have hhalf : s.encBegin.enc.len + s.text.length / 2 = k := by rw [hlen0]; omega
    obtain ⟨t, ht, hd⟩ := encDm_pairs hr hshape (by omega) (encRest_start pos skip) hdigits (by omega) new
      (by rw [hhalf]; exact hlookup)
    obtain ⟨hc, hsym, hcw, hmode, -, hpairs, hpad⟩ := hd.pairs mode
    rw [hhalf] at hpad
    refine ⟨t, ht, hc, hsym, hcw, hmode, fun j hj => ?_, hpad⟩
    have := hpairs j _ _ (s.text_getElem? (by omega)) (s.text_getElem? (by omega))
    rwa [hlen0, Nat.zero_add] at this
  · intro s k idx m six row hm hr hshape htxt hhead h1 h2 hdig hlookup
    have hk := dmLookup_default_le (hr ▸ hlookup)
    have henv : IsEnvelope m ([0x5B, 0x29, 0x3E, 0x1E, 0x30, six, 0x1D].map BitVec.toNat) := by
      rcases hm with ⟨rfl, rfl⟩ | ⟨rfl, rfl⟩
      · exact .inl ⟨rfl, rfl⟩
      · exact .inr ⟨rfl, rfl⟩
    obtain ⟨mode, pos, skip, new, rev⟩ := henv.opening (isMacroText_of_txt htxt hhead h1 h2)
    obtain ⟨hrlen, hget⟩ := encRest_envelope htxt pos skip
    have hlen1 : s.encBegin.enc.len = 1 := congrArg List.length rev
    have hdigits : ∀ c ∈ encRest s.encBegin.encIn s.encBegin.enc, isDigit c = true := by
      intro c hc
      obtain ⟨j, hj⟩ := List.mem_iff_getElem?.mp hc
      have hlt := (List.getElem?_eq_some_iff.mp hj).1
      rw [hget j (by omega)] at hj
      cases hj
      exact (isDigit_iff _).mpr (hdig j (by omega))
    have hhalf : s.encBegin.enc.len + (encRest s.encBegin.encIn s.encBegin.enc).length / 2 = k + 1 := by rw [hlen1]; omega
    obtain ⟨t, ht, hd⟩ := encDm_pairs hr hshape (by omega) rfl hdigits (by omega) new (by rw [hhalf]; exact hlookup)
    obtain ⟨hc, hsym, hcw, hmode, hfront, hpairs, hpad⟩ := hd.pairs mode
    rw [hhalf] at hpad
    refine ⟨t, ht, hc, hsym, hcw, hmode, hfront 0 m (by rw [rev]; rfl), fun j hj => ?_, hpad⟩
    have := hpairs j _ _ (hget _ (by omega)) (hget _ (by omega))
    rwa [hlen1, show 7 + (2 * j + 1) = 8 + 2 * j from by omega] at this

end Sys2Proof.Machine
end

section
/-! The lookahead's verdict on a run of characters native to one mode (40_tce_datamatrix.md rule R210 to R215). -/

namespace Sys2Proof.Machine

/-! ### The least cost -/

/-- The cost of a mode. -/
def Costs.at (c : Costs) (m : Mode) : Nat :=
  match m with
  | .ascii => c.ascii
  | .c40 => c.c40
  | .text => c.text
  | .x12 => c.x12
  | .edifact => c.edifact
  | .base256 => c.base256

/-- The six modes. -/
def allModes : List Mode := [.ascii, .c40, .text, .x12, .edifact, .base256]

theorem mem_allModes (m : Mode) : m ∈ allModes := by cases m <;> decide

theorem Costs.at_ceil (c : Costs) (m : Mode) : c.ceil.at m = (c.at m + 11) / 12 := by
  cases m <;> exact ceil12_div _

theorem Costs.at_eq_least {c : Costs} {m : Mode} (h : ∀ n, c.at m ≤ c.at n) : c.at m = c.least := by
  have h0 := h .ascii
  have h1 := h .c40
  have h2 := h .text
  have h3 := h .x12
  have h4 := h .edifact
  have h5 := h .base256
  have hm : c.least ≤ c.at m := by
    cases m <;> simp only [Costs.at, Costs.least] <;> omega
  refine Nat.le_antisymm ?_ hm
  simp only [Costs.at] at h0 h1 h2 h3 h4 h5
  simp only [Costs.least, Nat.le_min]
  exact ⟨h0, h1, h2, h3, h4, h5⟩

/-- The modes at the minimum. -/
theorem Costs.alone_iff (c : Costs) :
    c.alone = true ↔ (allModes.filter (fun m => decide (c.at m = c.least))).length = 1 := by
  rw [Costs.alone, decide_eq_true_eq, ← List.countP_eq_length_filter]
  rfl

/-- Where one mode alone is at the minimum, two modes at the minimum are the same. -/
theorem Costs.alone_unique {c : Costs} (h : c.alone = true) {m n : Mode} (hm : c.at m = c.least) (hn : c.at n = c.least) :
    m = n := by
  obtain ⟨x, hx⟩ := List.length_eq_one_iff.mp (c.alone_iff.mp h)
  have only : ∀ m, c.at m = c.least → m = x := fun m hm => by
    have : m ∈ allModes.filter (fun m => decide (c.at m = c.least)) := List.mem_filter.mpr ⟨mem_allModes m, decide_eq_true hm⟩
    rw [hx] at this
    exact List.mem_singleton.mp this
  rw [only m hm, only n hn]

/-- A mode cheaper than all others is alone at the minimum. -/
theorem Costs.alone_of_lt {c : Costs} {m : Mode} (h : ∀ n, n ≠ m → c.at m < c.at n) :
    c.alone = true ∧ c.at m = c.least ∧ ∀ n, c.at n = c.least → n = m := by
  have hleast : c.at m = c.least := Costs.at_eq_least fun n => by
    by_cases hn : n = m
    · rw [hn]
    · exact (h n hn).le
  have huniq : ∀ n, c.at n = c.least → n = m := fun n hn => by
    by_contra hne
    have := h n hne
    omega
  refine ⟨c.alone_iff.mpr ?_, hleast, huniq⟩
  have hfilter : allModes.filter (fun n => decide (c.at n = c.least)) = allModes.filter (fun n => decide (n = m)) :=
    List.filter_congr fun n _ => decide_eq_decide.mpr ⟨huniq n, fun hn => by rw [hn]; exact hleast⟩
  rw [hfilter]
  cases m <;> rfl

/-! ### The verdicts -/

section
variable {k : Costs} {m : Mode}

/-- The decision in terms of `Costs.at`. -/
theorem laDecide_eq (k : Costs) (rest : List Nat) : laDecide k rest =
    if k.ceil.at .ascii < k.ceil.at .base256 ∧ k.ceil.at .ascii < k.ceil.at .c40 ∧ k.ceil.at .ascii < k.ceil.at .text
      ∧ k.ceil.at .ascii < k.ceil.at .x12 ∧ k.ceil.at .ascii < k.ceil.at .edifact then some .ascii
    else if k.ceil.at .base256 < k.ceil.at .ascii ∨ (k.ceil.at .c40 ≠ k.ceil.least ∧ k.ceil.at .text ≠ k.ceil.least
      ∧ k.ceil.at .x12 ≠ k.ceil.least ∧ k.ceil.at .edifact ≠ k.ceil.least) then some .base256
    else if k.ceil.alone = true ∧ k.ceil.at .edifact = k.ceil.least then some .edifact
    else if k.ceil.alone = true ∧ k.ceil.at .text = k.ceil.least then some .text
    else if k.ceil.alone = true ∧ k.ceil.at .x12 = k.ceil.least then some .x12
    else if k.ceil.at .c40 + 1 < k.ceil.at .ascii ∧ k.ceil.at .c40 + 1 < k.ceil.at .base256
      ∧ k.ceil.at .c40 + 1 < k.ceil.at .edifact ∧ k.ceil.at .c40 + 1 < k.ceil.at .text then
      (if k.ceil.at .c40 < k.ceil.at .x12 then some .c40
       else if k.ceil.at .c40 = k.ceil.at .x12 then some (scanX12 (rest.drop 1))
       else none)
    else none := rfl

theorem laAtEnd_eq (k : Costs) : laAtEnd k =
    if k.ceil.at .ascii = k.ceil.least then .ascii
    else if k.ceil.alone = true ∧ k.ceil.at .base256 = k.ceil.least then .base256
    else if k.ceil.alone = true ∧ k.ceil.at .edifact = k.ceil.least then .edifact
    else if k.ceil.alone = true ∧ k.ceil.at .text = k.ceil.least then .text
    else if k.ceil.alone = true ∧ k.ceil.at .x12 = k.ceil.least then .x12
    else .c40 := rfl

/-- A mode the estimator names where it is alone. -/
def Named (m : Mode) : Prop := m = .text ∨ m = .x12 ∨ m = .edifact

/-- The first two decisions are not taken while a mode but ASCII and Base256 is no dearer than another. -/
theorem laDecide_of_least (hm : m = .c40 ∨ Named m) (hle : ∀ n, k.ceil.at m ≤ k.ceil.at n)
    (hb : k.ceil.at .ascii ≤ k.ceil.at .base256) (rest : List Nat) : laDecide k rest =
      if k.ceil.alone = true ∧ k.ceil.at .edifact = k.ceil.least then some .edifact
      else if k.ceil.alone = true ∧ k.ceil.at .text = k.ceil.least then some .text
      else if k.ceil.alone = true ∧ k.ceil.at .x12 = k.ceil.least then some .x12
      else if k.ceil.at .c40 + 1 < k.ceil.at .ascii ∧ k.ceil.at .c40 + 1 < k.ceil.at .base256
        ∧ k.ceil.at .c40 + 1 < k.ceil.at .edifact ∧ k.ceil.at .c40 + 1 < k.ceil.at .text then
        (if k.ceil.at .c40 < k.ceil.at .x12 then some .c40
         else if k.ceil.at .c40 = k.ceil.at .x12 then some (scanX12 (rest.drop 1))
         else none)
      else none := by
  have hleast := Costs.at_eq_least hle
  have hascii := hle .ascii
  rw [laDecide_eq, if_neg, if_neg]
  · rintro (h | ⟨h1, h2, h3, h4⟩)
    · omega
    · rcases hm with rfl | rfl | rfl | rfl
      exacts [h1 hleast, h2 hleast, h3 hleast, h4 hleast]
  · rintro ⟨-, h1, h2, h3, h4⟩
    rcases hm with rfl | rfl | rfl | rfl <;> omega

/-- While a named mode is no dearer than another, the estimator goes on or names it. -/
theorem laDecide_least (hm : Named m) (hle : ∀ n, k.ceil.at m ≤ k.ceil.at n) (hb : k.ceil.at .ascii ≤ k.ceil.at .base256)
    (hc : k.ceil.at .ascii ≤ k.ceil.at .c40 + 1) (rest : List Nat) :
    laDecide k rest = none ∨ laDecide k rest = some m := by
  have hleast := Costs.at_eq_least hle
  rw [laDecide_of_least (.inr hm) hle hb]
  split
  · rename_i h; exact .inr (congrArg some (Costs.alone_unique h.1 h.2 hleast))
  split
  · rename_i h; exact .inr (congrArg some (Costs.alone_unique h.1 h.2 hleast))
  split
  · rename_i h; exact .inr (congrArg some (Costs.alone_unique h.1 h.2 hleast))
  rw [if_neg (by omega)]
  exact .inl rfl

/-- The estimator names a mode that is alone. -/
theorem laDecide_lone (hm : Named m) (hlt : ∀ n, n ≠ m → k.ceil.at m < k.ceil.at n)
    (hb : k.ceil.at .ascii ≤ k.ceil.at .base256) (rest : List Nat) : laDecide k rest = some m := by
  obtain ⟨ha, hleast, huniq⟩ := Costs.alone_of_lt hlt
  have never : ∀ {n}, n ≠ m → ¬ (k.ceil.alone = true ∧ k.ceil.at n = k.ceil.least) := fun hn h => hn (huniq _ h.2)
  have hle : ∀ n, k.ceil.at m ≤ k.ceil.at n := fun n => by
    by_cases hn : n = m
    · rw [hn]
    · exact (hlt n hn).le
  rw [laDecide_of_least (.inr hm) hle hb]
  rcases hm with rfl | rfl | rfl
  · rw [if_neg (never (by decide)), if_pos ⟨ha, hleast⟩]
  · rw [if_neg (never (by decide)), if_neg (never (by decide)), if_pos ⟨ha, hleast⟩]
  · rw [if_pos ⟨ha, hleast⟩]

/-- While C40 is no dearer than another mode, the estimator goes on or names it. -/
theorem laDecide_c40 (hle : ∀ n, k.ceil.at .c40 ≤ k.ceil.at n) (hb : k.ceil.at .ascii ≤ k.ceil.at .base256) {rest : List Nat}
    (hx : k.ceil.at .c40 < k.ceil.at .x12 ∨ scanX12 (rest.drop 1) = .c40) :
    laDecide k rest = none ∨ laDecide k rest = some .c40 := by
  have hleast := Costs.at_eq_least hle
  have never : ∀ {n}, n ≠ .c40 → ¬ (k.ceil.alone = true ∧ k.ceil.at n = k.ceil.least) := fun hn h =>
    hn (Costs.alone_unique h.1 h.2 hleast)
  rw [laDecide_of_least (.inl rfl) hle hb, if_neg (never (by decide)), if_neg (never (by decide)), if_neg (never (by decide))]
  split
  · split
    · exact .inr rfl
    split
    · exact .inr (congrArg some (hx.resolve_left (by omega)))
    · exact .inl rfl
  · exact .inl rfl

theorem laDecide_base256 (h : k.ceil.at .base256 < k.ceil.at .ascii) (rest : List Nat) : laDecide k rest = some .base256 := by
  rw [laDecide_eq, if_neg (by omega), if_pos (.inl h)]

/-- At the end of the text the verdict is the mode that is alone at the minimum. -/
theorem laAtEnd_lone (hm : m ≠ .ascii) (hlt : ∀ n, n ≠ m → k.ceil.at m < k.ceil.at n) : laAtEnd k = m := by
  obtain ⟨ha, hleast, huniq⟩ := Costs.alone_of_lt hlt
  have never : ∀ {n}, n ≠ m → ¬ (k.ceil.alone = true ∧ k.ceil.at n = k.ceil.least) := fun hn h => hn (huniq _ h.2)
  rw [laAtEnd_eq, if_neg (fun h => hm (huniq .ascii h).symm)]
  cases m with
  | ascii => exact absurd rfl hm
  | base256 => exact if_pos ⟨ha, hleast⟩
  | edifact => rw [if_neg (never (by decide))]; exact if_pos ⟨ha, hleast⟩
  | text => rw [if_neg (never (by decide)), if_neg (never (by decide))]; exact if_pos ⟨ha, hleast⟩
  | x12 =>
    rw [if_neg (never (by decide)), if_neg (never (by decide)), if_neg (never (by decide))]
    exact if_pos ⟨ha, hleast⟩
  | c40 =>
    rw [if_neg (never (by decide)), if_neg (never (by decide)), if_neg (never (by decide)), if_neg (never (by decide))]

/-- Where C40 and X12 are both at the minimum, and ASCII is not, the verdict at the end of the text is C40. -/
theorem laAtEnd_c40 (hle : ∀ n, k.ceil.at .c40 ≤ k.ceil.at n) (hx : k.ceil.at .x12 = k.ceil.at .c40)
    (ha : k.ceil.at .c40 < k.ceil.at .ascii) : laAtEnd k = .c40 := by
  have hleast := Costs.at_eq_least hle
  have hno : ¬ k.ceil.alone = true := fun h => Mode.noConfusion (Costs.alone_unique h hleast (hx.trans hleast))
  rw [laAtEnd_eq, if_neg (by omega), if_neg (fun h => hno h.1), if_neg (fun h => hno h.1), if_neg (fun h => hno h.1),
    if_neg (fun h => hno h.1)]

end

/-! ### The loop -/

/-- The estimator's loop on characters that satisfy `P`, `R k` being what holds of the costs behind `k` of them: the verdict is
`m` if every decision on the way is to go on or `m`, and so is the one at the end of a text of `K` characters or more. -/
theorem laLoop_mode {P : Nat → Prop} {R : Nat → Costs → Prop} {m : Mode} {K : Nat}
    (step : ∀ k cost c rest, P c → (∀ d ∈ rest, P d) → R k cost →
      (R (k + 1) (charge cost c)
        ∧ (4 ≤ k + 1 → laDecide (charge cost c) rest = none ∨ laDecide (charge cost c) rest = some m))
      ∨ (4 ≤ k + 1 ∧ laDecide (charge cost c) rest = some m))
    (fin : ∀ k cost, K ≤ k → R k cost → laAtEnd cost = m) (xs : List Nat) : ∀ k cost, R k cost → (∀ c ∈ xs, P c) →
    K ≤ k + xs.length → (laLoop cost k xs).mode = m := by
  induction xs with
  | nil => exact fun k cost hr _ hk => fin k cost hk hr
  | cons c rest ih =>
    intro k cost hr hp hk
    rw [List.length_cons] at hk
    obtain ⟨hc, hrest⟩ := List.forall_mem_cons.mp hp
    rw [laLoop]
    rcases step k cost c rest hc hrest hr with ⟨hr', hd⟩ | ⟨h4, hd⟩
    · have hgo := ih (k + 1) (charge cost c) hr' hrest (by omega)
      split
      · rename_i h4
        rcases hd h4 with hd | hd <;> rw [hd]
        · exact hgo
      · exact hgo
    · rw [if_pos h4, hd]

theorem lookahead_mode {xs : List Nat} {cur m : Mode} (h : xs ≠ []) (hl : (laLoop (laInit cur) 0 xs).mode = m)
    (hg : laGuard xs m = m) (cost : Costs) (k : Nat) : (lookahead xs cur cost k).mode = m := by
  obtain ⟨c, rest, rfl⟩ := List.exists_cons_of_ne_nil h
  rw [lookahead]
  dsimp only
  rw [hl, hg]

/-- The charge of a character that is neither a digit nor extended. -/
theorem charge_plain {c : Nat} (hd : isDigit c = false) (hx : isExt c = false) (k : Costs) :
    (charge k c).at .ascii = ceil12 (k.at .ascii) + 12 ∧ (charge k c).at .base256 = k.at .base256 + 12 := by
  refine ⟨?_, rfl⟩
  simp only [charge, hd, hx, Costs.at, Bool.false_eq_true, if_false]

/-- A character native to the mode `m`, which costs `d` twelfths of a codeword there and `d'` or more in the modes but ASCII and
Base256. -/
structure NativeTo (m : Mode) (d d' : Nat) (c : Nat) : Prop where
  digit : isDigit c = false
  ext : isExt c = false
  self : ∀ k : Costs, (charge k c).at m = k.at m + d
  other : ∀ k : Costs, ∀ n, n ≠ .ascii → n ≠ .base256 → n ≠ m → k.at n + d' ≤ (charge k c).at n

/-- The costs behind `j` characters native to `m`, which started from `a` for ASCII, `b` for Base256, `z` for `m` and `o` for the
others. -/
structure NativeCosts (m : Mode) (d d' a b z o j : Nat) (k : Costs) : Prop where
  ascii : k.at .ascii = 12 * a + 12 * j
  base256 : k.at .base256 = b + 12 * j
  self : k.at m = z + d * j
  other : ∀ n, n ≠ .ascii → n ≠ .base256 → n ≠ m → o + d' * j ≤ k.at n

theorem NativeCosts.charge {m : Mode} {d d' a b z o j c : Nat} {k : Costs} (h : NativeCosts m d d' a b z o j k)
    (hc : NativeTo m d d' c) : NativeCosts m d d' a b z o (j + 1) (charge k c) := by
  obtain ⟨ha, hb⟩ := charge_plain hc.digit hc.ext k
  refine ⟨?_, ?_, ?_, fun n h1 h2 h3 => ?_⟩
  · rw [ha, h.ascii, ceil12]; omega
  · rw [hb, h.base256]; omega
  · rw [hc.self, h.self, Nat.mul_add]; omega
  · have := hc.other k n h1 h2 h3
    have := h.other n h1 h2 h3
    rw [Nat.mul_add]; omega

theorem NativeTo.mono {m : Mode} {d d' c : Nat} (h : NativeTo m d (d' + 1) c) : NativeTo m d d' c :=
  ⟨h.digit, h.ext, h.self, fun k n h1 h2 h3 => by have := h.other k n h1 h2 h3; omega⟩

/-- What the modes but ASCII and Base256 cost at the start, from another mode. -/
theorem laInit_other {m n : Mode} (hm : m ≠ .ascii) (h1 : n ≠ .ascii) (h2 : n ≠ .base256) (h3 : n ≠ m) :
    (laInit m).at n = 24 := by
  cases m <;> cases n <;> simp_all [laInit, Costs.clear, Costs.at]

theorem laInit_ascii_other {n : Mode} (h1 : n ≠ .ascii) (h2 : n ≠ .base256) : (laInit .ascii).at n = 12 := by
  cases n with
  | ascii => exact absurd rfl h1
  | base256 => exact absurd rfl h2
  | _ => rfl

/-- In the mode the text is native to, the verdict is to stay. -/
theorem lookahead_stays {m : Mode} {d : Nat} (hm : m = .c40 ∨ Named m) (hd : d ≤ 12) {xs : List Nat}
    (h : ∀ c ∈ xs, NativeTo m d d c) (hg : laGuard xs m = m) (cost : Costs) (k : Nat) : (lookahead xs m cost k).mode = m := by
  by_cases hne : xs = []
  · rw [hne]; rfl
  have hinit : NativeCosts m d d 1 27 0 24 0 (laInit m) := by
    rcases hm with rfl | rfl | rfl | rfl <;> exact ⟨rfl, rfl, rfl, fun n h1 h2 h3 => (laInit_other (by decide) h1 h2 h3).ge⟩
  have hdj : ∀ j, d * j ≤ 12 * j := fun j => Nat.mul_le_mul_right j hd
  have lone : ∀ {j k}, NativeCosts m d d 1 27 0 24 j k → ∀ n, n ≠ m → k.ceil.at m < k.ceil.at n := by
    intro j k hk n hn
    have := hdj j
    rw [Costs.at_ceil, Costs.at_ceil, hk.self]
    by_cases h1 : n = .ascii
    · rw [h1, hk.ascii]; omega
    by_cases h2 : n = .base256
    · rw [h2, hk.base256]; omega
    · have := hk.other n h1 h2 hn
      omega
  have base : ∀ {j k}, NativeCosts m d d 1 27 0 24 j k → k.ceil.at .ascii ≤ k.ceil.at .base256 := by
    intro j k hk
    rw [Costs.at_ceil, Costs.at_ceil, hk.ascii, hk.base256]; omega
  refine lookahead_mode hne (laLoop_mode (P := NativeTo m d d) (R := NativeCosts m d d 1 27 0 24) (K := 0) ?_ ?_ xs 0 _ hinit h
    (Nat.zero_le _)) hg cost k
  · intro j k c rest hc _ hk
    refine .inl ⟨hk.charge hc, fun _ => ?_⟩
    rcases hm with rfl | hm
    · refine laDecide_c40 (fun n => ?_) (base (hk.charge hc)) (.inl (lone (hk.charge hc) _ (by decide)))
      by_cases hn : n = .c40
      · rw [hn]
      · exact (lone (hk.charge hc) n hn).le
    · exact .inr (laDecide_lone hm (lone (hk.charge hc)) (base (hk.charge hc)) rest)
  · exact fun j k _ hk => laAtEnd_lone (by rcases hm with rfl | rfl | rfl | rfl <;> decide) (lone hk)

/-- From ASCII mode the verdict is the named mode the text is native to, once `K` characters stand there. -/
theorem lookahead_leaves {m : Mode} {d K : Nat} (hm : Named m) (hd : d = 8 ∧ K = 6 ∨ d = 9 ∧ K = 8) {xs : List Nat}
    (h : ∀ c ∈ xs, NativeTo m d (d + 1) c) (hlen : K ≤ xs.length) (hg : laGuard xs m = m) (cost : Costs) (k : Nat) :
    (lookahead xs .ascii cost k).mode = m := by
  have hne : xs ≠ [] := fun hx => by rw [hx, List.length_nil] at hlen; omega
  have hinit : NativeCosts m d (d + 1) 0 15 12 12 0 (laInit .ascii) := by
    refine ⟨rfl, rfl, ?_, fun n h1 h2 _ => ?_⟩
    · rcases hm with rfl | rfl | rfl <;> rfl
    · exact (laInit_ascii_other h1 h2).ge
  refine lookahead_mode hne (laLoop_mode (P := NativeTo m d (d + 1))
    (R := fun j k => j < K ∧ NativeCosts m d (d + 1) 0 15 12 12 j k) (K := K) ?_ ?_ xs 0 _ ⟨by omega, hinit⟩ h (by omega)) hg cost k
  · rintro j k c rest hc - ⟨hj, hk⟩
    have hk' := hk.charge hc
    have hother := hk'.other
    have hb : (Machine.charge k c).ceil.at .ascii ≤ (Machine.charge k c).ceil.at .base256 := by
      rw [Costs.at_ceil, Costs.at_ceil, hk'.ascii, hk'.base256]; omega
    by_cases hlast : j + 1 = K
    · refine .inr ⟨by omega, laDecide_lone hm (fun n hn => ?_) hb rest⟩
      rw [Costs.at_ceil, Costs.at_ceil, hk'.self]
      by_cases h1 : n = .ascii
      · rw [h1, hk'.ascii]; rcases hd with ⟨rfl, rfl⟩ | ⟨rfl, rfl⟩ <;> omega
      by_cases h2 : n = .base256
      · rw [h2, hk'.base256]; rcases hd with ⟨rfl, rfl⟩ | ⟨rfl, rfl⟩ <;> omega
      · have := hother n h1 h2 hn
        rcases hd with ⟨rfl, rfl⟩ | ⟨rfl, rfl⟩ <;> omega
    · refine .inl ⟨⟨by omega, hk'⟩, fun h4 => laDecide_least hm (fun n => ?_) hb ?_ rest⟩
      · rw [Costs.at_ceil, Costs.at_ceil, hk'.self]
        by_cases h0 : n = m
        · rw [h0, hk'.self]
        by_cases h1 : n = .ascii
        · rw [h1, hk'.ascii]; rcases hd with ⟨rfl, rfl⟩ | ⟨rfl, rfl⟩ <;> omega
        by_cases h2 : n = .base256
        · rw [h2, hk'.base256]; rcases hd with ⟨rfl, rfl⟩ | ⟨rfl, rfl⟩ <;> omega
        · have := hother n h1 h2 h0
          rcases hd with ⟨rfl, rfl⟩ | ⟨rfl, rfl⟩ <;> omega
      · have := hother .c40 (by decide) (by decide) (by rcases hm with rfl | rfl | rfl <;> decide)
        rw [Costs.at_ceil, Costs.at_ceil, hk'.ascii]
        rcases hd with ⟨rfl, rfl⟩ | ⟨rfl, rfl⟩ <;> omega
  · rintro j k hj ⟨hlt, -⟩
    omega

/-- Characters native to C40 and X12 that are no separators: the scan of their tie is for C40. -/
theorem scanX12_of_upper {xs : List Nat} (h : ∀ c ∈ xs, 65 ≤ c ∧ c ≤ 90) : scanX12 xs = .c40 := by
  induction xs with
  | nil => rfl
  | cons c rest ih =>
    obtain ⟨hc, hrest⟩ := List.forall_mem_cons.mp h
    have hsep : x12Sep c = false := by
      simp only [x12Sep, Bool.or_eq_false_iff, decide_eq_false_iff_not]; omega
    rw [scanX12, hsep, if_neg Bool.false_ne_true, ih hrest, ite_self]

/-! ### The classes of characters -/

/-- What a character below 128 is charged in the modes but ASCII. -/
def plainCharge (c : Nat) (n : Mode) : Nat :=
  match n with
  | .c40 => if natC40 c = true then 8 else 16
  | .text => if natText c = true then 8 else 16
  | .x12 => if natX12 c = true then 8 else 40
  | .edifact => if natEdf c = true then 9 else 39
  | .ascii | .base256 => 12

theorem charge_at {c : Nat} (hx : isExt c = false) (k : Costs) {n : Mode} (hn : n ≠ .ascii) :
    (charge k c).at n = k.at n + plainCharge c n := by
  cases n with
  | ascii => exact absurd rfl hn
  | base256 => rfl
  | c40 | text | x12 | edifact => simp only [charge, chargeBy, hx, Costs.at, plainCharge, Bool.false_eq_true, if_false]

theorem NativeTo.of_charge {m : Mode} {d d' c : Nat} (hlt : c < 128) (hdig : ¬ (48 ≤ c ∧ c ≤ 57)) (hm : m ≠ .ascii)
    (hself : plainCharge c m = d) (hother : ∀ n, n ≠ .ascii → n ≠ .base256 → n ≠ m → d' ≤ plainCharge c n) :
    NativeTo m d d' c := by
  have hext : isExt c = false := decide_eq_false (by omega)
  refine ⟨Bool.eq_false_iff.mpr fun h => hdig ((isDigit_iff c).mp h), hext, fun k => ?_, fun k n h1 h2 h3 => ?_⟩
  · rw [charge_at hext k hm, hself]
  · rw [charge_at hext k h1]
    exact Nat.add_le_add_left (hother n h1 h2 h3) _

/-- The classes of an upper-case letter. -/
theorem native_of_upper {c : Nat} (h : 65 ≤ c ∧ c ≤ 90) :
    natC40 c = true ∧ natText c = false ∧ natX12 c = true ∧ natEdf c = true := by
  simp only [natC40, natText, natX12, natEdf, x12Sep, isDigit, isUpper, isLower, Bool.or_eq_false_iff, Bool.and_eq_false_iff,
    decide_eq_false_iff_not, Bool.or_eq_true, Bool.and_eq_true, decide_eq_true_eq]
  omega

/-- The classes of a lower-case letter. -/
theorem native_of_lower {c : Nat} (h : 97 ≤ c ∧ c ≤ 122) :
    natC40 c = false ∧ natText c = true ∧ natX12 c = false ∧ natEdf c = false := by
  simp only [natC40, natText, natX12, natEdf, x12Sep, isDigit, isUpper, isLower, Bool.or_eq_false_iff, Bool.and_eq_false_iff,
    decide_eq_false_iff_not, Bool.or_eq_true, Bool.and_eq_true, decide_eq_true_eq]
  omega

/-- The classes of an X12 separator. -/
theorem native_of_sep {c : Nat} (h : c = 13 ∨ c = 42 ∨ c = 62) : natC40 c = false ∧ natText c = false ∧ natX12 c = true := by
  simp only [natC40, natText, natX12, x12Sep, isDigit, isUpper, isLower, Bool.or_eq_false_iff, Bool.and_eq_false_iff,
    decide_eq_false_iff_not, Bool.or_eq_true, Bool.and_eq_true, decide_eq_true_eq]
  omega

/-- A character native to EDIFACT and to no other mode. -/
def OnlyEdf (c : Nat) : Prop := (33 ≤ c ∧ c ≤ 47 ∧ c ≠ 42) ∨ (58 ≤ c ∧ c ≤ 64 ∧ c ≠ 62) ∨ (91 ≤ c ∧ c ≤ 94)

theorem native_of_onlyEdf {c : Nat} (h : OnlyEdf c) :
    natC40 c = false ∧ natText c = false ∧ natX12 c = false ∧ natEdf c = true := by
  unfold OnlyEdf at h
  simp only [natC40, natText, natX12, natEdf, x12Sep, isDigit, isUpper, isLower, Bool.or_eq_false_iff, Bool.and_eq_false_iff,
    decide_eq_false_iff_not, Bool.and_eq_true, decide_eq_true_eq]
  omega

theorem nativeTo_c40 {c : Nat} (h : 65 ≤ c ∧ c ≤ 90) : NativeTo .c40 8 8 c := by
  obtain ⟨h1, h2, h3, h4⟩ := native_of_upper h
  refine .of_charge (by omega) (by omega) (by decide) (if_pos h1) fun n _ _ _ => ?_
  cases n <;> simp [plainCharge, h1, h2, h3, h4]

theorem charge_x12_of_upper {c : Nat} (h : 65 ≤ c ∧ c ≤ 90) (k : Costs) : (charge k c).at .x12 = k.at .x12 + 8 := by
  rw [charge_at (decide_eq_false (by omega)) k (by decide)]
  exact congrArg _ (if_pos (native_of_upper h).2.2.1)

theorem nativeTo_text {c : Nat} (h : 97 ≤ c ∧ c ≤ 122) : NativeTo .text 8 9 c := by
  obtain ⟨h1, h2, h3, h4⟩ := native_of_lower h
  refine .of_charge (by omega) (by omega) (by decide) (if_pos h2) fun n _ _ hn => ?_
  cases n with
  | text => exact absurd rfl hn
  | _ => simp [plainCharge, h1, h3, h4]

theorem nativeTo_x12 {c : Nat} (h : c = 13 ∨ c = 42 ∨ c = 62) : NativeTo .x12 8 9 c := by
  obtain ⟨h1, h2, h3⟩ := native_of_sep h
  refine .of_charge (by omega) (by omega) (by decide) (if_pos h3) fun n _ _ hn => ?_
  cases n with
  | x12 => exact absurd rfl hn
  | edifact => rw [plainCharge]; split <;> decide
  | _ => simp [plainCharge, h1, h2]

theorem nativeTo_edifact {c : Nat} (h : OnlyEdf c) : NativeTo .edifact 9 10 c := by
  obtain ⟨h1, h2, h3, h4⟩ := native_of_onlyEdf h
  unfold OnlyEdf at h
  refine .of_charge (by omega) (by omega) (by decide) (if_pos h4) fun n _ _ hn => ?_
  cases n with
  | edifact => exact absurd rfl hn
  | _ => simp [plainCharge, h1, h2, h3]

/-- From ASCII mode the verdict on six upper-case letters or more is C40. -/
theorem lookahead_upper {xs : List Nat} (h : ∀ c ∈ xs, 65 ≤ c ∧ c ≤ 90) (hlen : 6 ≤ xs.length) (cost : Costs) (k : Nat) :
    (lookahead xs .ascii cost k).mode = .c40 := by
  have hne : xs ≠ [] := fun hx => by rw [hx, List.length_nil] at hlen; omega
  have hinit : NativeCosts .c40 8 8 0 15 12 12 0 (laInit .ascii) :=
    ⟨rfl, rfl, rfl, fun n h1 h2 _ => (laInit_ascii_other h1 h2).ge⟩
  have least : ∀ {j k}, 4 ≤ j → NativeCosts .c40 8 8 0 15 12 12 j k → ∀ n, k.ceil.at .c40 ≤ k.ceil.at n := by
    intro j k hj hk n
    rw [Costs.at_ceil, Costs.at_ceil, hk.self]
    by_cases h0 : n = .c40
    · rw [h0, hk.self]
    by_cases h1 : n = .ascii
    · rw [h1, hk.ascii]; omega
    by_cases h2 : n = .base256
    · rw [h2, hk.base256]; omega
    · have := hk.other n h1 h2 h0; omega
  refine lookahead_mode hne (laLoop_mode (P := fun c => 65 ≤ c ∧ c ≤ 90)
    (R := fun j k => NativeCosts .c40 8 8 0 15 12 12 j k ∧ k.at .x12 = k.at .c40) (K := 6) ?_ ?_ xs 0 _ ⟨hinit, rfl⟩ h
    (by omega)) rfl cost k
  · rintro j k c rest hc hrest ⟨hk, hx⟩
    have hk' := hk.charge (nativeTo_c40 hc)
    refine .inl ⟨⟨hk', ?_⟩, fun h4 => laDecide_c40 (least h4 hk') ?_ (.inr (scanX12_of_upper fun d hd =>
      hrest d (List.mem_of_mem_drop hd)))⟩
    · rw [(nativeTo_c40 hc).self, ← hx]
      exact charge_x12_of_upper hc k
    · rw [Costs.at_ceil, Costs.at_ceil, hk'.ascii, hk'.base256]; omega
  · rintro j k hj ⟨hk, hx⟩
    refine laAtEnd_c40 (least (by omega) hk) ?_ ?_
    · rw [Costs.at_ceil, Costs.at_ceil, hx]
    · rw [Costs.at_ceil, Costs.at_ceil, hk.self, hk.ascii]; omega

/-! ### Extended bytes -/

/-- The costs behind `j` extended bytes, which started from `12 * a` for ASCII, `b` for Base256 and `o` for the others. -/
structure ExtCosts (a b o j : Nat) (k : Costs) : Prop where
  ascii : k.at .ascii = 12 * a + 24 * j
  base256 : k.at .base256 = b + 12 * j
  other : ∀ n, n ≠ .ascii → n ≠ .base256 → o + 32 * j ≤ k.at n

theorem ExtCosts.charge {a b o j c : Nat} {k : Costs} (h : ExtCosts a b o j k) (hc : 128 ≤ c) :
    ExtCosts a b o (j + 1) (charge k c) := by
  have hdig : isDigit c = false := by simp only [isDigit, Bool.and_eq_false_iff, decide_eq_false_iff_not]; omega
  have hext : isExt c = true := decide_eq_true hc
  refine ⟨?_, ?_, fun n h1 h2 => ?_⟩
  · have hascii : (Machine.charge k c).at .ascii = ceil12 (k.at .ascii) + 24 := by
      simp only [Machine.charge, hdig, hext, Costs.at, Bool.false_eq_true, if_false, if_true]
    rw [hascii, h.ascii, ceil12]; omega
  · have := h.base256
    change k.base256 + 12 = _
    change k.base256 = _ at this
    omega
  · have hn := h.other n h1 h2
    obtain ⟨hc40, htext, hx12, hedf⟩ : natC40 c = false ∧ natText c = false ∧ natX12 c = false ∧ natEdf c = false := by
      simp only [natC40, natText, natX12, natEdf, x12Sep, isDigit, isUpper, isLower, Bool.or_eq_false_iff, Bool.and_eq_false_iff,
        decide_eq_false_iff_not]
      omega
    cases n with
    | ascii => exact absurd rfl h1
    | base256 => exact absurd rfl h2
    | c40 | text | x12 | edifact =>
      simp only [Machine.charge, chargeBy, hc40, htext, hx12, hedf, hext, Costs.at, Bool.false_eq_true, if_false, if_true] at hn ⊢
      omega

/-- On extended bytes the verdict is Base256: from ASCII mode where there are three or more, and in Base256 mode. -/
theorem lookahead_ext {xs : List Nat} (h : ∀ c ∈ xs, 128 ≤ c) {cur : Mode} (hcur : cur = .ascii ∧ 3 ≤ xs.length ∨ cur = .base256)
    (cost : Costs) (k : Nat) : (lookahead xs cur cost k).mode = .base256 := by
  have go : ∀ {a b o K : Nat}, (a = 0 ∧ b = 15 ∧ o = 12 ∧ K = 3 ∨ a = 1 ∧ b = 0 ∧ o = 24 ∧ K = 1) → K ≤ xs.length →
      ExtCosts a b o 0 (laInit cur) → (lookahead xs cur cost k).mode = .base256 := by
    intro a b o K hK hlen hinit
    have hne : xs ≠ [] := fun hx => by rw [hx, List.length_nil] at hlen; omega
    have dear : ∀ {j k}, K ≤ j → ExtCosts a b o j k → k.ceil.at .base256 < k.ceil.at .ascii := by
      intro j k hj hk
      rw [Costs.at_ceil, Costs.at_ceil, hk.base256, hk.ascii]; omega
    refine lookahead_mode hne (laLoop_mode (P := fun c => 128 ≤ c) (R := ExtCosts a b o) (K := K) ?_ ?_ xs 0 _ hinit h (by omega))
      rfl cost k
    · exact fun j k c rest hc _ hk =>
        .inl ⟨hk.charge hc, fun h4 => .inr (laDecide_base256 (dear (by omega) (hk.charge hc)) rest)⟩
    · intro j k hj hk
      refine laAtEnd_lone (by decide) fun n hn => ?_
      by_cases h1 : n = .ascii
      · rw [h1]; exact dear hj hk
      · have := hk.other n h1 hn
        rw [Costs.at_ceil, Costs.at_ceil, hk.base256]; omega
  rcases hcur with ⟨rfl, hlen⟩ | rfl
  · exact go (.inl ⟨rfl, rfl, rfl, rfl⟩) hlen ⟨rfl, rfl, fun n h1 h2 => (laInit_ascii_other h1 h2).ge⟩
  · by_cases hne : xs = []
    · rw [hne]; rfl
    · exact go (.inr ⟨rfl, rfl, rfl, rfl⟩) (List.length_pos_iff.mpr hne)
        ⟨rfl, rfl, fun n h1 h2 => (laInit_other (by decide) h1 h2 h2).ge⟩

end Sys2Proof.Machine
end

section
/-! A run of ENC.DM on a text native to one mode: the latch, the run and its end (40_tce_datamatrix.md rule R220 to R262). -/

namespace Sys2Proof.Machine

/-! ### The latch -/

/-- The encoder that has latched the mode `m` by the verdict `v`. -/
def Enc.latched (e : Enc) (v : La) (m : Mode) : Enc := { (e.looked v).emit (latch m) with mode := m, new := none }

section
variable {i : EncIn} {e t u : Enc}

theorem asciiStep_latch {c : Nat} {rest : List Nat} {m : Mode} (h : i.txt.drop e.pos = c :: rest) (hd : isDigit c = false)
    (hv : (encLook i e .ascii).mode = m) (hm : m ≠ .ascii) : takeNew (asciiStep i e) = e.latched (encLook i e .ascii) m := by
  subst hv
  unfold asciiStep
  rw [h]
  dsimp only
  rw [hd, Bool.false_and, if_neg Bool.false_ne_true, if_pos hm]
  rfl

/-- A text whose first verdict is the mode `m`: the latch takes a round. -/
theorem encLoop_latch {m : Mode} (hr : i.rom = romDefault) (hrest : encRest i e ≠ [])
    (hdig : ∀ c ∈ i.txt.drop e.pos, isDigit c = false)
    (hmode : e.mode = .ascii) (hv : (encLook i e .ascii).mode = m) (hm : m ≠ .ascii) (fuel : Nat) :
    encLoop i (fuel + 1) e = encLoop i fuel (e.latched (encLook i e .ascii) m) := by
  obtain ⟨c, rest, hc⟩ := List.exists_cons_of_ne_nil hrest
  have hdrop := drop_pos_of_rest hc
  rw [encLoop_round (u := asciiStep i e) ((encMore_iff i e).mpr hrest) (by rw [encDispatch, hmode]) (encOverflow_default hr _),
    asciiStep_latch hdrop (hdig c (by rw [hdrop]; exact List.mem_cons_self)) hv hm]

theorem dmLookup_default_data_le {r : Regs} {n : Nat} {p : Nat × DmRow} (h : dmLookup romDefault r n = some p) :
    p.2.data ≤ 1558 :=
  (tDmSym_data_bounds _ (List.mem_of_getElem? (dmLookup_some h).1)).2

/-! ### C40 and Text -/

/-- The loop on characters of one value each, whole triplets of them, that the lookahead stays with. -/
theorem c40Loop_run {m : Mode} {val : Nat → Nat} (chars : List Nat) : ∀ {t : Enc}, chars ≠ [] → i.txt.drop t.pos = chars →
    (∀ c ∈ chars, c40TextValues m c = [val c]) →
    (∀ ys cost k, ys <:+ chars → (lookahead ys m cost k).mode = m) → t.vb.length + chars.length ≤ Config.vbSize →
    (t.vb.length + chars.length) % 3 = 0 →
    ∃ u, c40Loop i m t chars = .ok u ∧ u.vb = t.vb ++ chars.map val ∧ u.pos = t.pos + chars.length ∧ u.rev = t.rev
      ∧ u.skip = t.skip := by
  induction chars with
  | nil => exact fun h => absurd rfl h
  | cons c rest ih =>
    intro t _ hdrop hval hstay hfit hthree
    rw [List.length_cons] at hfit hthree
    have hdrop' : i.txt.drop (t.pos + 1) = rest := by rw [← List.drop_drop, hdrop]; rfl
    have hlen : (t.vb ++ [val c]).length = t.vb.length + 1 := by rw [List.length_append, List.length_singleton]
    have hsplit : ∀ {v : List Nat}, v = (t.vb ++ [val c]) ++ rest.map val → v = t.vb ++ (c :: rest).map val := fun h => by
      rw [h, List.append_assoc]; rfl
    rw [c40Loop, hval c (by simp)]
    dsimp only
    rw [if_neg (by rw [hlen]; omega)]
    by_cases hrest : rest = []
    · subst hrest
      rw [List.length_nil] at hthree
      have hback : ∀ x : Enc, x.vb.length % 3 = 0 → c40BackTwo i x = .ok x ∧ ∀ n, c40BackOne i n x = .ok x := fun x hx =>
        ⟨if_neg (by omega), fun n => by
          cases n with
          | zero => rfl
          | succ n => exact if_neg (by omega)⟩
      refine ⟨{ t with pos := t.pos + 1, vb := t.vb ++ [val c], sz := 1 :: t.sz }, ?_, hsplit (by simp), rfl, rfl, rfl⟩
      rw [if_pos (by rfl)]
      have := hback { t with pos := t.pos + 1, vb := t.vb ++ [val c], sz := 1 :: t.sz }
        (by change (t.vb ++ [val c]).length % 3 = 0; rw [hlen]; omega)
      rw [List.length_singleton, this.1]
      exact this.2 _
    · rw [if_neg (by simpa using hrest)]
      have next : ∀ x : Enc, x.pos = t.pos + 1 → x.vb = t.vb ++ [val c] → x.rev = t.rev → x.skip = t.skip →
          ∃ u, c40Loop i m x rest = .ok u ∧ u.vb = t.vb ++ (c :: rest).map val ∧ u.pos = t.pos + (rest.length + 1)
            ∧ u.rev = t.rev ∧ u.skip = t.skip := by
        intro x hpos hvb hrev hskip
        obtain ⟨u, h1, h2, h3, h4, h5⟩ := ih (t := x) hrest (by rw [hpos]; exact hdrop') (fun d hd => hval d (by simp [hd]))
          (fun ys cost k h => hstay ys cost k (h.trans (List.suffix_cons c rest))) (by rw [hvb, hlen]; omega)
          (by rw [hvb, hlen]; omega)
        exact ⟨u, h1, hsplit (by rw [h2, hvb]), by rw [h3, hpos]; omega, h4.trans hrev, h5.trans hskip⟩
      split
      · split
        · rename_i hne
          refine absurd ?_ hne
          rw [encLook]
          change (lookahead (i.txt.drop (t.pos + 1)) _ _ _).mode = m
          rw [hdrop']
          exact hstay rest _ _ (List.suffix_cons c rest)
        · exact next _ rfl rfl rfl rfl
      · exact next _ rfl rfl rfl rfl

/-- What a capacity query of the default table answers. -/
theorem capFor_eq (hr : i.rom = romDefault) (e : Enc) (n : Nat) :
    (dmLookup i.rom i.regs n = none → capFor i e n = .error (capacityErr e))
      ∧ ∀ p, dmLookup i.rom i.regs n = some p → capFor i e n = .ok p.2.data := by
  rw [hr]
  exact ⟨capFor_of_none hr e, fun p => capFor_of_some hr e⟩

/-- The unlatch of C40, Text and X12 behind `n` codewords, where the symbol has room for it. -/
def unlatchFor (n cap : Nat) : List Nat := if n < cap then [254] else []

/-- A run that takes the whole text: it emits `body` and, for the row with room for that, `closing` of its capacity, and ASCII
mode is next; or no row has room for `body`. -/
def EndsRun (i : EncIn) (e : Enc) (body : List Nat) (closing : Nat → Nat → List Nat) (r : Except Raise Enc) : Prop :=
  (dmLookup i.rom i.regs (e.len + body.length) = none → r = .error ⟨.capacityExceeded, i.txt.length⟩)
    ∧ ∀ p, dmLookup i.rom i.regs (e.len + body.length) = some p → ∃ u, r = .ok u ∧ u.new = some .ascii ∧ u.pos = i.txt.length
      ∧ e.Emits u (body ++ closing (e.len + body.length) p.2.data)

/-- The end of the text behind `t`. -/
theorem encMore_at_end {t : Enc} (h : t.pos = i.txt.length) : encMore i t = false :=
  decide_eq_false (by rw [encTotal, h]; omega)

theorem c40Run_native {m : Mode} {val : Nat → Nat} (hr : i.rom = romDefault) (hpos : e.pos = 0) (hskip : e.skip = 0)
    (hne : i.txt ≠ []) (hval : ∀ c ∈ i.txt, c40TextValues m c = [val c])
    (hstay : ∀ ys cost k, ys <:+ i.txt → (lookahead ys m cost k).mode = m) (hfit : i.txt.length ≤ Config.vbSize)
    (hthree : i.txt.length % 3 = 0) : EndsRun i e (tripletCodewords (i.txt.map val)) unlatchFor (c40Run i m e) := by
  have hrest : encRest i e = i.txt := by rw [encRest, encTotal, hpos, hskip, List.drop_zero]; exact List.take_length
  obtain ⟨t, ht, hvb, htpos, hrev, hsk⟩ := c40Loop_run (i := i) (m := m) (val := val) i.txt (t := { e with vb := [], sz := [] }) hne
    (by change i.txt.drop e.pos = _; rw [hpos]; rfl) hval hstay (by simpa using hfit) (by simpa using hthree)
  have hend : t.pos = i.txt.length := by rw [htpos]; change e.pos + _ = _; rw [hpos, Nat.zero_add]
  have hmore := encMore_at_end hend
  have hvlen : t.vb.length = i.txt.length := by rw [hvb, List.nil_append, List.length_map]
  have hlen : t.len = e.len := congrArg List.length hrev
  have hbody : (tripletCodewords (i.txt.map val)).length = 2 * (i.txt.length / 3) := by
    rw [tripletCodewords_length, List.length_map]
  have hrun : c40Run i m e = c40End i t := by rw [c40Run, hrest, ht]
  obtain ⟨hnone, hsome⟩ := capFor_eq hr t (e.len + (tripletCodewords (i.txt.map val)).length)
  have hcur : t.len + 2 * (t.vb.length / 3) = e.len + (tripletCodewords (i.txt.map val)).length := by rw [hlen, hvlen, hbody]
  constructor
  · intro h
    rw [hrun, c40End, c40Avail, hcur, hnone h]
    change Except.error (capacityErr t) = _
    rw [capacityErr, hend]
  · intro p hp
    have hle := (dmLookup_some hp).2.2
    have hw : (writeTriplets t).Emits (writeTriplets t) [] := .nil rfl
    have hem : e.Emits (writeTriplets t) (tripletCodewords (i.txt.map val)) := by
      have := writeTriplets_emits t
      rw [hvb, List.nil_append] at this
      exact (Enc.Emits.nil (t := t) hrev).trans this
    have hav : c40Avail i t = .ok (p.2.data - (e.len + (tripletCodewords (i.txt.map val)).length)) := by
      rw [c40Avail, hcur, hsome p hp]
    rw [hrun, c40End, hav]
    dsimp only
    rw [if_neg (by omega), if_neg (by omega), hmore, unlatchFor]
    refine ⟨_, rfl, rfl, ?_, ?_⟩
    · split <;> exact hend
    · by_cases hlt : e.len + (tripletCodewords (i.txt.map val)).length < p.2.data
      · rw [if_pos hlt, if_pos (.inl (by omega))]
        exact hem.trans (Enc.emits_emit _ _)
      · rw [if_neg hlt, List.append_nil, if_neg (by rintro (h | h) <;> [omega; cases h])]
        exact hem

/-! ### X12 -/

theorem x12Loop_run {val : Nat → Nat} (chars : List Nat) : ∀ {t : Enc}, chars.length % 3 = 0 → t.vb = [] →
    i.txt.drop t.pos = chars → (∀ c ∈ chars, x12Value c = some (val c)) →
    (∀ ys cost k, ys <:+ chars → (lookahead ys .x12 cost k).mode = .x12) →
    ∃ u, x12Loop i t chars = .ok u ∧ u.vb = [] ∧ u.pos = t.pos + chars.length ∧ u.skip = t.skip
      ∧ t.Emits u (tripletCodewords (chars.map val)) := by
  induction chars using tripletCodewords.induct with
  | case1 a b c rest ih =>
    intro t hthree hvb hdrop hval hstay
    simp only [List.length_cons] at hthree
    have hdrop' : i.txt.drop (t.pos + 3) = rest := by rw [← List.drop_drop, hdrop]; rfl
    have htail : rest <:+ a :: b :: c :: rest := ⟨[a, b, c], rfl⟩
    let w : Enc := writeTriplets { t with pos := t.pos + 3, vb := [val a, val b, val c] }
    have hlook : (encLook i w .x12).mode = .x12 := by
      rw [encLook]
      change (lookahead (i.txt.drop (t.pos + 3)) _ _ _).mode = _
      rw [hdrop']
      exact hstay rest _ _ htail
    obtain ⟨u, h1, h2, h3, h4, h5⟩ := ih (t := w.looked (encLook i w .x12)) (by omega) rfl hdrop'
      (fun d hd => hval d (by simp [hd]))
      (fun ys cost k h => hstay ys cost k (h.trans htail))
    refine ⟨u, ?_, h2, ?_, h4, ?_⟩
    · rw [x12Loop, hval a (by simp)]
      dsimp only
      rw [hvb, if_neg (by simp), x12Loop, hval b (by simp)]
      dsimp only
      rw [if_neg (by simp), x12Loop, hval c (by simp)]
      dsimp only
      rw [if_pos (by simp)]
      change (if (encLook i w .x12).mode ≠ .x12 then _ else x12Loop i (w.looked (encLook i w .x12)) rest) = _
      rw [if_neg (fun h => h hlook), h1]
    · rw [h3]
      change t.pos + 3 + rest.length = _
      simp only [List.length_cons]; omega
    · exact ((writeTriplets_emits { t with pos := t.pos + 3, vb := [val a, val b, val c] })).trans h5
  | case2 xs hx =>
    intro t hthree hvb _ _ _
    match xs, hx with
    | [], _ => exact ⟨t, rfl, hvb, rfl, rfl, .nil rfl⟩
    | [_], _ => simp at hthree
    | [_, _], _ => simp at hthree
    | _ :: _ :: _ :: _, hx => exact absurd rfl (hx _ _ _ _)

theorem encRest_at_end {t : Enc} (h : t.pos = i.txt.length) : encRest i t = [] :=
  (encMore_eq_false i t).mp (encMore_at_end h)

theorem x12Run_native {val : Nat → Nat} (hr : i.rom = romDefault) (hpos : e.pos = 0) (hskip : e.skip = 0)
    (hval : ∀ c ∈ i.txt, x12Value c = some (val c))
    (hstay : ∀ ys cost k, ys <:+ i.txt → (lookahead ys .x12 cost k).mode = .x12) (hthree : i.txt.length % 3 = 0) :
    EndsRun i e (tripletCodewords (i.txt.map val)) unlatchFor (x12Run i e) := by
  have hrest : encRest i e = i.txt := by rw [encRest, encTotal, hpos, hskip, List.drop_zero]; exact List.take_length
  obtain ⟨t, ht, hvb, htpos, hsk, hem⟩ := x12Loop_run (i := i) (val := val) i.txt (t := { e with vb := [], sz := [] }) hthree rfl
    (by change i.txt.drop e.pos = _; rw [hpos]; rfl) hval hstay
  have hend : t.pos = i.txt.length := by rw [htpos]; change e.pos + _ = _; rw [hpos, Nat.zero_add]
  have hlen : t.len = e.len + (tripletCodewords (i.txt.map val)).length := hem.len
  have hrun : x12Run i e = x12End i t := by rw [x12Run, hrest, ht]
  obtain ⟨hnone, hsome⟩ := capFor_eq hr t (e.len + (tripletCodewords (i.txt.map val)).length)
  constructor
  · intro h
    rw [hrun, x12End, hlen, hnone h]
    change Except.error (capacityErr t) = _
    rw [capacityErr, hend]
  · intro p hp
    have hle := (dmLookup_some hp).2.2
    have hdone : encRest i { t with pos := t.pos - t.vb.length, vb := [] } = [] :=
      encRest_at_end (by rw [hvb]; exact hend)
    rw [hrun, x12End, hlen, hsome p hp]
    dsimp only
    rw [hdone, show remCw [] = 0 from rfl, unlatchFor]
    refine ⟨_, rfl, rfl, ?_, ?_⟩
    · have hpos' : t.pos - t.vb.length = i.txt.length := by rw [hvb]; exact hend
      split <;> exact hpos'
    · by_cases hlt : e.len + (tripletCodewords (i.txt.map val)).length < p.2.data
      · rw [if_pos hlt, if_pos (.inr (.inr (by omega)))]
        exact hem.trans (Enc.emits_emit _ _)
      · rw [if_neg hlt, List.append_nil, if_neg (by omega)]
        exact hem

/-! ### EDIFACT -/

theorem edfLoop_run {val : Nat → Nat} (chars : List Nat) : ∀ {t : Enc}, chars.length % 4 = 0 → t.vb = [] →
    i.txt.drop t.pos = chars → (∀ c ∈ chars, edfValue c = some (val c)) →
    (∀ ys cost k, ys <:+ chars → (lookahead ys .edifact cost k).mode = .edifact) →
    ∃ u, edfLoop i t chars = .ok u ∧ u.vb = [] ∧ u.pos = t.pos + chars.length ∧ u.skip = t.skip
      ∧ t.Emits u (groupCodewords (chars.map val)) := by
  induction chars using groupCodewords.induct with
  | case1 a b c d rest ih =>
    intro t hfour hvb hdrop hval hstay
    simp only [List.length_cons] at hfour
    have hdrop' : i.txt.drop (t.pos + 4) = rest := by rw [← List.drop_drop, hdrop]; rfl
    have htail : rest <:+ a :: b :: c :: d :: rest := ⟨[a, b, c, d], rfl⟩
    let w : Enc := { t.emitAll (edfPack [val a, val b, val c, val d]) with pos := t.pos + 4, vb := [] }
    have hlook : (encLook i w .edifact).mode = .edifact := by
      rw [encLook]
      change (lookahead (i.txt.drop (t.pos + 4)) _ _ _).mode = _
      rw [hdrop']
      exact hstay rest _ _ htail
    obtain ⟨u, h1, h2, h3, h4, h5⟩ := ih (t := w.looked (encLook i w .edifact)) (by omega) rfl hdrop'
      (fun x hx => hval x (by simp [hx])) (fun ys cost k h => hstay ys cost k (h.trans htail))
    refine ⟨u, ?_, h2, ?_, h4, (t.emits_emitAll _).trans h5⟩
    · rw [edfLoop, hval a (by simp)]
      dsimp only
      rw [hvb, if_neg (by simp), edfLoop, hval b (by simp)]
      dsimp only
      rw [if_neg (by simp), edfLoop, hval c (by simp)]
      dsimp only
      rw [if_neg (by simp), edfLoop, hval d (by simp)]
      dsimp only
      rw [if_pos (by simp)]
      change (if (encLook i w .edifact).mode ≠ .edifact then _ else edfLoop i (w.looked (encLook i w .edifact)) rest) = _
      rw [if_neg (fun h => h hlook), h1]
    · rw [h3]
      change t.pos + 4 + rest.length = _
      simp only [List.length_cons]; omega
  | case2 xs hx =>
    intro t hfour hvb _ _ _
    match xs, hx with
    | [], _ => exact ⟨t, rfl, hvb, rfl, rfl, .nil rfl⟩
    | [_], _ => simp at hfour
    | [_, _], _ => simp at hfour
    | [_, _, _], _ => simp at hfour
    | _ :: _ :: _ :: _ :: _, hx => exact absurd rfl (hx _ _ _ _ _)

/-- The unlatch value of EDIFACT behind `n` codewords, where the symbol has room for three more. -/
def edfUnlatchFor (n cap : Nat) : List Nat := if n + 3 ≤ cap then edfPack [31] else []

theorem edfRun_native {val : Nat → Nat} (hr : i.rom = romDefault) (hpos : e.pos = 0) (hskip : e.skip = 0)
    (hval : ∀ c ∈ i.txt, edfValue c = some (val c))
    (hstay : ∀ ys cost k, ys <:+ i.txt → (lookahead ys .edifact cost k).mode = .edifact) (hfour : i.txt.length % 4 = 0) :
    EndsRun i e (groupCodewords (i.txt.map val)) edfUnlatchFor (edfRun i e) := by
  have hrest : encRest i e = i.txt := by rw [encRest, encTotal, hpos, hskip, List.drop_zero]; exact List.take_length
  obtain ⟨t, ht, hvb, htpos, hsk, hem⟩ := edfLoop_run (i := i) (val := val) i.txt (t := { e with vb := [], sz := [] }) hfour rfl
    (by change i.txt.drop e.pos = _; rw [hpos]; rfl) hval hstay
  have hend : t.pos = i.txt.length := by rw [htpos]; change e.pos + _ = _; rw [hpos, Nat.zero_add]
  let w : Enc := { t with vb := [31] }
  have hlen : w.len = e.len + (groupCodewords (i.txt.map val)).length := hem.len
  have hdone : encRest i w = [] := encRest_at_end hend
  have hmore : encMore i w = false := encMore_at_end hend
  have hrun : edfRun i e = edfEnd i w := by rw [edfRun, hrest, ht]; dsimp only; rw [hvb]; rfl
  obtain ⟨hnone, hsome⟩ := capFor_eq hr w (e.len + (groupCodewords (i.txt.map val)).length)
  have hend' : edfEnd i w = match edfEndsBySymbol i w with
      | .error r => .error r
      | .ok true => .ok { w with new := some .ascii }
      | .ok false => edfEndGroup i w := if_pos rfl
  constructor
  · intro h
    rw [hrun, hend', edfEndsBySymbol]
    dsimp only
    rw [hlen, hnone h]
    change Except.error (⟨.capacityExceeded, t.pos⟩ : Raise) = _
    rw [hend]
  · intro p hp
    have hle := (dmLookup_some hp).2.2
    have hby : edfEndsBySymbol i w = .ok (decide (p.2.data - w.len ≤ 2)) := by
      rw [edfEndsBySymbol]
      dsimp only
      rw [hlen, hsome p hp, hdone]
      exact if_neg (Nat.not_lt_zero _)
    rw [hrun, hend', hby, edfUnlatchFor]
    by_cases hthree : e.len + (groupCodewords (i.txt.map val)).length + 3 ≤ p.2.data
    · rw [if_pos hthree, decide_eq_false (by omega)]
      refine ⟨({ w with new := some .ascii } : Enc).emitAll (edfPack [31]), ?_, rfl, hend,
        hem.trans (u := w.emitAll (edfPack [31])) (w.emits_emitAll _)⟩
      dsimp only
      rw [edfEndGroup]
      dsimp only
      rw [if_pos (show w.vb.length - 1 ≤ 2 from Nat.zero_le 2), show w.len + (w.vb.length - 1) = w.len from rfl, hlen, hsome p hp]
      exact if_neg (fun h => by omega)
    · rw [if_neg hthree, List.append_nil, decide_eq_true (by omega)]
      exact ⟨_, rfl, rfl, hend, hem⟩

/-! ### Base256 -/

theorem b256Loop_run (chars : List Nat) : ∀ {t : Enc}, i.txt.drop t.pos = chars →
    (∀ ys cost k, ys <:+ chars → (lookahead ys .base256 cost k).mode = .base256) →
    (b256Loop i t chars).vb = t.vb ++ chars ∧ (b256Loop i t chars).pos = t.pos + chars.length
      ∧ (b256Loop i t chars).rev = t.rev ∧ (b256Loop i t chars).skip = t.skip ∧ (b256Loop i t chars).new = t.new
      ∧ (b256Loop i t chars).mode = t.mode := by
  induction chars with
  | nil => exact fun _ _ => ⟨(List.append_nil _).symm, rfl, rfl, rfl, rfl, rfl⟩
  | cons c rest ih =>
    intro t hdrop hstay
    have hdrop' : i.txt.drop (t.pos + 1) = rest := by rw [← List.drop_drop, hdrop]; rfl
    let w : Enc := { t with pos := t.pos + 1, vb := t.vb ++ [c] }
    have hlook : (encLook i w .base256).mode = .base256 := by
      rw [encLook]
      change (lookahead (i.txt.drop (t.pos + 1)) _ _ _).mode = _
      rw [hdrop']
      exact hstay rest _ _ (List.suffix_cons c rest)
    have hstep : b256Loop i t (c :: rest) = b256Loop i (w.looked (encLook i w .base256)) rest := by
      rw [b256Loop]
      exact if_neg (fun h => h hlook)
    obtain ⟨h1, h2, h3⟩ := ih (t := w.looked (encLook i w .base256)) hdrop'
      (fun ys cost k h => hstay ys cost k (h.trans (List.suffix_cons c rest)))
    rw [hstep]
    refine ⟨?_, ?_, h3⟩
    · rw [h1]; exact List.append_assoc _ _ _
    · rw [h2]; change t.pos + 1 + rest.length = _; rw [List.length_cons]; omega

/-- The length field of `n` bytes that need one, with the row's capacity `cap`. -/
def fieldFor (n cap : Nat) : List Nat := if n + 2 = cap then [0] else if n ≤ 249 then [n] else [n / 250 + 249, n % 250]

theorem b256Field_of_le {ws : List Nat} (h : ws.length ≤ 1555) : b256Field ws =
    some ((if ws.length ≤ 249 then [ws.length] else [ws.length / 250 + 249, ws.length % 250]) ++ ws) := by
  unfold b256Field
  dsimp only
  split
  · rfl
  · rfl

/-- The end of a Base256 run that leaves room in the symbol writes a length field (rule R262). -/
theorem b256End_of_room {t : Enc} {cap : Nat} {vs : List Nat} (hcap : capFor i t (t.len + (t.vb.length - 1) + 1) = .ok cap)
    (hroom : 0 < cap - (t.len + (t.vb.length - 1) + 1)) (hvs : b256Field t.vb.tail = some vs) :
    b256End i t = .ok (emitRandom { t with vb := vs } vs) := by
  unfold b256End
  dsimp only
  rw [hcap]
  dsimp only
  rw [if_pos (.inr hroom), hvs]

/-- The end of a Base256 run that fills the symbol leaves the field 0. -/
theorem b256End_of_full {t : Enc} {cap : Nat} (hcap : capFor i t (t.len + (t.vb.length - 1) + 1) = .ok cap)
    (hmore : encMore i t = false) (hfull : ¬ 0 < cap - (t.len + (t.vb.length - 1) + 1)) :
    b256End i t = .ok (emitRandom t t.vb) := by
  unfold b256End
  dsimp only
  rw [hcap]
  dsimp only
  rw [hmore, if_neg (by rintro (h | h) <;> [cases h; exact hfull h])]

/-- The Base256 run on a whole text, behind the latch. -/
theorem b256Run_native (hr : i.rom = romDefault) (hpos : e.pos = 0) (hskip : e.skip = 0) (hlen1 : e.len = 1)
    (hnew : e.new = none) (hstay : ∀ ys cost k, ys <:+ i.txt → (lookahead ys .base256 cost k).mode = .base256)
    (hfit : i.txt.length + 1 < Config.vbSize) :
    (dmLookup i.rom i.regs (i.txt.length + 2) = none → b256Run i e = .error ⟨.capacityExceeded, i.txt.length⟩)
      ∧ ∀ p, dmLookup i.rom i.regs (i.txt.length + 2) = some p → ∃ u, b256Run i e = .ok u ∧ u.new = none
        ∧ u.pos = i.txt.length ∧ u.mode = e.mode
        ∧ e.Emits u (randomised 2 (fieldFor i.txt.length p.2.data ++ i.txt)) := by
  have hrest : encRest i e = i.txt := by rw [encRest, encTotal, hpos, hskip, List.drop_zero]; exact List.take_length
  obtain ⟨hvb, htpos, hrev, hsk, htnew, htmode⟩ := b256Loop_run (i := i) i.txt (t := { e with vb := [0], sz := [] })
    (by change i.txt.drop e.pos = _; rw [hpos]; rfl) hstay
  have hrun : b256Run i e = if Config.vbSize ≤ (b256Loop i { e with vb := [0], sz := [] } i.txt).vb.length then .error defectErr
      else b256End i (b256Loop i { e with vb := [0], sz := [] } i.txt) := by rw [b256Run, hrest]
  generalize b256Loop i { e with vb := [0], sz := [] } i.txt = t at hvb htpos hrev hsk htnew htmode hrun
  have hvlen : t.vb.length = i.txt.length + 1 := by rw [hvb]; simp
  rw [if_neg (by omega)] at hrun
  have hend : t.pos = i.txt.length := by rw [htpos]; change e.pos + _ = _; rw [hpos, Nat.zero_add]
  have hlen : t.len = 1 := (congrArg List.length hrev).trans hlen1
  have hmore := encMore_at_end hend
  have htail : t.vb.tail = i.txt := by rw [hvb]; rfl
  obtain ⟨hnone, hsome⟩ := capFor_eq hr t (i.txt.length + 2)
  have hcur : t.len + (t.vb.length - 1) + 1 = i.txt.length + 2 := by omega
  constructor
  · intro h
    rw [hrun, b256End, hcur, hnone h]
    change Except.error (⟨.capacityExceeded, t.pos⟩ : Raise) = _
    rw [hend]
  · intro p hp
    have hle := (dmLookup_some hp).2.2
    have hmax := dmLookup_default_data_le (hr ▸ hp)
    have emit : ∀ {w : Enc} {vs : List Nat}, w.rev = t.rev → w.pos = t.pos → w.new = t.new → w.mode = t.mode →
        (emitRandom w vs).new = none ∧ (emitRandom w vs).pos = i.txt.length ∧ (emitRandom w vs).mode = e.mode
          ∧ e.Emits (emitRandom w vs) (randomised 2 vs) := by
      intro w vs hwrev hwpos hwnew hwmode
      obtain ⟨h1, h2, -, h4, h5⟩ := emitRandom_spec vs w
      have hwlen : w.len = 1 := (congrArg List.length hwrev).trans hlen
      rw [hwlen] at h1
      exact ⟨h4.trans (hwnew.trans (htnew.trans hnew)), h2.trans (hwpos.trans hend), h5.trans (hwmode.trans htmode),
        (Enc.Emits.nil (hwrev.trans hrev)).trans h1⟩
    by_cases hfull : i.txt.length + 2 = p.2.data
    · rw [hrun, b256End_of_full (hcur.symm ▸ hsome p hp) hmore (by omega), fieldFor, if_pos hfull]
      exact ⟨_, rfl, (by rw [hvb]; exact emit rfl rfl rfl rfl)⟩
    · rw [hrun, b256End_of_room (hcur.symm ▸ hsome p hp) (by omega) (by rw [htail]; exact b256Field_of_le (by omega)), fieldFor,
        if_neg hfull]
      exact ⟨_, rfl, emit rfl rfl rfl rfl⟩

end

end Sys2Proof.Machine
end

section
/-! ENC.DM on texts native to one mode, and on extended bytes (40_tce_datamatrix.md rule R205 to R262; O38, O39). -/

namespace Sys2Proof.Machine

/-! ### The main loop on such a text -/

/-- The main loop at its start, on a text in no envelope. -/
structure BareStart (e : Enc) : Prop where
  mode : e.mode = .ascii
  pos : e.pos = 0
  skip : e.skip = 0
  new : e.new = none
  rev : e.rev = []

theorem BareStart.of_not_mem {s : State} (h : 0x1E ∉ s.text) : BareStart s.encBegin.enc := by
  obtain ⟨h1, h2, h3, h4, h5⟩ := Opening.of_not_mem h
  exact ⟨h1, h2, h3, h4, h5⟩

section
variable {i : EncIn} {e : Enc} {m : Mode}

theorem BareStart.rest (h : BareStart e) : encRest i e = i.txt := by
  rw [encRest, encTotal, h.pos, h.skip, List.drop_zero]; exact List.take_length

/-- The latch of a text without digits. -/
theorem BareStart.latch (h : BareStart e) (hr : i.rom = romDefault) (hne : i.txt ≠ []) (hdig : ∀ c ∈ i.txt, isDigit c = false)
    (hv : ∀ cost k, (lookahead i.txt .ascii cost k).mode = m) (hm : m ≠ .ascii) (fuel : Nat) :
    encMore i (e.latched (encLook i e .ascii) m) = true
      ∧ encLoop i (fuel + 1) e = encLoop i fuel (e.latched (encLook i e .ascii) m) := by
  have hdrop : i.txt.drop e.pos = i.txt := by rw [h.pos]; rfl
  refine ⟨?_, encLoop_latch hr (by rw [h.rest]; exact hne) (by rw [hdrop]; exact hdig) h.mode
    (by rw [encLook, hdrop]; exact hv _ _) hm fuel⟩
  rw [encMore_congr (e := e) (t := e.latched (encLook i e .ascii) m) rfl rfl, encMore_iff, h.rest]
  exact hne

/-- A run that ends in ASCII mode at the end of the text ends the main loop. -/
theorem BareStart.run (h : BareStart e) (hr : i.rom = romDefault) (hne : i.txt ≠ []) (hdig : ∀ c ∈ i.txt, isDigit c = false)
    (hv : ∀ cost k, (lookahead i.txt .ascii cost k).mode = m) (hm : m ≠ .ascii) {body : List Nat} {closing : Nat → Nat → List Nat}
    (hrun : ∀ t : Enc, t.mode = m → t.pos = 0 → t.skip = 0 → EndsRun i t body closing (encDispatch i t)) (fuel : Nat) :
    (dmLookup i.rom i.regs (body.length + 1) = none → encLoop i (fuel + 2) e = .error ⟨.capacityExceeded, i.txt.length⟩)
      ∧ ∀ p, dmLookup i.rom i.regs (body.length + 1) = some p → ∃ x, encLoop i (fuel + 2) e = .ok (x, true) ∧ x.mode = .ascii
        ∧ x.rev.reverse = Machine.latch m :: (body ++ closing (body.length + 1) p.2.data) := by
  obtain ⟨hmore, hlatch⟩ := h.latch (m := m) hr hne hdig hv hm (fuel + 1)
  obtain ⟨hnone, hsome⟩ := hrun (e.latched (encLook i e .ascii) m) rfl h.pos h.skip
  have hlen : (e.latched (encLook i e .ascii) m).len = 1 := congrArg (fun l => (Machine.latch m :: l).length) h.rev
  rw [hlen, Nat.add_comm] at hnone hsome
  rw [hlatch]
  constructor
  · exact fun hp => encLoop_raises hmore (hnone hp) fuel
  · intro p hp
    obtain ⟨u, hu, hnew, hpos, hem⟩ := hsome p hp
    have hdone : encMore i (takeNew u) = false := encMore_at_end ((takeNew_pos u).trans hpos)
    refine ⟨takeNew u, ?_, takeNew_mode_of_some hnew, ?_⟩
    · rw [encLoop_round hmore hu (encOverflow_default hr _), encLoop_done hdone]
    · rw [takeNew_rev, hem]
      change (Machine.latch m :: e.rev).reverse ++ _ = _
      rw [h.rev]
      rfl

end

/-- ENC.DM on a text native to one mode: the latch, the codewords of the text, and the unlatch. -/
theorem encDm_native {s : State} (hr : s.rom = romDefault) (hshape : s.regs.cfgShape ≠ 3) (htxt : s.regs.txtLen.toNat ≤ 8192)
    (hne : s.text ≠ []) (hdig : ∀ c ∈ s.text, isDigit c = false) (hsep : 0x1E ∉ s.text) {m : Mode}
    (hv : ∀ cost k, (lookahead s.text .ascii cost k).mode = m) (hm : m ≠ .ascii) {body : List Nat}
    {closing : Nat → Nat → List Nat}
    (hrun : ∀ t : Enc, t.mode = m → t.pos = 0 → t.skip = 0 →
      EndsRun s.encBegin.encIn t body closing (encDispatch s.encBegin.encIn t)) :
    (dmLookup s.rom s.regs (body.length + 1) = none →
      ∃ t, exec .encDm s = .next t ∧ t.Faulted .capacityExceeded .tce s.regs.txtLen.toNat)
    ∧ ∀ idx row, dmLookup s.rom s.regs (body.length + 1) = some (idx, row) →
      body.length + 1 + (closing (body.length + 1) row.data).length ≤ row.data →
      ∃ t x, exec .encDm s = .next t ∧ EncDone s t x idx row ∧ x.mode = .ascii
        ∧ x.rev.reverse = latch m :: (body ++ closing (body.length + 1) row.data) := by
  obtain ⟨hnone, hsome⟩ := (BareStart.of_not_mem hsep).run (i := s.encBegin.encIn) (m := m) hr hne hdig hv hm hrun
    (2 * s.regs.txtLen.toNat + 6)
  constructor
  · intro hp
    refine ⟨_, execEncDm_of_legal ⟨hshape, htxt⟩, ?_⟩
    have := hnone hp
    rw [State.encAdvance, show Config.fuelEncDm s.regs.txtLen.toNat = 2 * s.regs.txtLen.toNat + 6 + 2 from rfl, this]
    rw [show s.encBegin.encIn.txt.length = s.regs.txtLen.toNat from s.text_length]
    exact State.raise_faulted _ _ _ _ _
  · intro idx row hp hle
    obtain ⟨x, hx, hmode, hrev⟩ := hsome _ hp
    change x.rev.reverse = latch m :: (body ++ closing (body.length + 1) row.data) at hrev
    have hlen : x.len = body.length + 1 + (closing (body.length + 1) row.data).length := by
      rw [Enc.len, ← List.length_reverse, hrev, List.length_cons, List.length_append]; omega
    obtain ⟨t, ht, hd⟩ := execEncDm_completes ⟨hshape, htxt⟩ hr hx
      (dmLookup_between hp (by omega : _ ≤ x.len) (show x.len ≤ row.data by omega))
    exact ⟨t, x, ht, hd, hmode, hrev⟩

/-! ### Triplets (O38) -/

/-- The two codewords of triplet `j`. -/
theorem tripletCodewords_getElem? (vs : List Nat) : ∀ {j a b c : Nat}, vs[3 * j]? = some a → vs[3 * j + 1]? = some b →
    vs[3 * j + 2]? = some c → ∃ x y, (tripletCodewords vs)[2 * j]? = some x ∧ (tripletCodewords vs)[2 * j + 1]? = some y
      ∧ 256 * x + y = 1600 * a + 40 * b + c + 1 := by
  induction vs using tripletCodewords.induct with
  | case1 a b c rest ih =>
    intro j a' b' c' ha hb hc
    cases j with
    | zero => cases ha; cases hb; cases hc; exact ⟨_, _, rfl, rfl, Nat.div_add_mod _ _⟩
    | succ j => exact ih ha hb hc
  | case2 xs hx =>
    intro j a b c ha hb hc
    match xs, hx with
    | [], _ => cases ha
    | [_], _ => cases j <;> cases hb
    | [_, _], _ => cases j <;> cases hc
    | _ :: _ :: _ :: _, hx => exact absurd rfl (hx _ _ _ _)

/-- The modes of the triplets: what the lookahead and the run do on a text native to one of them. -/
structure TripletMode (m : Mode) (P : Nat → Prop) (val : Nat → Nat) : Prop where
  latches : ∀ xs : List Nat, (∀ c ∈ xs, P c) → 6 ≤ xs.length → ∀ cost k, (lookahead xs .ascii cost k).mode = m
  digit : ∀ c, P c → isDigit c = false
  sep : ¬ P 0x1E
  mode : m ≠ .ascii
  run : ∀ (i : EncIn) (t : Enc), i.rom = romDefault → (∀ c ∈ i.txt, P c) → i.txt ≠ [] → i.txt.length ≤ 8192 →
    i.txt.length % 3 = 0 → t.mode = m → t.pos = 0 → t.skip = 0 →
    EndsRun i t (tripletCodewords (i.txt.map val)) unlatchFor (encDispatch i t)

theorem all_of_suffix {P : Nat → Prop} {xs ys : List Nat} (h : ∀ c ∈ xs, P c) (hs : ys <:+ xs) : ∀ c ∈ ys, P c :=
  fun c hc => h c (hs.subset hc)

theorem tripletMode_c40 : TripletMode .c40 (fun c => 65 ≤ c ∧ c ≤ 90) (fun c => c - 51) where
  latches xs h hlen cost k := lookahead_upper h hlen cost k
  digit c h := (nativeTo_c40 h).digit
  sep := by decide
  mode := by decide
  run i t hr h hne hlen h3 hmode hpos hskip := by
    rw [encDispatch, hmode]
    refine c40Run_native hr hpos hskip hne (fun c hc => ?_) (fun ys cost k hs =>
      lookahead_stays (.inl rfl) (by decide) (fun c hc => nativeTo_c40 (all_of_suffix h hs c hc)) rfl cost k)
      (hlen.trans (by decide)) h3
    have := h c hc
    rw [c40TextValues, if_neg (by decide), c40Values_of_lt (by omega), c40Low, if_neg (by omega),
      if_neg (by rw [isDigit_iff]; omega), if_pos ((isUpper_iff c).mpr this)]

theorem tripletMode_text : TripletMode .text (fun c => 97 ≤ c ∧ c ≤ 122) (fun c => c - 83) where
  latches xs h hlen cost k :=
    lookahead_leaves (.inl rfl) (.inl ⟨rfl, rfl⟩) (fun c hc => nativeTo_text (h c hc)) hlen rfl cost k
  digit c h := (nativeTo_text h).digit
  sep := by decide
  mode := by decide
  run i t hr h hne hlen h3 hmode hpos hskip := by
    rw [encDispatch, hmode]
    refine c40Run_native hr hpos hskip hne (fun c hc => ?_) (fun ys cost k hs =>
      lookahead_stays (.inr (.inl rfl)) (by decide) (fun c hc => (nativeTo_text (all_of_suffix h hs c hc)).mono) rfl cost k)
      (hlen.trans (by decide)) h3
    have := h c hc
    rw [c40TextValues, if_pos rfl, textValues_of_lt (by omega), textLow, if_neg (by omega),
      if_neg (by rw [isDigit_iff]; omega), if_pos ((isLower_iff c).mpr this)]

theorem laGuard_x12 {xs : List Nat} (h : ∀ c ∈ xs, natX12 c = true) : laGuard xs .x12 = .x12 :=
  if_pos (List.all_eq_true.mpr fun c hc => h c (List.mem_of_mem_take hc))

theorem laGuard_edifact {xs : List Nat} (h : ∀ c ∈ xs, natEdf c = true) : laGuard xs .edifact = .edifact :=
  if_pos (List.all_eq_true.mpr fun c hc => h c (List.mem_of_mem_take hc))

theorem tripletMode_x12 : TripletMode .x12 (fun c => c = 13 ∨ c = 42 ∨ c = 62)
    (fun c => if c = 13 then 0 else if c = 42 then 1 else 2) where
  latches xs h hlen cost k :=
    lookahead_leaves (.inr (.inl rfl)) (.inl ⟨rfl, rfl⟩) (fun c hc => nativeTo_x12 (h c hc)) hlen
      (laGuard_x12 fun c hc => (native_of_sep (h c hc)).2.2) cost k
  digit c h := (nativeTo_x12 h).digit
  sep := by decide
  mode := by decide
  run i t hr h hne hlen h3 hmode hpos hskip := by
    rw [encDispatch, hmode]
    refine x12Run_native hr hpos hskip (fun c hc => ?_) (fun ys cost k hs =>
      lookahead_stays (.inr (.inr (.inl rfl))) (by decide) (fun c hc => (nativeTo_x12 (all_of_suffix h hs c hc)).mono)
        (laGuard_x12 fun c hc => (native_of_sep (all_of_suffix h hs c hc)).2.2) cost k) h3
    rcases h c hc with rfl | rfl | rfl <;> rfl

/-- A predicate of the characters of the text, from the elements of TXT. -/
theorem State.text_forall {s : State} {P : Nat → Prop} (h : ∀ j, j < s.regs.txtLen.toNat → P (s.mem.txt.read j).toNat) :
    ∀ c ∈ s.text, P c := by
  intro c hc
  obtain ⟨j, hj⟩ := List.mem_iff_getElem?.mp hc
  have hlt : j < s.regs.txtLen.toNat := by
    rw [← s.text_length]; exact (List.getElem?_eq_some_iff.mp hj).1
  rw [s.text_getElem? hlt] at hj
  cases hj
  exact h j hlt

theorem State.text_ne_nil {s : State} (h : 0 < s.regs.txtLen.toNat) : s.text ≠ [] :=
  List.ne_nil_of_length_pos (by rw [s.text_length]; exact h)

/-- The whole command on a text native to a mode of triplets. -/
theorem TripletMode.encDm {m : Mode} {P : Nat → Prop} {val : Nat → Nat} (h : TripletMode m P val) {s : State} {k : Nat}
    (hr : s.rom = romDefault) (hshape : s.regs.cfgShape ≠ 3) (htxt : s.regs.txtLen.toNat = 3 * k)
    (hlen : s.regs.txtLen.toNat ≤ 8192) (hk : 2 ≤ k) (hP : ∀ j, j < 3 * k → P (s.mem.txt.read j).toNat) :
    (dmLookup s.rom s.regs (2 * k + 1) = none →
      ∃ t, exec .encDm s = .next t ∧ t.Faulted .capacityExceeded .tce s.regs.txtLen.toNat)
    ∧ ∀ idx row, dmLookup s.rom s.regs (2 * k + 1) = some (idx, row) →
      ∃ t x, exec .encDm s = .next t ∧ EncDone s t x idx row ∧ x.mode = .ascii
        ∧ x.rev.reverse = latch m :: (tripletCodewords (s.text.map val) ++ unlatchFor (2 * k + 1) row.data) := by
  have hall : ∀ c ∈ s.text, P c := State.text_forall (by rw [htxt]; exact hP)
  have hl := s.text_length
  have hne := State.text_ne_nil (s := s) (by omega)
  have hbody : (tripletCodewords (s.text.map val)).length = 2 * k := by
    rw [tripletCodewords_length, List.length_map]; omega
  obtain ⟨hnone, hsome⟩ := encDm_native (m := m) (body := tripletCodewords (s.text.map val)) (closing := unlatchFor) hr hshape hlen
    hne (fun c hc => h.digit c (hall c hc)) (fun hh => h.sep (hall _ hh))
    (h.latches s.text hall (by omega)) h.mode (fun t hm hp hs => h.run s.encBegin.encIn t hr hall hne
      (by change s.text.length ≤ _; omega) (by change s.text.length % 3 = 0; omega) hm hp hs)
  rw [hbody] at hnone hsome
  refine ⟨hnone, fun idx row hp => hsome idx row hp ?_⟩
  have hle : 2 * k + 1 ≤ row.data := (dmLookup_some hp).2.2
  unfold unlatchFor
  split
  · rw [List.length_singleton]; omega
  · exact hle

/-- What such a command leaves in CW. -/
theorem TripletMode.codewords {m : Mode} {P : Nat → Prop} {val : Nat → Nat} (h : TripletMode m P val) {s : State} {k idx : Nat}
    {row : DmRow} (hr : s.rom = romDefault) (hshape : s.regs.cfgShape ≠ 3) (htxt : s.regs.txtLen.toNat = 3 * k) (hk : 2 ≤ k)
    (hP : ∀ j, j < 3 * k → P (s.mem.txt.read j).toNat) (hp : dmLookup s.rom s.regs (2 * k + 1) = some (idx, row)) :
    ∃ t, exec .encDm s = .next t ∧ t.Completed ∧ t.regs.sym.toNat = idx ∧ t.regs.cwLen.toNat = row.data
      ∧ t.regs.resMode = 0 ∧ t.cwAt 0 = latch m
      ∧ (∀ j, j < k → 256 * t.cwAt (2 * j + 1) + t.cwAt (2 * j + 2)
          = 1600 * val (s.mem.txt.read (3 * j)).toNat + 40 * val (s.mem.txt.read (3 * j + 1)).toNat
            + val (s.mem.txt.read (3 * j + 2)).toNat + 1)
      ∧ (2 * k + 1 < row.data → t.cwAt (2 * k + 1) = 254) ∧ t.padded (2 * k + 2) row.data := by
  have hmax := dmLookup_default_le (hr ▸ hp)
  obtain ⟨t, x, ht, hd, hmode, hrev⟩ := (h.encDm hr hshape htxt (by omega) hk hP).2 idx row hp
  have hl := s.text_length
  have hbody : (tripletCodewords (s.text.map val)).length = 2 * k := by
    rw [tripletCodewords_length, List.length_map]; omega
  have hxlen : x.len = 2 * k + 1 + (unlatchFor (2 * k + 1) row.data).length := by
    rw [Enc.len, ← List.length_reverse, hrev, List.length_cons, List.length_append, hbody]; omega
  have hpad := hd.padded (.inl hmode)
  have hle : 2 * k + 1 ≤ row.data := (dmLookup_some hp).2.2
  have front : ∀ {j y}, (tripletCodewords (s.text.map val))[j]? = some y → t.cwAt (j + 1) = y := fun hy => hd.cwAt_front (by
    rw [hrev, List.getElem?_cons_succ, List.getElem?_append_left (List.getElem?_eq_some_iff.mp hy).1, hy])
  refine ⟨t, ht, hd.completed, hd.sym, hd.cwLen, hd.resMode_of_ascii hmode, hd.cwAt_front (by rw [hrev]; rfl), fun j hj => ?_,
    fun hlt => hd.cwAt_front ?_, ?_⟩
  · have get : ∀ n, n < 3 * k → (s.text.map val)[n]? = some (val (s.mem.txt.read n).toNat) := fun n hn => by
      rw [List.getElem?_map, s.text_getElem? (by omega)]; rfl
    obtain ⟨y, z, hy, hz, hsum⟩ := tripletCodewords_getElem? _ (get (3 * j) (by omega)) (get (3 * j + 1) (by omega))
      (get (3 * j + 2) (by omega))
    rw [front hy, front hz, hsum]
  · rw [hrev, List.getElem?_cons_succ, List.getElem?_append_right hbody.le, hbody, Nat.sub_self, unlatchFor, if_pos hlt]
    rfl
  · by_cases hlt : 2 * k + 1 < row.data
    · rw [hxlen, unlatchFor, if_pos hlt] at hpad
      exact hpad
    · exact ⟨fun h => by omega, fun j _ h => by omega⟩

/-- Settles O38: the latch, the run and its unlatch are three rounds of the main loop at most. -/
theorem encDmEncodesTripletRuns : Obligations.EncDmEncodesTripletRuns := by
  intro s k idx row p hp hr hshape htxt hk hP hlookup
  simp only [List.mem_cons, List.not_mem_nil, or_false] at hp
  rcases hp with rfl | rfl | rfl
  · exact tripletMode_c40.codewords hr hshape htxt hk (fun j hj => by simpa using hP j hj) hlookup
  · exact tripletMode_text.codewords hr hshape htxt hk (fun j hj => by simpa using hP j hj) hlookup
  · exact tripletMode_x12.codewords hr hshape htxt hk (fun j hj => by simpa [or_assoc] using hP j hj) hlookup

end Sys2Proof.Machine
end

section
/-! ENC.DM on texts native to EDIFACT only, and on extended bytes (40_tce_datamatrix.md rule R250 to R262; O39). -/

namespace Sys2Proof.Machine

/-! ### EDIFACT -/

/-- The three codewords of group `j`. -/
theorem groupCodewords_getElem? (vs : List Nat) : ∀ {j a b c d : Nat}, vs[4 * j]? = some a → vs[4 * j + 1]? = some b →
    vs[4 * j + 2]? = some c → vs[4 * j + 3]? = some d → (∀ v ∈ vs, v < 64) →
    ∃ x y z, (groupCodewords vs)[3 * j]? = some x ∧ (groupCodewords vs)[3 * j + 1]? = some y
      ∧ (groupCodewords vs)[3 * j + 2]? = some z ∧ 65536 * x + 256 * y + z = 262144 * a + 4096 * b + 64 * c + d := by
  induction vs using groupCodewords.induct with
  | case1 a b c d rest ih =>
    intro j a' b' c' d' ha hb hc hd hlt
    cases j with
    | zero =>
      cases ha; cases hb; cases hc; cases hd
      have h1 := hlt a (by simp)
      have h2 := hlt b (by simp)
      have h3 := hlt c (by simp)
      have h4 := hlt d (by simp)
      refine ⟨_, _, _, rfl, rfl, rfl, ?_⟩
      simp only [List.getElem?_cons_zero, List.getElem?_cons_succ, Option.getD_some]
      omega
    | succ j => exact ih ha hb hc hd fun v hv => hlt v (by simp [hv])
  | case2 xs hx =>
    intro j a b c d ha hb hc hd _
    match xs, hx with
    | [], _ => cases ha
    | [_], _ => cases j <;> cases hb
    | [_, _], _ => cases j <;> cases hc
    | [_, _, _], _ => cases j <;> cases hd
    | _ :: _ :: _ :: _ :: _, hx => exact absurd rfl (hx _ _ _ _ _)

theorem edfValue_onlyEdf {c : Nat} (h : OnlyEdf c) : edfValue c = some (c % 64) := by
  unfold OnlyEdf at h
  unfold edfValue
  split
  · congr 1; omega
  · rw [if_pos (by omega)]; congr 1; omega

theorem OnlyEdf.lookahead_stays {xs : List Nat} (h : ∀ c ∈ xs, OnlyEdf c) (cost : Costs) (k : Nat) :
    (lookahead xs .edifact cost k).mode = .edifact :=
  Machine.lookahead_stays (.inr (.inr (.inr rfl))) (by decide) (fun c hc => (nativeTo_edifact (h c hc)).mono)
    (laGuard_edifact fun c hc => (native_of_onlyEdf (h c hc)).2.2.2) cost k

theorem OnlyEdf.lookahead_leaves {xs : List Nat} (h : ∀ c ∈ xs, OnlyEdf c) (hlen : 8 ≤ xs.length) (cost : Costs) (k : Nat) :
    (lookahead xs .ascii cost k).mode = .edifact :=
  Machine.lookahead_leaves (.inr (.inr rfl)) (.inr ⟨rfl, rfl⟩) (fun c hc => nativeTo_edifact (h c hc)) hlen
    (laGuard_edifact fun c hc => (native_of_onlyEdf (h c hc)).2.2.2) cost k

/-- The whole command on a text native to EDIFACT only. -/
theorem encDm_onlyEdf {s : State} {k : Nat} (hr : s.rom = romDefault) (hshape : s.regs.cfgShape ≠ 3)
    (htxt : s.regs.txtLen.toNat = 4 * k) (hlen : s.regs.txtLen.toNat ≤ 8192) (hk : 2 ≤ k)
    (hP : ∀ j, j < 4 * k → OnlyEdf (s.mem.txt.read j).toNat) :
    (dmLookup s.rom s.regs (3 * k + 1) = none →
      ∃ t, exec .encDm s = .next t ∧ t.Faulted .capacityExceeded .tce s.regs.txtLen.toNat)
    ∧ ∀ idx row, dmLookup s.rom s.regs (3 * k + 1) = some (idx, row) →
      ∃ t x, exec .encDm s = .next t ∧ EncDone s t x idx row ∧ x.mode = .ascii
        ∧ x.rev.reverse = 240 :: (groupCodewords (s.text.map (· % 64)) ++ edfUnlatchFor (3 * k + 1) row.data) := by
  have hall : ∀ c ∈ s.text, OnlyEdf c := State.text_forall (by rw [htxt]; exact hP)
  have hl := s.text_length
  have hne := State.text_ne_nil (s := s) (by omega)
  have hbody : (groupCodewords (s.text.map (· % 64))).length = 3 * k := by
    rw [groupCodewords_length, List.length_map]; omega
  obtain ⟨hnone, hsome⟩ := encDm_native (m := .edifact) (body := groupCodewords (s.text.map (· % 64)))
    (closing := edfUnlatchFor) hr hshape hlen hne (fun c hc => (nativeTo_edifact (hall c hc)).digit)
    (fun hh => by have := hall _ hh; unfold OnlyEdf at this; omega) (OnlyEdf.lookahead_leaves hall (by omega)) (by decide)
    (fun t hm hp hs => by
      rw [encDispatch, hm]
      exact edfRun_native (i := s.encBegin.encIn) hr hp hs (fun c hc => edfValue_onlyEdf (hall c hc))
        (fun ys cost k hs => OnlyEdf.lookahead_stays (all_of_suffix hall hs) cost k) (by change s.text.length % 4 = 0; omega))
  rw [hbody] at hnone hsome
  refine ⟨hnone, fun idx row hp => hsome idx row hp ?_⟩
  have hle : 3 * k + 1 ≤ row.data := (dmLookup_some hp).2.2
  unfold edfUnlatchFor
  split
  · rw [edfPack_length (by simp)]; simp only [List.length_singleton]; omega
  · exact hle

/-- What such a command leaves in CW. -/
theorem encDm_onlyEdf_codewords {s : State} {k idx : Nat} {row : DmRow} (hr : s.rom = romDefault) (hshape : s.regs.cfgShape ≠ 3)
    (htxt : s.regs.txtLen.toNat = 4 * k) (hk : 2 ≤ k) (hP : ∀ j, j < 4 * k → OnlyEdf (s.mem.txt.read j).toNat)
    (hp : dmLookup s.rom s.regs (3 * k + 1) = some (idx, row)) :
    ∃ t, exec .encDm s = .next t ∧ t.Completed ∧ t.regs.sym.toNat = idx ∧ t.regs.cwLen.toNat = row.data
      ∧ t.regs.resMode = 0 ∧ t.cwAt 0 = 240
      ∧ (∀ j, j < k → 65536 * t.cwAt (3 * j + 1) + 256 * t.cwAt (3 * j + 2) + t.cwAt (3 * j + 3)
          = 262144 * ((s.mem.txt.read (4 * j)).toNat % 64) + 4096 * ((s.mem.txt.read (4 * j + 1)).toNat % 64)
            + 64 * ((s.mem.txt.read (4 * j + 2)).toNat % 64) + (s.mem.txt.read (4 * j + 3)).toNat % 64)
      ∧ (3 * k + 4 ≤ row.data → t.cwAt (3 * k + 1) = 4 * 31)
      ∧ t.padded (if 3 * k + 4 ≤ row.data then 3 * k + 2 else 3 * k + 1) row.data := by
  have hmax := dmLookup_default_le (hr ▸ hp)
  obtain ⟨t, x, ht, hd, hmode, hrev⟩ := (encDm_onlyEdf hr hshape htxt (by omega) hk hP).2 idx row hp
  have hl := s.text_length
  have hbody : (groupCodewords (s.text.map (· % 64))).length = 3 * k := by
    rw [groupCodewords_length, List.length_map]; omega
  have hxlen : x.len = 3 * k + 1 + (edfUnlatchFor (3 * k + 1) row.data).length := by
    rw [Enc.len, ← List.length_reverse, hrev, List.length_cons, List.length_append, hbody]; omega
  have hpad := hd.padded (.inl hmode)
  have front : ∀ {j y}, (groupCodewords (s.text.map (· % 64)))[j]? = some y → t.cwAt (j + 1) = y := fun hy => hd.cwAt_front (by
    rw [hrev, List.getElem?_cons_succ, List.getElem?_append_left (List.getElem?_eq_some_iff.mp hy).1, hy])
  refine ⟨t, ht, hd.completed, hd.sym, hd.cwLen, hd.resMode_of_ascii hmode, hd.cwAt_front (by rw [hrev]; rfl), fun j hj => ?_,
    fun hthree => hd.cwAt_front ?_, ?_⟩
  · have get : ∀ n, n < 4 * k → (s.text.map (· % 64))[n]? = some ((s.mem.txt.read n).toNat % 64) := fun n hn => by
      rw [List.getElem?_map, s.text_getElem? (by omega)]; rfl
    obtain ⟨y, z, w, hy, hz, hw, hsum⟩ := groupCodewords_getElem? _ (get (4 * j) (by omega)) (get (4 * j + 1) (by omega))
      (get (4 * j + 2) (by omega)) (get (4 * j + 3) (by omega)) (fun v hv => by
        obtain ⟨c, -, rfl⟩ := List.mem_map.mp hv
        exact Nat.mod_lt _ (by decide))
    rw [front hy, front hz, front hw, hsum]
  · rw [hrev, List.getElem?_cons_succ, List.getElem?_append_right hbody.le, hbody, Nat.sub_self, edfUnlatchFor, if_pos hthree]
    rfl
  · rw [hxlen, edfUnlatchFor] at hpad
    by_cases hthree : 3 * k + 4 ≤ row.data
    · rw [if_pos hthree] at hpad ⊢
      exact hpad
    · rw [if_neg hthree] at hpad ⊢
      exact hpad

/-! ### Extended bytes -/

/-- The main loop on extended bytes: the latch, and one run that ends in Base256 mode. -/
theorem BareStart.ext {i : EncIn} {e : Enc} (h : BareStart e) (hr : i.rom = romDefault) (hext : ∀ c ∈ i.txt, 128 ≤ c)
    (hlen : 3 ≤ i.txt.length) (hfit : i.txt.length ≤ 8192) (fuel : Nat) :
    (dmLookup i.rom i.regs (i.txt.length + 2) = none → encLoop i (fuel + 2) e = .error ⟨.capacityExceeded, i.txt.length⟩)
      ∧ ∀ p, dmLookup i.rom i.regs (i.txt.length + 2) = some p → ∃ x, encLoop i (fuel + 2) e = .ok (x, true)
        ∧ x.mode = .base256 ∧ x.rev.reverse = 231 :: randomised 2 (fieldFor i.txt.length p.2.data ++ i.txt) := by
  have hdig : ∀ c ∈ i.txt, isDigit c = false := fun c hc => by
    have := hext c hc
    exact Bool.eq_false_iff.mpr fun hd => by rw [isDigit_iff] at hd; omega
  obtain ⟨hmore, hlatch⟩ := h.latch (m := .base256) hr (List.ne_nil_of_length_pos (by omega)) hdig
    (lookahead_ext hext (.inl ⟨rfl, hlen⟩)) (by decide) (fuel + 1)
  obtain ⟨hnone, hsome⟩ := b256Run_native (i := i) (e := e.latched (encLook i e .ascii) .base256) hr h.pos h.skip
    (congrArg (fun l => (231 :: l).length) h.rev) rfl
    (fun ys cost k hs => lookahead_ext (all_of_suffix hext hs) (.inr rfl) cost k) (by
      have : Config.vbSize = 32768 := rfl
      omega)
  rw [hlatch]
  constructor
  · exact fun hp => encLoop_raises hmore (hnone hp) fuel
  · intro p hp
    obtain ⟨u, hu, hnew, hpos, hmode, hem⟩ := hsome p hp
    have hdone : encMore i (takeNew u) = false := encMore_at_end ((takeNew_pos u).trans hpos)
    refine ⟨takeNew u, ?_, (takeNew_mode_of_none hnew).trans hmode, ?_⟩
    · rw [encLoop_round hmore hu (encOverflow_default hr _), encLoop_done hdone]
    · rw [takeNew_rev, hem]
      change (231 :: e.rev).reverse ++ _ = _
      rw [h.rev]
      rfl

/-- The whole command on extended bytes. -/
theorem encDm_ext {s : State} (hr : s.rom = romDefault) (hshape : s.regs.cfgShape ≠ 3) (htxt : s.regs.txtLen.toNat ≤ 8192)
    (hlen : 3 ≤ s.regs.txtLen.toNat) (hP : ∀ j, j < s.regs.txtLen.toNat → 128 ≤ (s.mem.txt.read j).toNat) :
    (dmLookup s.rom s.regs (s.regs.txtLen.toNat + 2) = none →
      ∃ t, exec .encDm s = .next t ∧ t.Faulted .capacityExceeded .tce s.regs.txtLen.toNat)
    ∧ ∀ idx row, dmLookup s.rom s.regs (s.regs.txtLen.toNat + 2) = some (idx, row) →
      ∃ t x, exec .encDm s = .next t ∧ EncDone s t x idx row ∧ x.mode = .base256
        ∧ x.rev.reverse = 231 :: randomised 2 (fieldFor s.regs.txtLen.toNat row.data ++ s.text) := by
  have hall : ∀ c ∈ s.text, 128 ≤ c := State.text_forall hP
  have hl := s.text_length
  have hsep : 0x1E ∉ s.text := fun hh => by have := hall _ hh; omega
  obtain ⟨hnone, hsome⟩ := (BareStart.of_not_mem hsep).ext (i := s.encBegin.encIn) hr hall (by change 3 ≤ s.text.length; omega)
    (by change s.text.length ≤ _; omega) (2 * s.regs.txtLen.toNat + 6)
  have htext : s.encBegin.encIn.txt.length = s.regs.txtLen.toNat := hl
  rw [htext] at hnone hsome
  constructor
  · intro hp
    refine ⟨_, execEncDm_of_legal ⟨hshape, htxt⟩, ?_⟩
    have := hnone hp
    rw [State.encAdvance, show Config.fuelEncDm s.regs.txtLen.toNat = 2 * s.regs.txtLen.toNat + 6 + 2 from rfl, this]
    exact State.raise_faulted _ _ _ _ _
  · intro idx row hp
    obtain ⟨x, hx, hmode, hrev⟩ := hsome _ hp
    change x.rev.reverse = 231 :: randomised 2 (fieldFor s.regs.txtLen.toNat row.data ++ s.text) at hrev
    have hle : s.regs.txtLen.toNat + 2 ≤ row.data := (dmLookup_some hp).2.2
    have hxlen : x.len = 1 + (fieldFor s.regs.txtLen.toNat row.data).length + s.regs.txtLen.toNat := by
      rw [Enc.len, ← List.length_reverse, hrev, List.length_cons, randomised_length, List.length_append]; omega
    have hfield : s.regs.txtLen.toNat + 2 ≤ x.len ∧ x.len ≤ row.data := by
      rw [hxlen, fieldFor]
      split
      · rw [List.length_singleton]; omega
      split
      · rw [List.length_singleton]; omega
      · rw [List.length_cons, List.length_singleton]; omega
    obtain ⟨t, ht, hd⟩ := execEncDm_completes ⟨hshape, htxt⟩ hr hx (dmLookup_between hp hfield.1 hfield.2)
    exact ⟨t, x, ht, hd, hmode, hrev⟩

/-- Settles O39: the latch and the run are two rounds of the main loop. -/
theorem encDmEncodesEdifactAndBase256Runs : Obligations.EncDmEncodesEdifactAndBase256Runs := by
  constructor
  · intro s k idx row hr hshape htxt hk hP hp
    exact encDm_onlyEdf_codewords hr hshape htxt hk hP hp
  · rintro s n idx row f hr hshape rfl hn hP hp rfl
    have hmax := dmLookup_default_le (hr ▸ hp)
    obtain ⟨t, x, ht, hd, hmode, hrev⟩ := (encDm_ext hr hshape (by omega) hn hP).2 idx row hp
    have hlen : (randomised 2 (fieldFor s.regs.txtLen.toNat row.data ++ s.text)).length
        = (fieldFor s.regs.txtLen.toNat row.data).length + s.regs.txtLen.toNat := by
      rw [randomised_length, List.length_append, s.text_length]
    have hxlen : x.len = 1 + (fieldFor s.regs.txtLen.toNat row.data).length + s.regs.txtLen.toNat := by
      rw [Enc.len, ← List.length_reverse, hrev, List.length_cons, hlen]; omega
    refine ⟨t, ht, hd.completed, hd.sym, hd.cwLen, by rw [hd.resMode, hmode]; rfl, hd.cwAt_front (by rw [hrev]; rfl),
      fun j hj => ?_, hxlen ▸ hd.padded (.inr hmode)⟩
    change j < (fieldFor s.regs.txtLen.toNat row.data).length + _ at hj
    change (randomised 2 (fieldFor s.regs.txtLen.toNat row.data ++ s.text))[j]? = _
    have hj' := List.getElem?_eq_getElem (hlen.symm ▸ hj)
    rw [hj', hd.cwAt_front (j := 1 + j) (by rw [hrev, Nat.add_comm, List.getElem?_cons_succ, hj'])]

end Sys2Proof.Machine
end

section
/-! ENC.DM runs in X12 and EDIFACT mode only on groups that can be encoded there, so it raises no IllegalCharacter
(40_tce_datamatrix.md rule R215, rule R272). -/

namespace Sys2Proof.Machine

/-! ### The lookahead's guard (rule R215) -/

/-- The group that `m` would take from `xs` next can be encoded in it. -/
def Encodable (m : Mode) (xs : List Nat) : Prop :=
  (m = .x12 → ∀ c ∈ xs.take 3, natX12 c = true) ∧ (m = .edifact → ∀ c ∈ xs.take 4, natEdf c = true)

theorem encodable_ascii (xs : List Nat) : Encodable .ascii xs := ⟨nofun, nofun⟩

theorem laGuard_encodable (xs : List Nat) (m : Mode) : Encodable (laGuard xs m) xs := by
  cases m with
  | x12 =>
    rw [laGuard]
    split
    · exact ⟨fun _ => List.all_eq_true.mp ‹_›, nofun⟩
    · exact encodable_ascii xs
  | edifact =>
    rw [laGuard]
    split
    · exact ⟨nofun, fun _ => List.all_eq_true.mp ‹_›⟩
    · exact encodable_ascii xs
  | _ => exact ⟨nofun, nofun⟩

/-- A verdict names a mode that can encode the group behind it; at the end of the text no group is left. -/
theorem lookahead_encodable (xs : List Nat) (cur : Mode) (cost : Costs) (k : Nat) :
    Encodable (lookahead xs cur cost k).mode xs := by
  cases xs with
  | nil => exact ⟨fun _ => nofun, fun _ => nofun⟩
  | cons c rest => exact laGuard_encodable _ _

/-- What holds between two rounds (rule R204, R215). -/
structure Guarded (i : EncIn) (e : Enc) : Prop where
  new : e.new = none
  group : Encodable e.mode (i.txt.drop e.pos)

/-! ### The loops over groups never meet a character without a value (rule R240, R250) -/

theorem x12Value_of_native {c : Nat} (h : natX12 c = true) : ∃ x, x12Value c = some x := by
  simp only [natX12, x12Sep, Bool.or_eq_true, decide_eq_true_eq] at h
  rw [← Option.isSome_iff_exists, x12Value]
  grind

theorem edfValue_of_native {c : Nat} (h : natEdf c = true) : ∃ x, edfValue c = some x := by
  simp only [natEdf, Bool.and_eq_true, decide_eq_true_eq] at h
  rw [← Option.isSome_iff_exists, edfValue]
  grind

section
variable {i : EncIn}

/-- The characters left behind one more that is taken. -/
theorem suffix_of_cons {c pos : Nat} {rest : List Nat} (h : c :: rest <+: i.txt.drop pos) : rest <+: i.txt.drop (pos + 1) := by
  obtain ⟨ys, hys⟩ := h
  exact ⟨ys, by rw [← List.tail_drop, ← hys]; rfl⟩

/-- A verdict to stay guards the characters left. -/
theorem encodable_of_stay {e : Enc} {m : Mode} {rest : List Nat} (hv : (encLook i e m).mode = m) (hr : rest <+: i.txt.drop e.pos) :
    Encodable m rest := by
  obtain ⟨hx, he⟩ := lookahead_encodable (i.txt.drop e.pos) m e.cost e.k
  exact ⟨fun h c hc => hx (hv.trans h) c ((hr.take 3).subset hc), fun h c hc => he (hv.trans h) c ((hr.take 4).subset hc)⟩

theorem x12Loop_guarded (chars : List Nat) : ∀ t : Enc, chars <+: i.txt.drop t.pos → t.vb.length < 3 →
    (∀ c ∈ chars.take (3 - t.vb.length), natX12 c = true) → ∃ u, x12Loop i t chars = .ok u := by
  induction chars with
  | nil => exact fun t _ _ _ => ⟨t, rfl⟩
  | cons c rest ih =>
    intro t hpre hvb hnat
    obtain ⟨n, hn⟩ : ∃ n, 3 - t.vb.length = n + 1 := ⟨2 - t.vb.length, by omega⟩
    rw [hn, List.take_succ_cons] at hnat
    obtain ⟨hc, hrest⟩ := List.forall_mem_cons.mp hnat
    obtain ⟨x, hx⟩ := x12Value_of_native hc
    have hlen : (t.vb ++ [x]).length = t.vb.length + 1 := List.length_append
    have hpre' := suffix_of_cons hpre
    rw [x12Loop, hx]
    dsimp only
    split
    · split
      · exact ⟨_, rfl⟩
      · rename_i hv
        exact ih _ hpre' (by decide : 0 < 3) ((encodable_of_stay (not_not.mp hv) hpre').1 rfl)
    · rename_i h3
      refine ih _ hpre' (Nat.lt_of_le_of_ne (hlen ▸ hvb) h3) ?_
      rwa [show 3 - (t.vb ++ [x]).length = n by omega]

theorem edfLoop_guarded (chars : List Nat) : ∀ t : Enc, chars <+: i.txt.drop t.pos → t.vb.length < 4 →
    (∀ c ∈ chars.take (4 - t.vb.length), natEdf c = true) → ∃ u, edfLoop i t chars = .ok u := by
  induction chars with
  | nil => exact fun t _ _ _ => ⟨t, rfl⟩
  | cons c rest ih =>
    intro t hpre hvb hnat
    obtain ⟨n, hn⟩ : ∃ n, 4 - t.vb.length = n + 1 := ⟨3 - t.vb.length, by omega⟩
    rw [hn, List.take_succ_cons] at hnat
    obtain ⟨hc, hrest⟩ := List.forall_mem_cons.mp hnat
    obtain ⟨x, hx⟩ := edfValue_of_native hc
    have hlen : (t.vb ++ [x]).length = t.vb.length + 1 := List.length_append
    have hpre' := suffix_of_cons hpre
    rw [edfLoop, hx]
    dsimp only
    split
    · split
      · exact ⟨_, rfl⟩
      · rename_i hv
        exact ih _ hpre' (by decide : 0 < 4) ((encodable_of_stay (not_not.mp hv) hpre').2 rfl)
    · rename_i h4
      refine ih _ hpre' (Nat.lt_of_le_of_ne (hlen ▸ hvb) h4) ?_
      rwa [show 4 - (t.vb ++ [x]).length = n by omega]

/-! ### The faults of a run (rule R270, R272) -/

/-- The only faults of a run whose groups can be encoded. -/
def Raise.OfCapacity (r : Raise) : Prop := r.exn = .capacityExceeded ∨ r.exn = .internalDefect

variable {e : Enc} {r : Raise}

theorem defectErr_ofCapacity : defectErr.OfCapacity := .inr rfl

theorem capQuery_ofCapacity {n : Nat} (h : capQuery i e n = .error r) : r.OfCapacity := by
  unfold capQuery at h
  split at h
  · cases h; exact defectErr_ofCapacity
  · split at h
    · cases h
    · cases h
      unfold encFault
      split
      · exact defectErr_ofCapacity
      · exact .inl rfl

theorem capFor_ofCapacity {n : Nat} (h : capFor i e n = .error r) : r.OfCapacity := by
  unfold capFor at h
  split at h
  · cases h
  · rename_i hc; cases h; exact capQuery_ofCapacity hc

theorem c40Avail_ofCapacity (h : c40Avail i e = .error r) : r.OfCapacity := by
  unfold c40Avail at h
  dsimp only at h
  split at h
  · cases h
  · rename_i hc; cases h; exact capFor_ofCapacity hc

theorem c40BackTwo_ofCapacity (h : c40BackTwo i e = .error r) : r.OfCapacity := by
  unfold c40BackTwo at h
  split at h
  · split at h
    · rename_i hc; cases h; exact c40Avail_ofCapacity hc
    · cases h
  · cases h

theorem c40BackOne_ofCapacity (fuel : Nat) : ∀ {e : Enc}, c40BackOne i fuel e = .error r → r.OfCapacity := by
  induction fuel with
  | zero => intro e h; cases h
  | succ fuel ih =>
    intro e h
    rw [c40BackOne] at h
    split at h
    · split at h
      · exact ih h
      · split at h
        · rename_i hc; cases h; exact c40Avail_ofCapacity hc
        · split at h
          · exact ih h
          · cases h
    · cases h

theorem c40Loop_ofCapacity {m : Mode} (chars : List Nat) : ∀ {e : Enc}, c40Loop i m e chars = .error r → r.OfCapacity := by
  induction chars with
  | nil => intro e h; cases h
  | cons c rest ih =>
    intro e h
    rw [c40Loop] at h
    dsimp only at h
    split at h
    · cases h; exact defectErr_ofCapacity
    split at h
    · split at h
      · rename_i hc; cases h; exact c40BackTwo_ofCapacity hc
      · exact c40BackOne_ofCapacity _ h
    split at h
    · split at h
      · cases h
      · exact ih h
    · exact ih h

theorem c40Run_ofCapacity {m : Mode} (h : c40Run i m e = .error r) : r.OfCapacity := by
  unfold c40Run at h
  split at h
  · rename_i hc; cases h; exact c40Loop_ofCapacity _ hc
  unfold c40End at h
  split at h
  · rename_i hc; cases h; exact c40Avail_ofCapacity hc
  dsimp only at h
  split at h
  · cases h
  · split at h <;> cases h

/-- The characters left up to the envelope's trailer begin the characters left. -/
theorem encRest_prefix (i : EncIn) (e : Enc) : encRest i e <+: i.txt.drop e.pos := List.take_prefix _ _

theorem x12Run_ofCapacity (hg : ∀ c ∈ (i.txt.drop e.pos).take 3, natX12 c = true) (h : x12Run i e = .error r) :
    r.OfCapacity := by
  have hpre := encRest_prefix i e
  obtain ⟨t, ht⟩ := x12Loop_guarded (i := i) (encRest i e) { e with vb := [], sz := [] } hpre (by decide : 0 < 3)
    (fun c hc => hg c ((hpre.take 3).subset hc))
  rw [x12Run, ht] at h
  unfold x12End at h
  dsimp only at h
  split at h
  · rename_i hc; cases h; exact capFor_ofCapacity hc
  · cases h

theorem edfEndGroup_ofCapacity (h : edfEndGroup i e = .error r) : r.OfCapacity := by
  unfold edfEndGroup at h
  dsimp only at h
  split at h
  · split at h
    · rename_i hc; cases h; exact capFor_ofCapacity hc
    · split at h <;> cases h
  · cases h

theorem edfEndsBySymbol_ofCapacity (h : edfEndsBySymbol i e = .error r) : r.OfCapacity := by
  unfold edfEndsBySymbol at h
  dsimp only at h
  split at h
  · rename_i hc; cases h; exact capFor_ofCapacity hc
  split at h
  · split at h
    · rename_i hc; cases h; exact capFor_ofCapacity hc
    · cases h
  · cases h

theorem edfRun_ofCapacity (hg : ∀ c ∈ (i.txt.drop e.pos).take 4, natEdf c = true) (h : edfRun i e = .error r) :
    r.OfCapacity := by
  have hpre := encRest_prefix i e
  obtain ⟨t, ht⟩ := edfLoop_guarded (i := i) (encRest i e) { e with vb := [], sz := [] } hpre (by decide : 0 < 4)
    (fun c hc => hg c ((hpre.take 4).subset hc))
  rw [edfRun, ht] at h
  unfold edfEnd at h
  dsimp only at h
  split at h
  · split at h
    · rename_i hc; cases h; exact edfEndsBySymbol_ofCapacity hc
    · cases h
    · exact edfEndGroup_ofCapacity h
  · exact edfEndGroup_ofCapacity h

theorem b256Run_ofCapacity (h : b256Run i e = .error r) : r.OfCapacity := by
  unfold b256Run b256End at h
  dsimp only at h
  split at h
  · cases h; exact defectErr_ofCapacity
  split at h
  · rename_i hc; cases h; exact capFor_ofCapacity hc
  split at h
  · split at h
    · cases h; exact .inl rfl
    · cases h
  · cases h

theorem Guarded.encDispatch_ofCapacity (hg : Guarded i e) (h : encDispatch i e = .error r) : r.OfCapacity := by
  unfold encDispatch at h
  split at h
  · cases h
  · exact c40Run_ofCapacity h
  · exact c40Run_ofCapacity h
  · exact x12Run_ofCapacity (hg.group.1 ‹_›) h
  · exact edfRun_ofCapacity (hg.group.2 ‹_›) h
  · exact b256Run_ofCapacity h

/-! ### A round leaves the next group guarded (rule R204) -/

variable {u : Enc}

theorem guarded_of_ascii_next (h : u.new = some .ascii) : Guarded i (takeNew u) :=
  ⟨takeNew_new u, by rw [takeNew_mode_of_some h]; exact encodable_ascii _⟩

/-- A step in ASCII mode ends it for the lookahead's verdict only. -/
theorem Guarded.asciiStep (hg : Guarded i e) (hmode : e.mode = .ascii) : Guarded i (takeNew (asciiStep i e)) := by
  have stays : ∀ u : Enc, u.new = e.new → u.mode = e.mode → Guarded i (takeNew u) := fun u hn hm => by
    refine ⟨takeNew_new u, ?_⟩
    rw [takeNew_mode_of_none (hn.trans hg.new), hm, hmode]
    exact encodable_ascii _
  cases hd : i.txt.drop e.pos with
  | nil =>
    have heq : Machine.asciiStep i e = e := by unfold Machine.asciiStep; rw [hd]
    rw [heq]
    exact stays e rfl rfl
  | cons c rest =>
    rcases asciiStep_cases hd with ⟨d, xs, -, -, -, heq⟩ | ⟨-, ⟨-, heq⟩ | ⟨-, -, heq⟩ | ⟨-, -, heq⟩⟩ <;> rw [heq]
    · exact stays _ rfl rfl
    · exact ⟨rfl, lookahead_encodable (i.txt.drop e.pos) .ascii e.cost e.k⟩
    · exact stays _ rfl rfl
    · exact stays _ rfl rfl

theorem Guarded.encDispatch (hg : Guarded i e) (hm : encMore i e = true) (h : encDispatch i e = .ok u) :
    Guarded i (takeNew u) := by
  unfold Machine.encDispatch at h
  split at h
  · cases h; exact hg.asciiStep ‹_›
  · obtain ⟨ws, extra, -, hrun⟩ := c40Run_spec hm h
    exact guarded_of_ascii_next hrun.new
  · obtain ⟨ws, extra, -, hrun⟩ := c40Run_spec hm h
    exact guarded_of_ascii_next hrun.new
  · obtain ⟨ws, -, hrun⟩ := x12Run_spec h
    exact guarded_of_ascii_next hrun.new
  · obtain ⟨ws, hrun⟩ := edfRun_spec h
    exact guarded_of_ascii_next hrun.new
  · rename_i hmode
    obtain ⟨ws, f, hrun⟩ := b256Run_spec hm h
    rcases hrun.new with hn | ⟨hn, -⟩
    · exact guarded_of_ascii_next hn
    · refine ⟨takeNew_new u, ?_⟩
      rw [takeNew_mode_of_none (hn.trans hg.new), hrun.mode, hmode]
      exact ⟨nofun, nofun⟩

/-- A round from a guarded point ends at one, or in a fault of capacity. -/
theorem Guarded.encRound (hg : Guarded i e) (hm : encMore i e = true) :
    (∃ t, encRound i e = .ok t ∧ Guarded i t) ∨ ∃ r, encRound i e = .error r ∧ r.OfCapacity := by
  unfold Machine.encRound
  split
  · exact .inr ⟨_, rfl, hg.encDispatch_ofCapacity ‹_›⟩
  · split
    · exact .inr ⟨_, rfl, defectErr_ofCapacity⟩
    · exact .inl ⟨_, rfl, hg.encDispatch hm ‹_›⟩

/-- The main loop from a guarded point ends at one, the flag being false only where text is left, or in a fault of
capacity. -/
theorem Guarded.encLoop (fuel : Nat) : ∀ {e : Enc}, Guarded i e →
    (∃ x done, encLoop i fuel e = .ok (x, done) ∧ Guarded i x ∧ (done = false → encMore i x = true))
      ∨ ∃ r, encLoop i fuel e = .error r ∧ r.OfCapacity := by
  induction fuel with
  | zero => exact fun {e} hg => .inl ⟨e, _, rfl, hg, by simp⟩
  | succ fuel ih =>
    intro e hg
    rw [Machine.encLoop]
    split
    · rcases hg.encRound ‹_› with ⟨t, ht, hg'⟩ | ⟨r, hr, hcap⟩
      · rw [ht]; exact ih hg'
      · rw [hr]; exact .inr ⟨r, rfl, hcap⟩
    · exact .inl ⟨e, true, rfl, hg, nofun⟩

theorem encTerminate_ofCapacity (h : encTerminate i e = .error r) : r.OfCapacity := by
  unfold encTerminate at h
  split at h
  · rename_i hc; cases h; exact capQuery_ofCapacity hc
  · split at h
    · cases h; exact defectErr_ofCapacity
    · cases h

end

end Sys2Proof.Machine
end

section
/-! Only ENC.DM stands in its main loop's phase, and every step leaves that phase guarded (40_tce_datamatrix.md rule R272). -/

namespace Sys2Proof.Machine

/-! ### The phase the other instructions leave -/

/-- A result that does not stand in ENC.DM's main loop. -/
def OffEnc (r : Except Raise State) : Prop :=
  match r with
  | .ok t => t.phase ≠ .encDm
  | .error _ => True

section
variable {r : Except Raise State} {s : State}

theorem OffEnc.error (e : Raise) : OffEnc (.error e) := trivial

theorem OffEnc.ite {c : Prop} [Decidable c] {a b : Except Raise State} (ha : OffEnc a) (hb : OffEnc b) :
    OffEnc (if c then a else b) := by
  split <;> assumption

theorem OffEnc.streamEnd (h : OffEnc r) (s : State) (ws : List Loc) : (s.streamEnd ws r).phase ≠ .encDm := by
  cases r with
  | ok t => exact h
  | error e => exact Phase.noConfusion

/-- A command of one rule ends idle. -/
theorem State.finish_phase (s : State) (u : UnitId) (ws : List Loc) (r : Except Raise State) : (s.finish u ws r).phase = .idle := by
  cases r <;> rfl

theorem OffEnc.dmFinish (s : State) : OffEnc s.dmFinish := by
  rcases s.dmFinish_cases with h | h <;> rw [h]
  · exact Phase.noConfusion
  · exact .error _

theorem OffEnc.dmNext (s : State) : OffEnc s.dmNext := .ite (.dmFinish s) Phase.noConfusion

theorem OffEnc.dmLatch (s : State) (seg : DmSeg) : OffEnc (s.dmLatch seg) := .ite (.dmFinish s) Phase.noConfusion

theorem OffEnc.dmNextOf (r : Except Raise State) : OffEnc (dmNextOf r) := by
  cases r with
  | ok t => exact .dmNext t
  | error e => exact .error e

theorem OffEnc.qrNextOf (r : Except Raise State) : OffEnc (qrNextOf r) := by
  cases r with
  | ok t => exact Phase.noConfusion
  | error e => exact .error e

theorem OffEnc.dmUnlatchBody (s : State) : OffEnc (dmUnlatchBody s) := .ite (.dmNext s) (.error _)

theorem OffEnc.asciiCodeword (b : Byte) (s : State) : OffEnc (asciiCodeword b s) :=
  .ite (.error _) <| .ite (.dmNextOf _) <| .ite (.dmFinish s) <| .ite (.dmNextOf _) <| .ite (.dmLatch s _) <|
  .ite (.dmLatch s _) <| .ite (.dmNextOf _) <| .ite (.dmNext s) <| .ite (.dmNext s) <| .ite (.dmNext _) <|
  .ite (.dmNextOf _) <| .ite (.dmNextOf _) <| .ite (.dmLatch s _) <| .ite (.dmLatch s _) <| .ite (.dmLatch s _) <|
  .ite (.dmLatch s _) <| .ite (.dmUnlatchBody s) (.error _)

theorem OffEnc.dmSegmentThen (seg : DmSeg) (s : State) : OffEnc (dmSegmentThen seg s) := by
  unfold Machine.dmSegmentThen
  split
  · exact .error _
  · exact .dmNext _

theorem OffEnc.qrIndicator (m : Nat) (s : State) : OffEnc (qrIndicator m s) := by
  unfold Machine.qrIndicator
  split
  case h_1 => exact Phase.noConfusion
  case h_2 => exact Phase.noConfusion
  case h_3 => exact Phase.noConfusion
  case h_11 => exact .error _
  all_goals exact .qrNextOf _

theorem dmLoop_offEnc (fuel : Nat) : ∀ {s : State}, s.phase ≠ .encDm → (dmLoop fuel s).phase ≠ .encDm := by
  induction fuel with
  | zero => exact id
  | succ fuel ih =>
    intro s h
    rw [dmLoop]
    split
    · rename_i seg hs
      refine ih ?_
      rw [State.dmRound, hs]
      split
      · split
        · exact OffEnc.streamEnd (.error _) _ _
        · exact OffEnc.streamEnd (.asciiCodeword _ _) _ _
      · exact OffEnc.streamEnd (.dmSegmentThen _ _) _ _
      all_goals contradiction
    all_goals exact h

theorem qrLoop_offEnc (fuel : Nat) : ∀ {s : State}, s.phase ≠ .encDm → (qrLoop fuel s).phase ≠ .encDm := by
  induction fuel with
  | zero => exact id
  | succ fuel ih =>
    intro s h
    rw [qrLoop]
    split
    · exact ih (OffEnc.streamEnd (.qrIndicator _ _) _ _)
    all_goals exact h

/-- A command that is refused or runs to its end in one rule. -/
theorem State.ite_phase {c : Prop} [Decidable c] {a b : State} (ha : a.phase = .idle) (hb : b.phase = .idle) :
    (if c then a else b).phase ≠ .encDm := by
  split
  · rw [ha]; exact Phase.noConfusion
  · rw [hb]; exact Phase.noConfusion

/-- No command but ENC.DM leaves ENC.DM's main loop running. -/
theorem exec_offEnc {i : Instr} {s t : State} (hi : isCommand i = true) (hne : i ≠ .encDm) (h : exec i s = .next t) :
    t.phase ≠ .encDm := by
  cases i with
  | nop => cases h; exact Phase.noConfusion
  | encDm => exact absurd rfl hne
  | encQr => cases h; exact State.ite_phase (s.finish_phase ..) rfl
  | mapDm =>
    cases h
    split
    · exact Phase.noConfusion
    · rw [State.finish_phase]; exact Phase.noConfusion
  | mapQr => cases h; exact State.ite_phase (s.finish_phase ..) rfl
  | parDm => cases h; rw [State.finish_phase]; exact Phase.noConfusion
  | parQr mirror retry => cases h; rw [State.finish_phase]; exact Phase.noConfusion
  | decDm =>
    cases h
    split
    · exact dmLoop_offEnc _ Phase.noConfusion
    · exact Phase.noConfusion
  | decQr =>
    cases h
    split
    · exact qrLoop_offEnc _ Phase.noConfusion
    · exact Phase.noConfusion
  | fmtEnc => cases h; exact State.ite_phase rfl rfl
  | fmtDec => cases h; exact State.ite_phase (by split <;> rfl) rfl
  | verEnc => cases h; exact State.ite_phase rfl rfl
  | verDec => cases h; exact State.ite_phase (by split <;> rfl) rfl
  | pen => cases h; exact State.ite_phase rfl rfl
  | _ => cases hi

theorem runCodeword_offEnc {s t : State} (h : runCodeword s = .next t) : t.phase ≠ .encDm := by
  unfold runCodeword at h
  split at h
  · cases h; exact OffEnc.streamEnd (.error _) _ _
  · rw [exec_decodeCodeword] at h
    cases h
    exact OffEnc.streamEnd (.asciiCodeword _ _) _ _

theorem runIndicator_offEnc {s t : State} (h : runIndicator s = .next t) : t.phase ≠ .encDm := by
  rw [runIndicator, exec_decodeIndicator] at h
  cases h
  exact OffEnc.streamEnd (.qrIndicator _ _) _ _

end

/-! ### ENC.DM carried on from a guarded point -/

/-- A state that is guarded, and that holds no IllegalCharacter where it is idle. -/
structure State.Encodes (t : State) : Prop where
  code : t.phase = .idle → t.regs.err.code ≠ 6
  guarded : t.encGuarded

theorem State.encGuarded_iff (s : State) : s.encGuarded ↔ (s.phase = .encDm → Guarded s.encIn s.enc) :=
  forall_congr' fun _ => ⟨fun ⟨h1, h2⟩ => ⟨h1, h2⟩, fun ⟨h1, h2⟩ => ⟨h1, h2⟩⟩

theorem State.encGuarded_of_phase {s : State} (h : s.phase ≠ .encDm) : s.encGuarded := fun hp => absurd hp h

theorem State.Encodes.of_ended {t : State} (hp : t.phase = .idle) (hc : t.regs.err.code ≠ 6) : t.Encodes :=
  ⟨fun _ => hc, State.encGuarded_of_phase (by rw [hp]; exact Phase.noConfusion)⟩

theorem State.illegal_encodes (s : State) : s.illegal.Encodes := .of_ended rfl (by decide : (5 : BitVec 8) ≠ 6)

theorem Raise.OfCapacity.code {r : Raise} (h : r.OfCapacity) : r.exn.code ≠ 6 := by
  rcases h with h | h <;> rw [h] <;> decide

theorem modeOfNum_num (m : Mode) : modeOfNum (BitVec.ofNat 3 m.num).toNat = m := by cases m <;> rfl

/-- The registers hold a guarded point of the main loop where text is left: its index is a TCE_POS. -/
theorem Guarded.setEnc {s : State} {x : Enc} (hg : Guarded s.encIn x) (hm : encMore s.encIn x = true) :
    State.encGuarded { s.setEnc x with phase := .encDm } := by
  have hpos : x.pos < 2 ^ 16 := by
    have hlt : x.pos < s.encIn.txt.length - x.skip := of_decide_eq_true hm
    have hlen : s.encIn.txt.length = s.regs.txtLen.toNat := by simp [State.encIn, State.text, Buf.take]
    have := s.regs.txtLen.isLt
    omega
  have hback : (BitVec.ofNat 16 x.pos).toNat = x.pos := by rw [BitVec.toNat_ofNat, Nat.mod_eq_of_lt hpos]
  rw [State.encGuarded_iff]
  refine fun _ => ⟨?_, ?_⟩
  · change (if (newReg x.new).valid = true then _ else none) = none
    rw [hg.new]
    rfl
  · change Encodable (modeOfNum (BitVec.ofNat 3 x.mode.num).toNat) (s.text.drop (BitVec.ofNat 16 x.pos).toNat)
    rw [modeOfNum_num, hback]
    exact hg.group

theorem Guarded.encAdvance {s : State} (hg : Guarded s.encIn s.enc) (fuel : Nat) : (s.encAdvance fuel).Encodes := by
  unfold State.encAdvance
  rcases hg.encLoop fuel with ⟨x, done, hx, hgx, hm⟩ | ⟨r, hr, hcap⟩
  · rw [hx]
    cases done with
    | false => exact ⟨nofun, hgx.setEnc (hm rfl)⟩
    | true =>
      dsimp only
      split
      · exact .of_ended rfl (encTerminate_ofCapacity ‹_›).code
      · exact .of_ended rfl (by decide : (0 : BitVec 8) ≠ 6)
  · rw [hr]
    exact .of_ended rfl hcap.code

theorem State.encBegin_guarded (s : State) : Guarded s.encBegin.encIn s.encBegin.enc := by
  have h := s.encBegin_opening
  exact ⟨(h.ok (i := s.encBegin.encIn)).new, by rw [h.mode]; exact encodable_ascii _⟩

theorem execEncDm_encodes {s t : State} (h : exec .encDm s = .next t) : t.Encodes := by
  cases h
  split
  · exact s.encBegin_guarded.encAdvance _
  · exact s.illegal_encodes

/-! ### Every step (rule R518, R598) -/

/-- The state stands where the next step or round is one of ENC.DM. -/
def State.AtEncDm (s : State) : Prop := s.phase = .encDm ∨ (s.phase = .issued ∧ decodeCommand s.regs.cmd = .ok .encDm)

/-- A next state of the machine's own work is guarded, and holds no IllegalCharacter of ENC.DM. -/
def State.Continues (s t : State) : Prop := t.encGuarded ∧ (s.AtEncDm → t.phase = .idle → t.regs.err.code ≠ 6)

theorem State.Encodes.continues {s t : State} (h : t.Encodes) : s.Continues t := ⟨h.guarded, fun _ => h.code⟩

theorem State.Continues.of_off {s t : State} (hs : ¬ s.AtEncDm) (ht : t.phase ≠ .encDm) : s.Continues t :=
  ⟨State.encGuarded_of_phase ht, fun h => absurd h hs⟩

theorem State.not_atEncDm {s : State} (h1 : s.phase ≠ .encDm) (h2 : s.phase ≠ .issued) : ¬ s.AtEncDm := fun h =>
  h.elim h1 (fun h => h2 h.1)

/-- A command word of another command. -/
theorem State.not_atEncDm_of_issued {s : State} {i : Instr} (hd : decodeCommand s.regs.cmd = .ok i) (hp : s.phase = .issued)
    (hi : i ≠ .encDm) : ¬ s.AtEncDm := by
  rintro (hp' | ⟨-, hd'⟩)
  · rw [hp] at hp'; exact Phase.noConfusion hp'
  · rw [hd] at hd'; exact hi (Except.ok.inj hd')

/-- A command word issued. -/
theorem exec_continues {i : Instr} {s t : State} (hd : decodeCommand s.regs.cmd = .ok i) (hp : s.phase = .issued)
    (h : exec i s = .next t) : s.Continues t := by
  by_cases hi : i = .encDm
  · subst hi; exact (execEncDm_encodes h).continues
  · exact .of_off (State.not_atEncDm_of_issued hd hp hi) (exec_offEnc (decodeCommand_ok hd).2.1 hi h)

theorem run_continues {s t : State} (hg : s.encGuarded) (h : run s = .next t) : s.Continues t := by
  unfold run at h
  split at h
  · rename_i hp
    cases h
    exact .of_off (State.not_atEncDm (by simp [hp]) (by simp [hp])) (by simp [hp])
  · rename_i hp
    split at h
    · cases h; exact s.illegal_encodes.continues
    · exact exec_continues ‹_› hp h
  · rename_i hp
    cases h
    exact (((State.encGuarded_iff s).mp hg hp).encAdvance _).continues
  · rename_i hp
    exact .of_off (State.not_atEncDm (by simp [hp]) (by simp [hp])) (runCodeword_offEnc h)
  · rename_i hp
    cases h
    exact .of_off (State.not_atEncDm (by simp [hp]) (by simp [hp])) (OffEnc.streamEnd (.dmSegmentThen _ s) _ _)
  · rename_i hp
    exact .of_off (State.not_atEncDm (by simp [hp]) (by simp [hp])) (runIndicator_offEnc h)

theorem firstRound_continues {i : Instr} {s t : State} (hd : decodeCommand s.regs.cmd = .ok i) (hp : s.phase = .issued)
    (h : firstRound i s = .next t) : s.Continues t := by
  have off := State.not_atEncDm_of_issued hd hp
  unfold firstRound at h
  split at h
  · cases h
    exact ⟨(State.encGuarded_iff _).mpr fun _ => s.encBegin_guarded, nofun⟩
  split at h
  · rename_i hi
    cases h
    exact .of_off (off (by rw [hi.1]; exact Instr.noConfusion)) Phase.noConfusion
  split at h
  · rename_i hi
    cases h
    exact .of_off (off (by rw [hi.1]; exact Instr.noConfusion)) Phase.noConfusion
  · exact exec_continues hd hp h

theorem round_continues {s t : State} (hg : s.encGuarded) (h : round s = .next t) : s.Continues t := by
  by_cases hi : s.phase = .issued
  · simp only [round, hi] at h
    split at h
    · cases h; exact s.illegal_encodes.continues
    · exact firstRound_continues ‹_› hi h
  by_cases he : s.phase = .encDm
  · simp only [round, he] at h
    cases h
    exact (((State.encGuarded_iff s).mp hg he).encAdvance _).continues
  · exact run_continues hg (round_eq_run hi he ▸ h)

/-- Everything an action of the host can do: reset, a reading, nothing, WRBUSY set, or, while idle, what starts no main
loop. -/
theorem hostAct_cases (s : State) (a : HostAct) :
    hostAct s a = s.resetInput ∨ (∃ v n, hostAct s a = s.reading v n) ∨ hostAct s a = s ∨ hostAct s a = s.setWrbusy
      ∨ (s.phase = .idle ∧ (hostAct s a).phase ≠ .encDm) := by
  have idle : s.busy ≠ true → s.phase = .idle := fun hb => s.not_busy_iff.mp (Bool.not_eq_true _ ▸ hb)
  cases a with
  | regRead idx =>
    refine .inr (.inl ?_)
    change ∃ v n, s.regRead idx = _
    unfold State.regRead
    repeat' split
    all_goals exact ⟨_, _, rfl⟩
  | regWrite idx v =>
    change s.regWrite idx v = _ ∨ (∃ v' n, s.regWrite idx v = _) ∨ s.regWrite idx v = _ ∨ s.regWrite idx v = _
      ∨ (_ ∧ (s.regWrite idx v).phase ≠ _)
    unfold State.regWrite
    split
    · exact .inr (.inr (.inl rfl))
    split
    · exact .inr (.inr (.inr (.inl rfl)))
    rename_i hb
    split
    · exact .inr (.inr (.inr (.inr ⟨idle hb, Phase.noConfusion⟩)))
    · exact .inr (.inr (.inr (.inr ⟨idle hb, by rw [State.regStore_phase, idle hb]; exact Phase.noConfusion⟩)))
  | bufRead sp addr =>
    refine .inr (.inl ?_)
    change ∃ v n, s.bufRead sp addr = _
    unfold State.bufRead
    split
    · exact ⟨_, _, rfl⟩
    · exact ⟨_, _, rfl⟩
  | bufWrite sp addr v =>
    change s.bufWrite sp addr v = _ ∨ (∃ v' n, s.bufWrite sp addr v = _) ∨ s.bufWrite sp addr v = _
      ∨ s.bufWrite sp addr v = _ ∨ (_ ∧ (s.bufWrite sp addr v).phase ≠ _)
    unfold State.bufWrite
    split
    · exact .inr (.inr (.inl rfl))
    split
    · exact .inr (.inr (.inr (.inl rfl)))
    rename_i hb
    split
    · exact .inr (.inr (.inr (.inr ⟨idle hb, by change s.phase ≠ _; rw [idle hb]; exact Phase.noConfusion⟩)))
    · exact .inr (.inr (.inl rfl))
  | reset => exact .inl rfl

theorem State.AtEncDm.busy {s : State} (h : s.AtEncDm) : s.phase ≠ .idle := by
  rcases h with h | ⟨h, -⟩ <;> rw [h] <;> exact Phase.noConfusion

theorem hostAct_continues {s : State} (hg : s.encGuarded) (a : HostAct) : s.Continues (hostAct s a) := by
  have same : ∀ t : State, t.encGuarded → t.phase = s.phase → s.Continues t := fun t ht hp =>
    ⟨ht, fun h hi => absurd (hp ▸ hi) h.busy⟩
  rcases hostAct_cases s a with h | ⟨v, n, h⟩ | h | h | ⟨hp, h⟩
  · rw [h]; exact (State.Encodes.of_ended rfl (by decide : (0 : BitVec 8) ≠ 6)).continues
  · rw [h]; exact same _ hg rfl
  · rw [h]; exact same _ hg rfl
  · rw [h]; exact same _ hg rfl
  · exact ⟨State.encGuarded_of_phase h, fun h => absurd hp h.busy⟩

/-- The host's pending actions are no part of a running ENC.DM. -/
theorem State.Continues.of_host {s t : State} {rest : List HostEvent} (h : State.Continues { s with host := rest } t) :
    s.Continues t := h

theorem step_continues {s t : State} (hg : s.encGuarded) (h : step s = .next t) : s.Continues t := by
  cases hh : s.host with
  | nil =>
    unfold step at h
    rw [hh] at h
    exact run_continues hg h
  | cons e rest =>
    have hstep : hostStep e rest s = .next t := by unfold step at h; rwa [hh] at h
    unfold hostStep at hstep
    split at hstep
    · split at hstep
      · exact run_continues hg hstep
      · cases hstep; exact (hostAct_continues (s := { s with host := rest }) hg _).of_host
      · exact (round_continues (s := { s with host := ⟨e.act, some _⟩ :: rest }) hg hstep).of_host
    · cases hstep; exact (hostAct_continues (s := { s with host := rest }) hg _).of_host

/-- Settles O41: between two rounds the next group can be encoded in the current mode (`Guarded`), so every fault of a run is
one of capacity; and no step but one of ENC.DM enters its main loop. -/
theorem encDmNeverRaisesIllegalCharacter : Obligations.EncDmNeverRaisesIllegalCharacter := by
  unfold Obligations.EncDmNeverRaisesIllegalCharacter
  refine ⟨fun s t h => ?_, fun s t hg h => (step_continues hg h).1, fun s t hg h => (step_continues hg h).2⟩
  obtain ⟨hc, ht⟩ := execEncDm_encodes h
  exact ⟨hc, ht⟩

end Sys2Proof.Machine
end

section
/-! When ENC.DM ends in CapacityExceeded (40_tce_datamatrix.md rule R270, 60_exceptions.md rule R544). -/

namespace Sys2Proof.Machine

/-- The main loop has ended, and no permitted row holds its codewords (rule R205, R270). -/
theorem execEncDm_faults {s : State} (h : s.regs.cfgShape ≠ 3 ∧ s.regs.txtLen.toNat ≤ 8192) (hr : s.rom = romDefault) {x : Enc}
    (hl : encLoop s.encBegin.encIn (Config.fuelEncDm s.regs.txtLen.toNat) s.encBegin.enc = .ok (x, true))
    (hrow : dmLookup s.rom s.regs x.len = none) :
    ∃ t, exec .encDm s = .next t ∧ t.Faulted .capacityExceeded .tce x.pos := by
  refine ⟨_, execEncDm_of_legal h, ?_⟩
  rw [State.encAdvance, hl]
  dsimp only
  rw [encTerminate_of_none (i := s.encBegin.encIn) hr (hr ▸ hrow)]
  exact State.raise_faulted _ _ _ _ _

/-- With no permitted row at all, no end but CapacityExceeded: every fault of a run is one of capacity, the default tables know
no defect, and nothing completes. -/
theorem execEncDm_of_noRow {s t : State} (hr : s.rom = romDefault) (hshape : s.regs.cfgShape ≠ 3)
    (htxt : s.regs.txtLen.toNat ≤ 8192) (hnone : dmLookup s.rom s.regs 0 = none) (h : exec .encDm s = .next t)
    (hidle : t.phase = .idle) : ∃ info, t.Faulted .capacityExceeded .tce info := by
  rcases s.encBegin_guarded.encLoop (Config.fuelEncDm s.regs.txtLen.toNat) with ⟨x, done, hx, -, -⟩ | ⟨r, hl, hcap⟩
  · cases done with
    | false =>
      rw [execEncDm_of_legal ⟨hshape, htxt⟩, State.encAdvance, hx] at h
      cases h
      cases hidle
    | true =>
      obtain ⟨u, hu, hf⟩ := execEncDm_faults ⟨hshape, htxt⟩ hr hx (dmLookup_none_of_le hnone (Nat.zero_le _))
      rw [h] at hu
      cases hu
      exact ⟨_, hf⟩
  · have hlen : s.encBegin.encIn.txt.length ≤ Config.txtSize := s.text_length.trans_le htxt
    have hno : r.exn ≠ .internalDefect :=
      (encLoop_noDefect (i := s.encBegin.encIn) hr hlen _ _).of_error (Q := fun _ : Unit => True) hl
    rw [execEncDm_of_legal ⟨hshape, htxt⟩, State.encAdvance, hl] at h
    cases h
    rw [← hcap.resolve_right hno]
    exact ⟨_, State.raise_faulted _ _ _ _ _⟩

/-! ### A text of digits -/

section
variable {i : EncIn} {e : Enc}

/-- The last digit of a text is a character of its own (rule R220). -/
theorem encLoop_lastDigit {c : Nat} (hr : i.rom = romDefault) (hok : EncOk i e) (hmode : e.mode = .ascii)
    (hrest : encRest i e = [c]) (hc : isDigit c = true) (fuel : Nat) :
    ∃ x, encLoop i (fuel + 1) e = .ok (x, true) ∧ x.pos = e.pos + 1 ∧ x.len = e.len + 1 := by
  have hlt : c < 128 := by have := (isDigit_iff c).mp hc; omega
  have hshort : remCw [c] ≤ 2 := by unfold remCw; split <;> omega
  obtain ⟨hstep, hskip, -⟩ := asciiStep_spec hok hrest
  have hdisp : encDispatch i e = .ok (asciiStep i e) := by rw [encDispatch, hmode]
  rw [encLoop_round ((encMore_iff i e).mpr (by rw [hrest]; exact List.cons_ne_nil _ _)) hdisp (encOverflow_default hr _)]
  cases hstep with
  | digits d xs h => cases h
  | latch m hm verdict single => exact absurd (verdict.symm.trans (encLook_of_short hok hrest hshort single)) hm
  | upper hc' => omega
  | plain _ _ pos new emits =>
    have hdone : encMore i (takeNew (asciiStep i e)) = false := by
      rw [encMore_takeNew, encMore_eq_false, encRest_drop hskip pos, hrest]; rfl
    exact ⟨_, encLoop_done hdone fuel, (takeNew_pos _).trans pos, (takeNew_len _).trans emits.len⟩

/-- A text of digits, to its end: a codeword for every pair, and one for the last digit of an odd number. -/
theorem encLoop_digits (hr : i.rom = romDefault) (hok : EncOk i e) (hmode : e.mode = .ascii)
    (hdig : ∀ c ∈ encRest i e, isDigit c = true) (hfit : e.len + (encRest i e).length / 2 ≤ Config.cwSize) {fuel : Nat} (hfuel : (encRest i e).length / 2 < fuel) :
    ∃ x, encLoop i fuel e = .ok (x, true) ∧ x.pos = e.pos + (encRest i e).length
      ∧ x.len = e.len + ((encRest i e).length / 2 + (encRest i e).length % 2) := by
  have hpairs : ∀ ds : List Nat, (e.afterPairs ds).len = e.len + ds.length / 2 := fun ds => by
    rw [Enc.len, Enc.afterPairs, List.length_append, List.length_reverse, pairCodewords_length, Nat.add_comm]; rfl
  rcases Nat.mod_two_eq_zero_or_one (encRest i e).length with heven | hodd
  · refine ⟨_, encLoop_allPairs hdig heven hmode hok.new hfit hfuel.le, rfl, ?_⟩
    rw [hpairs, heven, Nat.add_zero]
  · obtain ⟨ds, c, hsplit⟩ := (List.eq_nil_or_concat' (encRest i e)).resolve_left (fun h => by rw [h] at hodd; cases hodd)
    have hlen : (encRest i e).length = ds.length + 1 := by rw [hsplit, List.length_append]; rfl
    obtain ⟨k, rfl⟩ : ∃ k, fuel = k + 1 + ds.length / 2 := ⟨fuel - 1 - ds.length / 2, by omega⟩
    have hrest : encRest i (e.afterPairs ds) = [c] := by
      rw [encRest_drop (e := e) (t := e.afterPairs ds) (n := ds.length) rfl rfl, hsplit, List.drop_left]
    have hpos : ds.length + 1 = encTotal i e - e.pos := by rw [← encRest_length, hlen]
    have hok' : EncOk i (e.afterPairs ds) := by
      refine ⟨hok.new, ?_, fun _ => .inl hmode, hok.tail⟩
      change e.pos + ds.length ≤ encTotal i e
      omega
    obtain ⟨x, hx, hxpos, hxlen⟩ := encLoop_lastDigit hr hok' hmode hrest (hdig c (by rw [hsplit]; simp)) k
    refine ⟨x, ?_, hxpos.trans ?_, hxlen.trans ?_⟩
    · rw [encLoop_pairs ds hsplit (fun d hd => hdig d (by rw [hsplit]; exact List.mem_append_left _ hd)) (by omega) hmode
        hok.new (by omega), hx]
    · rw [hlen]; rfl
    · rw [hpairs]; omega

end

/-- ENC.DM on digits that no permitted row holds. -/
theorem encDm_digits_faults {s : State} (hr : s.rom = romDefault) (hshape : s.regs.cfgShape ≠ 3)
    (htxt : s.regs.txtLen.toNat ≤ 8192)
    (hdig : ∀ j, j < s.regs.txtLen.toNat → 48 ≤ s.unitAt j ∧ s.unitAt j ≤ 57)
    (hnone : dmLookup s.rom s.regs (s.regs.txtLen.toNat / 2 + s.regs.txtLen.toNat % 2) = none) :
    ∃ t, exec .encDm s = .next t ∧ t.Faulted .capacityExceeded .tce s.regs.txtLen.toNat := by
  have hall := isDigit_text hdig
  obtain ⟨hmode, hpos, hskip, -, hrev⟩ := Opening.of_not_mem (s := s) (fun h => absurd (hall _ h) (by decide))
  have hrest := encRest_start hpos hskip
  have hlen : s.encBegin.enc.len = 0 := congrArg List.length hrev
  obtain ⟨x, hx, hxpos, hxlen⟩ := encLoop_digits (i := s.encBegin.encIn) (fuel := Config.fuelEncDm s.regs.txtLen.toNat) hr
    s.encBegin_opening.ok hmode (by rw [hrest]; exact hall)
    (by rw [hrest, s.text_length, hlen, Config.cwSize]; omega) (by rw [hrest, s.text_length, Config.fuelEncDm]; omega)
  rw [hrest, s.text_length, hlen, Nat.zero_add] at hxlen
  rw [hrest, s.text_length, hpos, Nat.zero_add] at hxpos
  rw [← hxpos]
  exact execEncDm_faults ⟨hshape, htxt⟩ hr hx (hxlen ▸ hnone)

/-! ### A run native to one mode -/

/-- ENC.DM on whole triplets of C40, Text or X12 that no permitted row holds. -/
theorem encDm_triplets_faults {s : State} {k : Nat} (hr : s.rom = romDefault) (hshape : s.regs.cfgShape ≠ 3)
    (hlen : s.regs.txtLen.toNat ≤ 8192) (hk : 2 ≤ k) (htxt : s.regs.txtLen.toNat = 3 * k)
    (hnone : dmLookup s.rom s.regs (2 * k + 1) = none)
    (hrun : (∀ j, j < 3 * k → 65 ≤ s.unitAt j ∧ s.unitAt j ≤ 90) ∨ (∀ j, j < 3 * k → 97 ≤ s.unitAt j ∧ s.unitAt j ≤ 122)
      ∨ (∀ j, j < 3 * k → s.unitAt j = 13 ∨ s.unitAt j = 42 ∨ s.unitAt j = 62)) :
    ∃ t, exec .encDm s = .next t ∧ t.Faulted .capacityExceeded .tce s.regs.txtLen.toNat := by
  rcases hrun with h | h | h
  · exact (tripletMode_c40.encDm hr hshape htxt hlen hk h).1 hnone
  · exact (tripletMode_text.encDm hr hshape htxt hlen hk h).1 hnone
  · exact (tripletMode_x12.encDm hr hshape htxt hlen hk h).1 hnone

end Sys2Proof.Machine
end

section
/-! When ENC.QR ends in IllegalCharacter or CapacityExceeded (41_tce_qr.md rule R285, rule R290; 60_exceptions.md rule R544,
rule R546). -/

namespace Sys2Proof.Machine

/-! ### The data bits (30_encoding.md rule R152 to R155) -/

/-- The two-byte code of pair `k` of a text. -/
def codeAt (txt : List Nat) (k : Nat) : Nat := 256 * txt.getD (2 * k) 0 + txt.getD (2 * k + 1) 0

theorem codeAt_cons_zero (hi lo : Nat) (rest : List Nat) : codeAt (hi :: lo :: rest) 0 = 256 * hi + lo := rfl

theorem kanjiGroup_eq_none_iff (code : Nat) : kanjiGroup code = none ↔ ¬ inKanjiRanges code := by
  unfold kanjiGroup inKanjiRanges
  split
  · simp [*]
  split
  · simp [*]
  · simp [*]

theorem kanjiGroup_of_ranges {code : Nat} (h : inKanjiRanges code) : ∃ g, kanjiGroup code = some g :=
  Option.ne_none_iff_exists'.mp (fun hn => (kanjiGroup_eq_none_iff code).mp hn h)

/-- The first pair outside the ranges is an IllegalCharacter at its index (60_exceptions.md rule R546). -/
theorem kanjiBits_illegal (j : Nat) : ∀ {txt : List Nat} (idx : Nat), 2 * j + 1 < txt.length → ¬ inKanjiRanges (codeAt txt j) →
    (∀ i, i < j → inKanjiRanges (codeAt txt i)) → kanjiBits idx txt = .error ⟨.illegalCharacter, idx + 2 * j⟩ := by
  induction j with
  | zero =>
    intro txt idx hlen hbad _
    match txt with
    | hi :: lo :: rest =>
      rw [codeAt_cons_zero, ← kanjiGroup_eq_none_iff] at hbad
      rw [kanjiBits, hbad]
      rfl
  | succ j ih =>
    intro txt idx hlen hbad hgood
    match txt with
    | hi :: lo :: rest =>
      obtain ⟨g, hg⟩ := kanjiGroup_of_ranges (hgood 0 (Nat.zero_lt_succ j))
      rw [codeAt_cons_zero] at hg
      have := ih (txt := rest) (idx + 2) (by simp only [List.length_cons] at hlen; omega) hbad
        (fun i hi => hgood (i + 1) (Nat.succ_lt_succ hi))
      rw [kanjiBits, hg]
      dsimp only
      rw [this, Nat.add_assoc, Nat.add_comm 2, ← Nat.mul_succ]

/-- Pairs inside the ranges take 13 bits each. -/
theorem kanjiBits_length : ∀ {txt : List Nat} (idx : Nat), (∀ k, 2 * k + 1 < txt.length → inKanjiRanges (codeAt txt k)) →
    ∃ d, kanjiBits idx txt = .ok d ∧ d.length = 13 * (txt.length / 2)
  | [], _, _ => ⟨[], rfl, rfl⟩
  | [_], _, _ => ⟨[], rfl, by simp⟩
  | hi :: lo :: rest, idx, h => by
    obtain ⟨g, hg⟩ := kanjiGroup_of_ranges (h 0 (by simp only [List.length_cons]; omega))
    obtain ⟨d, hd, hlen⟩ := kanjiBits_length (txt := rest) (idx + 2)
      (fun k hk => h (k + 1) (by simp only [List.length_cons]; omega))
    rw [codeAt_cons_zero] at hg
    refine ⟨bitsMsb g 13 ++ d, by rw [kanjiBits, hg]; dsimp only; rw [hd], ?_⟩
    rw [List.length_append, bitsMsb_length, hlen]
    simp only [List.length_cons]
    omega

theorem numBits_length : ∀ txt : List Nat, (numBits txt).length
    = 10 * (txt.length / 3) + (if txt.length % 3 = 0 then 0 else if txt.length % 3 = 1 then 4 else 7)
  | [] => rfl
  | [_] => by simp [numBits, bitsMsb_length]
  | [_, _] => by simp [numBits, bitsMsb_length]
  | a :: b :: c :: rest => by
    have hlen : (a :: b :: c :: rest).length = rest.length + 3 := rfl
    rw [numBits, List.length_append, bitsMsb_length, numBits_length rest, hlen, Nat.add_mod_right,
      Nat.add_div_right _ (by decide)]
    omega

theorem alnumBits_length : ∀ txt : List Nat, (alnumBits txt).length = 11 * (txt.length / 2) + 6 * (txt.length % 2)
  | [] => rfl
  | [_] => by simp [alnumBits, bitsMsb_length]
  | a :: b :: rest => by
    have hlen : (a :: b :: rest).length = rest.length + 2 := rfl
    rw [alnumBits, List.length_append, bitsMsb_length, alnumBits_length rest, hlen, Nat.add_mod_right,
      Nat.add_div_right _ (by decide)]
    omega

/-- The bits of `n` characters in mode `m`. -/
def QrMode.dataLength (m : QrMode) (n : Nat) : Nat :=
  match m with
  | .num => 10 * (n / 3) + (if n % 3 = 0 then 0 else if n % 3 = 1 then 4 else 7)
  | .alnum => 11 * (n / 2) + 6 * (n % 2)
  | .byte => 8 * n
  | .kanji => 13 * (n / 2)

theorem qrDataBits_length {m : QrMode} {txt : List Nat}
    (h : m = .kanji → ∀ k, 2 * k + 1 < txt.length → inKanjiRanges (codeAt txt k)) :
    ∃ d, qrDataBits m txt = .ok d ∧ d.length = m.dataLength txt.length := by
  cases m with
  | num => exact ⟨_, rfl, numBits_length txt⟩
  | alnum => exact ⟨_, rfl, alnumBits_length txt⟩
  | byte => exact ⟨_, rfl, codewordBits_length txt⟩
  | kanji => exact kanjiBits_length 0 (h rfl)

theorem qrHeader_length (m : QrMode) (eci : CfgEciReg) :
    (qrHeader m eci).length = if m = .byte ∧ eci.en = true then 16 else 4 := by
  rw [qrHeader, List.length_append, bitsMsb_length]
  split
  · rw [List.length_append, bitsMsb_length, bitsMsb_length]
  · rfl

/-! ### The command -/

/-- Neither pass of rule R285 fails on the default tables but for want of a version. -/
theorem qrAssemble_capacity {m : QrMode} {e cnt : Nat} {h d : List Bool}
    (hnone : qrPick romDefault (h.length + ccBits m.num4 1 + d.length) e = none
      ∨ ∃ prov, qrPick romDefault (h.length + ccBits m.num4 1 + d.length) e = some prov
        ∧ qrPick romDefault (h.length + ccBits m.num4 prov + d.length) e = none) :
    qrAssemble romDefault m e cnt h d = .error qrCapacityErr := by
  unfold qrAssemble
  dsimp only
  rw [qrQuery_default]
  rcases hnone with h1 | ⟨prov, h1, h2⟩
  · rw [h1]
  · rw [h1]
    dsimp only
    rw [qrQuery_default, h2]

/-- A fault of ENC.QR's rule is the command's. -/
theorem execEncQr_faults {s : State} {r : Raise} (h : s.regs.txtLen.toNat ≤ 8192)
    (hr : qrEncode s.rom s.regs.cfgQr s.regs.cfgEci s.text = .error r) :
    ∃ t, exec .encQr s = .next t ∧ t.Faulted r.exn .tce r.info := by
  refine ⟨_, rfl, ?_⟩
  rw [if_pos ((encQrLegal_iff _).mpr h), encQrBody, hr]
  exact State.raise_faulted _ _ _ _ _

/-- The pairs of TXT are those of the text. -/
theorem State.pairAt_eq (s : State) {k : Nat} (h : 2 * k + 1 < s.regs.txtLen.toNat) : s.pairAt (2 * k) = codeAt s.text k := by
  rw [State.pairAt, codeAt, List.getD_eq_getElem?_getD, List.getD_eq_getElem?_getD, s.text_getElem? (by omega), s.text_getElem? h]
  rfl

/-- A text classified as Kanji has an even length (rule R282). -/
theorem onlyKanjiLeads_even : ∀ {txt : List Nat}, onlyKanjiLeads txt = true → txt.length % 2 = 0
  | [], _ => rfl
  | _ :: _ :: rest, h => by
    have := onlyKanjiLeads_even (Bool.and_eq_true_iff.mp h).2
    simp only [List.length_cons]
    omega

theorem classifyScan_ne_kanji (txt : List Nat) : ∀ a b, classifyScan a b txt ≠ .kanji := by
  induction txt with
  | nil => decide
  | cons c rest ih =>
    intro a b
    rw [classifyScan]
    split
    · exact ih _ _
    split
    · exact ih _ _
    · exact QrMode.noConfusion

theorem even_of_kanji {sjis : Bool} {txt : List Nat} (h : qrClassify sjis txt = .kanji) : txt.length % 2 = 0 := by
  unfold qrClassify at h
  split at h
  · rename_i hk; exact onlyKanjiLeads_even (Bool.and_eq_true_iff.mp hk).2
  · exact absurd h (classifyScan_ne_kanji _ _ _)

theorem encQr_illegalCharacter {s : State} {j : Nat} (hlen : s.regs.txtLen.toNat ≤ 8192)
    (hm : qrClassify s.regs.cfgQr.sjis s.text = .kanji) (hj : 2 * j < s.regs.txtLen.toNat)
    (hbad : ¬ inKanjiRanges (s.pairAt (2 * j))) (hgood : ∀ i, i < j → inKanjiRanges (s.pairAt (2 * i))) :
    ∃ t, exec .encQr s = .next t ∧ t.Faulted .illegalCharacter .tce (2 * j) := by
  have heven := even_of_kanji hm
  rw [s.text_length] at heven
  refine execEncQr_faults (r := ⟨.illegalCharacter, 2 * j⟩) hlen ?_
  unfold qrEncode
  dsimp only
  rw [hm, qrDataBits, kanjiBits_illegal j 0 (by rw [s.text_length]; omega) (s.pairAt_eq (k := j) (by omega) ▸ hbad)
    (fun i hi => s.pairAt_eq (k := i) (by omega) ▸ hgood i hi), Nat.zero_add]

theorem encQr_capacityExceeded {s : State} {m : QrMode} {h n : Nat} (hr : s.rom = romDefault)
    (hlen : s.regs.txtLen.toNat ≤ 8192) (hm : m = qrClassify s.regs.cfgQr.sjis s.text)
    (hh : h = if m = .byte ∧ s.regs.cfgEci.en = true then 16 else 4) (hn : n = m.dataLength s.regs.txtLen.toNat)
    (hgood : m = .kanji → ∀ j, 2 * j < s.regs.txtLen.toNat → inKanjiRanges (s.pairAt (2 * j)))
    (hnone : qrPick s.rom (h + ccBits m.num4 1 + n) s.regs.cfgQr.ecl.toNat = none
      ∨ ∃ prov, qrPick s.rom (h + ccBits m.num4 1 + n) s.regs.cfgQr.ecl.toNat = some prov
        ∧ qrPick s.rom (h + ccBits m.num4 prov + n) s.regs.cfgQr.ecl.toNat = none) :
    ∃ t, exec .encQr s = .next t ∧ t.Faulted .capacityExceeded .tce 0 := by
  obtain ⟨d, hd, hdlen⟩ := qrDataBits_length (m := m) (txt := s.text) (fun hk k hk' => by
    rw [s.text_length] at hk'
    exact s.pairAt_eq hk' ▸ hgood hk k (by omega))
  rw [s.text_length, ← hn] at hdlen
  rw [← qrHeader_length] at hh
  refine execEncQr_faults (r := qrCapacityErr) hlen ?_
  rw [hr] at hnone ⊢
  unfold qrEncode
  dsimp only
  rw [← hm, hd]
  dsimp only
  rw [qrAssemble_capacity (by rw [← hh, hdlen]; exact hnone)]

/-- Settles O46: the main loop of ENC.DM ends where its codewords are known, and no row holds them; ENC.QR forms the data bits
first, and each pass of the version query may find no version. -/
theorem encodersFault : Obligations.EncodersFault := by
  unfold Obligations.EncodersFault
  refine ⟨fun s t hr hshape htxt hnone h hidle => execEncDm_of_noRow hr hshape htxt hnone h hidle, ?_, ?_, ?_, ?_⟩
  · rintro s n hr hshape rfl htxt (⟨hdig, hnone⟩ | ⟨hext, hn, hnone⟩)
    · exact encDm_digits_faults hr hshape htxt hdig hnone
    · exact (encDm_ext hr hshape htxt hn hext).1 hnone
  · rintro s k hr hshape hlen hk (⟨htxt, hnone, hrun⟩ | ⟨htxt, hnone, hrun⟩)
    · exact encDm_triplets_faults hr hshape hlen hk htxt hnone hrun
    · exact (encDm_onlyEdf hr hshape htxt hlen hk hrun).1 hnone
  · exact fun s j hlen hm hj hbad hgood => encQr_illegalCharacter hlen hm hj hbad hgood
  · rintro s m len h n hr rfl hlen hm hh hn hgood hnone
    exact encQr_capacityExceeded hr hlen hm hh (hn.trans (by cases m <;> rfl)) hgood hnone

end Sys2Proof.Machine
end
section
/-! The stream of CW as a list of bits (20_memory.md rule R85), and what ENC.QR puts there (41_tce_qr.md rule R286, rule R287). -/

namespace Sys2Proof.Machine

/-! ### The bits of a number -/

theorem bitsVal_div (bs : List Bool) : ∀ acc, bitsVal acc bs / 2 ^ bs.length = acc := by
  induction bs with
  | nil => intro acc; rw [bitsVal, List.length_nil, Nat.pow_zero, Nat.div_one]
  | cons b rest ih =>
    intro acc
    rw [bitsVal, List.length_cons, Nat.pow_succ, ← Nat.div_div_eq_div_mul, ih]
    cases b
    · exact Nat.mul_div_cancel_left acc (by decide)
    · exact Nat.mul_add_div (by decide) acc 1

/-- The bits a number was made from, read back. -/
theorem bitsMsb_bitsVal (bs : List Bool) : ∀ acc, bitsMsb (bitsVal acc bs) bs.length = bs := by
  induction bs with
  | nil => intro _; rfl
  | cons b rest ih =>
    intro acc
    have htop : (bitsVal (2 * acc + flagNat b) rest).testBit rest.length = b := by
      rw [← Nat.zero_add rest.length, ← Nat.testBit_div_two_pow, bitsVal_div]
      cases b <;> simp [flagNat, Nat.testBit_zero]
    rw [bitsVal, List.length_cons, bitsMsb, htop, ih]

/-- Whole bytes of bits, as codewords and as bits again. -/
theorem flatMap_bytesOfBits (n : Nat) : ∀ bits : List Bool, bits.length = 8 * n →
    (bytesOfBits bits).flatMap (fun c => bitsMsb c 8) = bits := by
  induction n with
  | zero => intro bits h; rw [List.length_eq_zero_iff.mp h]; rfl
  | succ n ih =>
    intro bits h
    match bits with
    | b1 :: b2 :: b3 :: b4 :: b5 :: b6 :: b7 :: b8 :: rest =>
      rw [bytesOfBits, List.flatMap_cons, ih rest (by simp only [List.length_cons] at h; omega)]
      exact congrArg (· ++ rest) (bitsMsb_bitsVal [b1, b2, b3, b4, b5, b6, b7, b8] 0)

/-! ### Bits the stream holds -/

section
variable {s t : State} {p v n : Nat} {a b : List Bool}

theorem State.streamBit_congr (hcw : t.mem.cw = s.mem.cw) (k : Nat) : t.streamBit k = s.streamBit k := by
  rw [State.streamBit, State.streamBit, hcw]

theorem State.streamHolds.congr (h : s.streamHolds p a) (hcw : t.mem.cw = s.mem.cw) (hlen : t.regs.cwLen = s.regs.cwLen) :
    t.streamHolds p a := by
  obtain ⟨hle, hbits⟩ := h
  exact ⟨hlen ▸ hle, fun k hk => (State.streamBit_congr hcw _).trans (hbits k hk)⟩

/-- Bits in two parts. -/
theorem State.streamHolds_append (s : State) (p : Nat) (a b : List Bool) (hp : p + a.length ≤ 8 * s.regs.cwLen.toNat) :
    s.streamHolds p (a ++ b) ↔ s.streamHolds p a ∧ s.streamHolds (p + a.length) b := by
  have hlen : (a ++ b).length = a.length + b.length := List.length_append
  unfold State.streamHolds
  constructor
  · rintro ⟨hle, h⟩
    refine ⟨⟨hp, fun k hk => ?_⟩, by omega, fun k hk => ?_⟩
    · rw [h k (by omega), List.getElem_append_left hk]
    · rw [Nat.add_assoc, h (a.length + k) (by omega), List.getElem_append_right (by omega)]
      simp only [Nat.add_sub_cancel_left]
  · rintro ⟨⟨-, ha⟩, hle, hb⟩
    refine ⟨by omega, fun k hk => ?_⟩
    by_cases hka : k < a.length
    · rw [ha k hka, List.getElem_append_left hka]
    · rw [List.getElem_append_right (by omega), ← hb (k - a.length) (by omega)]
      congr 1
      omega

theorem State.streamHolds.append (h : s.streamHolds p (a ++ b)) : s.streamHolds p a ∧ s.streamHolds (p + a.length) b := by
  refine (State.streamHolds_append s p a b ?_).mp h
  have := h.1
  rw [List.length_append] at this
  omega

theorem State.streamHolds.avail (h : s.streamHolds s.work.bp a) : a.length ≤ s.avail := by
  have := h.1
  rw [State.avail_eq]
  omega

theorem State.streamField_bitsMsb (n : Nat) : ∀ {p : Nat} (acc : Nat), s.streamHolds p (bitsMsb v n) →
    s.streamField acc p n = acc * 2 ^ n + v % 2 ^ n := by
  induction n with
  | zero => intro p acc _; rw [State.streamField, Nat.pow_zero, Nat.mul_one, Nat.mod_one, Nat.add_zero]
  | succ n ih =>
    intro p acc h
    have hbit : s.streamBit p = v.testBit n := h.2 0 (by rw [bitsMsb_length]; omega)
    have hrest : s.streamHolds (p + 1) (bitsMsb v n) := (State.streamHolds.append (a := [v.testBit n]) h).2
    have htop : flagNat (v.testBit n) = v / 2 ^ n % 2 := by
      rw [Nat.testBit_eq_decide_div_mod_eq, flagNat]
      split <;> simp only [decide_eq_true_eq] at * <;> omega
    rw [State.streamField, ih _ hrest, hbit, htop, Nat.mod_pow_succ, Nat.pow_succ]
    ring

/-- A field that holds a number reads as the number (20_memory.md rule R85). -/
theorem State.streamHolds.field (h : s.streamHolds p (bitsMsb v n)) (hv : v < 2 ^ n) : s.streamField 0 p n = v := by
  rw [State.streamField_bitsMsb n 0 h, Nat.zero_mul, Nat.zero_add, Nat.mod_eq_of_lt hv]

theorem State.streamHolds.readBits (h : s.streamHolds s.work.bp (bitsMsb v n)) (hv : v < 2 ^ n) :
    s.readBits n = .ok (v, s.advance n) := by
  have hn := h.avail
  rw [bitsMsb_length] at hn
  rw [State.readBits_ok hn, h.field hv]

end

/-! ### Codewords as bits -/

theorem getElem_bitsMsb (v n k : Nat) (h : k < (bitsMsb v n).length) : (bitsMsb v n)[k] = v.testBit (n - 1 - k) := by
  induction n generalizing k with
  | zero => exact absurd h (Nat.not_lt_zero k)
  | succ n ih =>
    cases k with
    | zero => rfl
    | succ k =>
      simp only [bitsMsb, List.getElem_cons_succ]
      rw [ih, show n + 1 - 1 - (k + 1) = n - 1 - k from by omega]

/-- A codeword in the stream, bit by bit. -/
theorem State.streamHolds_codeword {s : State} {i : Nat} (c : Nat) (h : s.mem.cw.read i = BitVec.ofNat 8 c)
    (hi : i < s.regs.cwLen.toNat) : s.streamHolds (8 * i) (bitsMsb c 8) := by
  refine ⟨by rw [bitsMsb_length]; omega, fun k hk => ?_⟩
  rw [bitsMsb_length] at hk
  rw [getElem_bitsMsb, State.streamBit, show (8 * i + k) / 8 = i from by omega, show (8 * i + k) % 8 = k from by omega, h,
    BitVec.getMsbD_eq_getLsbD, BitVec.getLsbD_ofNat, decide_eq_true hk, decide_eq_true (by omega), Bool.true_and,
    Bool.true_and]

theorem State.streamHolds_codewords {s : State} (cws : List Nat) : ∀ {i : Nat},
    (∀ k (hk : k < cws.length), s.mem.cw.read (i + k) = BitVec.ofNat 8 cws[k]) → i + cws.length ≤ s.regs.cwLen.toNat →
    s.streamHolds (8 * i) (cws.flatMap (fun c => bitsMsb c 8)) := by
  induction cws with
  | nil => exact fun _ hle => ⟨by simpa using hle, fun k hk => absurd hk (Nat.not_lt_zero k)⟩
  | cons c rest ih =>
    intro i hread hle
    rw [List.length_cons] at hle
    rw [List.flatMap_cons, State.streamHolds_append _ _ _ _ (by rw [bitsMsb_length]; omega), bitsMsb_length]
    refine ⟨State.streamHolds_codeword c (hread 0 (Nat.succ_pos _)) (by omega), ih (i := i + 1) (fun k hk => ?_) (by omega)⟩
    have := hread (k + 1) (by rw [List.length_cons]; omega)
    rwa [show i + (k + 1) = i + 1 + k from by omega] at this

/-- The codewords of a command's result, as bits of the stream. -/
theorem State.setCw_streamHolds (s : State) {cws : List Nat} (h : cws.length ≤ Config.cwSize) :
    (s.setCw cws).streamHolds 0 (cws.flatMap (fun c => bitsMsb c 8)) := by
  refine State.streamHolds_codewords (i := 0) cws (fun k hk => ?_) ?_
  · rw [State.setCw_mem, Nat.zero_add, Buf.read_ofList _ _ _ (by rwa [List.length_map]), List.getElem_map]
  · simp only [Config.cwSize] at h
    simp only [State.setCw_regs, BitVec.toNat_ofNat]
    omega

/-! ### Terminator, fill and pads (rule R287) -/

theorem getElem_qrPads (n : Nat) : ∀ (even : Bool) (k : Nat) (h : k < (qrPads n even).length),
    (qrPads n even)[k] = if (k % 2 = 0) = (even = true) then 0xEC else 0x11 := by
  induction n with
  | zero => exact fun _ k h => absurd h (Nat.not_lt_zero k)
  | succ n ih =>
    intro even k h
    cases k with
    | zero => simp [qrPads]
    | succ k =>
      simp only [qrPads, List.getElem_cons_succ, ih]
      cases even <;> rcases Nat.mod_two_eq_zero_or_one k with hk | hk <;> simp [Nat.add_mod, hk]

/-- The codeword behind `n` bits, their terminator and the fill to the boundary (rule R287). -/
def qrPadStart (cap n : Nat) : Nat := (n + min 4 (8 * cap - n) + 7) / 8

theorem qrFill_eq {cap : Nat} {bits : List Bool} (h : bits.length ≤ 8 * cap) :
    qrFill cap bits = bytesOfBits (bits ++ List.replicate (8 * qrPadStart cap bits.length - bits.length) false)
      ++ qrPads (cap - qrPadStart cap bits.length) true := by
  have hz : min 4 (8 * cap - bits.length) + (8 - (bits.length + min 4 (8 * cap - bits.length)) % 8) % 8
      = 8 * qrPadStart cap bits.length - bits.length := by unfold qrPadStart; omega
  have hp : bits.length ≤ 8 * qrPadStart cap bits.length := by unfold qrPadStart; omega
  unfold qrFill
  dsimp only
  rw [List.append_assoc, List.length_append, List.length_replicate, List.replicate_append_replicate, hz, List.length_append,
    List.length_replicate, Nat.add_sub_cancel' hp, Nat.mul_div_cancel_left _ (by decide)]

end Sys2Proof.Machine
end
section
/-! What a completed ENC.QR leaves (41_tce_qr.md rule R285 to rule R287). -/

namespace Sys2Proof.Machine

/-! ### The stream of a fill (rule R287) -/

section
variable {cap : Nat} {bits : List Bool}

theorem qrPadStart_bounds (h : bits.length ≤ 8 * cap) :
    bits.length ≤ 8 * qrPadStart cap bits.length ∧ qrPadStart cap bits.length ≤ cap := by
  unfold qrPadStart
  omega

theorem length_append_zeros (h : bits.length ≤ 8 * cap) :
    (bits ++ List.replicate (8 * qrPadStart cap bits.length - bits.length) false).length
      = 8 * qrPadStart cap bits.length := by
  rw [List.length_append, List.length_replicate, Nat.add_sub_cancel' (qrPadStart_bounds h).1]

/-- The stream begins with the bits and 0 bits to the boundary. -/
theorem State.setCw_qrFill_streamHolds (s : State) (h : bits.length ≤ 8 * cap) (hcap : cap ≤ Config.cwSize) :
    (s.setCw (qrFill cap bits)).streamHolds 0
      (bits ++ List.replicate (8 * qrPadStart cap bits.length - bits.length) false) := by
  have hs := s.setCw_streamHolds (cws := qrFill cap bits) (by rwa [qrFill_length h])
  have hall := flatMap_bytesOfBits (qrPadStart cap bits.length) _ (length_append_zeros h)
  rw [congrArg (List.flatMap _) (qrFill_eq h), List.flatMap_append, hall] at hs
  exact hs.append.1

theorem State.setCw_qrFill_padded (s : State) (h : bits.length ≤ 8 * cap) (hcap : cap ≤ Config.cwSize) :
    (s.setCw (qrFill cap bits)).qrPadded bits.length cap := by
  refine ⟨qrPadStart cap bits.length, rfl, (qrPadStart_bounds h).2, fun k hk hk' => ?_, fun j hj hj' => ?_⟩
  · have hbit := (s.setCw_qrFill_streamHolds h hcap).2 k (by rwa [length_append_zeros h])
    rw [Nat.zero_add] at hbit
    rw [hbit, List.getElem_append_right hk, List.getElem_replicate]
  · have hlen : (bytesOfBits (bits ++ List.replicate (8 * qrPadStart cap bits.length - bits.length) false)).length
        = qrPadStart cap bits.length :=
      bytesOfBits_length _ _ (by rw [length_append_zeros h, Nat.mul_div_cancel_left _ (by decide)])
    have hread : (qrFill cap bits)[j]'(by rwa [qrFill_length h])
        = if (j - qrPadStart cap bits.length) % 2 = 0 then 0xEC else 0x11 := by
      simp only [qrFill_eq h]
      rw [List.getElem_append_right (by rwa [hlen]), getElem_qrPads]
      simp only [hlen, eq_iff_iff, iff_true]
    rw [State.cwAt, State.setCw_mem, Buf.read_ofList _ _ _ (by rw [List.length_map, qrFill_length h]; exact hj'),
      List.getElem_map, hread]
    split <;> rfl

end

/-! ### The command -/

/-- Header, count and data (rule R286). -/
def qrStream (m : QrMode) (v : Nat) (eci : CfgEciReg) (txt : List Nat) (d : List Bool) : List Bool :=
  qrHeader m eci ++ bitsMsb (qrCount m txt) (ccBits m.num4 v) ++ d

theorem qrStream_length (m : QrMode) (v : Nat) (eci : CfgEciReg) (txt : List Nat) (d : List Bool) :
    (qrStream m v eci txt d).length = (qrHeader m eci).length + ccBits m.num4 v + d.length := by
  rw [qrStream, List.length_append, List.length_append, bitsMsb_length]

/-- The version query answers with a version. -/
theorem qrQuery_verLegal {rom : Rom} {nbits e v : Nat} (h : qrQuery rom nbits e = .ok v) : verLegal v = true := by
  unfold qrQuery at h
  split at h
  · cases h
  split at h
  · cases h
  · rename_i hp; cases h; exact qrPick_verLegal hp

/-- What an assembled stream is: it fits its version, and so does its count. -/
theorem qrAssemble_cases {rom : Rom} {m : QrMode} {e cnt v : Nat} {h d : List Bool} {cws : List Nat}
    (ha : qrAssemble rom m e cnt h d = .ok (v, cws)) :
    verLegal v = true ∧ cnt < 2 ^ ccBits m.num4 v
      ∧ (h ++ bitsMsb cnt (ccBits m.num4 v) ++ d).length ≤ 8 * qrData rom v e
      ∧ cws = qrFill (qrData rom v e) (h ++ bitsMsb cnt (ccBits m.num4 v) ++ d) := by
  unfold qrAssemble at ha
  dsimp only at ha
  split at ha
  · cases ha
  split at ha
  · cases ha
  rename_i hq
  split at ha
  · cases ha
  split at ha
  · cases ha
  · cases ha
    exact ⟨qrQuery_verLegal hq, by omega, by omega, rfl⟩

/-- What ENC.QR chooses for the text of `s`: mode `m`, version `v` and the data bits `d`, with a count that fits its field and a
stream that fits the version and CW. -/
structure QrChoice (s : State) (m : QrMode) (v : Nat) (d : List Bool) : Prop where
  mode : m = qrClassify s.regs.cfgQr.sjis s.text
  data : qrDataBits m s.text = .ok d
  legal : verLegal v = true
  count : qrCount m s.text < 2 ^ ccBits m.num4 v
  fits : (qrStream m v s.regs.cfgEci s.text d).length ≤ 8 * qrData s.rom v s.regs.cfgQr.ecl.toNat
  cwFits : qrData s.rom v s.regs.cfgQr.ecl.toNat ≤ Config.cwSize

/-- ENC.QR completed with version `v` and the data bits `d` in mode `m`. -/
def State.encodedQr (s : State) (m : QrMode) (v : Nat) (d : List Bool) : State :=
  State.complete { s.setCw (qrFill (qrData s.rom v s.regs.cfgQr.ecl.toNat) (qrStream m v s.regs.cfgEci s.text d)) with
    regs := { (s.setCw (qrFill (qrData s.rom v s.regs.cfgQr.ecl.toNat) (qrStream m v s.regs.cfgEci s.text d))).regs with
      ver := BitVec.ofNat 6 v
      resMode := BitVec.ofNat 4 m.num4 } }

theorem qrEncode_cases {s : State} {m : QrMode} {v : Nat} {cws : List Nat}
    (h : qrEncode s.rom s.regs.cfgQr s.regs.cfgEci s.text = .ok (m, v, cws)) (hcw : cws.length ≤ Config.cwSize) :
    ∃ d, QrChoice s m v d
      ∧ cws = qrFill (qrData s.rom v s.regs.cfgQr.ecl.toNat) (qrStream m v s.regs.cfgEci s.text d) := by
  have hlen := qrEncode_length h
  unfold qrEncode at h
  dsimp only at h
  split at h
  · cases h
  rename_i d hd
  split at h
  · cases h
  · rename_i ha
    cases h
    obtain ⟨hv, hcnt, hfits, hcws⟩ := qrAssemble_cases ha
    exact ⟨d, ⟨rfl, hd, hv, hcnt, hfits, hlen ▸ hcw⟩, hcws⟩

/-- ENC.QR completes only with the stream of a choice. -/
theorem execEncQr_completed {s t : State} (h : exec .encQr s = .next t) (hc : t.Completed) :
    s.regs.txtLen.toNat ≤ 8192 ∧ ∃ m v d, QrChoice s m v d ∧ t = s.encodedQr m v d := by
  obtain ⟨-, -, hnoerr, -⟩ := hc
  change execEncQr s = _ at h
  unfold execEncQr at h
  split at h
  case isFalse => cases h; exact absurd hnoerr (by simp [Status.atFault])
  case isTrue hl =>
  refine ⟨(encQrLegal_iff _).mp hl, ?_⟩
  cases h
  have faulted : ∀ r : Raise, (s.finish .tce (writeSet .encQr) (.error r)).regs.status.error = true := fun r =>
    (State.raise_faulted s r.exn .tce r.info (writeSet .encQr)).2.2.1
  cases he : encQrBody s with
  | error r => rw [he, faulted] at hnoerr; cases hnoerr
  | ok u =>
    unfold encQrBody at he
    split at he
    · cases he
    rename_i m v cws hq
    split at he
    · cases he
    rename_i hcw
    obtain ⟨d, hd, rfl⟩ := qrEncode_cases hq (Nat.not_lt.mp hcw)
    cases he
    exact ⟨m, v, d, hd, rfl⟩

section
variable {s : State} {m : QrMode} {v : Nat} {d : List Bool}

theorem State.encodedQr_completed (s : State) (m : QrMode) (v : Nat) (d : List Bool) : (s.encodedQr m v d).Completed :=
  State.complete_completed _

theorem QrChoice.ver (h : QrChoice s m v d) : (s.encodedQr m v d).regs.ver.toNat = v := by
  have := (verLegal_iff v).mp h.legal
  change (BitVec.ofNat 6 v).toNat = v
  rw [BitVec.toNat_ofNat]
  omega

theorem State.encodedQr_resMode (s : State) (m : QrMode) (v : Nat) (d : List Bool) :
    (s.encodedQr m v d).regs.resMode.toNat = m.num4 := by
  cases m <;> rfl

theorem QrChoice.cwLen (h : QrChoice s m v d) :
    (s.encodedQr m v d).regs.cwLen.toNat = qrData s.rom v s.regs.cfgQr.ecl.toNat := by
  have hle := h.cwFits
  simp only [Config.cwSize] at hle
  change (BitVec.ofNat 16 (qrFill _ _).length).toNat = _
  rw [qrFill_length h.fits, BitVec.toNat_ofNat]
  omega

theorem QrChoice.streamHolds (h : QrChoice s m v d) :
    (s.encodedQr m v d).streamHolds 0 (qrStream m v s.regs.cfgEci s.text d) :=
  (s.setCw_qrFill_streamHolds h.fits h.cwFits).append.1.congr rfl rfl

theorem QrChoice.padded (h : QrChoice s m v d) :
    (s.encodedQr m v d).qrPadded (qrStream m v s.regs.cfgEci s.text d).length (s.encodedQr m v d).regs.cwLen.toNat := by
  rw [h.cwLen]
  exact s.setCw_qrFill_padded h.fits h.cwFits

/-- The indicator is the header's last four bits (rule R283). -/
theorem qrHeader_indicator {t : State} {eci : CfgEciReg} (h : t.streamHolds 0 (qrHeader m eci)) :
    t.streamHolds ((qrHeader m eci).length - 4) (bitsMsb m.num4 4) := by
  have hind := (State.streamHolds.append h).2
  rw [qrHeader, List.length_append, bitsMsb_length, Nat.add_sub_cancel]
  rwa [Nat.zero_add] at hind

/-- The header, the count and the data, each at its place. -/
theorem QrChoice.parts (h : QrChoice s m v d) :
    (s.encodedQr m v d).streamHolds 0 (qrHeader m s.regs.cfgEci)
      ∧ (s.encodedQr m v d).streamHolds (qrHeader m s.regs.cfgEci).length (bitsMsb (qrCount m s.text) (ccBits m.num4 v))
      ∧ (s.encodedQr m v d).streamHolds ((qrHeader m s.regs.cfgEci).length + ccBits m.num4 v) d := by
  obtain ⟨hhc, hdata⟩ := State.streamHolds.append h.streamHolds
  obtain ⟨hhead, hcount⟩ := hhc.append
  rw [Nat.zero_add] at hcount hdata
  rw [List.length_append, bitsMsb_length] at hdata
  exact ⟨hhead, hcount, hdata⟩

end

end Sys2Proof.Machine
end
section
/-! The segments of DEC.QR on the data bits ENC.QR makes of a text (45_bsp_qr.md rule R438 to rule R440). -/

namespace Sys2Proof.Machine

/-! ### A group of characters -/

/-- The state behind `n` bits that wrote the code units `cs`. -/
def State.wrote (s : State) (n : Nat) (cs : List Nat) : State := (s.advance n).appended (cs.map (BitVec.ofNat 8))

section
variable {s : State} {cs ds : List Nat} {m n : Nat}

theorem State.wrote_nil (s : State) : s.wrote 0 [] = s := State.appended_nil s

theorem State.wrote_outLen (h : s.regs.outLen.toNat + cs.length ≤ Config.outSize) (n : Nat) :
    (s.wrote n cs).regs.outLen.toNat = s.regs.outLen.toNat + cs.length := by
  rw [State.wrote, State.appended_outLen (by rwa [List.length_map]), List.length_map]
  rfl

/-- Two reads with their output are one. -/
theorem State.wrote_wrote (h : s.regs.outLen.toNat + (cs ++ ds).length ≤ Config.outSize) :
    (s.wrote m cs).wrote n ds = s.wrote (m + n) (cs ++ ds) := by
  rw [List.length_append] at h
  simp only [Config.outSize] at h
  have hroom : ((s.advance m).advance n).regs.outLen.toNat + (cs.map (BitVec.ofNat 8)).length < 65536 := by
    rw [List.length_map]
    exact (by omega : s.regs.outLen.toNat + cs.length < 65536)
  rw [State.wrote, State.wrote, State.wrote, ← State.advance_advance, List.map_append,
    ← State.appended_append _ _ _ hroom]
  rfl

/-- What is left behind the first part of a segment: its bits, and room for its characters. -/
theorem State.wrote_rest {a b : List Bool} (hs : s.streamHolds s.work.bp (a ++ b))
    (hroom : s.regs.outLen.toNat + (cs ++ ds).length ≤ Config.outSize) :
    (s.wrote a.length cs).streamHolds (s.wrote a.length cs).work.bp b
      ∧ (s.wrote a.length cs).regs.outLen.toNat + ds.length ≤ Config.outSize := by
  rw [List.length_append] at hroom
  refine ⟨State.streamHolds.congr (s := s) hs.append.2 rfl rfl, ?_⟩
  rw [State.wrote_outLen (by omega)]
  omega

/-- A group whose number is in its range (rule R438). -/
theorem numGroup_ok {bits limit v : Nat} {digits : Nat → List Nat} (hs : s.streamHolds s.work.bp (bitsMsb v bits))
    (hv : v < limit) (hl : limit ≤ 2 ^ bits) (hcs : digits v = cs)
    (hroom : s.regs.outLen.toNat + cs.length ≤ Config.outSize) :
    numGroup bits limit digits s = .ok (s.wrote bits cs) := by
  rw [numGroup, hs.readBits (hv.trans_le hl)]
  dsimp only
  rw [if_neg (Nat.not_le.mpr hv), hcs, State.outAll_ok _ (by rwa [List.length_map]), State.wrote]

/-- A group, and what is left behind it. -/
theorem numGroup_rest {bits limit v : Nat} {digits : Nat → List Nat} {b : List Bool}
    (hs : s.streamHolds s.work.bp (bitsMsb v bits ++ b)) (hv : v < limit) (hl : limit ≤ 2 ^ bits) (hcs : digits v = cs)
    (hroom : s.regs.outLen.toNat + (cs ++ ds).length ≤ Config.outSize) :
    numGroup bits limit digits s = .ok (s.wrote bits cs) ∧ (s.wrote bits cs).streamHolds (s.wrote bits cs).work.bp b
      ∧ (s.wrote bits cs).regs.outLen.toNat + ds.length ≤ Config.outSize := by
  refine ⟨numGroup_ok hs.append.1 hv hl hcs ?_, ?_⟩
  · rw [List.length_append] at hroom; omega
  · have := State.wrote_rest hs hroom
    rwa [bitsMsb_length] at this

end

/-! ### Digits (rule R438) -/

/-- A numeric segment gives back the digits whose bits it holds. -/
theorem numSeg_numBits : ∀ {cs : List Nat} {s : State}, (∀ c ∈ cs, 48 ≤ c ∧ c ≤ 57) →
    s.streamHolds s.work.bp (numBits cs) → s.regs.outLen.toNat + cs.length ≤ Config.outSize →
    numSeg cs.length s = .ok (s.wrote (numBits cs).length cs)
  | [], s, _, _, _ => congrArg Except.ok (State.wrote_nil s).symm
  | [a], s, hd, hs, hroom => by
    have ha := hd a (by simp)
    exact numGroup_ok hs (by omega) (by decide) (by rw [Nat.add_sub_cancel' ha.1]) hroom
  | [a, b], s, hd, hs, hroom => by
    have ha := hd a (by simp)
    have hb := hd b (by simp)
    have h1 : 48 + (10 * (a - 48) + (b - 48)) / 10 = a := by omega
    have h2 : 48 + (10 * (a - 48) + (b - 48)) % 10 = b := by omega
    exact numGroup_ok hs (by omega) (by decide) (by rw [h1, h2]) hroom
  | a :: b :: c :: rest, s, hd, hs, hroom => by
    have ha := hd a (by simp)
    have hb := hd b (by simp)
    have hc := hd c (by simp)
    have h1 : 48 + (100 * (a - 48) + 10 * (b - 48) + (c - 48)) / 100 = a := by omega
    have h2 : 48 + (100 * (a - 48) + 10 * (b - 48) + (c - 48)) / 10 % 10 = b := by omega
    have h3 : 48 + (100 * (a - 48) + 10 * (b - 48) + (c - 48)) % 10 = c := by omega
    obtain ⟨hgroup, hrest, hroom'⟩ := numGroup_rest (cs := [a, b, c]) (ds := rest) (limit := 1000)
      (digits := fun v => [48 + v / 100, 48 + (v / 10) % 10, 48 + v % 10]) hs (by omega) (by decide)
      (by rw [h1, h2, h3]) hroom
    have ih := numSeg_numBits (fun x hx => hd x (by simp [hx])) hrest hroom'
    rw [List.length_cons, List.length_cons, List.length_cons, numSeg, hgroup]
    dsimp only
    rw [ih, State.wrote_wrote hroom, numBits, List.length_append, bitsMsb_length]
    rfl

/-! ### Characters of ALNUM (rule R439) -/

/-- A character, its value and back. -/
theorem alnumChar_alnumVal {c : Nat} (h : (alnum c).isSome = true) : alnumVal c < 45 ∧ alnumChar (alnumVal c) = c := by
  obtain ⟨x, hx⟩ := Option.isSome_iff_exists.mp h
  rw [alnumVal, hx]
  exact alnumChar_alnum hx

/-- An alphanumeric segment gives back the characters whose bits it holds. -/
theorem alnumChars_alnumBits : ∀ {cs : List Nat} {s : State}, (∀ c ∈ cs, (alnum c).isSome = true) →
    s.streamHolds s.work.bp (alnumBits cs) → s.regs.outLen.toNat + cs.length ≤ Config.outSize →
    alnumChars cs.length s = .ok (s.wrote (alnumBits cs).length cs)
  | [], s, _, _, _ => congrArg Except.ok (State.wrote_nil s).symm
  | [a], s, hd, hs, hroom => by
    obtain ⟨ha, hca⟩ := alnumChar_alnumVal (hd a (by simp))
    exact numGroup_ok hs ha (by decide) (by rw [hca]) hroom
  | a :: b :: rest, s, hd, hs, hroom => by
    obtain ⟨ha, hca⟩ := alnumChar_alnumVal (hd a (by simp))
    obtain ⟨hb, hcb⟩ := alnumChar_alnumVal (hd b (by simp))
    have hdiv : (45 * alnumVal a + alnumVal b) / 45 = alnumVal a := by omega
    have hmod : (45 * alnumVal a + alnumVal b) % 45 = alnumVal b := by omega
    obtain ⟨hgroup, hrest, hroom'⟩ := numGroup_rest (cs := [a, b]) (ds := rest) (limit := 2025)
      (digits := fun v => [alnumChar (v / 45), alnumChar (v % 45)]) hs (by omega) (by decide)
      (by rw [hdiv, hmod, hca, hcb]) hroom
    have ih := alnumChars_alnumBits (fun x hx => hd x (by simp [hx])) hrest hroom'
    rw [List.length_cons, List.length_cons, alnumChars, hgroup]
    dsimp only
    rw [ih, State.wrote_wrote hroom, alnumBits, List.length_append, bitsMsb_length]
    rfl

/-- With no FNC1 indicator in effect nothing is escaped. -/
theorem alnumSeg_alnumBits {cs : List Nat} {s : State} (hc : ∀ c ∈ cs, (alnum c).isSome = true)
    (hs : s.streamHolds s.work.bp (alnumBits cs)) (hroom : s.regs.outLen.toNat + cs.length ≤ Config.outSize)
    (hf : s.work.fnc1 = 0) : alnumSeg cs.length s = .ok (s.wrote (alnumBits cs).length cs) := by
  rw [alnumSeg, alnumChars_alnumBits hc hs hroom]
  exact if_pos hf

/-! ### Bytes (rule R440) -/

theorem byteChars_bytes : ∀ {cs : List Nat} {s : State}, (∀ c ∈ cs, c < 256) →
    s.streamHolds s.work.bp (cs.flatMap (fun c => bitsMsb c 8)) → s.regs.outLen.toNat + cs.length ≤ Config.outSize →
    byteChars cs.length s = .ok (s.wrote (8 * cs.length) cs)
  | [], s, _, _, _ => congrArg Except.ok (State.wrote_nil s).symm
  | c :: rest, s, hb, hs, hroom => by
    rw [List.flatMap_cons] at hs
    obtain ⟨hrest, hroom'⟩ := State.wrote_rest (cs := [c]) (ds := rest) hs hroom
    rw [bitsMsb_length] at hrest hroom'
    have ih := byteChars_bytes (fun x hx => hb x (by simp [hx])) hrest hroom'
    have hout : (s.advance 8).out (BitVec.ofNat 8 c) = .ok (s.wrote 8 [c]) :=
      State.out_ok _ (show s.regs.outLen.toNat < Config.outSize by rw [List.length_cons] at hroom; omega)
    rw [List.length_cons, byteChars, hs.append.1.readBits (hb c (by simp))]
    dsimp only
    rw [hout]
    dsimp only
    rw [ih, State.wrote_wrote hroom, Nat.mul_succ, Nat.add_comm (8 * rest.length)]
    rfl

/-- A byte segment gives its bytes back, with an entry in SEG. -/
theorem byteSeg_bytes {cs : List Nat} {s : State} (hb : ∀ c ∈ cs, c < 256)
    (hs : s.streamHolds s.work.bp (cs.flatMap (fun c => bitsMsb c 8)))
    (hroom : s.regs.outLen.toNat + cs.length ≤ Config.outSize) (hseg : s.regs.segCnt.toNat < Config.segSize) :
    byteSeg cs.length s = .ok ((s.wrote (8 * cs.length) cs).withSegment s.regs.outLen.toNat cs.length) := by
  have havail := hs.avail
  rw [codewordBits_length] at havail
  rw [byteSeg, if_neg (Nat.not_lt.mpr havail), byteChars_bytes hb hs hroom]
  exact State.addSegment_ok _ _ hseg

end Sys2Proof.Machine
end
section
/-! DEC.QR on the stream ENC.QR wrote (41_tce_qr.md rule R292, 45_bsp_qr.md rule R432). -/

namespace Sys2Proof.Machine

/-! ### How ENC.QR classifies a text (41_tce_qr.md rule R282) -/

theorem onlyKanjiLeads_iff : ∀ txt : List Nat, onlyKanjiLeads txt = true ↔ txt.length % 2 = 0
    ∧ ∀ k b, txt[2 * k]? = some b → (0x81 ≤ b ∧ b ≤ 0x9F) ∨ (0xE0 ≤ b ∧ b ≤ 0xEB)
  | [] => by simp [onlyKanjiLeads]
  | [_] => by simp [onlyKanjiLeads]
  | hi :: lo :: rest => by
    have hlead : kanjiLead hi = true ↔ (0x81 ≤ hi ∧ hi ≤ 0x9F) ∨ (0xE0 ≤ hi ∧ hi ≤ 0xEB) := by simp [kanjiLead]
    rw [onlyKanjiLeads, Bool.and_eq_true, hlead, onlyKanjiLeads_iff rest,
      show (hi :: lo :: rest).length = rest.length + 2 from rfl, Nat.add_mod_right]
    constructor
    · rintro ⟨hhi, heven, hrest⟩
      refine ⟨heven, fun k b hb => ?_⟩
      cases k with
      | zero => cases hb; exact hhi
      | succ k => exact hrest k b hb
    · rintro ⟨heven, hall⟩
      exact ⟨hall 0 hi rfl, heven, fun k b hb => hall (k + 1) b hb⟩

theorem qrClassify_kanji_iff (sjis : Bool) (txt : List Nat) :
    qrClassify sjis txt = .kanji ↔ sjis = true ∧ onlyKanjiLeads txt = true := by
  rw [← Bool.and_eq_true]
  unfold qrClassify
  split
  · rename_i hk; exact iff_of_true rfl hk
  · rename_i hk; exact iff_of_false (classifyScan_ne_kanji _ _ _) hk

theorem qrClassify_of_ne_kanji {sjis : Bool} {txt : List Nat} (h : qrClassify sjis txt ≠ .kanji) :
    qrClassify sjis txt = classifyScan false false txt := by
  unfold qrClassify at h ⊢
  split
  · rename_i hk; exact absurd (if_pos hk) h
  · rfl

theorem classifyScan_num_iff (txt : List Nat) : ∀ hasNum hasAln, classifyScan hasNum hasAln txt = .num
    ↔ hasAln = false ∧ (hasNum = true ∨ txt ≠ []) ∧ ∀ c ∈ txt, isDigit c = true := by
  induction txt with
  | nil => decide
  | cons c rest ih =>
    intro hasNum hasAln
    rw [classifyScan]
    split
    · rename_i hd; simp [ih, hd]
    split
    · rename_i hd _; simp [ih, hd]
    · rename_i hd _; simp [hd]

theorem isSome_alnum_of_isDigit {c : Nat} (h : isDigit c = true) : (alnum c).isSome = true := by
  unfold alnum
  rw [if_pos h]
  rfl

theorem classifyScan_alnum_iff (txt : List Nat) : ∀ hasNum hasAln, classifyScan hasNum hasAln txt = .alnum
    ↔ (∀ c ∈ txt, (alnum c).isSome = true) ∧ (hasAln = true ∨ ∃ c ∈ txt, isDigit c = false) := by
  induction txt with
  | nil => decide
  | cons c rest ih =>
    intro hasNum hasAln
    rw [classifyScan]
    split
    · rename_i hd; simp [ih, hd, isSome_alnum_of_isDigit hd]
    split
    · rename_i hd ha; simp [ih, hd, ha]
    · rename_i ha; simp [ha]

/-! ### A round of the main loop (rule R432) -/

section
variable {s t u : State} {i n : Nat}

theorem State.qrRound_of_holds (hs : s.streamHolds s.work.bp (bitsMsb i 4)) (hi : i < 16) :
    s.qrRound = (s.advance 4).streamEnd writesDecQr (qrIndicator i (s.advance 4)) := by
  have havail := hs.avail
  rw [bitsMsb_length] at havail
  rw [State.qrRound, State.nextIndicator, if_neg (Nat.not_lt.mpr havail), hs.field hi]

/-- A counted segment: the count, then the characters. -/
theorem State.counted_of_holds (m : Nat) (body : Nat → State → Except Raise State)
    (hs : s.streamHolds s.work.bp (bitsMsb n (ccBits m s.regs.ver.toNat))) (hn : n < 2 ^ ccBits m s.regs.ver.toNat) :
    s.counted m body = body n (s.advance (ccBits m s.regs.ver.toNat)) := by
  rw [State.counted, State.readCount, hs.readBits hn]

/-- What follows the data of ENC.QR is read as the terminator: four 0 bits, or fewer bits than that (rule R287). -/
theorem State.qrRound_terminator (hs : s.qrPadded s.work.bp s.regs.cwLen.toNat) : ∃ k, s.qrRound = (s.advance k).qrFinish := by
  obtain ⟨p, hp, -, hzero, -⟩ := hs
  rw [State.qrRound, State.nextIndicator]
  split
  · exact ⟨0, rfl⟩
  · rename_i havail
    rw [State.avail_eq] at havail
    have hholds : s.streamHolds s.work.bp (bitsMsb 0 4) := by
      refine ⟨by rw [bitsMsb_length]; omega, fun k hk => ?_⟩
      rw [bitsMsb_length] at hk
      rw [getElem_bitsMsb, Nat.zero_testBit, hzero _ (by omega) (by omega)]
    rw [hholds.field (by decide)]
    exact ⟨4, rfl⟩

theorem qrLoop_round (fuel : Nat) (h : s.phase = .qrStream) : qrLoop (fuel + 1) s = qrLoop fuel s.qrRound := by
  rw [qrLoop, h]

theorem qrLoop_idle (fuel : Nat) (h : s.phase = .idle) : qrLoop fuel s = s := by
  cases fuel with
  | zero => rfl
  | succ fuel => rw [qrLoop, h]

end

/-! ### The segment of ENC.QR, read -/

/-- DEC.QR stands at bit `p` of the stream of `t`, with nothing in OUT and SEG and no FNC1 in effect. -/
structure QrFresh (t u : State) (p : Nat) : Prop where
  cw : u.mem.cw = t.mem.cw
  cwLen : u.regs.cwLen = t.regs.cwLen
  ver : u.regs.ver = t.regs.ver
  bp : u.work.bp = p
  fnc1 : u.work.fnc1 = 0
  outLen : u.regs.outLen = 0
  segCnt : u.regs.segCnt = 0

/-- DEC.QR stands at bit `p` of the stream of `t` and has written the text `txt`. -/
structure QrDecoded (t u : State) (p : Nat) (txt : List Nat) : Prop where
  cw : u.mem.cw = t.mem.cw
  cwLen : u.regs.cwLen = t.regs.cwLen
  bp : u.work.bp = p
  outLen : u.regs.outLen.toNat = txt.length
  outs : ∀ j x, txt[j]? = some x → (u.mem.out.read j).toNat = x

/-- The segment decoder of a mode (45_bsp_qr.md rule R432). -/
def qrBody (m : QrMode) (n : Nat) (s : State) : Except Raise State :=
  match m with
  | .num => numSeg n s
  | .alnum => alnumSeg n s
  | .byte => byteSeg n s
  | .kanji => doubleByteSeg kanjiCode n s

theorem qrIndicator_num4 (m : QrMode) (s : State) :
    qrIndicator m.num4 s = qrNextOf (s.counted m.num4 (qrBody m)) := by
  cases m <;> rfl

section
variable {t u : State} {p n v : Nat} {txt : List Nat} {m : QrMode} {d : List Bool}

theorem QrFresh.advance (h : QrFresh t u p) (n : Nat) : QrFresh t (u.advance n) (p + n) :=
  ⟨h.cw, h.cwLen, h.ver, congrArg (· + n) h.bp, h.fnc1, h.outLen, h.segCnt⟩

theorem QrFresh.streamHolds (h : QrFresh t u p) {a : List Bool} (ha : t.streamHolds p a) : u.streamHolds u.work.bp a := by
  rw [h.bp]
  exact ha.congr h.cw h.cwLen

theorem QrFresh.wrote (h : QrFresh t u p) (n : Nat) (hb : ∀ c ∈ txt, c < 256) (hlen : txt.length ≤ 8192) :
    QrDecoded t (u.wrote n txt) (p + n) txt := by
  have ho : (u.advance n).regs.outLen.toNat = ([] : List Nat).length := congrArg BitVec.toNat h.outLen
  obtain ⟨hol, houts⟩ := outs_appended ho (fun _ _ hx => by cases hx) hb (by rw [List.length_nil]; omega)
  exact ⟨h.cw, h.cwLen, congrArg (· + n) h.bp, hol, houts⟩

/-- The segment of a text gives the text back, in every mode but Kanji (41_tce_qr.md rule R292). -/
theorem QrFresh.body (h : QrFresh t u p) (hm : m = qrClassify false txt) (hd : qrDataBits m txt = .ok d)
    (hs : t.streamHolds p d) (hb : ∀ c ∈ txt, c < 256) (hlen : txt.length ≤ 8192) :
    ∃ w, qrBody m txt.length u = .ok w ∧ QrDecoded t w (p + d.length) txt := by
  have hroom : u.regs.outLen.toNat + txt.length ≤ Config.outSize := by
    rw [h.outLen]
    exact (Nat.zero_add _).trans_le (hlen.trans (by decide))
  have hscan : m = classifyScan false false txt := hm
  have hs := h.streamHolds hs
  have hw := h.wrote d.length hb hlen
  cases m with
  | num =>
    cases hd
    obtain ⟨-, -, hdig⟩ := (classifyScan_num_iff txt false false).mp hscan.symm
    exact ⟨_, numSeg_numBits (fun c hc => (isDigit_iff c).mp (hdig c hc)) hs hroom, hw⟩
  | alnum =>
    cases hd
    obtain ⟨haln, -⟩ := (classifyScan_alnum_iff txt false false).mp hscan.symm
    exact ⟨_, alnumSeg_alnumBits haln hs hroom h.fnc1, hw⟩
  | byte =>
    cases hd
    rw [codewordBits_length] at hw ⊢
    refine ⟨_, byteSeg_bytes hb hs hroom (by rw [h.segCnt]; decide), ?_⟩
    exact ⟨hw.cw, hw.cwLen, hw.bp, hw.outLen, hw.outs⟩
  | kanji => exact absurd hscan.symm (classifyScan_ne_kanji _ _ _)

theorem QrMode.num4_lt (m : QrMode) : m.num4 < 16 := by cases m <;> decide

/-- The round of a text's segment: its indicator, count and data. -/
theorem QrFresh.segment (h : QrFresh t u p) (hm : m = qrClassify false txt) (hd : qrDataBits m txt = .ok d)
    (hv : t.regs.ver.toNat = v) (hind : t.streamHolds p (bitsMsb m.num4 4))
    (hcount : t.streamHolds (p + 4) (bitsMsb txt.length (ccBits m.num4 v)))
    (hdata : t.streamHolds (p + 4 + ccBits m.num4 v) d)
    (hcnt : txt.length < 2 ^ ccBits m.num4 v) (hb : ∀ c ∈ txt, c < 256) (hlen : txt.length ≤ 8192) :
    u.qrRound.phase = .qrStream ∧ QrDecoded t u.qrRound (p + 4 + ccBits m.num4 v + d.length) txt := by
  have h4 := h.advance 4
  rw [← hv, ← h4.ver] at hcount hdata hcnt ⊢
  obtain ⟨w, hw, hdec⟩ := (h4.advance _).body hm hd hdata hb hlen
  have hround : u.qrRound = w.qrNext := by
    rw [State.qrRound_of_holds (h.streamHolds hind) m.num4_lt, qrIndicator_num4,
      State.counted_of_holds _ _ (h4.streamHolds hcount) hcnt, hw]
    rfl
  rw [hround]
  exact ⟨rfl, hdec.cw, hdec.cwLen, hdec.bp, hdec.outLen, hdec.outs⟩

/-- The round behind the data ends the command with the text. -/
theorem QrDecoded.finish (h : QrDecoded t u p txt) (hpad : t.qrPadded p t.regs.cwLen.toNat) : Finished u.qrRound txt := by
  have hu : u.qrPadded u.work.bp u.regs.cwLen.toNat := by
    obtain ⟨q, hq, hle, hzero, hpads⟩ := hpad
    rw [h.bp, h.cwLen]
    refine ⟨q, hq, hle, fun k hk hk' => ?_, fun j hj hj' => ?_⟩
    · rw [State.streamBit_congr h.cw]; exact hzero k hk hk'
    · rw [State.cwAt, h.cw]; exact hpads j hj hj'
  obtain ⟨k, hk⟩ := State.qrRound_terminator hu
  rw [hk]
  exact ⟨State.complete_completed _, h.outLen, h.outs⟩

end

end Sys2Proof.Machine
end
section
/-! DEC.QR gives back the text ENC.QR encoded (41_tce_qr.md rule R292; O43). -/

namespace Sys2Proof.Machine

section
variable {s t u : State} {m : QrMode} {v p : Nat} {d : List Bool}

/-- The round of an ECI designator of one byte (45_bsp_qr.md rule R437). -/
theorem QrFresh.eci (h : QrFresh t u p) (hs : t.streamHolds p (bitsMsb 7 4 ++ bitsMsb v 8)) (hv : v < 128) :
    u.qrRound.phase = .qrStream ∧ QrFresh t u.qrRound (p + 4 + 8) := by
  obtain ⟨hind, hval⟩ := hs.append
  rw [bitsMsb_length] at hval
  have h4 := h.advance 4
  have hbody : qrEciBody (u.advance 4) = .ok (((u.advance 4).advance 8).setEci v) := by
    rw [qrEciBody, (h4.streamHolds hval).readBits (by omega)]
    exact if_pos hv
  have hround : u.qrRound = State.qrNext (((u.advance 4).advance 8).setEci v) := by
    rw [State.qrRound_of_holds (h.streamHolds hind) (by decide),
      show qrIndicator 7 (u.advance 4) = qrNextOf (qrEciBody _) from rfl, hbody]
    rfl
  obtain ⟨hcw, hcwLen, hver, hbp, hfnc1, houtLen, hsegCnt⟩ := h4.advance 8
  rw [hround]
  exact ⟨rfl, hcw, hcwLen, hver, hbp, hfnc1, houtLen, hsegCnt⟩

theorem State.qrBegin_fresh (t : State) : QrFresh t t.qrBegin 0 := ⟨rfl, rfl, rfl, rfl, rfl, rfl, rfl⟩

/-- From the indicator of the text's segment on, two rounds end the command with the text. -/
theorem QrChoice.decode (h : QrChoice s m v d) (hsjis : s.regs.cfgQr.sjis = false) (hlen : s.regs.txtLen.toNat ≤ 8192)
    (hp : (qrHeader m s.regs.cfgEci).length = p + 4) (hu : QrFresh (s.encodedQr m v d) u p)
    (hphase : u.phase = .qrStream) (fuel : Nat) : Finished (qrLoop (fuel + 2) u) s.text := by
  obtain ⟨hhead, hcount, hdata⟩ := h.parts
  have hind := qrHeader_indicator hhead
  have hlen' : s.text.length ≤ 8192 := s.text_length.trans_le hlen
  have hm : m = qrClassify false s.text := hsjis ▸ h.mode
  have hcnt : qrCount m s.text = s.text.length := if_neg (fun hk => classifyScan_ne_kanji s.text _ _ (hm.symm.trans hk))
  have hlt := h.count
  have hpad := h.padded
  rw [hcnt] at hcount hlt
  rw [hp] at hind hcount hdata
  rw [qrStream_length, hp] at hpad
  obtain ⟨hphase', hdec⟩ := hu.segment hm h.data h.ver hind hcount hdata hlt s.text_lt hlen'
  have hfin := hdec.finish hpad
  rw [qrLoop_round _ hphase, qrLoop_round _ hphase', qrLoop_idle _ hfin.completed.1]
  exact hfin

/-- DEC.QR on the stream of a choice: the ECI header, where there is one, the segment and the terminator. -/
theorem QrChoice.finished (h : QrChoice s m v d) (hsjis : s.regs.cfgQr.sjis = false) (hlen : s.regs.txtLen.toNat ≤ 8192) :
    Finished (qrLoop (2 * (s.encodedQr m v d).regs.cwLen.toNat + 2) (s.encodedQr m v d).qrBegin) s.text := by
  have hbegin := (s.encodedQr m v d).qrBegin_fresh
  obtain ⟨hhead, -, -⟩ := h.parts
  have hroom := hhead.1
  have hheader := qrHeader_length m s.regs.cfgEci
  by_cases heci : m = .byte ∧ s.regs.cfgEci.en = true
  · rw [if_pos heci] at hheader
    rw [qrHeader, if_pos heci] at hhead
    obtain ⟨hphase, hfresh⟩ := hbegin.eci hhead.append.1 s.regs.cfgEci.value.isLt
    obtain ⟨f, hf⟩ : ∃ f, (s.encodedQr m v d).regs.cwLen.toNat = f + 1 := ⟨_, (Nat.sub_add_cancel (by omega)).symm⟩
    rw [hf, show 2 * (f + 1) + 2 = 2 * f + 1 + 2 + 1 from rfl, qrLoop_round _ rfl]
    exact h.decode hsjis hlen hheader hfresh hphase _
  · rw [if_neg heci] at hheader
    exact h.decode hsjis hlen hheader hbegin rfl _

end

/-- Settles O43: ENC.QR completes only with a stream that DEC.QR reads to the text's end. -/
theorem decQrReadsWhatEncQrWrote : Obligations.DecQrReadsWhatEncQrWrote := by
  unfold Obligations.DecQrReadsWhatEncQrWrote
  intro s t hsjis ht hc
  obtain ⟨hlen, m, v, d, h, rfl⟩ := execEncQr_completed ht hc
  have hlegal : decQrLegal (s.encodedQr m v d).regs = true := by
    rw [decQrLegal_iff, h.ver, h.cwLen]
    exact ⟨(verLegal_iff v).mp h.legal, h.cwFits⟩
  exact ⟨_, congrArg Host.Outcome.next (if_pos hlegal), (h.finished hsjis hlen).out_eq⟩

end Sys2Proof.Machine
end
section
/-! The version ENC.QR chooses with the default tables holds the stream and its count (41_tce_qr.md rule R285). -/

namespace Sys2Proof.Machine

/-! ### The version query (20_memory.md rule R109) -/

theorem qrPickFrom_fits {rom : Rom} {bytes e u : Nat} (n : Nat) : ∀ {v}, qrPickFrom rom bytes e v n = some u →
    bytes ≤ qrData rom u e ∧ ∀ w, v ≤ w → w < u → qrData rom w e < bytes := by
  induction n with
  | zero => intro v h; cases h
  | succ n ih =>
    intro v h
    rw [qrPickFrom] at h
    split at h
    · rename_i hle; cases h; exact ⟨hle, fun w h1 h2 => by omega⟩
    · rename_i hgt
      obtain ⟨hle, hmin⟩ := ih h
      refine ⟨hle, fun w h1 h2 => ?_⟩
      rcases Nat.eq_or_lt_of_le h1 with rfl | h1
      · exact Nat.not_le.mp hgt
      · exact hmin w h1 h2

/-- The version holds the bits, and no lower one does. -/
theorem qrPick_fits {rom : Rom} {nbits e v : Nat} (h : qrPick rom nbits e = some v) :
    nbits ≤ 8 * qrData rom v e ∧ ∀ w, 1 ≤ w → w < v → 8 * qrData rom w e < nbits := by
  obtain ⟨hle, hmin⟩ := qrPickFrom_fits 40 h
  refine ⟨by omega, fun w h1 h2 => ?_⟩
  have := hmin w h1 h2
  omega

/-! ### The default capacities (20_memory.md rule R103) -/

theorem qrData_default_step : ∀ e < 4, ∀ v < 40, qrData romDefault v e < qrData romDefault (v + 1) e := by decide +kernel

theorem qrData_default_lt {e v w : Nat} (he : e < 4) (hvw : v < w) (hw : w ≤ 40) :
    qrData romDefault v e < qrData romDefault w e := by
  induction w with
  | zero => omega
  | succ w ih =>
    have hstep := qrData_default_step e he w (by omega)
    rcases Nat.eq_or_lt_of_le (Nat.lt_succ_iff.mp hvw) with rfl | hlt
    · exact hstep
    · exact (ih hlt (by omega)).trans hstep

theorem qrData_default_le {e v w : Nat} (he : e < 4) (hvw : v ≤ w) (hw : w ≤ 40) :
    qrData romDefault v e ≤ qrData romDefault w e := by
  rcases Nat.eq_or_lt_of_le hvw with rfl | hlt
  · exact Nat.le_refl _
  · exact Nat.le_of_lt (qrData_default_lt he hlt hw)

/-- The largest capacity of each band of versions. -/
theorem qrData_default_bands : ∀ e < 4, qrData romDefault 9 e ≤ 232 ∧ qrData romDefault 26 e ≤ 1370
    ∧ qrData romDefault 40 e ≤ 2956 := by decide

/-! ### The width of the count (20_memory.md rule R106) -/

theorem ccBits_bounds (m v : Nat) : ccBits m 1 ≤ ccBits m v ∧ ccBits m v ≤ ccBits m 1 + 8 := by
  unfold ccBits
  dsimp only
  split <;> split_ifs <;> omega

/-- The second pass's version holds the stream, although its own count may be wider than the one of the pass: the capacity of a
higher version has at least the 8 bits more that a wider count takes. -/
theorem qrPick_default_fits {a n e m prov v : Nat} (he : e < 4)
    (hprov : qrPick romDefault (a + ccBits m 1 + n) e = some prov)
    (hv : qrPick romDefault (a + ccBits m prov + n) e = some v) : a + ccBits m v + n ≤ 8 * qrData romDefault v e := by
  obtain ⟨hfit1, hmin1⟩ := qrPick_fits hprov
  obtain ⟨hfit2, -⟩ := qrPick_fits hv
  have hlegal := (verLegal_iff v).mp (qrPick_verLegal hv)
  have hprovcc := (ccBits_bounds m prov).1
  have hvcc := (ccBits_bounds m v).2
  rcases Nat.lt_trichotomy v prov with hlt | rfl | hgt
  · have := hmin1 v hlegal.1 hlt
    omega
  · exact hfit2
  · have := qrData_default_lt he hgt hlegal.2
    omega

/-- A text whose data fit a version has a count that fits the version's field. -/
theorem qrCount_lt_of_fits (m : QrMode) {txt : List Nat} {e v : Nat} (he : e < 4) (hv : verLegal v = true)
    (hfit : m.dataLength txt.length ≤ 8 * qrData romDefault v e) : qrCount m txt < 2 ^ ccBits m.num4 v := by
  obtain ⟨-, hv40⟩ := (verLegal_iff v).mp hv
  obtain ⟨h9, h26, h40⟩ := qrData_default_bands e he
  by_cases hs : v ≤ 9
  · have hcap := qrData_default_le he hs (by decide)
    cases m <;> simp [QrMode.dataLength, qrCount, QrMode.num4, ccBits, hs] at hfit ⊢ <;> omega
  by_cases hm : v ≤ 26
  · have hcap := qrData_default_le he hm (by decide)
    cases m <;> simp [QrMode.dataLength, qrCount, QrMode.num4, ccBits, hs, hm] at hfit ⊢ <;> omega
  · have hcap := qrData_default_le he hv40 (by decide)
    cases m <;> simp [QrMode.dataLength, qrCount, QrMode.num4, ccBits, hs, hm] at hfit ⊢ <;> omega

/-! ### The choice -/

section
variable {s : State} {m : QrMode} {prov v : Nat} {d : List Bool}

/-- Two passes of the version query that answer are a choice. -/
theorem QrChoice.of_picks (hr : s.rom = romDefault)
    (hm : m = qrClassify s.regs.cfgQr.sjis s.text) (hd : qrDataBits m s.text = .ok d)
    (hdlen : d.length = m.dataLength s.text.length)
    (hprov : qrPick s.rom ((qrHeader m s.regs.cfgEci).length + ccBits m.num4 1 + d.length) s.regs.cfgQr.ecl.toNat = some prov)
    (hv : qrPick s.rom ((qrHeader m s.regs.cfgEci).length + ccBits m.num4 prov + d.length) s.regs.cfgQr.ecl.toNat = some v) :
    QrChoice s m v d := by
  have he := s.regs.cfgQr.ecl.isLt
  have hlegal := qrPick_verLegal hv
  have hok : qrRowOk s.rom v = true := hr ▸ qrRowOk_default hlegal
  have hfit : (qrStream m v s.regs.cfgEci s.text d).length ≤ 8 * qrData s.rom v s.regs.cfgQr.ecl.toNat := by
    rw [hr] at hprov hv ⊢
    rw [qrStream_length]
    exact qrPick_default_fits he hprov hv
  refine ⟨hm, hd, hlegal, ?_, hfit, (qrData_lt_qrTotal hok _).le.trans (qrTotal_le_cwSize hlegal hok)⟩
  rw [qrStream_length, hdlen, hr] at hfit
  exact qrCount_lt_of_fits m he hlegal (by omega)

/-- ENC.QR completes with the choice (rule R285 to rule R287). -/
theorem QrChoice.exec (h : QrChoice s m v d) (hr : s.rom = romDefault)
    (hlen : s.regs.txtLen.toNat ≤ 8192)
    (hprov : qrPick s.rom ((qrHeader m s.regs.cfgEci).length + ccBits m.num4 1 + d.length) s.regs.cfgQr.ecl.toNat = some prov)
    (hv : qrPick s.rom ((qrHeader m s.regs.cfgEci).length + ccBits m.num4 prov + d.length) s.regs.cfgQr.ecl.toNat = some v) :
    exec .encQr s = .next (s.encodedQr m v d) := by
  have hcnt := h.count
  have hfit := h.fits
  rw [qrStream_length] at hfit
  have hassemble : qrAssemble s.rom m s.regs.cfgQr.ecl.toNat (qrCount m s.text) (qrHeader m s.regs.cfgEci) d
      = .ok (v, qrFill (qrData s.rom v s.regs.cfgQr.ecl.toNat) (qrStream m v s.regs.cfgEci s.text d)) := by
    rw [hr] at hprov hv hfit ⊢
    unfold qrAssemble
    dsimp only
    rw [qrQuery_default, hprov]
    dsimp only
    rw [qrQuery_default, hv]
    dsimp only
    rw [if_neg (Nat.not_le.mpr hcnt), if_neg (by simp only [List.length_append, bitsMsb_length]; omega)]
    rfl
  have hencode : qrEncode s.rom s.regs.cfgQr s.regs.cfgEci s.text
      = .ok (m, v, qrFill (qrData s.rom v s.regs.cfgQr.ecl.toNat) (qrStream m v s.regs.cfgEci s.text d)) := by
    unfold qrEncode
    dsimp only
    rw [← h.mode, h.data]
    dsimp only
    rw [hassemble]
  change execEncQr s = _
  rw [execEncQr, if_pos ((encQrLegal_iff _).mpr hlen), encQrBody, hencode]
  dsimp only
  rw [if_neg (by rw [qrFill_length h.fits]; exact Nat.not_lt.mpr h.cwFits)]
  rfl

end

end Sys2Proof.Machine
end
section
/-! ENC.QR with the default tables, in every mode (41_tce_qr.md rule R282 to rule R288; O42). -/

namespace Sys2Proof.Machine

/-! ### The groups of the data bits (30_encoding.md rule R152 to rule R155) -/

section
variable {s t : State} {p g w : Nat}

/-- Data bits that are `w` bits for each group of `g` characters: the bits of the text behind `j` groups. -/
theorem State.streamHolds_drop {f : List Nat → List Bool}
    (hf : ∀ txt : List Nat, g ≤ txt.length → ∃ b, b.length = w ∧ f txt = b ++ f (txt.drop g)) (j : Nat) :
    ∀ {txt : List Nat} {p : Nat}, g * j ≤ txt.length → t.streamHolds p (f txt) →
      t.streamHolds (p + w * j) (f (txt.drop (g * j))) := by
  induction j with
  | zero => exact fun _ h => h
  | succ j ih =>
    intro txt p hj h
    rw [Nat.mul_succ] at hj ⊢
    obtain ⟨b, hb, heq⟩ := hf txt (by omega)
    rw [heq] at h
    have hrest := ih (txt := txt.drop g) (by rw [List.length_drop]; omega) h.append.2
    rwa [List.drop_drop, hb, Nat.add_comm g, Nat.add_assoc, Nat.add_comm w] at hrest

theorem numBits_drop : ∀ txt : List Nat, 3 ≤ txt.length →
    ∃ b, b.length = 10 ∧ numBits txt = b ++ numBits (txt.drop 3)
  | a :: b :: c :: rest, _ => ⟨bitsMsb _ 10, bitsMsb_length _ _, by rw [numBits]; rfl⟩

theorem alnumBits_drop : ∀ txt : List Nat, 2 ≤ txt.length →
    ∃ b, b.length = 11 ∧ alnumBits txt = b ++ alnumBits (txt.drop 2)
  | a :: b :: rest, _ => ⟨bitsMsb _ 11, bitsMsb_length _ _, by rw [alnumBits]; rfl⟩

theorem byteBits_drop : ∀ txt : List Nat, 1 ≤ txt.length → ∃ b, b.length = 8
    ∧ txt.flatMap (fun c => bitsMsb c 8) = b ++ (txt.drop 1).flatMap (fun c => bitsMsb c 8)
  | a :: _, _ => ⟨bitsMsb a 8, bitsMsb_length _ _, rfl⟩

theorem State.text_drop (s : State) {k : Nat} (h : k < s.regs.txtLen.toNat) :
    s.text.drop k = s.unitAt k :: s.text.drop (k + 1) := by
  obtain ⟨hk, heq⟩ := List.getElem?_eq_some_iff.mp (s.text_getElem? h)
  rw [List.drop_eq_getElem_cons hk, heq]
  rfl

theorem State.text_drop_all (s : State) {k : Nat} (h : s.regs.txtLen.toNat ≤ k) : s.text.drop k = [] :=
  List.drop_eq_nil_of_le (s.text_length.trans_le h)

theorem State.unitAt_mem (s : State) {k : Nat} (h : k < s.regs.txtLen.toNat) : s.unitAt k ∈ s.text :=
  List.mem_of_getElem? (s.text_getElem? h)

/-- Three digits at a time, then the one or two left (rule R152). -/
theorem numBits_fields (hd : ∀ c ∈ s.text, 48 ≤ c ∧ c ≤ 57) (hs : t.streamHolds p (numBits s.text)) {n : Nat}
    (hn : n = s.regs.txtLen.toNat) :
    (∀ j, j < n / 3 → t.streamField 0 (p + 10 * j) 10
        = 100 * (s.unitAt (3 * j) - 48) + 10 * (s.unitAt (3 * j + 1) - 48) + (s.unitAt (3 * j + 2) - 48))
      ∧ (n % 3 = 1 → t.streamField 0 (p + 10 * (n / 3)) 4 = s.unitAt (n - 1) - 48)
      ∧ (n % 3 = 2 → t.streamField 0 (p + 10 * (n / 3)) 7
        = 10 * (s.unitAt (n - 2) - 48) + (s.unitAt (n - 1) - 48)) := by
  have digit : ∀ {k}, k < n → 48 ≤ s.unitAt k ∧ s.unitAt k ≤ 57 := fun hk => hd _ (s.unitAt_mem (hn ▸ hk))
  have group : ∀ {j}, 3 * j ≤ n → t.streamHolds (p + 10 * j) (numBits (s.text.drop (3 * j))) := fun hj =>
    State.streamHolds_drop numBits_drop _ (by rwa [s.text_length, ← hn]) hs
  refine ⟨fun j hj => ?_, fun h1 => ?_, fun h2 => ?_⟩
  · have h := group (j := j) (by omega)
    rw [s.text_drop (by omega), s.text_drop (by omega), s.text_drop (by omega), numBits] at h
    have d1 := digit (k := 3 * j) (by omega)
    have d2 := digit (k := 3 * j + 1) (by omega)
    have d3 := digit (k := 3 * j + 1 + 1) (by omega)
    exact h.append.1.field (by omega)
  · have h := group (j := n / 3) (by omega)
    rw [show 3 * (n / 3) = n - 1 from by omega, s.text_drop (by omega), s.text_drop_all (by omega), numBits] at h
    have d1 := digit (k := n - 1) (by omega)
    exact h.field (by omega)
  · have h := group (j := n / 3) (by omega)
    rw [show 3 * (n / 3) = n - 2 from by omega, s.text_drop (by omega), s.text_drop (by omega), s.text_drop_all (by omega),
      numBits, show n - 2 + 1 = n - 1 from by omega] at h
    have d1 := digit (k := n - 2) (by omega)
    have d2 := digit (k := n - 1) (by omega)
    exact h.field (by omega)

/-- Two characters at a time, then the one left (rule R153). -/
theorem alnumBits_fields (hd : ∀ c ∈ s.text, (alnum c).isSome = true) (hs : t.streamHolds p (alnumBits s.text)) {n : Nat}
    (hn : n = s.regs.txtLen.toNat) :
    (∀ j, j < n / 2 → t.streamField 0 (p + 11 * j) 11
        = 45 * (alnum (s.unitAt (2 * j))).getD 0 + (alnum (s.unitAt (2 * j + 1))).getD 0)
      ∧ (n % 2 = 1 → t.streamField 0 (p + 11 * (n / 2)) 6 = (alnum (s.unitAt (n - 1))).getD 0) := by
  have val : ∀ {k}, k < n → alnumVal (s.unitAt k) < 45 := fun hk =>
    (alnumChar_alnumVal (hd _ (s.unitAt_mem (hn ▸ hk)))).1
  have group : ∀ {j}, 2 * j ≤ n → t.streamHolds (p + 11 * j) (alnumBits (s.text.drop (2 * j))) := fun hj =>
    State.streamHolds_drop alnumBits_drop _ (by rwa [s.text_length, ← hn]) hs
  refine ⟨fun j hj => ?_, fun h1 => ?_⟩
  · have h := group (j := j) (by omega)
    rw [s.text_drop (by omega), s.text_drop (by omega), alnumBits] at h
    have v1 := val (k := 2 * j) (by omega)
    have v2 := val (k := 2 * j + 1) (by omega)
    exact h.append.1.field (by omega)
  · have h := group (j := n / 2) (by omega)
    rw [show 2 * (n / 2) = n - 1 from by omega, s.text_drop (by omega), s.text_drop_all (by omega), alnumBits] at h
    have v1 := val (k := n - 1) (by omega)
    exact h.field (by omega)

/-- Every code unit (rule R154). -/
theorem byteBits_fields (hs : t.streamHolds p (s.text.flatMap (fun c => bitsMsb c 8))) {j : Nat} (hj : j < s.regs.txtLen.toNat) :
    t.streamField 0 (p + 8 * j) 8 = s.unitAt j := by
  have h := State.streamHolds_drop byteBits_drop j (by rw [Nat.one_mul, s.text_length]; omega) hs
  rw [Nat.one_mul, s.text_drop hj, List.flatMap_cons] at h
  exact h.append.1.field (s.text_lt _ (s.unitAt_mem hj))

/-- The group of pair `j` (rule R155). -/
theorem kanjiBits_group (j : Nat) : ∀ {txt : List Nat} {idx p : Nat} {d : List Bool}, kanjiBits idx txt = .ok d →
    2 * j + 1 < txt.length → t.streamHolds p d →
    ∃ x, kanjiGroup (codeAt txt j) = some x ∧ t.streamHolds (p + 13 * j) (bitsMsb x 13) := by
  induction j with
  | zero =>
    intro txt idx p d hd hj hs
    match txt with
    | hi :: lo :: rest =>
      rw [kanjiBits] at hd
      split at hd
      · cases hd
      rename_i x hx
      split at hd
      · cases hd
      · cases hd; exact ⟨x, hx, hs.append.1⟩
  | succ j ih =>
    intro txt idx p d hd hj hs
    match txt with
    | hi :: lo :: rest =>
      rw [kanjiBits] at hd
      split at hd
      · cases hd
      split at hd
      · cases hd
      · rename_i hrest
        cases hd
        have htail := hs.append.2
        rw [bitsMsb_length] at htail
        obtain ⟨y, hy, hsy⟩ := ih hrest (by simp only [List.length_cons] at hj; omega) htail
        exact ⟨y, hy, by rwa [Nat.add_assoc, Nat.add_comm 13, ← Nat.mul_succ] at hsy⟩

theorem kanjiGroup_eq {code x : Nat} (h : kanjiGroup code = some x) {y : Nat}
    (hy : y = code - (if code ≤ 0x9FFC then 0x8140 else 0xC140)) : x = y / 256 * 0xC0 + y % 256 := by
  unfold kanjiGroup at h
  split at h
  · rename_i hr; rw [if_pos hr.2] at hy; rw [hy, ← Option.some_inj.mp h]
  split at h
  · rw [if_neg (by omega)] at hy; rw [hy, ← Option.some_inj.mp h]
  · cases h

theorem kanjiBits_fields {d : List Bool} (hd : kanjiBits 0 s.text = .ok d) (hs : t.streamHolds p d) {j y : Nat}
    (hj : 2 * j + 1 < s.regs.txtLen.toNat)
    (hy : y = s.pairAt (2 * j) - (if s.pairAt (2 * j) ≤ 0x9FFC then 0x8140 else 0xC140)) :
    t.streamField 0 (p + 13 * j) 13 = y / 256 * 0xC0 + y % 256 := by
  obtain ⟨x, hx, hholds⟩ := kanjiBits_group j hd (by rwa [s.text_length]) hs
  rw [← s.pairAt_eq hj] at hx
  rw [← kanjiGroup_eq hx hy]
  exact hholds.field (kanjiCode_kanjiGroup (s.text_lt _ (s.unitAt_mem hj)) hx).1

end

/-! ### Classification (rule R282) -/

theorem qrClassify_cases (sjis : Bool) (txt : List Nat) :
    (qrClassify sjis txt = .kanji ↔ sjis = true ∧ txt.length % 2 = 0
      ∧ ∀ k b, txt[2 * k]? = some b → (0x81 ≤ b ∧ b ≤ 0x9F) ∨ (0xE0 ≤ b ∧ b ≤ 0xEB))
    ∧ (qrClassify sjis txt ≠ .kanji →
      (qrClassify sjis txt = .num ↔ txt ≠ [] ∧ ∀ c ∈ txt, 48 ≤ c ∧ c ≤ 57)
      ∧ (qrClassify sjis txt = .alnum ↔ (∀ c ∈ txt, (alnum c).isSome = true) ∧ ∃ c ∈ txt, c < 48 ∨ 57 < c)) := by
  have hdigit : ∀ c, isDigit c = false ↔ c < 48 ∨ 57 < c := fun c => by
    rw [← Bool.not_eq_true, isDigit_iff]; omega
  refine ⟨by rw [qrClassify_kanji_iff, onlyKanjiLeads_iff], fun hk => ?_⟩
  rw [qrClassify_of_ne_kanji hk, classifyScan_num_iff, classifyScan_alnum_iff]
  simp only [isDigit_iff, hdigit, Bool.false_eq_true, false_or, true_and, and_self]

/-! ### The header (rule R283, rule R288) -/

theorem qrHeader_eci {t : State} {m : QrMode} {eci : CfgEciReg} (hs : t.streamHolds 0 (qrHeader m eci))
    (h : (qrHeader m eci).length = 16) : t.streamField 0 0 4 = 7 ∧ t.streamField 0 4 8 = eci.value.toNat := by
  rw [qrHeader_length] at h
  have heci : m = .byte ∧ eci.en = true := by
    by_contra hn; rw [if_neg hn] at h; omega
  rw [qrHeader, if_pos heci] at hs
  obtain ⟨hind, hval⟩ := hs.append.1.append
  have hlt := eci.value.isLt
  exact ⟨hind.field (by decide), hval.field (by omega)⟩

/-- Settles O42: the classification from its scan; the two passes of the version query make a choice, and the stream holds its
parts one behind the other. -/
theorem encQrEncodesEveryMode : Obligations.EncQrEncodesEveryMode := by
  unfold Obligations.EncQrEncodesEveryMode
  refine ⟨qrClassify_cases, ?_⟩
  rintro s m len cnt h n prov v e hr rfl hlen hm hh rfl hn hkanji hprov hv rfl
  obtain ⟨d, hd, hdlen⟩ := qrDataBits_length (m := m) (txt := s.text) (fun hk k hk' => by
    rw [s.text_length] at hk'
    exact s.pairAt_eq hk' ▸ hkanji hk k (by rw [if_pos hk]; omega))
  have hn : n = d.length := by
    rw [hdlen, s.text_length, hn]
    cases m <;> rfl
  rw [← qrHeader_length] at hh
  subst hh hn
  have hc := QrChoice.of_picks hr hm hd hdlen hprov hv
  obtain ⟨hhead, hcount, hdata⟩ := hc.parts
  have hpad := hc.padded
  have hlt := hc.count
  rw [qrStream_length] at hpad
  rw [qrCount, s.text_length] at hcount hlt
  refine ⟨_, hc.exec hr hlen hprov hv, s.encodedQr_completed m v d, s.encodedQr_resMode m v d, hc.ver, hc.cwLen,
    qrHeader_eci hhead, (qrHeader_indicator hhead).field m.num4_lt, hcount.field hlt, ?_, hpad⟩
  cases m with
  | num =>
    cases hd
    have hdig := (((qrClassify_cases _ _).2 (by rw [← hm]; decide)).1.mp hm.symm).2
    exact numBits_fields hdig hdata rfl
  | alnum =>
    cases hd
    have haln := (((qrClassify_cases _ _).2 (by rw [← hm]; decide)).2.mp hm.symm).1
    exact alnumBits_fields haln hdata rfl
  | byte => cases hd; exact fun j hj => byteBits_fields hdata hj
  | kanji =>
    have heven := even_of_kanji hm.symm
    rw [s.text_length] at heven
    exact fun j x hj hx => kanjiBits_fields hd hdata (by rw [if_pos rfl] at hj; omega) hx

end Sys2Proof.Machine
end

section
/-! Cells of a grid set to listed bits (42_mapper.md rule R312, R333, R336), and that the penalty of a symbol is its cells' alone
(46_format_metadata_codec.md rule R490). -/

namespace Sys2Proof.Machine

/-! ### One cell set -/

theorem testBit_gridPut (g a : Nat) (b : Bool) (c : Nat) : (gridPut g a b).testBit c = if c = a then b else g.testBit c := by
  cases b
  · rw [gridPut, if_neg Bool.false_ne_true, Nat.testBit_xor, testBit_setCell, Nat.one_shiftLeft, Nat.testBit_two_pow]
    by_cases h : c = a
    · simp [h]
    · simp [h, Ne.symm h]
  · rw [gridPut, if_pos rfl, testBit_setCell]
    by_cases h : c = a <;> simp [h]

/-! ### A list of cells set -/

theorem testBit_putBits_of_notMem {a : Nat} (as : List Nat) : ∀ (g : Nat) (bs : List Bool), a ∉ as →
    (putBits g as bs).testBit a = g.testBit a := by
  induction as with
  | nil => intro g bs _; rfl
  | cons x rest ih =>
    intro g bs ha
    rw [List.mem_cons, not_or] at ha
    cases bs with
    | nil => rfl
    | cons b bs => rw [putBits, ih _ _ ha.2, testBit_gridPut, if_neg ha.1]

/-- Cells that are all different hold their bits. -/
theorem testBit_putBits_getElem (as : List Nat) : ∀ (g : Nat) (bs : List Bool) (j : Nat) (ha : j < as.length)
    (hb : j < bs.length), as.Nodup → (putBits g as bs).testBit as[j] = bs[j] := by
  induction as with
  | nil => intro g bs j ha; exact absurd ha (Nat.not_lt_zero j)
  | cons x rest ih =>
    intro g bs j ha hb hn
    rw [List.nodup_cons] at hn
    cases bs with
    | nil => exact absurd hb (Nat.not_lt_zero j)
    | cons b bs =>
      cases j with
      | zero =>
        change (putBits (gridPut g x b) rest bs).testBit x = b
        rw [testBit_putBits_of_notMem rest _ _ hn.1, testBit_gridPut, if_pos rfl]
      | succ j => exact ih _ bs j (Nat.lt_of_succ_lt_succ ha) (Nat.lt_of_succ_lt_succ hb) hn.2

/-- The addresses of cells (x, y). -/
def addrsOf (cells : List (Nat × Nat)) : List Nat := cells.map (fun p => cellAddr p.2 p.1)

theorem cellAddr_eq_iff {r c r' c' : Nat} (hc : c < 256) (hc' : c' < 256) :
    cellAddr r c = cellAddr r' c' ↔ r = r' ∧ c = c' :=
  ⟨cellAddr_inj hc hc', fun h => by rw [h.1, h.2]⟩

theorem mem_addrsOf {cells : List (Nat × Nat)} (hx : ∀ p ∈ cells, p.1 < 256) {r c : Nat} (hc : c < 256) :
    cellAddr r c ∈ addrsOf cells ↔ (c, r) ∈ cells := by
  unfold addrsOf
  rw [List.mem_map]
  constructor
  · rintro ⟨p, hp, h⟩
    obtain ⟨hr, hcc⟩ := cellAddr_inj (hx p hp) hc h
    rwa [← hr, ← hcc]
  · exact fun h => ⟨_, h, rfl⟩

theorem nodup_addrsOf {cells : List (Nat × Nat)} (hx : ∀ p ∈ cells, p.1 < 256) (hn : cells.Nodup) : (addrsOf cells).Nodup :=
  hn.map_on (fun p hp q hq h => Prod.ext (cellAddr_inj (hx p hp) (hx q hq) h).2 (cellAddr_inj (hx p hp) (hx q hq) h).1)

theorem getElem_addrsOf (cells : List (Nat × Nat)) (k : Nat) (h : k < (addrsOf cells).length) :
    (addrsOf cells)[k] = cellAddr (cells[k]'(by rwa [addrsOf, List.length_map] at h)).2
      (cells[k]'(by rwa [addrsOf, List.length_map] at h)).1 := List.getElem_map ..

section
variable {cells : List (Nat × Nat)} {g : Nat} {bs : List Bool}

/-- A cell that is not listed keeps its bit. -/
theorem gridBit_putBits_of_notMem {r c : Nat} (hx : ∀ p ∈ cells, p.1 < 256) (hc : c < 256) (h : (c, r) ∉ cells) :
    gridBit (putBits g (addrsOf cells) bs) r c = gridBit g r c :=
  testBit_putBits_of_notMem _ _ _ (fun hm => h ((mem_addrsOf hx hc).mp hm))

/-- Listed cells, all different, hold their bits. -/
theorem gridBit_putBits_getElem (hx : ∀ p ∈ cells, p.1 < 256) (hn : cells.Nodup) {k : Nat} (hk : k < cells.length)
    (hb : k < bs.length) : gridBit (putBits g (addrsOf cells) bs) cells[k].2 cells[k].1 = bs[k] := by
  have hk' : k < (addrsOf cells).length := by rwa [addrsOf, List.length_map]
  have h := testBit_putBits_getElem (addrsOf cells) g bs k hk' hb (nodup_addrsOf hx hn)
  rwa [getElem_addrsOf] at h

end

/-- A cell of a buffer made from a grid, as a Bool. -/
theorem Buf.getLsbD_read_ofGrid (gen g : Nat) {h w r c : Nat} (hr : r < h) (hc : c < w) :
    ((Buf.ofGrid gen h w g).read (cellAddr r c)).getLsbD 0 = gridBit g r c := by
  rw [Buf.read_ofGrid gen g hr hc]
  cases gridBit g r c <;> rfl

/-! ### The penalty -/

section
variable {g g' h w : Nat}

/-- Two grids of `h` rows and `w` columns have the same cells. -/
def SameCells (h w g g' : Nat) : Prop := ∀ r, r < h → ∀ c, c < w → gridBit g r c = gridBit g' r c

theorem SameCells.gridLines (e : SameCells h w g g') : gridLines g h w = gridLines g' h w := by
  have hrow : ∀ r ∈ List.range h, gridRow g w r = gridRow g' w r := fun r hr =>
    List.map_congr_left (fun c hc => e r (List.mem_range.mp hr) c (List.mem_range.mp hc))
  have hcol : ∀ c ∈ List.range w, gridCol g h c = gridCol g' h c := fun c hc =>
    List.map_congr_left (fun r hr => e r (List.mem_range.mp hr) c (List.mem_range.mp hc))
  unfold Machine.gridLines
  rw [List.map_congr_left hrow, List.map_congr_left hcol]

theorem SameCells.blockPenalty (e : SameCells h w g g') : blockPenalty g h w = blockPenalty g' h w := by
  have hblock : ∀ y ∈ List.range (h - 1), (List.range (w - 1)).countP (fun x => blockEqual g y x)
      = (List.range (w - 1)).countP (fun x => blockEqual g' y x) := by
    intro y hy
    refine List.countP_congr (fun x hx => ?_)
    rw [List.mem_range] at hx hy
    simp only [blockEqual, e y (by omega) x (by omega), e y (by omega) (x + 1) (by omega),
      e (y + 1) (by omega) x (by omega), e (y + 1) (by omega) (x + 1) (by omega)]
  unfold Machine.blockPenalty
  rw [List.map_congr_left hblock]

theorem SameCells.darkCount (e : SameCells h w g g') : darkCount g h w = darkCount g' h w := by
  unfold Machine.darkCount
  refine congrArg List.sum (List.map_congr_left (fun r hr => congrArg (List.countP id) ?_))
  exact List.map_congr_left (fun c hc => e r (List.mem_range.mp hr) c (List.mem_range.mp hc))

/-- The penalty is the cells' alone. -/
theorem SameCells.penalty (e : SameCells h w g g') : penalty g h w = penalty g' h w := by
  unfold Machine.penalty
  rw [e.gridLines, e.blockPenalty, e.darkCount]

end

end Sys2Proof.Machine
end

section
/-! What the placement walk leaves (42_mapper.md rule R313 to rule R316): eight cells of the matrix for every codeword, no cell
twice, and RDM marks them and no others. So the walk covers its matrix but for the four cells of the fixed pattern (rule R319),
where there are any. -/

namespace Sys2Proof.Machine

/-! ### One codeword (rule R313) -/

theorem cellAddr_mem_cellAddrs {h w r c : Nat} (hr : r < h) (hc : c < w) : cellAddr r c ∈ cellAddrs h w :=
  mem_cellAddrs.mpr ⟨r, hr, c, hc, rfl⟩

/-- The cell of a position is a cell of the matrix that was not used. -/
theorem moduleCell_some {nr nc seen a : Nat} {row col : Int} (h : moduleCell nr nc seen row col = some a) :
    a ∈ cellAddrs nr nc ∧ seen.testBit a = false := by
  unfold moduleCell at h
  dsimp only at h
  split at h
  case isFalse => cases h
  case isTrue hin =>
  split at h
  case isTrue => cases h
  case isFalse hfree =>
  cases h
  simp only [inMatrix, Bool.and_eq_true, decide_eq_true_eq] at hin
  exact ⟨cellAddr_mem_cellAddrs (by omega) (by omega), Bool.eq_false_of_not_eq_true hfree⟩

/-- The cells of a codeword: cells of the matrix, all different, that were not used and now are. -/
theorem moduleCells_some {nr nc : Nat} (cells : List (Int × Int)) : ∀ {seen seen' : Nat} {as : List Nat},
    moduleCells nr nc seen cells = some (as, seen') →
      as.length = cells.length ∧ as.Nodup ∧ (∀ a ∈ as, a ∈ cellAddrs nr nc ∧ seen.testBit a = false)
        ∧ ∀ a, seen'.testBit a = (seen.testBit a || decide (a ∈ as)) := by
  induction cells with
  | nil => intro seen seen' as h; cases h; simp
  | cons q rest ih =>
    intro seen seen' as h
    rw [moduleCells] at h
    split at h
    · cases h
    rename_i a ha
    split at h
    · cases h
    rename_i as' seen'' hrest
    cases h
    obtain ⟨hlen, hnodup, hfree, hseen⟩ := ih hrest
    have hset : ∀ b ∈ as', b ≠ a ∧ seen.testBit b = false := fun b hb => by
      have := (hfree b hb).2
      rw [testBit_setCell, Bool.or_eq_false_iff, decide_eq_false_iff_not] at this
      exact ⟨this.2, this.1⟩
    refine ⟨congrArg Nat.succ hlen, List.nodup_cons.mpr ⟨fun hm => (hset a hm).1 rfl, hnodup⟩, fun b hb => ?_, fun b => ?_⟩
    · rcases List.mem_cons.mp hb with rfl | hb
      · exact moduleCell_some ha
      · exact ⟨(hfree b hb).1, (hset b hb).2⟩
    · simp only [hseen, testBit_setCell, Bool.or_assoc, List.mem_cons, Bool.decide_or]

/-! ### What every placement keeps, the walk keeps (rule R316) -/

theorem cornerCells_length {nr nc : Nat} {row col : Int} {cells : List (Int × Int)}
    (h : cornerCells nr nc row col = some cells) : cells.length = 8 := by
  unfold cornerCells at h
  dsimp only at h
  repeat' split at h
  all_goals cases h <;> rfl

/-- A property of the walk that does not speak of the anchor, and that every codeword placed keeps. -/
structure PlacementInvariant (nr nc limit : Nat) (P : Walk → Prop) : Prop where
  moved : ∀ (w : Walk) (row col : Int), P w → P { w with row := row, col := col }
  placed : ∀ (w t : Walk) (cells : List (Int × Int)), cells.length = 8 → P w →
    placeCodeword nr nc limit cells w = some t → P t

section
variable {nr nc limit : Nat} {P : Walk → Prop} (hP : PlacementInvariant nr nc limit P)
include hP

theorem PlacementInvariant.placeIfFree {w t : Walk} (hw : P w) (h : placeIfFree nr nc limit w = some t) : P t := by
  unfold Machine.placeIfFree at h
  split at h
  · split at h
    · cases h; exact hw
    · exact hP.placed w t _ rfl hw h
  · cases h

theorem PlacementInvariant.sweepUp {t : Walk} (fuel : Nat) : ∀ w : Walk, P w →
    sweepUp nr nc limit fuel w = some t → P t := by
  induction fuel with
  | zero => intro w _ h; cases h
  | succ fuel ih =>
    intro w hw h
    rw [Machine.sweepUp] at h
    split at h
    · cases h
    rename_i u hu
    have hPu : P u := by
      split at hu
      · exact hP.placeIfFree hw hu
      · cases hu; exact hw
    dsimp only at h
    split at h
    · exact ih _ (hP.moved u _ _ hPu) h
    · cases h; exact hP.moved u _ _ hPu

theorem PlacementInvariant.sweepDown {t : Walk} (fuel : Nat) : ∀ w : Walk, P w →
    sweepDown nr nc limit fuel w = some t → P t := by
  induction fuel with
  | zero => intro w _ h; cases h
  | succ fuel ih =>
    intro w hw h
    rw [Machine.sweepDown] at h
    split at h
    · cases h
    rename_i u hu
    have hPu : P u := by
      split at hu
      · exact hP.placeIfFree hw hu
      · cases hu; exact hw
    dsimp only at h
    split at h
    · exact ih _ (hP.moved u _ _ hPu) h
    · cases h; exact hP.moved u _ _ hPu

theorem PlacementInvariant.walkRound {w t : Walk} (hw : P w) (h : walkRound nr nc limit w = some t) : P t := by
  unfold Machine.walkRound at h
  split at h
  · cases h
  rename_i w1 h1
  have hP1 : P w1 := by
    split at h1
    · rename_i hcorner; exact hP.placed w w1 _ (cornerCells_length hcorner) hw h1
    · cases h1; exact hw
  split at h
  · cases h
  rename_i w2 h2
  have hP2 : P w2 := hP.sweepUp _ _ hP1 h2
  split at h
  · cases h
  rename_i w3 h3
  have hP3 : P w3 := hP.sweepDown _ _ (hP.moved w2 _ _ hP2) h3
  cases h
  exact hP.moved w3 _ _ hP3

theorem PlacementInvariant.walkLoop {t : Walk} (fuel : Nat) : ∀ w : Walk, P w →
    walkLoop nr nc limit fuel w = some t → P t := by
  induction fuel with
  | zero => intro w _ h; cases h
  | succ fuel ih =>
    intro w hw h
    rw [Machine.walkLoop] at h
    split at h
    · cases h
    rename_i u hu
    split at h
    · exact ih _ (hP.walkRound hw hu) h
    · cases h; exact hP.walkRound hw hu

end

/-! ### The cells placed -/

/-- Every codeword placed has eight cells of the matrix, no cell is placed twice, and RDM marks the placed cells. -/
structure Walk.Sound (nr nc : Nat) (w : Walk) : Prop where
  eight : ∀ as ∈ w.placed, as.length = 8
  nodup : w.placed.flatten.Nodup
  inside : ∀ a ∈ w.placed.flatten, a ∈ cellAddrs nr nc
  seen : ∀ a, w.seen.testBit a = decide (a ∈ w.placed.flatten)

theorem Walk.Sound.placeCodeword {nr nc limit : Nat} {cells : List (Int × Int)} {w t : Walk} (hcells : cells.length = 8)
    (hw : w.Sound nr nc) (h : placeCodeword nr nc limit cells w = some t) : t.Sound nr nc := by
  unfold Machine.placeCodeword at h
  split at h
  · cases h
  split at h
  · cases h
  rename_i as seen' hm
  cases h
  obtain ⟨hlen, hnodup, hfree, hseen⟩ := moduleCells_some _ hm
  have hnew : ∀ a ∈ as, a ∉ w.placed.flatten := fun a ha => by
    simpa only [hw.seen, decide_eq_false_iff_not] using (hfree a ha).2
  refine ⟨fun bs hbs => ?_, ?_, fun a ha => ?_, fun a => ?_⟩
  · rcases List.mem_cons.mp hbs with rfl | hbs
    · exact hlen.trans hcells
    · exact hw.eight bs hbs
  · rw [List.flatten_cons, List.nodup_append']
    exact ⟨hnodup, hw.nodup, hnew⟩
  · rw [List.flatten_cons, List.mem_append] at ha
    exact ha.elim (fun h => (hfree a h).1) (hw.inside a)
  · rw [List.flatten_cons, hseen, hw.seen, ← Bool.decide_or, decide_eq_decide, List.mem_append, or_comm]

/-- The walk's cells are sound. -/
theorem walk_sound {nr nc limit : Nat} {w : Walk} (h : walk nr nc limit = some w) : w.Sound nr nc := by
  have hinv : PlacementInvariant nr nc limit (Walk.Sound nr nc) :=
    ⟨fun _ _ _ hw => ⟨hw.eight, hw.nodup, hw.inside, hw.seen⟩, fun _ _ _ hc hw ht => hw.placeCodeword hc ht⟩
  exact hinv.walkLoop _ _ ⟨by simp, by simp, by simp, by simp⟩ h

theorem Walk.Sound.length_flatten {nr nc : Nat} {w : Walk} (hw : w.Sound nr nc) :
    w.placed.flatten.length = 8 * w.placed.length := by
  rw [List.length_flatten, List.map_congr_left hw.eight, List.map_const', List.sum_replicate, smul_eq_mul, Nat.mul_comm]

/-! ### The cells no codeword uses (rule R319) -/

theorem length_cellAddrs (h w : Nat) : (cellAddrs h w).length = h * w := by
  simp [cellAddrs, List.length_flatMap]

theorem nodup_cellAddrs (h : Nat) {w : Nat} (hw : w ≤ 256) : (cellAddrs h w).Nodup :=
  (cellAddrs_sorted h w hw).imp (fun hlt => Nat.ne_of_lt hlt)

/-- The four cells of the fixed pattern. -/
def cornerAddrs (nr nc : Nat) : List Nat :=
  [cellAddr (nr - 2) (nc - 2), cellAddr (nr - 2) (nc - 1), cellAddr (nr - 1) (nc - 2), cellAddr (nr - 1) (nc - 1)]

theorem nodup_cornerAddrs {nr nc : Nat} (hr : 2 ≤ nr) (hc : 2 ≤ nc) : (cornerAddrs nr nc).Nodup := by
  simp only [cornerAddrs, cellAddr, List.nodup_cons, List.mem_cons, List.not_mem_nil, or_false, not_or, List.nodup_nil,
    not_false_eq_true, and_true]
  omega

/-- The matrix of a row that keeps rule R107 has four cells more than its codewords need, or none. -/
theorem dmRowOk_cells {r : DmRow} (h : dmRowOk r = true) :
    dmNr r * dmNc r = 8 * dmTotal r ∨ dmNr r * dmNc r = 8 * dmTotal r + 4 := by
  simp only [dmRowOk, Bool.and_eq_true, decide_eq_true_eq] at h
  obtain ⟨⟨htotal, hnr⟩, hnc⟩ := h
  have hfour : dmNr r * dmNc r = 4 * (dmNr r / 2 * (dmNc r / 2)) := by
    conv_lhs => rw [← Nat.div_add_mod (dmNr r) 2, ← Nat.div_add_mod (dmNc r) 2, hnr, hnc]
    ring
  omega

section
variable {r : DmRow} {w : Walk} (hw : w.Sound (dmNr r) (dmNc r)) (hf : w.Fills r)
include hw hf

/-- A matrix with no cell more than its codewords need is used whole. -/
theorem Walk.Fills.all_used (hcells : dmNr r * dmNc r = 8 * dmTotal r) {a : Nat} (ha : a ∈ cellAddrs (dmNr r) (dmNc r)) :
    w.seen.testBit a = true := by
  have hperm := (hw.nodup.subperm hw.inside).perm_of_length_le
    (by rw [length_cellAddrs, hw.length_flatten, hf.1, hcells])
  rw [hw.seen, decide_eq_true_eq]
  exact hperm.mem_iff.mpr ha

variable (hnc : dmNc r ≤ 256)
include hnc

/-- Every cell of the matrix is placed or one of the four. -/
theorem Walk.Fills.cellAddrs_subset : cellAddrs (dmNr r) (dmNc r) ⊆ w.placed.flatten ++ cornerAddrs (dmNr r) (dmNc r) := by
  obtain ⟨-, hfull⟩ := hf
  intro a ha
  obtain ⟨row, hrow, col, hcol, rfl⟩ := mem_cellAddrs.mp ha
  have hin : gridBit (rectBits 0 0 (dmNc r) (dmNr r)) row col = true := by
    rw [gridBit_rectBits 0 _ _ (by omega) (by omega), decide_eq_true_eq]
    omega
  have hused : gridBit w.seen row col = true → cellAddr row col ∈ w.placed.flatten := fun h =>
    of_decide_eq_true ((hw.seen _).symm.trans h)
  rw [List.mem_append]
  rw [← hfull, fixedPattern] at hin
  split at hin
  · exact .inl (hused hin)
  · rw [gridBit_or, gridBit_rectBits _ _ _ (by omega) (by omega), Bool.or_eq_true, decide_eq_true_eq] at hin
    refine hin.imp hused (fun hcorner => ?_)
    have hrows : row = dmNr r - 2 ∨ row = dmNr r - 1 := by omega
    have hcols : col = dmNc r - 2 ∨ col = dmNc r - 1 := by omega
    rcases hrows with rfl | rfl <;> rcases hcols with rfl | rfl <;> simp [cornerAddrs]

/-- A matrix with four cells more than its codewords need: the four are not used. -/
theorem Walk.Fills.corner_free (hcells : dmNr r * dmNc r = 8 * dmTotal r + 4) :
    ∀ a ∈ cornerAddrs (dmNr r) (dmNc r), a ∉ w.placed.flatten := by
  intro a hcorner hplaced
  have hsub : cellAddrs (dmNr r) (dmNc r) ⊆ w.placed.flatten ++ (cornerAddrs (dmNr r) (dmNc r)).erase a := by
    intro b hb
    by_cases hba : b = a
    · exact List.mem_append_left _ (hba ▸ hplaced)
    · rcases List.mem_append.mp (hf.cellAddrs_subset hw hnc hb) with h | h
      · exact List.mem_append_left _ h
      · exact List.mem_append_right _ ((List.mem_erase_of_ne hba).mpr h)
  have hlen := ((nodup_cellAddrs (dmNr r) hnc).subperm hsub).length_le
  rw [length_cellAddrs, List.length_append, hw.length_flatten, List.length_erase_of_mem hcorner, hf.1] at hlen
  change _ ≤ _ + 3 at hlen
  omega

end

end Sys2Proof.Machine
end

section
/-! What MAP.DM draws with the default tables (42_mapper.md rule R310 to R321; O27). -/

namespace Sys2Proof.Machine

/-! ### The codewords in the mapping matrix (rule R312, R316) -/

theorem testBit_putCodewords_of_notMem {a : Nat} (cells : List (List Nat)) : ∀ (g : Nat) (cws : List Nat),
    a ∉ cells.flatten → (putCodewords g cells cws).testBit a = g.testBit a := by
  induction cells with
  | nil => intro g cws _; rfl
  | cons as rest ih =>
    intro g cws ha
    rw [List.flatten_cons, List.mem_append, not_or] at ha
    cases cws with
    | nil => rfl
    | cons c cws => rw [putCodewords, ih _ _ ha.2, testBit_putBits_of_notMem _ _ _ ha.1]

/-- Bit `j` of codeword `k`, from the most significant on, stands at its cell. -/
theorem testBit_putCodewords_getElem (cells : List (List Nat)) : ∀ (g : Nat) (cws : List Nat) (k j : Nat)
    (hk : k < cells.length) (hc : k < cws.length) (hj : j < cells[k].length), (∀ as ∈ cells, as.length = 8) →
    cells.flatten.Nodup → (putCodewords g cells cws).testBit cells[k][j] = cws[k].testBit (7 - j) := by
  induction cells with
  | nil => intro g cws k j hk; exact absurd hk (Nat.not_lt_zero k)
  | cons as rest ih =>
    intro g cws k j hk hc hj height hn
    rw [List.flatten_cons, List.nodup_append'] at hn
    obtain ⟨hnas, hnrest, hdisj⟩ := hn
    cases cws with
    | nil => exact absurd hc (Nat.not_lt_zero k)
    | cons c cws =>
      cases k with
      | zero =>
        change j < as.length at hj
        have has : as.length = 8 := height as (by simp)
        have hbit : j < (bitsMsb c 8).length := by rwa [bitsMsb_length, ← has]
        change (putCodewords (putBits g as (bitsMsb c 8)) rest cws).testBit as[j] = c.testBit (7 - j)
        rw [testBit_putCodewords_of_notMem _ _ _ (hdisj (List.getElem_mem hj)),
          testBit_putBits_getElem as g _ j hj hbit hnas, getElem_bitsMsb]
      | succ k => exact ih _ cws k j _ _ hj (fun as h => height as (by simp [h])) hnrest

/-- A codeword of CW by its bits, most significant first. -/
theorem testBit_codewords (s : State) {k j : Nat} (hk : k < s.codewords.length) (hj : j < 8) :
    s.codewords[k].testBit (7 - j) = (s.mem.cw.read k).getMsbD j := by
  have hcw : s.codewords[k] = (s.mem.cw.read k).toNat := by simp [State.codewords, Buf.take]
  rw [hcw, BitVec.testBit_toNat, BitVec.getMsbD_eq_getLsbD, decide_eq_true hj, Bool.true_and]

/-! ### The mapping matrix (rule R316, R319) -/

/-- The mapping matrix of the codewords `cws` placed by the walk `w`. -/
def dmMapped (r : DmRow) (w : Walk) (cws : List Nat) : Nat :=
  (fixedPattern (dmNr r) (dmNc r) (putCodewords 0 w.placed.reverse cws) w.seen).1

theorem dmMatrix_eq {r : DmRow} {w : Walk} {cws : List Nat} (hw : walk (dmNr r) (dmNc r) (dmTotal r) = some w)
    (hf : w.Fills r) (hl : cws.length = dmTotal r) :
    dmMatrix r cws = .ok (dmMapped r w cws, { w with seen := rectBits 0 0 (dmNc r) (dmNr r) }) := by
  obtain ⟨hlen, hfull⟩ := hf
  have hseen := (fixedPattern_seen (dmNr r) (dmNc r) (putCodewords 0 w.placed.reverse cws) w.seen).trans hfull
  rw [dmMatrix, hl, hw]
  dsimp only
  rw [if_neg (not_not_intro hlen), if_pos hseen, hseen, dmMapped]

/-- The fixed pattern leaves every cell but its four alone. -/
theorem testBit_fixedPattern {nr nc g seen a : Nat} (h : seen.testBit (cellAddr (nr - 1) (nc - 1)) = true
      ∨ a ∉ cornerAddrs nr nc) : (fixedPattern nr nc g seen).1.testBit a = g.testBit a := by
  unfold fixedPattern
  split
  · rfl
  · rename_i hfree
    exact testBit_putBits_of_notMem _ _ _ (h.resolve_left hfree)

theorem testBit_fixedPattern_corner {nr nc g seen : Nat} (hr : 2 ≤ nr) (hc : 2 ≤ nc)
    (h : seen.testBit (cellAddr (nr - 1) (nc - 1)) = false) {k : Nat} (hk : k < (cornerAddrs nr nc).length) :
    (fixedPattern nr nc g seen).1.testBit (cornerAddrs nr nc)[k] = [true, false, false, true][k] := by
  have hfree : gridBit seen (nr - 1) (nc - 1) ≠ true := by rw [gridBit, h]; decide
  rw [fixedPattern, if_neg hfree]
  exact testBit_putBits_getElem (cornerAddrs nr nc) g [true, false, false, true] k hk hk (nodup_cornerAddrs hr hc)

section
variable {r : DmRow} {w : Walk} {cws : List Nat} (hr : r ∈ tDmSym) (hw : walk (dmNr r) (dmNc r) (dmTotal r) = some w)
  (hf : w.Fills r)
include hr hw hf

/-- Bit `j` of codeword `k` stands at the cell the walk gives it. -/
theorem testBit_dmMapped (hl : cws.length = dmTotal r) {k j : Nat} (hk : k < w.placed.reverse.length)
    (hj : j < w.placed.reverse[k].length) :
    (dmMapped r w cws).testBit w.placed.reverse[k][j]
      = (cws[k]'(by rw [hl, ← hf.1, ← List.length_reverse]; exact hk)).testBit (7 - j) := by
  obtain ⟨-, -, hnr, hnc, h6, h8, -, -⟩ := tDmSym_bounds r hr
  have hs := walk_sound hw
  have hperm : w.placed.reverse.flatten.Perm w.placed.flatten := (List.reverse_perm _).flatten
  have hmem : w.placed.reverse[k][j] ∈ w.placed.flatten :=
    hperm.mem_iff.mp (List.mem_flatten.mpr ⟨_, List.getElem_mem hk, List.getElem_mem hj⟩)
  have hkeep : w.seen.testBit (cellAddr (dmNr r - 1) (dmNc r - 1)) = true
      ∨ w.placed.reverse[k][j] ∉ cornerAddrs (dmNr r) (dmNc r) := by
    rcases dmRowOk_cells (tDmSym_ok r hr) with hcells | hcells
    · exact .inl (hf.all_used hs hcells (cellAddr_mem_cellAddrs (by omega) (by omega)))
    · exact .inr (fun hc => hf.corner_free hs (by omega) hcells _ hc hmem)
  rw [dmMapped, testBit_fixedPattern hkeep]
  exact testBit_putCodewords_getElem _ _ _ _ _ _ _ _ (fun as has => hs.eight as (List.mem_reverse.mp has))
    (hperm.nodup_iff.mpr hs.nodup)

/-- The four cells no codeword uses hold the fixed pattern. -/
theorem gridBit_dmMapped_corner (h4 : dmNr r * dmNc r % 8 = 4) {i j : Nat} (hi : i < 2) (hj : j < 2) :
    gridBit (dmMapped r w cws) (dmNr r - 2 + i) (dmNc r - 2 + j) = decide (i = j) := by
  obtain ⟨-, -, hnr, hnc, h6, h8, -, -⟩ := tDmSym_bounds r hr
  have hs := walk_sound hw
  have hcells : dmNr r * dmNc r = 8 * dmTotal r + 4 := by
    rcases dmRowOk_cells (tDmSym_ok r hr) with h | h <;> omega
  have hlast : w.seen.testBit (cellAddr (dmNr r - 1) (dmNc r - 1)) = false := by
    rw [hs.seen, decide_eq_false_iff_not]
    exact hf.corner_free hs (by omega) hcells _ (by simp [cornerAddrs])
  have hcorner {k : Nat} (hk : k < 4) := testBit_fixedPattern_corner (nr := dmNr r) (nc := dmNc r)
    (g := putCodewords 0 w.placed.reverse cws) (by omega) (by omega) hlast hk
  have hr1 : dmNr r - 2 + 1 = dmNr r - 1 := by omega
  have hc1 : dmNc r - 2 + 1 = dmNc r - 1 := by omega
  match i, j with
  | 0, 0 => exact hcorner (k := 0) (by decide)
  | 0, 1 => rw [hc1]; exact hcorner (k := 1) (by decide)
  | 1, 0 => rw [hr1]; exact hcorner (k := 2) (by decide)
  | 1, 1 => rw [hr1, hc1]; exact hcorner (k := 3) (by decide)

end

/-! ### The command (rule R310, R321) -/

/-- MAP.DM on a row of the default table completes with the symbol of its mapping matrix. -/
theorem exec_mapDm_default {s : State} {r : DmRow} {w : Walk} (hrom : s.rom = romDefault)
    (hrow : tDmSym[s.regs.sym.toNat]? = some r) (hl : s.regs.cwLen.toNat = dmTotal r)
    (hw : walk (dmNr r) (dmNc r) (dmTotal r) = some w) (hf : w.Fills r) :
    exec .mapDm s = .next (s.setDmSymbol r (dmMapped r w s.codewords)
      { w with seen := rectBits 0 0 (dmNc r) (dmNr r) }).complete := by
  have hr : r ∈ tDmSym := List.mem_of_getElem? hrow
  obtain ⟨-, -, -, -, -, -, htotal, -⟩ := tDmSym_bounds r hr
  have hlegal : mapDmLegal s.rom s.regs = some r := by
    rw [hrom]; exact mapDmLegal_some (rom := romDefault) hrow hl (by omega)
  change execMapDm s = _
  rw [execMapDm, hlegal]
  dsimp only
  rw [mapDmBody, if_pos (tDmSym_drawable r hr), dmMatrix_eq hw hf (s.codewords_length.trans hl)]
  rfl

/-- A cell of a region lies in its part of the matrix. -/
theorem regionCell_lt {n m row : Nat} (hrow : row < n * (m + 2)) (h0 : row % (m + 2) ≠ 0) (h1 : row % (m + 2) ≠ m + 1) :
    row / (m + 2) * m + row % (m + 2) - 1 < n * m := by
  have hmod : row % (m + 2) < m + 2 := Nat.mod_lt _ (by omega)
  have hdiv : row / (m + 2) + 1 ≤ n := Nat.div_lt_of_lt_mul (by rwa [Nat.mul_comm] at hrow)
  have hmul := Nat.mul_le_mul_right m hdiv
  rw [Nat.add_mul, Nat.one_mul] at hmul
  omega

/-- The symbol's cells: the borders, and inside them the cells of MM. -/
theorem symbolCell_eq_mm {r : DmRow} (gen mm : Nat) {row col : Nat} (hrow : row < dmSymH r) (hcol : col < dmSymW r) :
    symbolCell r mm row col =
      if row % (r.rh + 2) = r.rh + 1 then true
      else if col % (r.rw + 2) = 0 then true
      else if row % (r.rh + 2) = 0 then decide (col % 2 = 0)
      else if col % (r.rw + 2) = r.rw + 1 then decide ((row / (r.rh + 2) * r.rh + (row % (r.rh + 2) - 1)) % 2 = 0)
      else ((Buf.ofGrid gen (dmNr r) (dmNc r) mm).read (cellAddr (row / (r.rh + 2) * r.rh + row % (r.rh + 2) - 1)
        (col / (r.rw + 2) * r.rw + col % (r.rw + 2) - 1))).getLsbD 0 := by
  unfold symbolCell
  dsimp only
  split; · rfl
  rename_i h1
  split; · rfl
  rename_i h2
  split; · rfl
  rename_i h3
  split; · rfl
  rename_i h4
  exact (Buf.getLsbD_read_ofGrid gen mm (regionCell_lt hrow h3 h1 : _ < dmNr r) (regionCell_lt hcol h2 h4 : _ < dmNc r)).symm

/-- Settles O27: the walk covers the matrix, each cell once, so the fixed pattern stands where no codeword does and every bit
where the walk put it. -/
theorem mapDmDrawsTheSymbol : Obligations.MapDmDrawsTheSymbol := by
  unfold Obligations.MapDmDrawsTheSymbol
  intro s r hrom hrow hl
  have hr : r ∈ tDmSym := List.mem_of_getElem? hrow
  obtain ⟨hH, hW, hnr, hnc, h6, h8, -, -⟩ := tDmSym_bounds r hr
  obtain ⟨w, hw, hf⟩ := walk_default hr
  have hs := walk_sound hw
  refine ⟨_, exec_mapDm_default hrom hrow hl hw hf, State.complete_completed _, ?_, ?_, ?_, ?_, ?_, w, hw, hf.1, ?_⟩
  · exact (BitVec.toNat_ofNat ..).trans (Nat.mod_eq_of_lt (by omega : dmSymH r < 2 ^ 8))
  · exact (BitVec.toNat_ofNat ..).trans (Nat.mod_eq_of_lt (by omega : dmSymW r < 2 ^ 8))
  · intro row hrow col hcol
    rw [← dmSymH] at hrow
    rw [← dmSymW] at hcol
    simp only [State.cell, State.complete_mem, State.setDmSymbol_mem]
    rw [Buf.getLsbD_read_ofGrid _ _ hrow hcol, gridBit_gridOf _ _ _ (by omega) (by omega), decide_eq_true hrow,
      decide_eq_true hcol, Bool.true_and, Bool.true_and, symbolCell_eq_mm s.draws _ hrow hcol]
  · intro row hrow col hcol
    rw [← dmNr] at hrow
    rw [← dmNc] at hcol
    simp only [State.complete_mem, State.setDmSymbol_mem]
    rw [Buf.read_ofGrid _ _ hrow hcol, gridBit_rectBits _ _ _ (by omega) (by omega), decide_eq_true (by omega)]
    rfl
  · intro h4 i hi j hj
    simp only [State.complete_mem, State.setDmSymbol_mem]
    have hrow : dmNr r - 2 + i < dmNr r := by omega
    have hcol : dmNc r - 2 + j < dmNc r := by omega
    exact (Buf.read_ofGrid _ _ hrow hcol).trans (congrArg BitVec.ofBool (gridBit_dmMapped_corner hr hw hf h4 hi hj))
  · intro k hk j hj
    have hlen : s.codewords.length = dmTotal r := s.codewords_length.trans hl
    have hk' : k < s.codewords.length := by rwa [hlen, ← hf.1, ← List.length_reverse]
    have hj' : j < 8 := by rwa [hs.eight _ (List.mem_reverse.mp (List.getElem_mem hk))] at hj
    have hbit := (testBit_dmMapped hr hw hf hlen hk hj).trans (testBit_codewords s hk' hj')
    obtain ⟨row, hrow, col, hcol, haddr⟩ := mem_cellAddrs.mp (hs.inside w.placed.reverse[k][j]
      (List.mem_flatten.mpr ⟨_, List.mem_reverse.mp (List.getElem_mem hk), List.getElem_mem hj⟩))
    simp only [State.complete_mem, State.setDmSymbol_mem]
    rw [haddr] at hbit ⊢
    exact (Buf.getLsbD_read_ofGrid _ _ hrow hcol).trans hbit

end Sys2Proof.Machine
end

section
/-! The candidates of MAP.QR and the mask search (42_mapper.md rule R333 to R335), and what the command leaves with the default
tables (O30, O32). -/

namespace Sys2Proof.Machine

/-! ### The order of the data cells (rule R333) -/

theorem pairColumns_bounds (n : Nat) : ∀ {x c : Nat}, 2 * n ≤ x + 1 → c ∈ pairColumns x n → 1 ≤ c ∧ c ≤ x := by
  induction n with
  | zero => intro x c _ hc; exact absurd hc List.not_mem_nil
  | succ n ih =>
    intro x c hx hc
    rw [pairColumns, List.mem_cons] at hc
    rcases hc with rfl | hc
    · split <;> omega
    · split at hc
      · have := ih (by omega) hc; omega
      · have := ih (by omega) hc; omega

/-- The pairs of columns do not overlap. -/
theorem pairColumns_pairwise (n : Nat) : ∀ {x : Nat}, 2 * n ≤ x + 1 → x ≤ 2 * n →
    (pairColumns x n).Pairwise (fun a b => b + 2 ≤ a) := by
  induction n with
  | zero => exact fun _ _ => List.Pairwise.nil
  | succ n ih =>
    intro x hx hn
    rw [pairColumns, List.pairwise_cons]
    have hc : 2 * n ≤ (if x = 6 then x - 1 else x) - 2 + 1 ∧ (if x = 6 then x - 1 else x) - 2 ≤ 2 * n := by split <;> omega
    refine ⟨fun b hb => ?_, ih hc.1 hc.2⟩
    have := pairColumns_bounds n hc.1 hb
    omega

theorem mem_pairCells {dim : Nat} {p : Nat × Nat} (cols : List Nat) : ∀ {up : Bool}, p ∈ pairCells dim up cols →
    p.2 < dim ∧ ∃ x ∈ cols, p.1 = x ∨ p.1 = x - 1 := by
  induction cols with
  | nil => intro up h; exact absurd h List.not_mem_nil
  | cons x rest ih =>
    intro up h
    rw [pairCells, List.mem_append, List.mem_flatMap] at h
    rcases h with ⟨k, hk, hp⟩ | h
    · rw [List.mem_range] at hk
      have hy : (if up = true then dim - 1 - k else k) < dim := by split <;> omega
      simp only [List.mem_cons, List.not_mem_nil, or_false] at hp
      rcases hp with rfl | rfl
      · exact ⟨hy, x, by simp, .inl rfl⟩
      · exact ⟨hy, x, by simp, .inr rfl⟩
    · obtain ⟨hy, c, hc, hx⟩ := ih h
      exact ⟨hy, c, by simp [hc], hx⟩

/-- The walk meets no cell twice. -/
theorem nodup_pairCells (dim : Nat) (cols : List Nat) : ∀ up : Bool, cols.Pairwise (fun a b => b + 2 ≤ a) →
    (∀ x ∈ cols, 1 ≤ x) → (pairCells dim up cols).Nodup := by
  induction cols with
  | nil => exact fun _ _ _ => List.nodup_nil
  | cons x rest ih =>
    intro up hp h1
    rw [List.pairwise_cons] at hp
    have hx : 1 ≤ x := h1 x (by simp)
    rw [pairCells, List.nodup_append']
    refine ⟨List.nodup_flatMap.mpr ⟨fun k _ => ?_, ?_⟩, ih _ hp.2 (fun y hy => h1 y (by simp [hy])), fun p hp1 hp2 => ?_⟩
    · simp only [List.nodup_cons, List.mem_singleton, Prod.mk.injEq, List.not_mem_nil, not_false_eq_true, List.nodup_nil,
        and_true]
      omega
    · refine List.pairwise_lt_range.imp_of_mem (fun {a b} ha hb hab => ?_)
      rw [List.mem_range] at ha hb
      have hne : (if up = true then dim - 1 - a else a) ≠ (if up = true then dim - 1 - b else b) := by split <;> omega
      simp only [Function.onFun, List.disjoint_cons_left, List.mem_cons, Prod.mk.injEq, List.not_mem_nil, or_false,
        List.disjoint_nil_left, and_true]
      simp [hne]
    · obtain ⟨-, c, hc, hpc⟩ := mem_pairCells rest hp2
      have hcx := hp.1 c hc
      obtain ⟨k, -, hk⟩ := List.mem_flatMap.mp hp1
      simp only [List.mem_cons, List.not_mem_nil, or_false] at hk
      have hpx : p.1 = x ∨ p.1 = x - 1 := hk.imp (congrArg Prod.fst) (congrArg Prod.fst)
      omega

section
variable {dim fp : Nat}

theorem mem_dataCells (hd : dim % 2 = 1) {p : Nat × Nat} (h : p ∈ dataCells dim fp) :
    p.1 < dim ∧ p.2 < dim ∧ gridBit fp p.2 p.1 = false := by
  obtain ⟨hp, hfree⟩ := List.mem_filter.mp h
  obtain ⟨hy, x, hx, hpx⟩ := mem_pairCells _ hp
  have hb := pairColumns_bounds _ (by omega) hx
  exact ⟨by omega, hy, by simpa using hfree⟩

theorem nodup_dataCells (hd : dim % 2 = 1) : (dataCells dim fp).Nodup :=
  (nodup_pairCells dim _ true (pairColumns_pairwise _ (by omega) (by omega))
    (fun _ hx => (pairColumns_bounds _ (by omega) hx).1)).filter _

end

/-! ### The stream placed (rule R333, R334) -/

/-- The bits of the data cells: the stream, 0 beyond it, under the mask. -/
def maskedBits (m : Nat) (cells : List (Nat × Nat)) (bits : List Bool) : List Bool :=
  cells.mapIdx (fun k p => (bits[k]?).getD false ^^ qrMask m p.1 p.2)

theorem placeBits_eq_putBits (m : Nat) (cells : List (Nat × Nat)) : ∀ (g : Nat) (bits : List Bool),
    (placeBits m g cells bits).1 = putBits g (addrsOf cells) (maskedBits m cells bits) := by
  induction cells with
  | nil => intro g bits; rfl
  | cons p rest ih =>
    intro g bits
    have hhead : bits.headD false = (bits[0]?).getD false := by cases bits <;> rfl
    have htail : ∀ k : Nat, bits.tail[k]? = bits[k + 1]? := fun k => by cases bits <;> rfl
    rw [placeBits, ih, maskedBits, maskedBits, List.mapIdx_cons, hhead]
    simp only [htail]
    rfl

/-- The stream's bits, read from CW. -/
theorem getElem?_codewordBits (s : State) (k : Nat) :
    ((s.codewords.flatMap (fun w => bitsMsb w 8))[k]?).getD false
      = (decide (k < 8 * s.regs.cwLen.toNat) && s.streamBit k) := by
  have hlen : (s.codewords.flatMap (fun w => bitsMsb w 8)).length = 8 * s.regs.cwLen.toNat := by
    rw [codewordBits_length, s.codewords_length]
  have hread : ∀ i (hi : i < s.codewords.length), s.mem.cw.read (0 + i) = BitVec.ofNat 8 s.codewords[i] := by
    intro i hi
    simp [State.codewords, Buf.take]
  by_cases hk : k < 8 * s.regs.cwLen.toNat
  · have hbit := (State.streamHolds_codewords s.codewords hread (by rw [s.codewords_length, Nat.zero_add])).2 k (by rwa [hlen])
    rw [Nat.mul_zero, Nat.zero_add] at hbit
    rw [List.getElem?_eq_getElem (by rwa [hlen]), Option.getD_some, hbit, decide_eq_true hk, Bool.true_and]
  · rw [List.getElem?_eq_none (by rw [hlen]; exact Nat.not_lt.mp hk), Option.getD_none, decide_eq_false hk, Bool.false_and]

/-! ### The candidates of a state (rule R335) -/

/-- The data cells of the version VER. -/
abbrev State.qrCells (s : State) : List (Nat × Nat) := dataCells (qrDim s.regs.ver.toNat) (qrFp s.rom s.regs.ver.toNat)

/-- The function cells of the candidate with mask `m`. -/
def State.qrPatterns (s : State) (m : Nat) : Nat :=
  qrFrame s.rom (undrawnBits s.rom s.regs.ver.toNat s.draws) s.regs.ver.toNat s.regs.cfgQr.ecl.toNat m

/-- The cells of the candidate with mask `m`. -/
def State.qrGrid (s : State) (m : Nat) : Nat :=
  (placeBits m (s.qrPatterns m) s.qrCells (s.codewords.flatMap (fun w => bitsMsb w 8))).1

/-- The candidate with mask `m`. -/
def State.qrCand (s : State) (m : Nat) : Candidate :=
  ⟨m, s.qrGrid m, penalty (s.qrGrid m) (qrDim s.regs.ver.toNat) (qrDim s.regs.ver.toNat)⟩

/-- The mask MAP.QR uses: the forced one, or the first of least penalty. -/
def State.qrMaskUsed (s : State) : Nat :=
  if s.regs.cfgQr.maskAuto then ((List.range 8).argmin (fun m => (s.qrCand m).pen)).getD 0 else s.regs.cfgQr.maskId.toNat

/-- MAP.QR completed with the candidate of mask `m`. -/
def State.qrDrawn (s : State) (m : Nat) : State := (s.setQrSymbol s.regs.ver.toNat (s.qrCand m)).complete

theorem qrDim_odd (v : Nat) : qrDim v % 2 = 1 := by simp only [qrDim]; omega

section
variable {s : State} {m r c : Nat} (hdim : qrDim s.regs.ver.toNat ≤ 177)
include hdim

theorem State.dataCells_lt : ∀ p ∈ s.qrCells, p.1 < 256 := fun p hp => by
  have := (mem_dataCells (qrDim_odd _) hp).1
  omega

/-- A function cell of a candidate is its patterns'. -/
theorem State.gridBit_qrGrid_function (hc : c < qrDim s.regs.ver.toNat)
    (hfp : gridBit (qrFp s.rom s.regs.ver.toNat) r c = true) : gridBit (s.qrGrid m) r c = gridBit (s.qrPatterns m) r c := by
  rw [State.qrGrid, placeBits_eq_putBits]
  refine gridBit_putBits_of_notMem (State.dataCells_lt hdim) (by omega) (fun hmem => ?_)
  obtain ⟨-, -, hfree⟩ := mem_dataCells (qrDim_odd _) hmem
  rw [hfp] at hfree
  cases hfree

/-- The `k`-th data cell of a candidate holds the `k`-th stream bit under the mask. -/
theorem State.gridBit_qrGrid_data {k : Nat} (hk : k < s.qrCells.length) :
    gridBit (s.qrGrid m) s.qrCells[k].2 s.qrCells[k].1
      = ((decide (k < 8 * s.regs.cwLen.toNat) && s.streamBit k)
          ^^ qrMask m s.qrCells[k].1 s.qrCells[k].2) := by
  rw [State.qrGrid, placeBits_eq_putBits, gridBit_putBits_getElem (State.dataCells_lt hdim) (nodup_dataCells (qrDim_odd _)) hk
    (by rwa [maskedBits, List.length_mapIdx])]
  simp only [maskedBits, List.getElem_mapIdx, getElem?_codewordBits]

theorem State.qrDrawn_gridH : (s.qrDrawn m).regs.gridH.toNat = qrDim s.regs.ver.toNat :=
  (BitVec.toNat_ofNat ..).trans (Nat.mod_eq_of_lt (by omega))

theorem State.qrDrawn_gridW : (s.qrDrawn m).regs.gridW.toNat = qrDim s.regs.ver.toNat :=
  (BitVec.toNat_ofNat ..).trans (Nat.mod_eq_of_lt (by omega))

/-- The symbol drawn has the candidate's penalty. -/
theorem State.penalty_qrDrawn :
    penalty (s.qrDrawn m).symbol (qrDim s.regs.ver.toNat) (qrDim s.regs.ver.toNat) = (s.qrCand m).pen := by
  refine SameCells.penalty (fun r hr c hc => ?_)
  rw [State.symbol, State.qrDrawn_gridH hdim, State.qrDrawn_gridW hdim]
  exact gridBit_grid_ofGrid _ _ (by omega) hr hc

omit hdim in
theorem State.qrDrawn_cell (hr : r < qrDim s.regs.ver.toNat) (hc : c < qrDim s.regs.ver.toNat) :
    (s.qrDrawn m).cell r c = gridBit (s.qrGrid m) r c := Buf.getLsbD_read_ofGrid _ _ hr hc

omit hdim in
theorem State.qrDrawn_resMask (hm : m < 8) : (s.qrDrawn m).regs.resMask.toNat = m :=
  (BitVec.toNat_ofNat ..).trans (Nat.mod_eq_of_lt hm)

end

/-! ### The search (rule R335) -/

/-- A search in which every mask has a candidate keeps the first of least penalty. -/
theorem maskSearch_eq_argAux {rom : Rom} {u v e : Nat} {cells : List (Nat × Nat)} {bits : List Bool} {f : Nat → Candidate}
    (hf : ∀ m, qrCandidate rom u v e m cells bits = some (f m)) (masks : List Nat) : ∀ best : Option Nat,
    maskSearch rom u v e cells bits (best.map f) masks
      = (masks.foldl (List.argAux (fun b c => (f b).pen < (f c).pen)) best).map f := by
  induction masks with
  | nil => exact fun _ => rfl
  | cons m rest ih =>
    intro best
    rw [maskSearch, hf, List.foldl_cons, ← ih]
    cases best with
    | none => rfl
    | some b =>
      dsimp only [Option.map_some, List.argAux]
      split <;> rfl

theorem State.qrMaskUsed_lt (s : State) : s.qrMaskUsed < 8 := by
  unfold State.qrMaskUsed
  split
  · cases h : (List.range 8).argmin (fun m => (s.qrCand m).pen) with
    | none => decide
    | some m => exact List.mem_range.mp (List.argmin_mem h)
  · exact BitVec.isLt _

theorem State.qrMaskUsed_forced {s : State} (h : s.regs.cfgQr.maskAuto = false) :
    s.qrMaskUsed = s.regs.cfgQr.maskId.toNat := by
  rw [State.qrMaskUsed, h, if_neg Bool.false_ne_true]

/-- The mask searched for has the least penalty, and the least id among equals. -/
theorem State.qrMaskUsed_least {s : State} (h : s.regs.cfgQr.maskAuto = true) {m : Nat} (hm : m < 8) :
    (s.qrCand s.qrMaskUsed).pen ≤ (s.qrCand m).pen
      ∧ (m < s.qrMaskUsed → (s.qrCand s.qrMaskUsed).pen < (s.qrCand m).pen) := by
  have hidx : ∀ k ∈ List.range 8, (List.range 8).idxOf k = k := by decide
  rw [State.qrMaskUsed, if_pos h]
  cases hmin : (List.range 8).argmin (fun m => (s.qrCand m).pen) with
  | none => exact absurd (List.argmin_eq_none.mp hmin) (by decide)
  | some b =>
    obtain ⟨hb, hle, hfirst⟩ := List.argmin_eq_some_iff.mp hmin
    have hm' := List.mem_range.mpr hm
    refine ⟨hle m hm', fun hlt => Nat.lt_of_not_le (fun hge => ?_)⟩
    have := hfirst m hm' hge
    rw [hidx b hb, hidx m hm'] at this
    exact Nat.not_le_of_lt hlt this

/-! ### The command with the default tables (rule R330) -/

/-- MAP.QR is issued with the default tables, a version and that version's codeword count. -/
structure State.QrReady (s : State) : Prop where
  rom : s.rom = romDefault
  ver_pos : 1 ≤ s.regs.ver.toNat
  ver_le : s.regs.ver.toNat ≤ 40
  count : s.regs.cwLen.toNat = qrTotal s.rom s.regs.ver.toNat

section
variable {s : State} (h : s.QrReady)
include h

theorem State.QrReady.verLegal : verLegal s.regs.ver.toNat = true := (verLegal_iff _).mpr ⟨h.ver_pos, h.ver_le⟩

theorem State.QrReady.dim_le : qrDim s.regs.ver.toNat ≤ 177 := qrDim_le h.verLegal

theorem State.QrReady.rowOk : qrRowOk s.rom s.regs.ver.toNat = true := h.rom ▸ qrRowOk_default h.verLegal

theorem State.QrReady.legal : mapQrLegal s.rom s.regs = true := by
  have hle := qrTotal_le h.rowOk
  have hsq := Nat.mul_le_mul h.dim_le h.dim_le
  have hcount := h.count
  exact (mapQrLegal_iff _ _).mpr ⟨⟨h.ver_pos, h.ver_le⟩, hcount, by omega⟩

/-- The stream fits the data cells, so every mask has its candidate. -/
theorem State.QrReady.candidate (m : Nat) :
    qrCandidate s.rom (undrawnBits s.rom s.regs.ver.toNat s.draws) s.regs.ver.toNat s.regs.cfgQr.ecl.toNat m
      s.qrCells (s.codewords.flatMap (fun w => bitsMsb w 8))
      = some (s.qrCand m) := by
  have hfit : (s.codewords.flatMap (fun w => bitsMsb w 8)).length ≤ s.qrCells.length := by
    rw [codewordBits_length, s.codewords_length, dataCells_length_of_ok h.verLegal h.rowOk, h.count]
    omega
  have hrest := placeBits_rest m s.qrCells (s.qrPatterns m) (s.codewords.flatMap (fun w => bitsMsb w 8))
  rw [List.drop_eq_nil_of_le hfit] at hrest
  rw [qrCandidate, qrBuild, ← State.qrPatterns, hrest, List.isEmpty_nil, if_pos rfl]
  rfl

theorem State.QrReady.choose :
    qrChoose s.rom (undrawnBits s.rom s.regs.ver.toNat s.draws) s.regs.ver.toNat s.regs.cfgQr.ecl.toNat
      s.regs.cfgQr.maskAuto s.regs.cfgQr.maskId.toNat s.codewords = some (s.qrCand s.qrMaskUsed) := by
  unfold qrChoose State.qrMaskUsed
  dsimp only
  split
  · have hsearch := maskSearch_eq_argAux h.candidate (List.range 8) none
    refine hsearch.trans ?_
    change ((List.range 8).argmin (fun m => (s.qrCand m).pen)).map s.qrCand = _
    cases hmin : (List.range 8).argmin (fun m => (s.qrCand m).pen) with
    | none => exact absurd (List.argmin_eq_none.mp hmin) (by decide)
    | some b => rfl
  · exact h.candidate _

/-- MAP.QR completes with the candidate of the mask it uses. -/
theorem State.QrReady.exec : exec .mapQr s = .next (s.qrDrawn s.qrMaskUsed) := by
  have hin : alignInside s.rom s.regs.ver.toNat = true := h.rom ▸ alignInside_default h.verLegal
  change execMapQr s = _
  rw [execMapQr, if_pos h.legal, mapQrBody, h.rowOk, hin, Bool.and_self, if_pos rfl, h.choose]
  rfl

end

/-- The state with mask `m` forced (10_state.md rule R38). -/
def State.forceMask (s : State) (m : BitVec 3) : State :=
  { s with regs := { s.regs with cfgQr := { s.regs.cfgQr with maskAuto := false, maskId := m } } }

theorem State.QrReady.forceMask {s : State} (h : s.QrReady) (m : BitVec 3) : (s.forceMask m).QrReady :=
  ⟨h.rom, h.ver_pos, h.ver_le, h.count⟩

/-- Settles O30: the state MAP.QR leaves is that of one candidate, whose cells are placed without a clash. -/
theorem mapQrDrawsTheSymbol : Obligations.MapQrDrawsTheSymbol := by
  unfold Obligations.MapQrDrawsTheSymbol
  intro s hrom h1 h40 hcount
  have hs : s.QrReady := ⟨hrom, h1, h40, hcount⟩
  have hdim := hs.dim_le
  refine ⟨_, hs.exec, State.complete_completed _, State.qrDrawn_gridH hdim, State.qrDrawn_gridW hdim, fun hforced => ?_, ?_,
    fun r hr c hc => Buf.read_ofGrid _ _ hr hc, fun k hk => ?_⟩
  · rw [State.qrMaskUsed_forced hforced]
    exact BitVec.ofNat_toNat ..
  · rw [State.qrDrawn_gridH hdim, State.qrDrawn_gridW hdim, State.penalty_qrDrawn hdim]
    rfl
  · obtain ⟨hx, hy, -⟩ := mem_dataCells (qrDim_odd _) (List.getElem_mem hk)
    dsimp only
    rw [State.qrDrawn_cell hy hx, State.gridBit_qrGrid_data hdim hk, State.qrDrawn_resMask s.qrMaskUsed_lt]

/-- Settles O32: forcing a mask leaves that mask's candidate, and the search keeps the first of least penalty. -/
theorem mapQrChoosesTheLeastPenalty : Obligations.MapQrChoosesTheLeastPenalty := by
  unfold Obligations.MapQrChoosesTheLeastPenalty
  intro s t hrom h1 h40 hcount hauto ht m u hu
  have hs : s.QrReady := ⟨hrom, h1, h40, hcount⟩
  have hdim := hs.dim_le
  rw [hs.exec] at ht
  cases ht
  have hu' : exec .mapQr (s.forceMask m) = .next u := hu
  rw [(hs.forceMask m).exec, State.qrMaskUsed_forced rfl] at hu'
  cases hu'
  obtain ⟨hle, hlt⟩ := State.qrMaskUsed_least hauto m.isLt
  have hforced : penalty ((s.forceMask m).qrDrawn m.toNat).symbol (qrDim s.regs.ver.toNat) (qrDim s.regs.ver.toNat)
      = (s.qrCand m.toNat).pen := State.penalty_qrDrawn (s := s.forceMask m) hdim
  have hmask := State.qrDrawn_resMask (s := s) s.qrMaskUsed_lt
  refine ⟨?_, ?_, fun hm r hr c hc => ?_⟩
  · rw [State.penalty_qrDrawn hdim]
    exact hle.trans_eq hforced.symm
  · rw [State.penalty_qrDrawn hdim, hmask]
    exact fun hm => (hlt hm).trans_eq hforced.symm
  · have hused : m.toNat = s.qrMaskUsed := (congrArg BitVec.toNat hm).trans hmask
    exact (State.qrDrawn_cell (s := s.forceMask m) hr hc).trans
      (hused ▸ (State.qrDrawn_cell (s := s) (m := m.toNat) hr hc).symm)

end Sys2Proof.Machine
end

section
/-! The function cells of a QR symbol with the default tables (20_memory.md rule R104, R105; 42_mapper.md rule R331, R336, R337):
what each pattern puts where, and that no other pattern and no data cell touches it. -/

namespace Sys2Proof.Machine

-- one kernel evaluation after the other
set_option Elab.async false

/-! ### Cells of the parts -/

theorem gridBit_zero (r c : Nat) : gridBit 0 r c = false := Nat.zero_testBit _

theorem gridBit_lightened (g b r c : Nat) : gridBit (lightened g b) r c = (gridBit g r c && !gridBit b r c) := by
  unfold lightened
  rw [gridBit, Nat.testBit_xor, Nat.testBit_or]
  cases h1 : g.testBit (cellAddr r c) <;> cases h2 : b.testBit (cellAddr r c) <;> simp [gridBit, h1, h2]

section
variable {x y r c : Nat} (hc : c < 256)
include hc

theorem gridBit_finderBits (hx : x + 7 ≤ 256) :
    gridBit (finderBits x y) r c = decide (y ≤ r ∧ r ≤ y + 6 ∧ x ≤ c ∧ c ≤ x + 6
      ∧ (r = y ∨ r = y + 6 ∨ c = x ∨ c = x + 6 ∨ (y + 2 ≤ r ∧ r ≤ y + 4 ∧ x + 2 ≤ c ∧ c ≤ x + 4))) := by
  simp only [finderBits, gridBit_or]
  rw [gridBit_rectBits _ _ _ (by omega) hc, gridBit_rectBits _ _ _ (by omega) hc, gridBit_rectBits _ _ _ (by omega) hc,
    gridBit_rectBits _ _ _ (by omega) hc, gridBit_rectBits _ _ _ (by omega) hc]
  simp only [← Bool.decide_or, decide_eq_decide]
  omega

theorem gridBit_finderBits_outside (hx : x + 7 ≤ 256) (h : ¬(y ≤ r ∧ r ≤ y + 6 ∧ x ≤ c ∧ c ≤ x + 6)) :
    gridBit (finderBits x y) r c = false := by
  rw [gridBit_finderBits hc hx, decide_eq_false_iff_not]
  omega

omit hc in
theorem gridBit_finderBits_inside (hx : x + 7 ≤ 256) {i j : Nat} (hi : i < 7) (hj : j < 7) :
    gridBit (finderBits x y) (y + j) (x + i)
      = decide (i = 0 ∨ i = 6 ∨ j = 0 ∨ j = 6 ∨ (2 ≤ i ∧ i ≤ 4 ∧ 2 ≤ j ∧ j ≤ 4)) := by
  rw [gridBit_finderBits (by omega) hx, decide_eq_decide]
  omega

theorem gridBit_blockBits (h2 : 2 ≤ x) (hx : x + 3 ≤ 256) (hy : 2 ≤ y) :
    gridBit (blockBits x y) r c = decide (y ≤ r + 2 ∧ r ≤ y + 2 ∧ x ≤ c + 2 ∧ c ≤ x + 2) := by
  rw [blockBits, gridBit_rectBits _ _ _ (by omega) hc, decide_eq_decide]
  omega

theorem gridBit_alignBits (h2 : 2 ≤ x) (hx : x + 3 ≤ 256) (hy : 2 ≤ y) :
    gridBit (alignBits x y) r c = decide (y ≤ r + 2 ∧ r ≤ y + 2 ∧ x ≤ c + 2 ∧ c ≤ x + 2
      ∧ (r + 2 = y ∨ r = y + 2 ∨ c + 2 = x ∨ c = x + 2 ∨ (r = y ∧ c = x))) := by
  simp only [alignBits, gridBit_or]
  rw [gridBit_rectBits _ _ _ (by omega) hc, gridBit_rectBits _ _ _ (by omega) hc, gridBit_rectBits _ _ _ (by omega) hc,
    gridBit_rectBits _ _ _ (by omega) hc, gridBit_rectBits _ _ _ (by omega) hc]
  simp only [← Bool.decide_or, decide_eq_decide]
  omega

/-- The first `n` modules of both timing lines. -/
theorem gridBit_timingFold (n : Nat) (hn : n + 9 ≤ 256) :
    gridBit ((List.range n).foldl (fun g k =>
        if k % 2 = 0 then g ||| rectBits (8 + k) 6 1 1 ||| rectBits 6 (8 + k) 1 1 else g) 0) r c
      = decide ((r = 6 ∧ 8 ≤ c ∧ c < 8 + n ∧ c % 2 = 0) ∨ (c = 6 ∧ 8 ≤ r ∧ r < 8 + n ∧ r % 2 = 0)) := by
  induction n with
  | zero => rw [List.range_zero, List.foldl_nil, gridBit_zero, eq_comm, decide_eq_false_iff_not]; omega
  | succ n ih =>
    rw [List.range_succ, List.foldl_append, List.foldl_cons, List.foldl_nil]
    split
    · rw [gridBit_or, gridBit_or, ih (by omega), gridBit_rectBits _ _ _ (by omega) hc, gridBit_rectBits _ _ _ (by omega) hc,
        ← Bool.decide_or, ← Bool.decide_or, decide_eq_decide]
      omega
    · rw [ih (by omega), decide_eq_decide]
      omega

end

theorem gridBit_timingBits {dim r c : Nat} (hd : 17 ≤ dim ∧ dim ≤ 177) (hc : c < 256) :
    gridBit (timingBits dim) r c
      = decide ((r = 6 ∧ 8 ≤ c ∧ c + 9 ≤ dim ∧ c % 2 = 0) ∨ (c = 6 ∧ 8 ≤ r ∧ r + 9 ≤ dim ∧ r % 2 = 0)) := by
  rw [timingBits, gridBit_timingFold hc _ (by omega), decide_eq_decide]
  omega

/-! ### The coordinates of the alignment blocks (rule R104) -/

/-- A coordinate of an alignment block in a symbol of `dim` columns: on the timing line, on the last finder's centre, or clear
of both; and even. -/
abbrev AlignCoord (dim a : Nat) : Prop := (a = 6 ∨ a + 7 = dim ∨ (16 ≤ a ∧ a + 17 ≤ dim)) ∧ a % 2 = 0

theorem qrAlign_default_eq {v : Nat} (hv : 1 ≤ v) {cs : List Nat} (h : tQrAlign[v - 1]? = some cs) :
    qrAlign romDefault v = cs := by
  obtain ⟨n, rfl⟩ : ∃ n, v = n + 1 := ⟨v - 1, by omega⟩
  exact congrArg (fun o => o.getD []) h

theorem qrAlign_default_all : ∀ v ∈ versions, ∀ a ∈ qrAlign romDefault v, AlignCoord (qrDim v) a
    ∧ ∀ b ∈ qrAlign romDefault v, a < b → a + 5 ≤ b := by decide +kernel

/-- Rule R105 leaves out the same centres as rule R331. -/
theorem qrCentres_default_all : ∀ v ∈ versions, qrCentres romDefault v = drawnCentres romDefault v := by decide +kernel

theorem mem_drawnCentres {rom : Rom} {v : Nat} {p : Nat × Nat} : p ∈ drawnCentres rom v ↔
    p.1 ∈ qrAlign rom v ∧ p.2 ∈ qrAlign rom v ∧ isFinderCell (qrDim v) p.1 p.2 = false := by
  obtain ⟨x, y⟩ := p
  simp only [drawnCentres, alignPairs, List.mem_filter, List.mem_flatMap, List.mem_map, Prod.mk.injEq, Bool.not_eq_true']
  constructor
  · rintro ⟨⟨cy, hy, cx, hx, rfl, rfl⟩, hf⟩; exact ⟨hx, hy, hf⟩
  · rintro ⟨hx, hy, hf⟩; exact ⟨⟨y, hy, x, hx, rfl, rfl⟩, hf⟩

/-- The cell (`r`, `c`) lies in the block centred at `p`. -/
abbrev InBlock (p : Nat × Nat) (r c : Nat) : Prop := p.2 ≤ r + 2 ∧ r ≤ p.2 + 2 ∧ p.1 ≤ c + 2 ∧ c ≤ p.1 + 2

section
variable {v : Nat} (hv : verLegal v = true)
include hv

theorem qrDim_bounds : 21 ≤ qrDim v ∧ qrDim v ≤ 177 ∧ qrDim v = 17 + 4 * v := by
  rw [verLegal_iff] at hv
  unfold qrDim
  omega

/-- Where the centres of the drawn blocks stand: on no finder. -/
theorem drawnCentres_default {p : Nat × Nat} (hp : p ∈ drawnCentres romDefault v) :
    AlignCoord (qrDim v) p.1 ∧ AlignCoord (qrDim v) p.2 ∧ ¬(p.1 = 6 ∧ p.2 = 6) ∧ ¬(p.1 + 7 = qrDim v ∧ p.2 = 6)
      ∧ ¬(p.1 = 6 ∧ p.2 + 7 = qrDim v) := by
  obtain ⟨hx, hy, hf⟩ := mem_drawnCentres.mp hp
  have hd := qrDim_bounds hv
  refine ⟨(qrAlign_default_all v (mem_versions hv) _ hx).1, (qrAlign_default_all v (mem_versions hv) _ hy).1, ?_⟩
  simp only [isFinderCell, Bool.or_eq_false_iff, ← Bool.decide_and, decide_eq_false_iff_not] at hf
  omega

/-- Every centre that falls on no finder is drawn. -/
theorem mem_drawnCentres_default {cx cy : Nat} (hx : cx ∈ qrAlign romDefault v) (hy : cy ∈ qrAlign romDefault v)
    (h : (cx, cy) ∉ [(6, 6), (qrDim v - 7, 6), (6, qrDim v - 7)]) : (cx, cy) ∈ drawnCentres romDefault v := by
  have hd := qrDim_bounds hv
  obtain ⟨hcx, -⟩ := (qrAlign_default_all v (mem_versions hv) _ hx).1
  obtain ⟨hcy, -⟩ := (qrAlign_default_all v (mem_versions hv) _ hy).1
  refine mem_drawnCentres.mpr ⟨hx, hy, ?_⟩
  simp only [List.mem_cons, List.not_mem_nil, or_false, Prod.mk.injEq] at h
  simp only [isFinderCell, Bool.or_eq_false_iff, ← Bool.decide_and, decide_eq_false_iff_not]
  omega

/-- A cell lies in one drawn block at most. -/
theorem drawnCentres_disjoint {p q : Nat × Nat} {r c : Nat} (hp : p ∈ drawnCentres romDefault v)
    (hq : q ∈ drawnCentres romDefault v) (hpb : InBlock p r c) (hqb : InBlock q r c) : q = p := by
  obtain ⟨hpx, hpy, -⟩ := mem_drawnCentres.mp hp
  obtain ⟨hqx, hqy, -⟩ := mem_drawnCentres.mp hq
  have hgap : ∀ a ∈ qrAlign romDefault v, ∀ b ∈ qrAlign romDefault v, a ≤ b + 4 → b ≤ a + 4 → a = b := by
    intro a ha b hb h1 h2
    have hab := (qrAlign_default_all v (mem_versions hv) a ha).2 b hb
    have hba := (qrAlign_default_all v (mem_versions hv) b hb).2 a ha
    omega
  exact Prod.ext (hgap _ hqx _ hpx (by omega) (by omega)) (hgap _ hqy _ hpy (by omega) (by omega))

end

/-! ### The patterns (rule R331) -/

/-- The alignment blocks drawn over `g`. -/
def drawBlocks (g : Nat) (cs : List (Nat × Nat)) : Nat :=
  cs.foldl (fun g p => lightened g (blockBits p.1 p.2) ||| alignBits p.1 p.2) g

/-- The finders and the dark module. -/
def drawFinders (dim : Nat) : Nat :=
  finderBits 0 0 ||| finderBits (dim - 7) 0 ||| finderBits 0 (dim - 7) ||| rectBits 8 (dim - 8) 1 1

theorem drawFunction_eq (rom : Rom) (v : Nat) : drawFunction rom v = drawBlocks (drawFinders (qrDim v)) (drawnCentres rom v)
    ||| lightened (timingBits (qrDim v)) (withBlocks 0 (drawnCentres rom v)) := rfl

section
variable {cs : List (Nat × Nat)} {r c : Nat} (hcs : ∀ p ∈ cs, 2 ≤ p.1 ∧ p.1 + 3 ≤ 256 ∧ 2 ≤ p.2) (hc : c < 256)
include hcs hc

theorem gridBit_withBlocks_eq (g : Nat) :
    gridBit (withBlocks g cs) r c = (gridBit g r c || decide (∃ p ∈ cs, InBlock p r c)) := by
  induction cs generalizing g with
  | nil => simp [withBlocks]
  | cons p rest ih =>
    obtain ⟨h2, hx, hy⟩ := hcs p (by simp)
    have hstep : withBlocks g (p :: rest) = withBlocks (g ||| blockBits p.1 p.2) rest := rfl
    rw [hstep, ih (fun q hq => hcs q (by simp [hq])), gridBit_or, gridBit_blockBits hc h2 hx hy, Bool.or_assoc,
      ← Bool.decide_or]
    simp only [List.exists_mem_cons_iff]

/-- One block drawn: its own cells, and the others as before. -/
theorem gridBit_drawBlock {p : Nat × Nat} (hp : p ∈ cs) (g : Nat) :
    gridBit (lightened g (blockBits p.1 p.2) ||| alignBits p.1 p.2) r c
      = if InBlock p r c then gridBit (alignBits p.1 p.2) r c else gridBit g r c := by
  obtain ⟨h2, hx, hy⟩ := hcs p hp
  rw [gridBit_or, gridBit_lightened, gridBit_blockBits hc h2 hx hy]
  split
  · rename_i hin; rw [decide_eq_true hin, Bool.not_true, Bool.and_false, Bool.false_or]
  · rename_i hout
    rw [decide_eq_false hout, Bool.not_false, Bool.and_true, gridBit_alignBits hc h2 hx hy, decide_eq_false (by omega),
      Bool.or_false]

/-- A cell in no block is as before. -/
theorem gridBit_drawBlocks_of_clear (g : Nat) (h : ∀ p ∈ cs, ¬InBlock p r c) :
    gridBit (drawBlocks g cs) r c = gridBit g r c := by
  induction cs generalizing g with
  | nil => rfl
  | cons p rest ih =>
    have hstep : drawBlocks g (p :: rest) = drawBlocks (lightened g (blockBits p.1 p.2) ||| alignBits p.1 p.2) rest := rfl
    rw [hstep, ih (fun q hq => hcs q (by simp [hq])) _ (fun q hq => h q (by simp [hq])), gridBit_drawBlock hcs hc (by simp),
      if_neg (h p (by simp))]

/-- A cell in one block only is that block's. -/
theorem gridBit_drawBlocks_of_mem {p : Nat × Nat} (hin : InBlock p r c) (huniq : ∀ q ∈ cs, InBlock q r c → q = p) (g : Nat)
    (h : p ∈ cs ∨ gridBit g r c = gridBit (alignBits p.1 p.2) r c) :
    gridBit (drawBlocks g cs) r c = gridBit (alignBits p.1 p.2) r c := by
  induction cs generalizing g with
  | nil => exact h.resolve_left List.not_mem_nil
  | cons q rest ih =>
    have hstep : drawBlocks g (q :: rest) = drawBlocks (lightened g (blockBits q.1 q.2) ||| alignBits q.1 q.2) rest := rfl
    rw [hstep]
    refine ih (fun q hq => hcs q (by simp [hq])) (fun q hq => huniq q (by simp [hq])) _ ?_
    rw [gridBit_drawBlock hcs hc (by simp)]
    split
    · rename_i hq; rw [huniq q (by simp) hq]; exact .inr rfl
    · rename_i hq
      refine h.imp_left (fun hp => (List.mem_cons.mp hp).resolve_left (fun hpq => ?_))
      subst hpq
      exact hq hin

end

/-- The cells of the finders and the dark module. -/
theorem gridBit_drawFinders {dim r c : Nat} (hd : 21 ≤ dim ∧ dim ≤ 177) (hc : c < 256) :
    gridBit (drawFinders dim) r c = (gridBit (finderBits 0 0) r c || gridBit (finderBits (dim - 7) 0) r c
      || gridBit (finderBits 0 (dim - 7)) r c || decide (r + 8 = dim ∧ c = 8)) := by
  rw [drawFinders, gridBit_or, gridBit_or, gridBit_or, gridBit_rectBits (dim - 8) 1 r (by omega) hc]
  congr 1
  rw [decide_eq_decide]
  omega

/-- No finder and no dark module stands outside their cells. -/
theorem gridBit_drawFinders_of_clear {dim r c : Nat} (hd : 21 ≤ dim ∧ dim ≤ 177) (hc : c < 256)
    (h : ¬(r ≤ 6 ∧ c ≤ 6) ∧ ¬(r ≤ 6 ∧ dim ≤ c + 7) ∧ ¬(dim ≤ r + 7 ∧ c ≤ 6) ∧ ¬(r + 8 = dim ∧ c = 8)) :
    gridBit (drawFinders dim) r c = false := by
  rw [gridBit_drawFinders hd hc, gridBit_finderBits_outside hc (by omega) (by omega),
    gridBit_finderBits_outside hc (by omega) (by omega), gridBit_finderBits_outside hc (by omega) (by omega),
    decide_eq_false (by omega)]
  rfl

/-- The cells of the three finders. -/
theorem gridBit_drawFinders_inside {dim : Nat} (hd : 21 ≤ dim ∧ dim ≤ 177) {p : Nat × Nat}
    (hp : p ∈ [(0, 0), (dim - 7, 0), (0, dim - 7)]) {i j : Nat} (hi : i < 7) (hj : j < 7) :
    gridBit (drawFinders dim) (p.2 + j) (p.1 + i)
      = decide (i = 0 ∨ i = 6 ∨ j = 0 ∨ j = 6 ∨ (2 ≤ i ∧ i ≤ 4 ∧ 2 ≤ j ∧ j ≤ 4)) := by
  simp only [List.mem_cons, List.not_mem_nil, or_false] at hp
  rcases hp with rfl | rfl | rfl <;> dsimp only <;> rw [gridBit_drawFinders hd (by omega), decide_eq_false (by omega)]
  · rw [gridBit_finderBits_inside (by omega) hi hj, gridBit_finderBits_outside (by omega) (by omega) (by omega),
      gridBit_finderBits_outside (by omega) (by omega) (by omega)]
    simp only [Bool.or_false]
  · rw [gridBit_finderBits_inside (x := dim - 7) (by omega) hi hj, gridBit_finderBits_outside (by omega) (by omega) (by omega),
      gridBit_finderBits_outside (by omega) (by omega) (by omega)]
    simp only [Bool.or_false, Bool.false_or]
  · rw [gridBit_finderBits_inside (y := dim - 7) (by omega) hi hj, gridBit_finderBits_outside (by omega) (by omega) (by omega),
      gridBit_finderBits_outside (by omega) (by omega) (by omega)]
    simp only [Bool.or_false, Bool.false_or]

section
variable {v : Nat} (hv : verLegal v = true) {r c : Nat} (hc : c < 256)
include hv

theorem drawnCentres_fit : ∀ p ∈ drawnCentres romDefault v, 2 ≤ p.1 ∧ p.1 + 3 ≤ 256 ∧ 2 ≤ p.2 := fun p hp => by
  obtain ⟨hx, hy, -⟩ := drawnCentres_default hv hp
  have hd := qrDim_bounds hv
  omega

include hc

/-- A cell of no block and of no timing line. -/
theorem gridBit_drawFunction_of_clear (hblock : ∀ p ∈ drawnCentres romDefault v, ¬InBlock p r c)
    (htiming : ¬(r = 6 ∧ 8 ≤ c ∧ c + 9 ≤ qrDim v) ∧ ¬(c = 6 ∧ 8 ≤ r ∧ r + 9 ≤ qrDim v)) :
    gridBit (drawFunction romDefault v) r c = gridBit (drawFinders (qrDim v)) r c := by
  have hd := qrDim_bounds hv
  rw [drawFunction_eq, gridBit_or, gridBit_drawBlocks_of_clear (drawnCentres_fit hv) hc _ hblock, gridBit_lightened,
    gridBit_timingBits (by omega) hc, decide_eq_false (by omega), Bool.false_and, Bool.or_false]

/-- A cell of a block. -/
theorem gridBit_drawFunction_block {p : Nat × Nat} (hp : p ∈ drawnCentres romDefault v) (hin : InBlock p r c) :
    gridBit (drawFunction romDefault v) r c = gridBit (alignBits p.1 p.2) r c := by
  rw [drawFunction_eq, gridBit_or, gridBit_lightened, gridBit_withBlocks_eq (drawnCentres_fit hv) hc,
    decide_eq_true ⟨p, hp, hin⟩, Bool.or_true, Bool.not_true, Bool.and_false, Bool.or_false]
  exact gridBit_drawBlocks_of_mem (drawnCentres_fit hv) hc hin (fun q hq hqb => drawnCentres_disjoint hv hp hq hin hqb) _
    (.inl hp)

/-- A cell of a timing line: the blocks on the line agree with it, their coordinates being even. -/
theorem gridBit_drawFunction_timing
    (hline : (r = 6 ∧ 8 ≤ c ∧ c + 9 ≤ qrDim v) ∨ (c = 6 ∧ 8 ≤ r ∧ r + 9 ≤ qrDim v)) :
    gridBit (drawFunction romDefault v) r c = decide ((r + c) % 2 = 0) := by
  have hd := qrDim_bounds hv
  by_cases hblock : ∃ p ∈ drawnCentres romDefault v, InBlock p r c
  · obtain ⟨p, hp, hin⟩ := hblock
    obtain ⟨⟨hx, hxe⟩, ⟨hy, hye⟩, -⟩ := drawnCentres_default hv hp
    obtain ⟨h2, h256, hy2⟩ := drawnCentres_fit hv p hp
    rw [gridBit_drawFunction_block hv hc hp hin, gridBit_alignBits hc h2 h256 hy2, decide_eq_decide]
    omega
  · have hclear : ∀ p ∈ drawnCentres romDefault v, ¬InBlock p r c := fun p hp hin => hblock ⟨p, hp, hin⟩
    rw [drawFunction_eq, gridBit_or, gridBit_drawBlocks_of_clear (drawnCentres_fit hv) hc _ hclear, gridBit_lightened,
      gridBit_withBlocks_eq (drawnCentres_fit hv) hc, decide_eq_false hblock, gridBit_zero, Bool.or_false, Bool.not_false,
      Bool.and_true, gridBit_drawFinders_of_clear (by omega) hc (by omega), Bool.false_or, gridBit_timingBits (by omega) hc,
      decide_eq_decide]
    omega

end

/-! ### The format and version words (rule R336, R337) -/

/-- The format word by the row of T_FMT (46_format_metadata_codec.md rule R474). -/
theorem fmtWord_eq {e m w : Nat} (he : e < 4) (h : tFmt[8 * (([1, 0, 3, 2][e]?).getD 0) + m]? = some w) : fmtWord e m = w := by
  have hbits : ∀ e < 4, ecBits e = ([1, 0, 3, 2][e]?).getD 0 := by decide
  rw [fmtWord, hbits e he, h, Option.getD_some]

theorem verWord_eq {v w : Nat} (h : tVer[v - 7]? = some w) : verWord v = w := by rw [verWord, h, Option.getD_some]

theorem putWord_eq_putBits (cells : List (Nat × Nat)) : ∀ g w : Nat,
    putWord g w cells = putBits g (addrsOf cells) ((List.range cells.length).map w.testBit) := by
  induction cells with
  | nil => intro g w; rfl
  | cons p rest ih =>
    intro g w
    have hbit : w.testBit 0 = decide (w % 2 = 1) := Nat.testBit_zero ..
    have hrest : (List.range rest.length).map (w / 2).testBit = (List.range rest.length).map (fun k => w.testBit (k + 1)) :=
      List.map_congr_left (fun k _ => (Nat.testBit_succ ..).symm)
    rw [putWord, ih, List.length_cons, List.range_succ_eq_map, List.map_cons, List.map_map, hbit, hrest]
    rfl

theorem mem_formatCells1 : ∀ p ∈ formatCells1, (p.1 = 8 ∧ p.2 ≤ 8 ∧ p.2 ≠ 6) ∨ (p.2 = 8 ∧ p.1 ≤ 7 ∧ p.1 ≠ 6) := by decide

theorem formatCells1_lt : ∀ p ∈ formatCells1, p.1 < 256 := fun p hp => by
  have := mem_formatCells1 p hp; omega

theorem nodup_versionCells1 (dim : Nat) : (versionCells1 dim).Nodup := by
  refine List.nodup_range.map_on (fun i hi j hj h => ?_)
  rw [Prod.mk.injEq] at h
  omega

theorem nodup_versionCells2 (dim : Nat) : (versionCells2 dim).Nodup := by
  refine List.nodup_range.map_on (fun i hi j hj h => ?_)
  rw [Prod.mk.injEq] at h
  omega

section
variable {dim : Nat} (hd : 21 ≤ dim)
include hd

theorem mem_formatCells2 {p : Nat × Nat} (h : p ∈ formatCells2 dim) :
    (p.2 = 8 ∧ dim ≤ p.1 + 8 ∧ p.1 < dim) ∨ (p.1 = 8 ∧ dim ≤ p.2 + 7 ∧ p.2 < dim) := by
  obtain ⟨i, hi, rfl⟩ := List.mem_map.mp h
  rw [List.mem_range] at hi
  split
  · left; dsimp only; omega
  · right; dsimp only; omega

theorem mem_versionCells1 {p : Nat × Nat} (h : p ∈ versionCells1 dim) :
    dim ≤ p.1 + 11 ∧ p.1 + 9 ≤ dim ∧ p.2 ≤ 5 := by
  obtain ⟨k, hk, rfl⟩ := List.mem_map.mp h
  rw [List.mem_range] at hk
  dsimp only
  omega

theorem mem_versionCells2 {p : Nat × Nat} (h : p ∈ versionCells2 dim) :
    dim ≤ p.2 + 11 ∧ p.2 + 9 ≤ dim ∧ p.1 ≤ 5 := by
  obtain ⟨k, hk, rfl⟩ := List.mem_map.mp h
  rw [List.mem_range] at hk
  dsimp only
  omega

theorem nodup_formatCells2 : (formatCells2 dim).Nodup := by
  refine List.nodup_range.map_on (fun i hi j hj h => ?_)
  rw [List.mem_range] at hi hj
  split at h <;> split at h <;> rw [Prod.mk.injEq] at h <;> omega

end

section
variable {cells : List (Nat × Nat)} {g w : Nat} (hx : ∀ p ∈ cells, p.1 < 256)
include hx

theorem gridBit_putWord_of_notMem {r c : Nat} (hc : c < 256) (h : (c, r) ∉ cells) :
    gridBit (putWord g w cells) r c = gridBit g r c := by
  rw [putWord_eq_putBits]
  exact gridBit_putBits_of_notMem hx hc h

/-- Bit `k` of a word stands at its `k`-th cell. -/
theorem gridBit_putWord_getElem (hn : cells.Nodup) {k : Nat} (hk : k < cells.length) :
    gridBit (putWord g w cells) cells[k].2 cells[k].1 = w.testBit k := by
  rw [putWord_eq_putBits, gridBit_putBits_getElem hx hn hk (by simpa using hk), List.getElem_map, List.getElem_range]

end

/-- The two copies of the format word over `g`. -/
def putFormat (dim g w : Nat) : Nat := putWord (putWord g w formatCells1) w (formatCells2 dim)

/-- The two copies of the version word over `g`. -/
def putVersion (dim g w : Nat) : Nat := putWord (putWord g w (versionCells1 dim)) w (versionCells2 dim)

theorem qrFrame_eq (rom : Rom) (u v e m : Nat) : qrFrame rom u v e m =
    if 7 ≤ v then putVersion (qrDim v) (putFormat (qrDim v) (drawFunction rom v ||| u) (fmtWord e m)) (verWord v)
    else putFormat (qrDim v) (drawFunction rom v ||| u) (fmtWord e m) := rfl

section
variable {dim g w : Nat} (hd : 21 ≤ dim ∧ dim ≤ 177)
include hd

theorem formatCells2_lt : ∀ p ∈ formatCells2 dim, p.1 < 256 := fun p hp => by
  have := mem_formatCells2 hd.1 hp; omega

theorem versionCells1_lt : ∀ p ∈ versionCells1 dim, p.1 < 256 := fun p hp => by
  have := mem_versionCells1 hd.1 hp; omega

theorem versionCells2_lt : ∀ p ∈ versionCells2 dim, p.1 < 256 := fun p hp => by
  have := mem_versionCells2 hd.1 hp; omega

theorem gridBit_putFormat_of_clear {r c : Nat} (hc : c < 256)
    (h : ¬(c = 8 ∧ r ≠ 6 ∧ (r ≤ 8 ∨ dim ≤ r + 7)) ∧ ¬(r = 8 ∧ c ≠ 6 ∧ (c ≤ 8 ∨ dim ≤ c + 8))) :
    gridBit (putFormat dim g w) r c = gridBit g r c := by
  rw [putFormat, gridBit_putWord_of_notMem (formatCells2_lt hd) hc (fun hm => ?_),
    gridBit_putWord_of_notMem (formatCells1_lt) hc (fun hm => ?_)]
  · have := mem_formatCells1 _ hm; dsimp only at this; omega
  · have := mem_formatCells2 hd.1 hm; dsimp only at this; omega

theorem gridBit_putVersion_of_clear {r c : Nat} (hc : c < 256)
    (h : ¬(dim ≤ c + 11 ∧ c + 9 ≤ dim ∧ r ≤ 5) ∧ ¬(dim ≤ r + 11 ∧ r + 9 ≤ dim ∧ c ≤ 5)) :
    gridBit (putVersion dim g w) r c = gridBit g r c := by
  rw [putVersion, gridBit_putWord_of_notMem (versionCells2_lt hd) hc (fun hm => h.2 (mem_versionCells2 hd.1 hm)),
    gridBit_putWord_of_notMem (versionCells1_lt hd) hc (fun hm => h.1 (mem_versionCells1 hd.1 hm))]

/-- The first copy of the format word. -/
theorem gridBit_putFormat_first {i : Nat} (hi : i < formatCells1.length) :
    gridBit (putFormat dim g w) formatCells1[i].2 formatCells1[i].1 = w.testBit i := by
  have hcell := mem_formatCells1 _ (List.getElem_mem hi)
  have hnot : (formatCells1[i].1, formatCells1[i].2) ∉ formatCells2 dim := fun hm => by
    have := mem_formatCells2 hd.1 hm; omega
  rw [putFormat, gridBit_putWord_of_notMem (formatCells2_lt hd) (by omega) hnot]
  exact gridBit_putWord_getElem (formatCells1_lt) (by decide) hi

/-- The second copy of the format word. -/
theorem gridBit_putFormat_second {i : Nat} (hi : i < (formatCells2 dim).length) :
    gridBit (putFormat dim g w) (formatCells2 dim)[i].2 (formatCells2 dim)[i].1 = w.testBit i :=
  gridBit_putWord_getElem (formatCells2_lt hd) (nodup_formatCells2 hd.1) hi

/-- The first copy of the version word. -/
theorem gridBit_putVersion_first (h45 : 45 ≤ dim) {k : Nat} (hk : k < 18) :
    gridBit (putVersion dim g w) (k / 3) (dim - 11 + k % 3) = w.testBit k := by
  have hnot : (dim - 11 + k % 3, k / 3) ∉ versionCells2 dim := fun hm => by
    have := mem_versionCells2 hd.1 hm; dsimp only at this; omega
  have hword := gridBit_putWord_getElem (g := g) (w := w) (versionCells1_lt hd) (nodup_versionCells1 dim) (k := k)
    (by simpa [versionCells1] using hk)
  simp only [versionCells1, List.getElem_map, List.getElem_range] at hword
  rw [putVersion, gridBit_putWord_of_notMem (versionCells2_lt hd) (by omega) hnot]
  exact hword

/-- The second copy of the version word. -/
theorem gridBit_putVersion_second {k : Nat} (hk : k < 18) :
    gridBit (putVersion dim g w) (dim - 11 + k % 3) (k / 3) = w.testBit k := by
  have hword := gridBit_putWord_getElem (g := putWord g w (versionCells1 dim)) (w := w) (versionCells2_lt hd)
    (nodup_versionCells2 dim) (k := k) (by simpa [versionCells2] using hk)
  simp only [versionCells2, List.getElem_map, List.getElem_range] at hword
  exact hword

end

end Sys2Proof.Machine
end

section
/-! What MAP.QR puts in the function cells of every version of the default tables (42_mapper.md rule R331, R336, R337; O31). -/

namespace Sys2Proof.Machine

/-! ### The function-pattern mask (20_memory.md rule R105) -/

/-- The cells of finders, separators, format words and timing lines. -/
abbrev FixedCell (dim r c : Nat) : Prop :=
  (r ≤ 8 ∧ c ≤ 8) ∨ (r ≤ 8 ∧ dim ≤ c + 8) ∨ (dim ≤ r + 8 ∧ c ≤ 8) ∨ r = 6 ∨ c = 6

/-- The cells of the version words. -/
abbrev VersionCell (dim r c : Nat) : Prop :=
  (dim ≤ c + 11 ∧ c + 9 ≤ dim ∧ r ≤ 5) ∨ (dim ≤ r + 11 ∧ r + 9 ≤ dim ∧ c ≤ 5)

section
variable {v : Nat} (hv : verLegal v = true) {r c : Nat} (hr : r < qrDim v) (hc : c < qrDim v)
include hv hr hc

theorem gridBit_fixedCells :
    gridBit (fixedCells v) r c = decide (FixedCell (qrDim v) r c ∨ (7 ≤ v ∧ VersionCell (qrDim v) r c)) := by
  have hd := qrDim_bounds hv
  have hc256 : c < 256 := by omega
  have hversion : gridBit (if 7 ≤ v then rectBits (qrDim v - 11) 0 3 6 ||| rectBits 0 (qrDim v - 11) 6 3 else 0) r c
      = decide (7 ≤ v ∧ VersionCell (qrDim v) r c) := by
    split
    · rw [gridBit_or, gridBit_rectBits _ _ _ (by omega) hc256, gridBit_rectBits _ _ _ (by omega) hc256, ← Bool.decide_or,
        decide_eq_decide]
      omega
    · rw [gridBit_zero, eq_comm, decide_eq_false_iff_not]
      omega
  simp only [fixedCells, gridBit_or]
  rw [hversion, gridBit_rectBits _ _ _ (by omega) hc256, gridBit_rectBits _ _ _ (by omega) hc256,
    gridBit_rectBits _ _ _ (by omega) hc256, gridBit_rectBits _ _ _ (by omega) hc256,
    gridBit_rectBits _ _ _ (by omega) hc256]
  simp only [← Bool.decide_or]
  rw [decide_eq_decide]
  refine or_congr_left ?_
  omega

/-- Fixed cells are function cells. -/
theorem gridBit_qrFp_fixed (h : FixedCell (qrDim v) r c ∨ (7 ≤ v ∧ VersionCell (qrDim v) r c)) (rom : Rom) :
    gridBit (qrFp rom v) r c = true := by
  have hd := qrDim_bounds hv
  unfold qrFp
  rw [gridBit_and, gridBit_rectBits _ _ _ (by omega) (by omega), gridBit_withBlocks, Bool.true_and, decide_eq_true (by omega)]
  rw [gridBit_fixedCells hv hr hc, decide_eq_true h]

/-- The cells of a drawn block are function cells. -/
theorem gridBit_qrFp_block {p : Nat × Nat} (hp : p ∈ drawnCentres romDefault v) (hin : InBlock p r c) :
    gridBit (qrFp romDefault v) r c = true := by
  have hd := qrDim_bounds hv
  obtain ⟨⟨hx, -⟩, ⟨hy, -⟩, -⟩ := drawnCentres_default hv hp
  have hmem : p ∈ (drawnCentres romDefault v).filter (fun p => decide (p.1 < qrDim v + 2) && decide (p.2 < qrDim v + 2)) := by
    rw [List.mem_filter, decide_eq_true (by omega), decide_eq_true (by omega)]
    exact ⟨hp, rfl⟩
  unfold qrFp
  dsimp only
  rw [qrCentres_default_all v (mem_versions hv), gridBit_and, gridBit_rectBits _ _ _ (by omega) (by omega),
    gridBit_withBlocks_eq (fun q hq => drawnCentres_fit hv q (List.mem_of_mem_filter hq)) (by omega),
    decide_eq_true ⟨p, hmem, hin⟩, Bool.or_true, Bool.true_and, decide_eq_true (by omega)]

end

/-! ### The function cells of the symbol drawn -/

section
variable {s : State} {d : Nat} (h : s.QrReady) (hd : d = qrDim s.regs.ver.toNat) (m : Nat) {r c : Nat}
include h hd

theorem State.QrReady.patterns_eq : s.qrPatterns m =
    if 7 ≤ s.regs.ver.toNat then
      putVersion d (putFormat d (drawFunction romDefault s.regs.ver.toNat) (fmtWord s.regs.cfgQr.ecl.toNat m))
        (verWord s.regs.ver.toNat)
    else putFormat d (drawFunction romDefault s.regs.ver.toNat) (fmtWord s.regs.cfgQr.ecl.toNat m) := by
  subst hd
  rw [State.qrPatterns, h.rom, undrawnBits_default h.verLegal, qrFrame_eq, Nat.or_zero]

/-- A function cell of the symbol drawn. -/
theorem State.QrReady.cell_function (hr : r < d) (hc : c < d)
    (hfp : gridBit (qrFp romDefault s.regs.ver.toNat) r c = true) :
    (s.qrDrawn m).cell r c = gridBit (s.qrPatterns m) r c := by
  subst hd
  rw [State.qrDrawn_cell hr hc, State.gridBit_qrGrid_function h.dim_le hc (h.rom ▸ hfp)]

/-- Outside the version words the patterns and the format words are drawn. -/
theorem State.QrReady.gridBit_patterns_of_notVersion (hc : c < 256) (hn : ¬VersionCell d r c) :
    gridBit (s.qrPatterns m) r c = gridBit (putFormat d (drawFunction romDefault s.regs.ver.toNat)
      (fmtWord s.regs.cfgQr.ecl.toNat m)) r c := by
  subst hd
  have hb := qrDim_bounds h.verLegal
  rw [h.patterns_eq rfl]
  split
  · exact gridBit_putVersion_of_clear (by omega) hc (by omega)
  · rfl

/-- A function cell of no word holds what the patterns put there. -/
theorem State.QrReady.cell_pattern (hr : r < d) (hc : c < d)
    (hfp : gridBit (qrFp romDefault s.regs.ver.toNat) r c = true) (hversion : ¬VersionCell d r c)
    (hformat : ¬(c = 8 ∧ r ≠ 6 ∧ (r ≤ 8 ∨ d ≤ r + 7)) ∧ ¬(r = 8 ∧ c ≠ 6 ∧ (c ≤ 8 ∨ d ≤ c + 8))) :
    (s.qrDrawn m).cell r c = gridBit (drawFunction romDefault s.regs.ver.toNat) r c := by
  subst hd
  have hb := qrDim_bounds h.verLegal
  rw [h.cell_function rfl m hr hc hfp, h.gridBit_patterns_of_notVersion rfl m (by omega) hversion,
    gridBit_putFormat_of_clear (by omega) (by omega) hformat]

/-- A cell of a finder, its separator, or the dark module. -/
theorem State.QrReady.cell_finder (hcell : (r ≤ 7 ∧ c ≤ 7) ∨ (r ≤ 7 ∧ c < d ∧ d ≤ c + 8)
      ∨ (r < d ∧ d ≤ r + 8 ∧ c ≤ 7) ∨ (r + 8 = d ∧ c = 8)) :
    (s.qrDrawn m).cell r c = gridBit (drawFinders d) r c := by
  subst hd
  have hb := qrDim_bounds h.verLegal
  have hr : r < qrDim s.regs.ver.toNat := by omega
  have hc : c < qrDim s.regs.ver.toNat := by omega
  have hfp := gridBit_qrFp_fixed h.verLegal hr hc (.inl (by omega)) romDefault
  rw [h.cell_pattern rfl m hr hc hfp (by omega) (by omega)]
  refine gridBit_drawFunction_of_clear h.verLegal (by omega) (fun p hp hin => ?_) (by omega)
  obtain ⟨⟨hx, -⟩, ⟨hy, -⟩, hoff⟩ := drawnCentres_default h.verLegal hp
  omega

/-- A separator cell is light. -/
theorem State.QrReady.cell_separator (hcell : (r ≤ 7 ∧ c = 7) ∨ (r = 7 ∧ c ≤ 7)
      ∨ (r ≤ 7 ∧ c + 8 = d) ∨ (r = 7 ∧ c < d ∧ d ≤ c + 8)
      ∨ (r + 8 = d ∧ c ≤ 7) ∨ (r < d ∧ d ≤ r + 8 ∧ c = 7)) :
    (s.qrDrawn m).cell r c = false := by
  subst hd
  have hb := qrDim_bounds h.verLegal
  rw [h.cell_finder rfl m (by omega)]
  exact gridBit_drawFinders_of_clear (by omega) (by omega) (by omega)

/-- The dark module is dark. -/
theorem State.QrReady.cell_darkModule : (s.qrDrawn m).cell (d - 8) 8 = true := by
  subst hd
  have hb := qrDim_bounds h.verLegal
  rw [h.cell_finder rfl m (by omega), gridBit_drawFinders (by omega) (by omega), Bool.or_eq_true, decide_eq_true_eq]
  exact .inr (by omega)

/-- The cells of the three finders. -/
theorem State.QrReady.cell_in_finder {p : Nat × Nat}
    (hp : p ∈ [(0, 0), (d - 7, 0), (0, d - 7)]) {i j : Nat} (hi : i < 7) (hj : j < 7) :
    (s.qrDrawn m).cell (p.2 + j) (p.1 + i)
      = decide (i = 0 ∨ i = 6 ∨ j = 0 ∨ j = 6 ∨ (2 ≤ i ∧ i ≤ 4 ∧ 2 ≤ j ∧ j ≤ 4)) := by
  subst hd
  have hb := qrDim_bounds h.verLegal
  have hcorner : (p.1 = 0 ∨ p.1 = qrDim s.regs.ver.toNat - 7) ∧ (p.2 = 0 ∨ p.2 = qrDim s.regs.ver.toNat - 7)
      ∧ (p.1 = 0 ∨ p.2 = 0) := by
    simp only [List.mem_cons, List.not_mem_nil, or_false, Prod.ext_iff] at hp
    omega
  rw [h.cell_finder rfl m (by omega)]
  exact gridBit_drawFinders_inside (by omega) hp hi hj

omit hd in
/-- The cells of a drawn alignment block. -/
theorem State.QrReady.cell_block {p : Nat × Nat} (hp : p ∈ drawnCentres romDefault s.regs.ver.toNat) (hin : InBlock p r c) :
    (s.qrDrawn m).cell r c = decide (r + 2 = p.2 ∨ r = p.2 + 2 ∨ c + 2 = p.1 ∨ c = p.1 + 2 ∨ (r = p.2 ∧ c = p.1)) := by
  have hb := qrDim_bounds h.verLegal
  obtain ⟨⟨hx, -⟩, ⟨hy, -⟩, hoff⟩ := drawnCentres_default h.verLegal hp
  obtain ⟨h2, h256, hy2⟩ := drawnCentres_fit h.verLegal p hp
  have hr : r < qrDim s.regs.ver.toNat := by omega
  have hc : c < qrDim s.regs.ver.toNat := by omega
  rw [h.cell_pattern rfl m hr hc (gridBit_qrFp_block h.verLegal hr hc hp hin) (by omega) (by omega),
    gridBit_drawFunction_block h.verLegal (by omega) hp hin, gridBit_alignBits (by omega) h2 h256 hy2, decide_eq_decide]
  omega

/-- The cells of the timing lines. -/
theorem State.QrReady.cell_timing (hline : (r = 6 ∧ 8 ≤ c ∧ c + 9 ≤ d) ∨ (c = 6 ∧ 8 ≤ r ∧ r + 9 ≤ d)) :
    (s.qrDrawn m).cell r c = decide ((r + c) % 2 = 0) := by
  subst hd
  have hb := qrDim_bounds h.verLegal
  have hr : r < qrDim s.regs.ver.toNat := by omega
  have hc : c < qrDim s.regs.ver.toNat := by omega
  have hfp := gridBit_qrFp_fixed h.verLegal hr hc (.inl (by omega)) romDefault
  rw [h.cell_pattern rfl m hr hc hfp (by omega) (by omega), gridBit_drawFunction_timing h.verLegal (by omega) hline]

omit hd in
/-- The first copy of the format word. -/
theorem State.QrReady.cell_format_first {i : Nat} (hi : i < formatCells1.length) :
    (s.qrDrawn m).cell formatCells1[i].2 formatCells1[i].1 = (fmtWord s.regs.cfgQr.ecl.toNat m).testBit i := by
  have hb := qrDim_bounds h.verLegal
  have hcell := mem_formatCells1 _ (List.getElem_mem hi)
  have hr : formatCells1[i].2 < qrDim s.regs.ver.toNat := by omega
  have hc : formatCells1[i].1 < qrDim s.regs.ver.toNat := by omega
  have hfp := gridBit_qrFp_fixed h.verLegal hr hc (.inl (by omega)) romDefault
  rw [h.cell_function rfl m hr hc hfp, h.gridBit_patterns_of_notVersion rfl m (by omega) (by omega)]
  exact gridBit_putFormat_first (by omega) hi

/-- The second copy of the format word. -/
theorem State.QrReady.cell_format_second {i : Nat} (hi : i < (formatCells2 d).length) :
    (s.qrDrawn m).cell (formatCells2 d)[i].2 (formatCells2 d)[i].1 = (fmtWord s.regs.cfgQr.ecl.toNat m).testBit i := by
  subst hd
  have hb := qrDim_bounds h.verLegal
  have hcell := mem_formatCells2 hb.1 (List.getElem_mem hi)
  have hr : (formatCells2 (qrDim s.regs.ver.toNat))[i].2 < qrDim s.regs.ver.toNat := by omega
  have hc : (formatCells2 (qrDim s.regs.ver.toNat))[i].1 < qrDim s.regs.ver.toNat := by omega
  have hfp := gridBit_qrFp_fixed h.verLegal hr hc (.inl (by omega)) romDefault
  rw [h.cell_function rfl m hr hc hfp, h.gridBit_patterns_of_notVersion rfl m (by omega) (by omega)]
  exact gridBit_putFormat_second (by omega) hi

/-- Both copies of the version word. -/
theorem State.QrReady.cell_version (h7 : 7 ≤ s.regs.ver.toNat) {k : Nat} (hk : k < 18) :
    (s.qrDrawn m).cell (k / 3) (d - 11 + k % 3) = (verWord s.regs.ver.toNat).testBit k
      ∧ (s.qrDrawn m).cell (d - 11 + k % 3) (k / 3) = (verWord s.regs.ver.toNat).testBit k := by
  subst hd
  have hb := qrDim_bounds h.verLegal
  have hfp1 := gridBit_qrFp_fixed (r := k / 3) (c := qrDim s.regs.ver.toNat - 11 + k % 3) h.verLegal (by omega) (by omega)
    (.inr ⟨h7, by omega⟩) romDefault
  have hfp2 := gridBit_qrFp_fixed (r := qrDim s.regs.ver.toNat - 11 + k % 3) (c := k / 3) h.verLegal (by omega) (by omega)
    (.inr ⟨h7, by omega⟩) romDefault
  rw [h.cell_function rfl m (by omega) (by omega) hfp1, h.cell_function rfl m (by omega) (by omega) hfp2, h.patterns_eq rfl,
    if_pos h7]
  exact ⟨gridBit_putVersion_first (by omega) (by omega) hk, gridBit_putVersion_second (by omega) hk⟩

end

/-- Settles O31: each pattern's cells are touched by no other pattern, no word and no data cell. -/
theorem mapQrDrawsTheFunctionPatterns : Obligations.MapQrDrawsTheFunctionPatterns := by
  unfold Obligations.MapQrDrawsTheFunctionPatterns
  intro s t v d hrom hv h1 h40 hd hcount ht
  subst hv
  have h : s.QrReady := ⟨hrom, h1, h40, hcount⟩
  have hb := qrDim_bounds h.verLegal
  rw [h.exec] at ht
  cases ht
  change d = qrDim s.regs.ver.toNat at hd
  have hmask : (s.qrDrawn s.qrMaskUsed).regs.resMask.toNat = s.qrMaskUsed := State.qrDrawn_resMask s.qrMaskUsed_lt
  have hlight {r c : Nat} := h.cell_separator hd s.qrMaskUsed (r := r) (c := c)
  refine ⟨fun p hp i hi j hj => h.cell_in_finder hd _ hp hi hj,
    fun i hi => ⟨hlight (by omega), hlight (by omega), hlight (by omega)⟩,
    fun i hi => ⟨hlight (by omega), hlight (by omega), hlight (by omega)⟩, h.cell_darkModule hd _, ?_,
    fun i h8 hi => ⟨?_, ?_⟩, fun i w hi hw => ⟨fun p hp => ?_, ?_⟩, fun h7 k w hk hw => ?_⟩
  · intro cs hcs cx hcx cy hcy hoff i hi j hj
    rw [← qrAlign_default_eq h1 hcs] at hcx hcy
    have hp := mem_drawnCentres_default h.verLegal hcx hcy (hd ▸ hoff)
    obtain ⟨h2, -, hy2⟩ := drawnCentres_fit h.verLegal _ hp
    dsimp only at h2 hy2
    have hin : InBlock (cx, cy) (cy - 2 + j) (cx - 2 + i) := by dsimp only [InBlock]; omega
    rw [h.cell_block _ hp hin, decide_eq_decide]
    dsimp only
    omega
  · rw [h.cell_timing hd _ (by omega), decide_eq_decide]; omega
  · rw [h.cell_timing hd _ (by omega), decide_eq_decide]; omega
  · rw [hmask] at hw
    obtain ⟨hlt, rfl⟩ := List.getElem?_eq_some_iff.mp hp
    rw [← fmtWord_eq (BitVec.isLt _) hw]
    exact h.cell_format_first _ hlt
  · rw [hmask] at hw
    have hcell := h.cell_format_second hd s.qrMaskUsed (i := i) (by simpa [formatCells2] using hi)
    rw [fmtWord_eq (BitVec.isLt _) hw] at hcell
    simp only [formatCells2, List.getElem_map, List.getElem_range] at hcell
    split at hcell
    · rwa [if_pos ‹_›]
    · rwa [if_neg ‹_›]
  · obtain ⟨hfirst, hsecond⟩ := h.cell_version hd s.qrMaskUsed h7 hk
    rw [verWord_eq hw] at hfirst hsecond
    exact ⟨hsecond, hfirst⟩

end Sys2Proof.Machine
end

section
/-! What the parser makes of cells that hold known words and codewords (43_parser.md rule R353, R374, R376, R377). -/

namespace Sys2Proof.Machine

/-! ### Bits put together again -/

/-- The low bits of a number, read as a number. -/
theorem bitsVal_bitsMsb (v n : Nat) : ∀ acc, bitsVal acc (bitsMsb v n) = 2 ^ n * acc + v % 2 ^ n := by
  induction n with
  | zero => intro acc; rw [bitsMsb, bitsVal, Nat.pow_zero, Nat.one_mul, Nat.mod_one, Nat.add_zero]
  | succ n ih =>
    intro acc
    have hbit : flagNat (v.testBit n) = v / 2 ^ n % 2 := by
      rw [Nat.testBit_eq_decide_div_mod_eq, flagNat]
      rcases Nat.mod_two_eq_zero_or_one (v / 2 ^ n) with h | h <;> simp [h]
    rw [bitsMsb, bitsVal, ih, hbit, Nat.mod_pow_succ, Nat.pow_succ]
    ring

/-- A byte's bits. -/
theorem bitsVal_byte {v : Nat} (h : v < 256) : bitsVal 0 (bitsMsb v 8) = v := by
  rw [bitsVal_bitsMsb, Nat.mul_zero, Nat.zero_add]
  exact Nat.mod_eq_of_lt h

/-- Whole bytes, with fewer than eight bits behind them. -/
theorem bytesOfBits_codewordBits {rest : List Bool} (hrest : rest.length < 8) (cws : List Nat) (h : ∀ c ∈ cws, c < 256) :
    bytesOfBits (cws.flatMap (fun c => bitsMsb c 8) ++ rest) = cws := by
  induction cws with
  | nil =>
    exact List.length_eq_zero_iff.mp (bytesOfBits_length 0 rest (Nat.div_eq_of_lt hrest))
  | cons c cws ih =>
    have htail := ih (fun x hx => h x (List.mem_cons_of_mem _ hx))
    have hhead := bitsVal_byte (h c List.mem_cons_self)
    rw [List.flatMap_cons, List.append_assoc]
    change bitsVal 0 (bitsMsb c 8) :: bytesOfBits (cws.flatMap (fun c => bitsMsb c 8) ++ rest) = c :: cws
    rw [hhead, htail]

/-! ### The codewords of CW, written again -/

theorem State.codewords_lt (s : State) : ∀ c ∈ s.codewords, c < 256 := by
  intro c hc
  obtain ⟨b, -, rfl⟩ := List.mem_map.mp hc
  exact b.isLt

theorem State.getElem_codewords (s : State) {k : Nat} (hk : k < s.codewords.length) :
    s.codewords[k] = (s.mem.cw.read k).toNat := by
  simp [State.codewords, Buf.take]

/-- CW made of the codewords of another state holds that state's. -/
theorem State.read_ofList_codewords (s : State) (gen : Nat) {k : Nat} (hk : k < s.regs.cwLen.toNat) :
    (Buf.ofList gen (s.codewords.map (BitVec.ofNat 8))).read k = s.mem.cw.read k := by
  have hk' : k < s.codewords.length := by rwa [s.codewords_length]
  rw [Buf.read_ofList _ _ _ (by rwa [List.length_map]), List.getElem_map, s.getElem_codewords hk', BitVec.ofNat_toNat,
    BitVec.setWidth_eq]

theorem State.ofNat_length_codewords (s : State) : BitVec.ofNat 16 s.codewords.length = s.regs.cwLen := by
  rw [s.codewords_length, BitVec.ofNat_toNat, BitVec.setWidth_eq]

/-- The cells of the symbol a command reads are the cells of GRID. -/
theorem State.gridBit_symbol (s : State) {r c : Nat} (hr : r < s.regs.gridH.toNat) (hc : c < s.regs.gridW.toNat) :
    gridBit s.symbol r c = s.cell r c := by
  have hw := s.regs.gridW.isLt
  exact gridBit_grid _ (by omega) hr hc

end Sys2Proof.Machine
end

section
/-! PAR.DM with the default tables: it completes on the size of every row (43_parser.md rule R351; O29), and reads back what MAP.DM
drew (rule R357; O28). -/

namespace Sys2Proof.Machine

/-! ### The row (rule R351) -/

theorem dmByDims_default_all : ∀ idx < 30, (tDmSym[idx]?).all (fun r =>
    dmByDims romDefault (dmSymH r) (dmSymW r) == some (idx, r)) = true := by decide

/-- No two rows of the default table have one size. -/
theorem dmByDims_default {idx : Nat} {r : DmRow} (h : tDmSym[idx]? = some r) :
    dmByDims romDefault (dmSymH r) (dmSymW r) = some (idx, r) := by
  have hall := dmByDims_default_all idx (dmRow_index_lt h)
  rwa [h, Option.all_some, beq_iff_eq] at hall

/-! ### The read walk (rule R353) -/

section
variable {r : DmRow} {w : Walk} (hr : r ∈ tDmSym) (hw : walk (dmNr r) (dmNc r) (dmTotal r) = some w) (hf : w.Fills r)
include hr hw hf

/-- With the default table the read walk finds every codeword, whatever the matrix holds. -/
theorem dmReadWalk_default (mm : Nat) : dmReadWalk r mm = .ok (w.placed.reverse.map (codewordAt mm), w) := by
  obtain ⟨-, -, -, -, -, -, htotal, -⟩ := tDmSym_bounds r hr
  have hmin : min (dmTotal r) Config.cwSize = dmTotal r := Nat.min_eq_left (htotal.trans (by decide))
  rw [dmReadWalk, hmin, hw]
  exact if_neg (not_not_intro hf.1)

/-- PAR.DM on the size of a row of the default table. -/
theorem exec_parDm_default {s : State} {idx : Nat} (hrom : s.rom = romDefault) (hidx : tDmSym[idx]? = some r)
    (hH : s.regs.gridH.toNat = dmSymH r) (hW : s.regs.gridW.toNat = dmSymW r) :
    exec .parDm s = .next (s.setDmRead idx r (extractMatrix r s.symbol)
      (w.placed.reverse.map (codewordAt (extractMatrix r s.symbol))) w).complete := by
  have hlt := dmRow_index_lt hidx
  have hbody : parDmBody s = .ok (s.setDmRead idx r (extractMatrix r s.symbol)
      (w.placed.reverse.map (codewordAt (extractMatrix r s.symbol))) w) := by
    rw [parDmBody, hrom, hH, hW, dmByDimsBroken_default, if_neg Bool.false_ne_true, dmByDims_default hidx]
    dsimp only
    rw [if_neg (by omega), dmReadWalk_default hr hw hf]
  change Host.Outcome.next (s.finish .par (writeSet .parDm) (parDmBody s)) = _
  rw [hbody, State.finish_ok]

end

/-- Settles O29: the sizes of the rows are all different, and the read walk finds every codeword of its row. -/
theorem parDmLooksUpTheSize : Obligations.ParDmLooksUpTheSize := by
  unfold Obligations.ParDmLooksUpTheSize
  intro s hrom
  refine ⟨fun idx r hidx hH hW => ?_, fun hno => ?_⟩
  · have hr : r ∈ tDmSym := List.mem_of_getElem? hidx
    obtain ⟨w, hw, hf⟩ := walk_default hr
    have hlt := dmRow_index_lt hidx
    obtain ⟨-, -, -, -, -, -, htotal, -⟩ := tDmSym_bounds r hr
    refine ⟨_, exec_parDm_default hr hw hf hrom hidx hH hW, State.complete_completed _, ?_, ?_⟩
    · exact (BitVec.toNat_ofNat ..).trans (Nat.mod_eq_of_lt (by omega))
    · refine (BitVec.toNat_ofNat ..).trans ?_
      rw [List.length_map, List.length_reverse, hf.1, Nat.mod_eq_of_lt (by omega), dmTotal]
  · have hnone : dmByDims s.rom s.regs.gridH.toNat s.regs.gridW.toNat = none := by
      rw [Option.eq_none_iff_forall_not_mem]
      rintro ⟨idx, r⟩ hfound
      obtain ⟨hrow, hH, hW⟩ := dmByDims_some hfound
      rcases hno r (dmRow_mem (hrom ▸ hrow)) with h | h
      · exact h hH.symm
      · exact h hW.symm
    have hbody : parDmBody s = .error ⟨.formatException, 0⟩ := by
      rw [parDmBody, hnone, hrom, dmByDimsBroken_default, if_neg Bool.false_ne_true]
    refine ⟨_, rfl, ?_⟩
    rw [hbody, State.finish_error]
    exact State.raise_faulted s .formatException .par 0 _

/-! ### The matrix without its borders (rule R352) -/

/-- A line of the matrix stands inside its region of the symbol: there the symbol's line is neither border. -/
theorem regionLine {n m row : Nat} (hrow : row < n * m) :
    let line := row / m * (m + 2) + 1 + row % m
    line < n * (m + 2) ∧ line / (m + 2) = row / m ∧ line % (m + 2) = row % m + 1 := by
  have hm : 0 < m := Nat.pos_of_ne_zero (fun h => by rw [h, Nat.mul_zero] at hrow; exact Nat.not_lt_zero _ hrow)
  have hmod : row % m < m := Nat.mod_lt _ hm
  have hdiv : row / m + 1 ≤ n := Nat.div_lt_of_lt_mul (by rwa [Nat.mul_comm] at hrow)
  have hmul := Nat.mul_le_mul_right (m + 2) hdiv
  rw [Nat.add_mul, Nat.one_mul] at hmul
  have hline : row / m * (m + 2) + 1 + row % m = (row % m + 1) + (m + 2) * (row / m) := by ring
  refine ⟨by omega, ?_, ?_⟩
  · rw [hline, Nat.add_mul_div_left _ _ (by omega), Nat.div_eq_of_lt (by omega), Nat.zero_add]
  · rw [hline, Nat.add_mul_mod_self_left, Nat.mod_eq_of_lt (by omega)]

/-- The symbol's cell of a cell of the matrix is that cell. -/
theorem symbolCell_of_matrixCell {r : DmRow} (mm : Nat) {row col : Nat} (hrow : row < dmNr r) (hcol : col < dmNc r) :
    symbolCell r mm (row / r.rh * (r.rh + 2) + 1 + row % r.rh) (col / r.rw * (r.rw + 2) + 1 + col % r.rw)
      = gridBit mm row col := by
  obtain ⟨-, hrdiv, hrmod⟩ := regionLine hrow
  obtain ⟨-, hcdiv, hcmod⟩ := regionLine hcol
  have hr := Nat.div_add_mod' row r.rh
  have hc := Nat.div_add_mod' col r.rw
  have hrlt : row % r.rh < r.rh := Nat.mod_lt _ (Nat.pos_of_ne_zero (fun h => by simp [dmNr, h] at hrow))
  have hclt : col % r.rw < r.rw := Nat.mod_lt _ (Nat.pos_of_ne_zero (fun h => by simp [dmNc, h] at hcol))
  unfold symbolCell
  dsimp only
  rw [hrdiv, hrmod, hcdiv, hcmod, if_neg (by omega), if_neg (by omega), if_neg (by omega), if_neg (by omega)]
  rw [← Nat.add_assoc, ← Nat.add_assoc, Nat.add_sub_cancel, Nat.add_sub_cancel, hr, hc]

/-- The matrix PAR.DM extracts from the symbol MAP.DM drew. -/
theorem gridBit_extractMatrix_setDmSymbol {r : DmRow} (hr : r ∈ tDmSym) (s : State) (mm : Nat) (w : Walk) {row col : Nat}
    (hrow : row < dmNr r) (hcol : col < dmNc r) :
    gridBit (extractMatrix r (s.setDmSymbol r mm w).complete.symbol) row col = gridBit mm row col := by
  obtain ⟨hH, hW, -, hnc, -⟩ := tDmSym_bounds r hr
  have hline : row / r.rh * (r.rh + 2) + 1 + row % r.rh < dmSymH r := (regionLine hrow).1
  have hcolumn : col / r.rw * (r.rw + 2) + 1 + col % r.rw < dmSymW r := (regionLine hcol).1
  have hgridH : (s.setDmSymbol r mm w).complete.regs.gridH.toNat = dmSymH r :=
    (BitVec.toNat_ofNat ..).trans (Nat.mod_eq_of_lt (by omega))
  have hgridW : (s.setDmSymbol r mm w).complete.regs.gridW.toNat = dmSymW r :=
    (BitVec.toNat_ofNat ..).trans (Nat.mod_eq_of_lt (by omega))
  rw [extractMatrix, gridBit_gridOf _ _ _ (by omega) (by omega), decide_eq_true hrow, decide_eq_true hcol, Bool.true_and,
    Bool.true_and, State.gridBit_symbol _ (by rwa [hgridH]) (by rwa [hgridW]), State.cell,
    State.complete_mem, State.setDmSymbol_mem]
  dsimp only
  rw [Buf.getLsbD_read_ofGrid _ _ hline hcolumn, gridBit_gridOf _ _ _ (by omega) (by omega),
    decide_eq_true hline, decide_eq_true hcolumn, Bool.true_and, Bool.true_and, symbolCell_of_matrixCell mm hrow hcol]

/-! ### The codewords (rule R354) -/

section
variable {r : DmRow} {w : Walk} {cws : List Nat} (hr : r ∈ tDmSym) (hw : walk (dmNr r) (dmNc r) (dmTotal r) = some w)
  (hf : w.Fills r)
include hr hw hf

/-- The read walk finds the codewords that were mapped, in any matrix with the cells of the mapped one. -/
theorem codewordAt_dmMapped (hl : cws.length = dmTotal r) (hbyte : ∀ c ∈ cws, c < 256) {g : Nat}
    (hg : ∀ row < dmNr r, ∀ col < dmNc r, gridBit g row col = gridBit (dmMapped r w cws) row col) :
    w.placed.reverse.map (codewordAt g) = cws := by
  have hs := walk_sound hw
  refine List.ext_getElem (by rw [List.length_map, List.length_reverse, hf.1, hl]) (fun k hk hkc => ?_)
  rw [List.length_map] at hk
  have h8 : w.placed.reverse[k].length = 8 := hs.eight _ (List.mem_reverse.mp (List.getElem_mem hk))
  have hbits : w.placed.reverse[k].map g.testBit = bitsMsb cws[k] 8 := by
    refine List.ext_getElem (by rw [List.length_map, h8, bitsMsb_length]) (fun j hj hjb => ?_)
    rw [List.length_map] at hj
    obtain ⟨row, hrow, col, hcol, haddr⟩ := mem_cellAddrs.mp (hs.inside w.placed.reverse[k][j]
      (List.mem_flatten.mpr ⟨_, List.mem_reverse.mp (List.getElem_mem hk), List.getElem_mem hj⟩))
    rw [List.getElem_map, getElem_bitsMsb, ← testBit_dmMapped hr hw hf hl hk hj, haddr]
    exact hg row hrow col hcol
  rw [List.getElem_map, codewordAt, hbits, bitsVal_byte (hbyte _ (List.getElem_mem hkc))]

end

/-- Settles O28: the borders taken off leave the mapping matrix, and the read walk finds each codeword at the cells the same
walk gave it. -/
theorem parDmReadsWhatMapDmDrew : Obligations.ParDmReadsWhatMapDmDrew := by
  unfold Obligations.ParDmReadsWhatMapDmDrew
  intro s t r hrom hrow hl ht
  have hr : r ∈ tDmSym := List.mem_of_getElem? hrow
  obtain ⟨hH, hW, -⟩ := tDmSym_bounds r hr
  obtain ⟨w, hw, hf⟩ := walk_default hr
  rw [exec_mapDm_default hrom hrow hl hw hf] at ht
  cases ht
  have hcws := codewordAt_dmMapped hr hw hf (s.codewords_length.trans hl) s.codewords_lt
    (fun row hrow col hcol => gridBit_extractMatrix_setDmSymbol hr s (dmMapped r w s.codewords)
      { w with seen := rectBits 0 0 (dmNc r) (dmNr r) } hrow hcol)
  refine ⟨_, exec_parDm_default hr hw hf hrom hrow ?_ ?_, State.complete_completed _, ?_, ?_, fun k hk => ?_⟩
  · exact (BitVec.toNat_ofNat ..).trans (Nat.mod_eq_of_lt (by omega))
  · exact (BitVec.toNat_ofNat ..).trans (Nat.mod_eq_of_lt (by omega))
  · rw [State.complete_regs, State.setDmRead_regs]
    exact (BitVec.ofNat_toNat ..).trans (BitVec.setWidth_eq _)
  · rw [hcws, State.complete_regs, State.setDmRead_regs]
    exact s.ofNat_length_codewords
  · rw [hcws, State.complete_mem, State.setDmRead_mem]
    exact s.read_ofList_codewords _ hk

end Sys2Proof.Machine
end

section
/-! PAR.QR: the sizes it refuses (43_parser.md rule R373, R375; O33), its attempts (rule R372; O34), and its mirrored reading
(rule R371; O35). -/

namespace Sys2Proof.Machine

/-! ### The command in terms of its attempts (rule R372) -/

/-- One attempt on the symbol in GRID (rule R373). -/
def State.qrTry (s : State) (mirrored : Bool) : Except Raise QrRead :=
  qrAttempt s.rom s.symbol s.regs.gridH.toNat s.regs.gridW.toNat mirrored

/-- PAR.QR completed with what an attempt found. -/
def State.qrParsed (s : State) (r : QrRead) (mirrored : Bool) : State := (s.clearMirrored.setQrRead r mirrored).complete

/-- PAR.QR ended by a fault. -/
def State.qrUnread (s : State) (e : Raise) : State := s.clearMirrored.raise e.exn .par e.info writesParQr

/-- PAR.QR ended by what its attempts gave. -/
def State.qrEnd (s : State) (x : Except Raise (QrRead × Bool)) : State :=
  match x with
  | .ok (r, mirrored) => s.qrParsed r mirrored
  | .error e => s.qrUnread e

section
variable {s : State} {m : Bool}

theorem exec_parQr_of_attempts {y : Bool} {x : Except Raise (QrRead × Bool)}
    (h : qrAttempts s.rom s.symbol s.regs.gridH.toNat s.regs.gridW.toNat m y = x) :
    exec (.parQr m y) s = .next (s.qrEnd x) := by
  have hclear : qrAttempts s.clearMirrored.rom s.clearMirrored.symbol s.clearMirrored.regs.gridH.toNat
      s.clearMirrored.regs.gridW.toNat m y = x := h
  change Host.Outcome.next (s.clearMirrored.finish .par writesParQr (parQrBody s.clearMirrored m y)) = _
  rw [parQrBody, hclear]
  cases x <;> rfl

/-- A first attempt that completes is the command's result. -/
theorem exec_parQr_ok {r : QrRead} (h : s.qrTry m = .ok r) (y : Bool) : exec (.parQr m y) s = .next (s.qrParsed r m) := by
  rw [State.qrTry] at h
  exact exec_parQr_of_attempts (x := .ok (r, m)) (by rw [qrAttempts, h])

section
variable {e : Raise} (h : s.qrTry m = .error e)
include h

/-- A fault of the first attempt is the command's, without RETRY or where it is an InternalDefect. -/
theorem exec_parQr_error {y : Bool} (hy : ¬(e.exn = .formatException ∧ y = true)) :
    exec (.parQr m y) s = .next (s.qrUnread e) := by
  rw [State.qrTry] at h
  refine exec_parQr_of_attempts (x := .error e) ?_
  rw [qrAttempts, h]
  exact if_neg hy

theorem exec_parQr_once : exec (.parQr m false) s = .next (s.qrUnread e) :=
  exec_parQr_error h (fun hy => Bool.false_ne_true hy.2)

variable (he : e.exn = .formatException)
include he

/-- After a FormatException the other orientation's attempt completes the command. -/
theorem exec_parQr_retry_ok {r : QrRead} (h2 : s.qrTry (!m) = .ok r) :
    exec (.parQr m true) s = .next (s.qrParsed r (!m)) := by
  rw [State.qrTry] at h h2
  refine exec_parQr_of_attempts (x := .ok (r, !m)) ?_
  rw [qrAttempts, h]
  dsimp only
  rw [if_pos ⟨he, rfl⟩, h2]

/-- After two faults the command's is the first, unless the second is an InternalDefect. -/
theorem exec_parQr_retry_error {e2 : Raise} (h2 : s.qrTry (!m) = .error e2) :
    exec (.parQr m true) s = .next (if e2.exn = .internalDefect then s.qrUnread e2 else s.qrUnread e) := by
  rw [State.qrTry] at h h2
  rw [← apply_ite s.qrUnread]
  refine exec_parQr_of_attempts (x := .error (if e2.exn = .internalDefect then e2 else e)) ?_
  rw [qrAttempts, h]
  dsimp only
  rw [if_pos ⟨he, rfl⟩, h2]
  exact (apply_ite Except.error _ _ _).symm

end

/-! ### How the command ended -/

theorem State.qrParsed_completed (r : QrRead) (o : Bool) : (s.qrParsed r o).Completed := State.complete_completed _

theorem State.qrUnread_faulted (e : Raise) : (s.qrUnread e).Faulted e.exn .par e.info := State.raise_faulted ..

theorem State.qrParsed_error (r : QrRead) (o : Bool) : (s.qrParsed r o).regs.status.error = false := rfl

theorem State.qrUnread_error_ne (e : Raise) : ¬(s.qrUnread e).regs.status.error = false := by
  obtain ⟨-, -, herror, -⟩ := s.qrUnread_faulted e
  rw [herror]
  exact Bool.noConfusion

theorem State.qrUnread_code (e : Raise) : (s.qrUnread e).regs.err.code = e.exn.code := rfl

theorem State.qrUnread_mirrored (e : Raise) : (s.qrUnread e).regs.status.mirrored = false := by
  rw [State.qrUnread, State.raise_status]
  rfl

theorem Exn.code_eq_one {x : Exn} : x.code = 1 ↔ x = .formatException := by cases x <;> decide

theorem Exn.code_eq_seven {x : Exn} : x.code = 7 ↔ x = .internalDefect := by cases x <;> decide

end

/-! ### Sizes that are no version's (rule R373, R375) -/

/-- An attempt on a size that is no version's finds a FormatException. -/
theorem qrAttempt_of_badSize (rom : Rom) (g : Nat) {h w : Nat} (o : Bool) (hsize : h ≠ w ∨ w < 21 ∨ w % 4 ≠ 1 ∨ 177 < w) :
    qrAttempt rom g h w o = .error ⟨.formatException, 0⟩ := by
  by_cases hsq : h ≠ w
  · rw [qrAttempt, if_pos hsq]
  by_cases hdim : w < 21 ∨ w % 4 ≠ 1
  · rw [qrAttempt, if_neg hsq, if_pos hdim]
  have hversion : readVersion g o w = none := by
    cases hv : readVersion g o w with
    | none => rfl
    | some v =>
      obtain ⟨hq, -, h40⟩ := readVersion_ok (by omega) (by omega) hv
      simp only [qrDim] at hq
      omega
  rw [qrAttempt, if_neg hsq, if_neg hdim, hversion]
  split <;> rfl

/-- Settles O33: both orientations' attempts refuse such a size. -/
theorem parQrRefusesOtherSizes : Obligations.ParQrRefusesOtherSizes := by
  unfold Obligations.ParQrRefusesOtherSizes
  intro s mirror retry hsize
  have hbad : ∀ o, s.qrTry o = .error ⟨.formatException, 0⟩ := fun o =>
    qrAttempt_of_badSize _ _ _ (hsize.imp_left (fun hne heq => hne (BitVec.eq_of_toNat_eq heq)))
  have hend : exec (.parQr mirror retry) s = .next (s.qrUnread ⟨.formatException, 0⟩) := by
    cases retry
    · exact exec_parQr_once (hbad _)
    · exact exec_parQr_retry_error (hbad _) rfl (hbad _)
  exact ⟨_, hend, State.qrUnread_faulted _, State.qrUnread_mirrored _⟩

/-! ### The row of T_FMT an attempt found (46_format_metadata_codec.md rule R475) -/

theorem fmtScan_bounds {w1 w2 u : Nat} (rows : List Nat) : ∀ (d : Nat) (best : Option Nat × Nat),
    (∀ b, best.1 = some b → b < d) → fmtScan w1 w2 d best rows = some u → u < d + rows.length := by
  induction rows with
  | nil =>
    intro d best hb h
    rw [fmtScan] at h
    split at h
    · exact hb u h
    · cases h
  | cons t rest ih =>
    intro d best hb h
    have hnearer : ∀ (p : Option Nat × Nat) (x : Nat), (∀ b, p.1 = some b → b < d + 1) →
        ∀ b, (nearer p d x).1 = some b → b < d + 1 := by
      intro p x hp b hn
      rcases nearer_or p d x with e | e
      · exact hp b (e ▸ hn)
      · rw [e] at hn; cases hn; exact Nat.lt_succ_self d
    have hbest := hnearer best (dist w1 t) (fun b hn => Nat.lt_succ_of_lt (hb b hn))
    rw [fmtScan] at h
    split at h
    · cases h; exact Nat.lt_add_of_pos_right (Nat.succ_pos _)
    · dsimp only at h
      have hlt : u < d + 1 + rest.length := by
        split at h
        · exact ih _ _ (hnearer _ _ hbest) h
        · exact ih _ _ hbest h
      rw [List.length_cons]
      omega

/-- A format word decodes to a row of T_FMT. -/
theorem fmtNearest_lt {w1 w2 d : Nat} (h : fmtNearest w1 w2 = some d) : d < 32 := by
  have hd := fmtScan_bounds tFmt 0 (none, 99) (fun b hb => by cases hb) h
  rwa [Nat.zero_add] at hd

theorem qrAttempt_fmt_lt {rom : Rom} {g h w : Nat} {m : Bool} {r : QrRead} (ha : qrAttempt rom g h w m = .ok r) :
    r.fmt < 32 := by
  unfold qrAttempt at ha
  split at ha
  · cases ha
  split at ha
  · cases ha
  split at ha
  · cases ha
  rename_i d hd
  split at ha
  · cases ha
  split at ha
  · cases ha
  · cases ha; exact fmtNearest_lt hd

theorem ecBits_eq : ∀ e < 4, ecBits e = ([1, 0, 3, 2][e]?).getD 0 := by decide

/-! ### What a completed attempt left -/

section
variable {s : State} {m : Bool} {r : QrRead} (h : s.qrTry m = .ok r)
include h

theorem State.qrParsed_resEcl :
    (s.qrParsed r m).regs.resEcl = BitVec.ofNat 2 (([1, 0, 3, 2][r.fmt / 8]?).getD 0) := by
  have hfmt := qrAttempt_fmt_lt h
  rw [← ecBits_eq _ (by omega)]
  rfl

theorem State.qrParsed_cwLen : (s.qrParsed r m).regs.cwLen = BitVec.ofNat 16 (qrTotal s.rom r.ver) := by
  obtain ⟨-, -, -, -, hcount⟩ := qrAttempt_ok h
  exact congrArg (BitVec.ofNat 16) hcount

omit h in
theorem State.read_cw_qrParsed {k : Nat} (hk : k < r.cws.length) :
    (s.qrParsed r m).mem.cw.read k = BitVec.ofNat 8 r.cws[k] := by
  rw [State.qrParsed, State.complete_mem, State.setQrRead_mem]
  exact (Buf.read_ofList _ _ _ (by rwa [List.length_map])).trans (List.getElem_map _)

end

/-- Settles O34: the case split of rule R372 over the two attempts. -/
theorem parQrRetriesOnce : Obligations.ParQrRetriesOnce := by
  unfold Obligations.ParQrRetriesOnce
  refine ⟨fun s t1 t2 m h1 h2 => ?_, fun s m y r h => ?_⟩
  · cases hfirst : s.qrTry m with
    | ok r =>
      rw [exec_parQr_ok hfirst] at h1 ⊢
      cases h1
      rw [if_pos (State.qrParsed_error r m)]
    | error e =>
      rw [exec_parQr_once hfirst] at h1
      cases h1
      rw [if_neg (State.qrUnread_error_ne e), State.qrUnread_code]
      by_cases he : e.exn = .formatException
      case neg =>
        rw [if_pos (fun hc => he (Exn.code_eq_one.mp hc)), exec_parQr_error hfirst (fun hc => he hc.1)]
      case pos =>
        rw [if_neg (not_not_intro (Exn.code_eq_one.mpr he))]
        cases hsecond : s.qrTry (!m) with
        | ok r =>
          rw [exec_parQr_ok hsecond] at h2
          cases h2
          rw [exec_parQr_retry_ok hfirst he hsecond, if_pos (State.qrParsed_error r (!m))]
        | error e2 =>
          rw [exec_parQr_once hsecond] at h2
          cases h2
          rw [exec_parQr_retry_error hfirst he hsecond, if_neg (State.qrUnread_error_ne e2),
            State.qrUnread_code]
          simp only [Exn.code_eq_seven]
  · exact ⟨_, exec_parQr_ok h y, State.qrParsed_completed r m, rfl, rfl, State.qrParsed_resEcl h, rfl,
      State.qrParsed_cwLen h, fun k hk => State.read_cw_qrParsed hk⟩

/-! ### Mirrored reading (rule R371) -/

section
variable {g g' dim : Nat} {o o' : Bool} (hcell : ∀ x < dim, ∀ y < dim, qrCell g o x y = qrCell g' o' x y)
include hcell

/-- A word of cells inside the symbol is those cells' alone. -/
theorem readWord_congr {cells : List (Nat × Nat)} (hin : ∀ p ∈ cells, p.1 < dim ∧ p.2 < dim) :
    readWord g o cells = readWord g' o' cells :=
  congrArg (bitsVal 0) (List.map_congr_left (fun p hp => hcell p.1 (hin p hp).1 p.2 (hin p hp).2))

theorem readVersion_congr (hdim : 21 ≤ dim) : readVersion g o dim = readVersion g' o' dim := by
  have hin1 : ∀ p ∈ readVersion1 dim, p.1 < dim ∧ p.2 < dim := by simp [readVersion1]; omega
  have hin2 : ∀ p ∈ readVersion2 dim, p.1 < dim ∧ p.2 < dim := by simp [readVersion2]; omega
  rw [readVersion, readWord_congr hcell hin1, readWord_congr hcell hin2, ← readVersion]

theorem readData_congr (rom : Rom) {v : Nat} (hv : qrDim v = dim) (m : Nat) :
    readData rom g o v m = readData rom g' o' v m := by
  have hbits : (dataCells (qrDim v) (qrFp rom v)).map (fun p => qrCell g o p.1 p.2 ^^ qrMask m p.1 p.2)
      = (dataCells (qrDim v) (qrFp rom v)).map (fun p => qrCell g' o' p.1 p.2 ^^ qrMask m p.1 p.2) := by
    refine List.map_congr_left (fun p hp => ?_)
    obtain ⟨hx, hy, -⟩ := mem_dataCells (qrDim_odd v) hp
    rw [hcell p.1 (hv ▸ hx) p.2 (hv ▸ hy)]
  unfold readData
  rw [hbits]

/-- An attempt on a square grid is its cells' alone, as it reads them. -/
theorem qrAttempt_congr (rom : Rom) : qrAttempt rom g dim dim o = qrAttempt rom g' dim dim o' := by
  by_cases hdim : dim < 21 ∨ dim % 4 ≠ 1
  · rw [qrAttempt_of_badSize rom g o (by omega), qrAttempt_of_badSize rom g' o' (by omega)]
  have hin1 : ∀ p ∈ readFormat1, p.1 < dim ∧ p.2 < dim := by
    have h9 : ∀ p ∈ readFormat1, p.1 < 9 ∧ p.2 < 9 := by decide
    exact fun p hp => ⟨by have := (h9 p hp).1; omega, by have := (h9 p hp).2; omega⟩
  have hin2 : ∀ p ∈ readFormat2 dim, p.1 < dim ∧ p.2 < dim := by
    intro p hp
    simp only [readFormat2, List.mem_append, List.mem_map, List.mem_range] at hp
    rcases hp with ⟨k, hk, rfl⟩ | ⟨k, hk, rfl⟩ <;> dsimp only <;> omega
  unfold qrAttempt
  rw [readWord_congr hcell hin1, readWord_congr hcell hin2, readVersion_congr hcell (by omega), if_neg (not_not_intro rfl),
    if_neg hdim, if_neg (not_not_intro rfl), if_neg hdim]
  split
  · rfl
  · split
    · rfl
    · rename_i d _ _ v hv
      rw [readData_congr hcell rom (readVersion_ok (by omega) (by omega) hv).1 (d % 8)]

end

/-- The attempt that reads a symbol mirrored is the one that reads its transpose plainly. -/
theorem qrTry_mirrored {s s' : State} (hrom : s'.rom = s.rom) (hH : s'.regs.gridH = s.regs.gridW)
    (hW : s'.regs.gridW = s.regs.gridH)
    (hcell : ∀ r, r < s.regs.gridH.toNat → ∀ c, c < s.regs.gridW.toNat → s'.cell c r = s.cell r c) :
    s.qrTry true = s'.qrTry false := by
  unfold State.qrTry
  rw [hrom, hH, hW]
  by_cases hsq : s.regs.gridH.toNat = s.regs.gridW.toNat
  · rw [hsq]
    refine qrAttempt_congr (fun x hx y hy => ?_) s.rom
    change gridBit s.symbol x y = gridBit s'.symbol y x
    rw [s.gridBit_symbol (by omega) hy, s'.gridBit_symbol (by rwa [hH]) (by rw [hW]; omega), hcell x (by omega) y hy]
  · rw [qrAttempt_of_badSize _ _ _ (.inl hsq), qrAttempt_of_badSize _ _ _ (.inl (Ne.symm hsq))]

/-- Settles O35: every cell an attempt reads lies inside the symbol, and the transpose holds it at the exchanged place. -/
theorem mirroredReadingIsTransposedReading : Obligations.MirroredReadingIsTransposedReading := by
  unfold Obligations.MirroredReadingIsTransposedReading
  intro s s' t t' hrom hH hW hcell ht ht'
  have htry := qrTry_mirrored hrom hH hW hcell
  cases hread : s.qrTry true with
  | ok r =>
    rw [exec_parQr_ok hread] at ht
    rw [exec_parQr_ok (htry ▸ hread)] at ht'
    cases ht
    cases ht'
    refine ⟨rfl, fun _ => ⟨rfl, rfl, rfl, rfl, rfl, rfl, fun k hk => ?_⟩⟩
    have hk' : k < r.cws.length := Nat.lt_of_lt_of_le hk ((BitVec.toNat_ofNat ..).trans_le (Nat.mod_le ..))
    rw [State.read_cw_qrParsed hk', State.read_cw_qrParsed hk']
  | error e =>
    rw [exec_parQr_once hread] at ht
    rw [exec_parQr_once (htry ▸ hread)] at ht'
    cases ht
    cases ht'
    refine ⟨rfl, fun hcompleted => ?_⟩
    obtain ⟨-, -, hclear, -⟩ := hcompleted
    exact absurd hclear (s.qrUnread_error_ne e)

end Sys2Proof.Machine
end

section
/-! PAR.QR on the symbol MAP.QR drew, with the default tables (43_parser.md rule R370 with 42_mapper.md rule R330; O36). -/

namespace Sys2Proof.Machine

/-! ### The order of reading is the order of drawing, reversed (rule R374, R376) -/

theorem readFormat1_eq : readFormat1 = formatCells1.reverse := by decide

theorem readFormat2_eq {dim : Nat} (h : 8 ≤ dim) : readFormat2 dim = (formatCells2 dim).reverse := by
  simp [readFormat2, formatCells2, List.range_succ]
  omega

theorem readVersion1_eq {dim : Nat} (h : 11 ≤ dim) : readVersion1 dim = (versionCells1 dim).reverse := by
  simp [readVersion1, versionCells1, List.range_succ]
  omega

theorem readVersion2_eq {dim : Nat} (h : 11 ≤ dim) : readVersion2 dim = (versionCells2 dim).reverse := by
  simp [readVersion2, versionCells2, List.range_succ]
  omega

/-- Cells that hold a word's bits from bit 0 on, read from the last on. -/
theorem readWord_reverse {g w : Nat} {cells : List (Nat × Nat)}
    (h : ∀ i (hi : i < cells.length), gridBit g cells[i].2 cells[i].1 = w.testBit i) (hw : w < 2 ^ cells.length) :
    readWord g false cells.reverse = w := by
  have hbits : cells.reverse.map (fun p => qrCell g false p.1 p.2) = bitsMsb w cells.length := by
    refine List.ext_getElem (by rw [List.length_map, List.length_reverse, bitsMsb_length]) (fun k hk hkb => ?_)
    rw [List.getElem_map, List.getElem_reverse, getElem_bitsMsb]
    exact h _ _
  rw [readWord, hbits, bitsVal_bitsMsb, Nat.mul_zero, Nat.zero_add, Nat.mod_eq_of_lt hw]

/-! ### The words decode to themselves (46_format_metadata_codec.md rule R475, R480) -/

theorem fmtNearest_fmtWord : ∀ e < 4, ∀ m < 8, fmtWord e m < 2 ^ 15
    ∧ fmtNearest (fmtWord e m) (fmtWord e m) = some (8 * ecBits e + m) := by decide

theorem verNearest_verWord : ∀ v ∈ versions, 7 ≤ v → verWord v < 2 ^ 18 ∧ verNearest (verWord v) = some v := by decide

/-- The level code is its own inverse (30_encoding.md rule R170). -/
theorem ecBits_ecBits : ∀ e < 4, ecBits (ecBits e) = e := by decide

/-! ### The symbol drawn, read plainly -/

section
variable {s : State} (h : s.QrReady) (m : Nat)
include h

omit h in
theorem State.qrDrawn_rom : (s.qrDrawn m).rom = s.rom := rfl

/-- The symbol PAR.QR reads holds the cells of the symbol drawn. -/
theorem State.QrReady.gridBit_symbol {r c : Nat} (hr : r < qrDim s.regs.ver.toNat) (hc : c < qrDim s.regs.ver.toNat) :
    gridBit (s.qrDrawn m).symbol r c = (s.qrDrawn m).cell r c :=
  State.gridBit_symbol _ (by rwa [State.qrDrawn_gridH h.dim_le]) (by rwa [State.qrDrawn_gridW h.dim_le])

/-- Both copies of the format word are read back. -/
theorem State.QrReady.readFormat (hm : m < 8) :
    readWord (s.qrDrawn m).symbol false readFormat1 = fmtWord s.regs.cfgQr.ecl.toNat m
      ∧ readWord (s.qrDrawn m).symbol false (readFormat2 (qrDim s.regs.ver.toNat)) = fmtWord s.regs.cfgQr.ecl.toNat m := by
  have hb := qrDim_bounds h.verLegal
  obtain ⟨hlt, -⟩ := fmtNearest_fmtWord _ s.regs.cfgQr.ecl.isLt m hm
  rw [readFormat1_eq, readFormat2_eq (by omega)]
  refine ⟨readWord_reverse (fun i hi => ?_) hlt, readWord_reverse (fun i hi => ?_) (by simpa [formatCells2] using hlt)⟩
  · have hcell := mem_formatCells1 _ (List.getElem_mem hi)
    rw [h.gridBit_symbol m (by omega) (by omega), h.cell_format_first m hi]
  · have hcell := mem_formatCells2 hb.1 (List.getElem_mem hi)
    rw [h.gridBit_symbol m (by omega) (by omega), h.cell_format_second rfl m hi]

/-- The version is read back: from version 7 on, from the first copy of its word. -/
theorem State.QrReady.readVersion :
    readVersion (s.qrDrawn m).symbol false (qrDim s.regs.ver.toNat) = some s.regs.ver.toNat := by
  obtain ⟨hb21, -, hdim⟩ := qrDim_bounds h.verLegal
  have hprov : (qrDim s.regs.ver.toNat - 17) / 4 = s.regs.ver.toNat := by omega
  unfold Machine.readVersion
  rw [hprov]
  split
  · rfl
  rename_i h6
  obtain ⟨hlt, hnearest⟩ := verNearest_verWord _ (mem_versions h.verLegal) (by omega)
  have hword : readWord (s.qrDrawn m).symbol false (readVersion1 (qrDim s.regs.ver.toNat)) = verWord s.regs.ver.toNat := by
    rw [readVersion1_eq (by omega)]
    refine readWord_reverse (fun i hi => ?_) (by simpa [versionCells1] using hlt)
    have hi18 : i < 18 := by simpa [versionCells1] using hi
    simp only [versionCells1, List.getElem_map, List.getElem_range]
    rw [h.gridBit_symbol m (by omega) (by omega), (h.cell_version rfl m (by omega) hi18).1]
  have hversion : versionOf (verWord s.regs.ver.toNat) (qrDim s.regs.ver.toNat) = some s.regs.ver.toNat := by
    rw [versionOf, hnearest]
    exact if_pos rfl
  rw [hword, hversion]

/-- The data cells, unmasked, are the stream and the remainder bits, which are 0 (42_mapper.md rule R333). -/
theorem State.QrReady.unmasked :
    s.qrCells.map (fun p => qrCell (s.qrDrawn m).symbol false p.1 p.2 ^^ qrMask m p.1 p.2)
      = s.codewords.flatMap (fun w => bitsMsb w 8) ++ List.replicate (qrRem s.regs.ver.toNat) false := by
  have hstream : (s.codewords.flatMap (fun w => bitsMsb w 8)).length = 8 * qrTotal s.rom s.regs.ver.toNat := by
    rw [codewordBits_length, s.codewords_length, h.count]
  refine List.ext_getElem ?_ (fun k hk hk' => ?_)
  · rw [List.length_map, dataCells_length_of_ok h.verLegal h.rowOk, List.length_append, List.length_replicate, hstream]
  · rw [List.length_map] at hk
    obtain ⟨hx, hy, -⟩ := mem_dataCells (qrDim_odd _) (List.getElem_mem hk)
    have hcell : qrCell (s.qrDrawn m).symbol false s.qrCells[k].1 s.qrCells[k].2
        = (((s.codewords.flatMap (fun w => bitsMsb w 8))[k]?).getD false ^^ qrMask m s.qrCells[k].1 s.qrCells[k].2) := by
      rw [getElem?_codewordBits, ← State.gridBit_qrGrid_data h.dim_le hk, ← State.qrDrawn_cell hy hx]
      exact h.gridBit_symbol m hy hx
    rw [List.getElem_map, hcell, Bool.xor_assoc, Bool.xor_self, Bool.xor_false, List.getElem_append]
    split
    · rw [List.getElem?_eq_getElem ‹_›, Option.getD_some]
    · rw [List.getElem?_eq_none (Nat.not_lt.mp ‹_›), Option.getD_none, List.getElem_replicate]

/-- The codewords are read back. -/
theorem State.QrReady.readData :
    readData s.rom (s.qrDrawn m).symbol false s.regs.ver.toNat m = .ok s.codewords := by
  have hcount : s.codewords.length = qrTotal s.rom s.regs.ver.toNat := s.codewords_length.trans h.count
  have hrest : (List.replicate (qrRem s.regs.ver.toNat) false).length < 8 := by
    rw [List.length_replicate]
    exact qrRem_lt _
  unfold Machine.readData
  dsimp only
  rw [if_pos h.rowOk, h.unmasked m, bytesOfBits_codewordBits hrest _ s.codewords_lt, hcount, if_neg (Nat.lt_irrefl _),
    if_neg (not_not_intro rfl)]

/-- The plain attempt on the symbol drawn reads what was drawn. -/
theorem State.QrReady.qrTry (hm : m < 8) :
    (s.qrDrawn m).qrTry false = .ok ⟨s.regs.ver.toNat, 8 * ecBits s.regs.cfgQr.ecl.toNat + m, s.codewords⟩ := by
  obtain ⟨hb21, -, hdim⟩ := qrDim_bounds h.verLegal
  obtain ⟨hfirst, hsecond⟩ := h.readFormat m hm
  obtain ⟨-, hnearest⟩ := fmtNearest_fmtWord _ s.regs.cfgQr.ecl.isLt m hm
  have hmask : (8 * ecBits s.regs.cfgQr.ecl.toNat + m) % 8 = m := by omega
  rw [State.qrTry, State.qrDrawn_gridH h.dim_le, State.qrDrawn_gridW h.dim_le, qrAttempt, if_neg (not_not_intro rfl),
    if_neg (by omega), hfirst, hsecond, hnearest]
  dsimp only
  rw [h.readVersion m]
  dsimp only
  rw [hmask, State.qrDrawn_rom, h.readData m]

end

/-- Settles O36: each word and each codeword is read from the cells it was drawn to, in the first attempt. -/
theorem parQrReadsWhatMapQrDrew : Obligations.ParQrReadsWhatMapQrDrew := by
  unfold Obligations.ParQrReadsWhatMapQrDrew
  intro s t retry hrom h1 h40 hcount ht
  have h : s.QrReady := ⟨hrom, h1, h40, hcount⟩
  rw [h.exec] at ht
  cases ht
  have hm := s.qrMaskUsed_lt
  have hdiv : (8 * ecBits s.regs.cfgQr.ecl.toNat + s.qrMaskUsed) / 8 = ecBits s.regs.cfgQr.ecl.toNat := by omega
  have hmod : (8 * ecBits s.regs.cfgQr.ecl.toNat + s.qrMaskUsed) % 8 = s.qrMaskUsed := by omega
  refine ⟨_, exec_parQr_ok (h.qrTry _ hm) retry, State.qrParsed_completed _ _, ?_, ?_, ?_, rfl, s.ofNat_length_codewords,
    fun k hk => s.read_ofList_codewords _ hk⟩
  · exact (BitVec.ofNat_toNat ..).trans (BitVec.setWidth_eq _)
  · change BitVec.ofNat 2 (ecBits (_ / 8)) = _
    rw [hdiv, ecBits_ecBits _ s.regs.cfgQr.ecl.isLt]
    exact (BitVec.ofNat_toNat ..).trans (BitVec.setWidth_eq _)
  · change BitVec.ofNat 3 (_ % 8) = BitVec.ofNat 3 s.qrMaskUsed
    rw [hmod]

end Sys2Proof.Machine
end

section
/-! What a codeword of a Data Matrix stream in ASCII mode does (44_bsp_datamatrix.md rule R394 to R404; O47 to O51), and DEC.DM on
plain characters (rule R392 to R396; O52). -/

namespace Sys2Proof.Machine

/-! ### A codeword of ASCII mode (rule R393) -/

section
variable {s : State} {n : Nat}

theorem State.hasRoom.le (h : s.hasRoom n) : s.regs.outLen.toNat + n ≤ Config.outSize := (Nat.le_add_right _ _).trans h

/-- Output that has room, and the end-of-stream test behind it (rule R392). -/
theorem dmNextOf_outAll {cs : List Byte} (h : s.hasRoom cs.length) :
    dmNextOf (s.outAll cs) = .ok (s.appended cs).dmAfter := by
  rw [State.outAll_ok cs h.le, dmNextOf_ok, State.dmNext_ok (State.hasRoom_appended cs 0 h)]

/-- A FormatException found at the cursor of `t` ends the stream element that was begun in `s` (60_exceptions.md rule R542). -/
theorem State.streamEnd_formatErr (s : State) {t : State} (ws : List Loc) (hn : t.work.bp / 8 = n) :
    ∃ u, (.next (s.streamEnd ws (.error t.formatErr)) : Host.Outcome State Fault Refusal) = .next u
      ∧ u.Faulted .formatException .bsp n :=
  ⟨_, rfl, hn ▸ s.raise_faulted ..⟩

theorem dmAsciiBody_ok {b : Byte} (hb : 1 ≤ b.toNat) (h : s.hasRoom 1) :
    dmAsciiBody b s = .ok (State.dmAfter ((s.setUpper false).appended
      [BitVec.ofNat 8 (b.toNat - 1 + (if s.work.upper = true then 128 else 0))])) := by
  have hunit : (if s.work.upper then b - 1 + 128 else b - 1)
      = BitVec.ofNat 8 (b.toNat - 1 + (if s.work.upper = true then 128 else 0)) := by
    have one : (1 : Byte).toNat = 1 := rfl
    have upper : (128 : Byte).toNat = 128 := rfl
    have := b.isLt
    apply BitVec.eq_of_toNat_eq
    split <;> simp only [BitVec.toNat_add, BitVec.toNat_sub, BitVec.toNat_ofNat, one, upper] <;> omega
  have hroom : (s.setUpper false).hasRoom 1 := h
  rw [dmAsciiBody, hunit]
  change dmNextOf (State.out (s.setUpper false) _) = _
  rw [State.out_ok _ hroom.le, dmNextOf_ok, State.dmNext_ok (State.hasRoom_appended [_] 0 hroom)]

/-- Settles O47: the character's and the digits' output has room, and the end-of-stream test follows. -/
theorem dmCharactersAndDigits : Obligations.DmCharactersAndDigits := by
  refine ⟨fun s b h1 _ h => ?_, fun s b _ _ h => ?_⟩
  · change Host.Outcome.next (s.streamEnd writesDecDm (dmAsciiBody b s)) = _
    rw [dmAsciiBody_ok h1 h]
    rfl
  · change Host.Outcome.next (s.streamEnd writesDecDm (dmDigitsBody b s)) = _
    rw [dmDigitsBody, dmNextOf_outAll h]
    rfl

/-! ### The end of the data (rule R396, R418) -/

/-- Where an FNC1 position is recorded. -/
theorem State.fncList_contains (s : State) {n : Nat} (hn : n < 2 ^ 16) :
    s.fncList.contains n = true ↔ ∃ k, k < s.regs.fncCnt.toNat ∧ s.mem.fnc.read k = BitVec.ofNat 16 n := by
  simp only [State.fncList, Buf.take, List.map_map, List.contains_iff_mem, List.mem_map, List.mem_range, Function.comp_apply]
  refine exists_congr fun k => and_congr_right fun _ => ?_
  rw [← BitVec.toNat_inj, BitVec.toNat_ofNat, Nat.mod_eq_of_lt hn]

/-- One of two positions is recorded (rule R418). -/
theorem State.fncList_contains_or (s : State) {a b : Nat} (ha : a < 2 ^ 16) (hb : b < 2 ^ 16) :
    (s.fncList.contains a || s.fncList.contains b) = true
      ↔ ∃ k, k < s.regs.fncCnt.toNat ∧ (s.mem.fnc.read k = BitVec.ofNat 16 a ∨ s.mem.fnc.read k = BitVec.ofNat 16 b) := by
  rw [Bool.or_eq_true, s.fncList_contains ha, s.fncList_contains hb, ← exists_or]
  exact exists_congr fun k => and_or_left.symm

/-- Settles O48: the trailers have room, and the recorded positions choose the modifier. -/
theorem dmPadEndsTheData : Obligations.DmPadEndsTheData := by
  intro s h
  have hroom : s.regs.outLen.toNat + s.work.trl.length ≤ Config.outSize := h
  have hexec : exec .dmPad s = .next s.dmEnded := by
    change Host.Outcome.next (s.streamEnd writesDecDm s.dmFinish) = _
    rw [State.dmFinish_ok hroom]
    rfl
  refine ⟨_, hexec, rfl, State.complete_completed _, State.appended_outLen hroom,
    fun k hk => Buf.read_writeAll_get _ _ _ k hk, ?_⟩
  have hfirst : _ ↔ ∃ k, k < s.regs.fncCnt.toNat ∧ (s.mem.fnc.read k = 0 ∨ s.mem.fnc.read k = 4) :=
    s.fncList_contains_or (a := 0) (b := 4) (by decide) (by decide)
  have hsecond : _ ↔ ∃ k, k < s.regs.fncCnt.toNat ∧ (s.mem.fnc.read k = 1 ∨ s.mem.fnc.read k = 5) :=
    s.fncList_contains_or (a := 1) (b := 5) (by decide) (by decide)
  change BitVec.ofNat 3 (dmModifier s.work.eci s.fncList) = _
  unfold dmModifier
  simp only [hfirst, hsecond]
  split_ifs <;> rfl

/-! ### Latches, FNC1, envelopes and the codewords without output (rule R398 to R404) -/

theorem State.dmLatch_ok (seg : DmSeg) :
    (0 < s.avail → s.dmLatch seg = .ok { s with phase := .dmStream seg, work := { s.work with upper := false } })
    ∧ (s.avail = 0 → s.hasRoom 0 → s.dmLatch seg = .ok s.dmEnded) := by
  rw [State.dmLatch]
  refine ⟨fun h => if_neg (by omega), fun h hroom => ?_⟩
  rw [if_pos h]
  refine State.dmFinish_ok ?_
  rwa [State.hasRoom, if_pos h] at hroom

theorem State.dmAfter_of_done (h : s.avail = 0) : s.dmAfter = s.dmEnded := if_pos h

/-- Settles O49: every latch is `State.dmLatch` with its segment. -/
theorem dmLatchesAndUnlatch : Obligations.DmLatchesAndUnlatch := by
  have latch : ∀ (s : State) (i : Instr) (seg : DmSeg), exec i s = .next (s.streamEnd writesDecDm (s.dmLatch seg)) →
      (0 < s.avail → exec i s = .next { s with phase := .dmStream seg, work := { s.work with upper := false } })
      ∧ (s.avail = 0 → s.hasRoom 0 → exec i s = .next s.dmEnded) := by
    intro s i seg hexec
    obtain ⟨hmore, hlast⟩ := s.dmLatch_ok seg
    exact ⟨fun h => by rw [hexec, hmore h]; rfl, fun h hroom => by rw [hexec, hlast h hroom]; rfl⟩
  refine ⟨fun s p hp => ?_, fun s => ⟨fun h hroom => ?_, fun h => ?_⟩⟩
  · simp only [List.mem_cons, List.not_mem_nil, or_false] at hp
    rcases hp with rfl | rfl | rfl | rfl | rfl | rfl <;> exact latch s _ _ rfl
  · change Host.Outcome.next (s.streamEnd writesDecDm (dmUnlatchBody s)) = _
    rw [dmUnlatchBody, if_pos h, State.dmNext_ok hroom, State.dmAfter_of_done h]
    rfl
  · change ∃ t, Host.Outcome.next (s.streamEnd writesDecDm (dmUnlatchBody s)) = .next t ∧ _
    rw [dmUnlatchBody, if_neg (by omega)]
    exact s.streamEnd_formatErr writesDecDm rfl

/-- Settles O50, codeword by codeword. -/
theorem dmFnc1MacrosIgnoredAndUpperShift : Obligations.DmFnc1MacrosIgnoredAndUpperShift := by
  refine ⟨fun s hf h => ?_, fun s h => ?_, fun s h => ?_⟩
  · change Host.Outcome.next (s.streamEnd writesDecDm (dmNextOf s.addFnc1)) = _
    rw [State.addFnc1_ok hf h.le, dmNextOf_ok, State.dmNext_ok (State.hasRoom_appended (s := s.withFnc1) [29] 0 h)]
    rfl
  · have ignored : Host.Outcome.next (s.streamEnd writesDecDm s.dmNext) = (.next s.dmAfter : Host.Outcome _ Fault Refusal) := by
      rw [State.dmNext_ok h]
      rfl
    refine ⟨ignored, ignored, ?_⟩
    change Host.Outcome.next (s.streamEnd writesDecDm (s.setUpper true).dmNext) = _
    rw [State.dmNext_ok (s := s.setUpper true) h]
    rfl
  · have header : ∀ cs : List Nat, cs.length = 7 →
        Host.Outcome.next (s.streamEnd writesDecDm (dmMacroBody cs s)) = (.next (State.dmAfter (State.appended
          { s with work := { s.work with trl := [0x1E, 0x04] ++ s.work.trl } } (cs.map (BitVec.ofNat 8)))) :
          Host.Outcome _ Fault Refusal) := by
      intro cs hcs
      rw [← hcs, ← List.length_map (as := cs) (BitVec.ofNat 8)] at h
      exact congrArg (fun r => Host.Outcome.next (s.streamEnd writesDecDm r)) (dmNextOf_outAll h)
    exact ⟨header macroHeader05 rfl, header macroHeader06 rfl⟩

end

/-! ### DEC.DM on plain characters (rule R392 to R396) -/

section
variable {u : State} {i : Nat}

theorem dmRound_codeword (hp : u.phase = .dmStream .ascii) (hbp : u.work.bp = 8 * i) (h : i < u.regs.cwLen.toNat) :
    u.dmRound = (u.advance 8).streamEnd writesDecDm (asciiCodeword (BitVec.ofNat 8 (u.cwAt i)) (u.advance 8)) := by
  rw [State.dmRound, hp]
  dsimp only
  rw [State.readBits_ok (by rw [State.avail_eq]; omega), hbp, State.field_codeword]

/-- With no codeword left the round is a FormatException (20_memory.md rule R85). -/
theorem dmRound_short (hp : u.phase = .dmStream .ascii) (h : u.avail < 8) :
    u.dmRound = u.streamEnd writesDecDm (.error u.formatErr) := by
  rw [State.dmRound, hp]
  dsimp only
  rw [State.readBits_error h]

/-- A plain character's codeword. -/
theorem dmRound_plain (hp : u.phase = .dmStream .ascii) (hup : u.work.upper = false) (hbp : u.work.bp = 8 * i)
    (h : i < u.regs.cwLen.toNat) {c : Byte} (hc : c.toNat < 128) (hcw : u.cwAt i = c.toNat + 1)
    (hroom : (u.advance 8).hasRoom 1) :
    u.dmRound = ((u.advance 8).appended [c]).dmAfter := by
  have hb : (BitVec.ofNat 8 (c.toNat + 1)).toNat = c.toNat + 1 := by rw [BitVec.toNat_ofNat]; omega
  rw [dmRound_codeword hp hbp h, hcw, asciiCodeword_char _ (by omega) (by omega), dmAsciiBody_ok (by omega) hroom, hb,
    show (u.advance 8).work.upper = false from hup, State.setUpper_back (s := u.advance 8) hup]
  simp

theorem State.dmAfter_of_more (hp : u.phase = .dmStream .ascii) (h : u.avail ≠ 0) : u.dmAfter = u := by
  rw [State.dmAfter, if_neg h, ← hp]

theorem dmLoop_round (fuel : Nat) {seg : DmSeg} (hp : u.phase = .dmStream seg) :
    dmLoop (fuel + 1) u = dmLoop fuel u.dmRound := by
  rw [dmLoop, hp]

theorem dmLoop_idle (fuel : Nat) (hp : u.phase = .idle) : dmLoop fuel u = u := by
  cases fuel with
  | zero => rfl
  | succ fuel => rw [dmLoop, hp]

/-- A run of plain characters takes a round for each; behind the last one stands the end-of-stream test. -/
theorem dmLoop_plain (cs : List Byte) : ∀ {u : State} {i : Nat}, u.phase = .dmStream .ascii → u.work.upper = false →
    u.work.trl = [] → u.work.bp = 8 * i → i < u.regs.cwLen.toNat → i + cs.length ≤ u.regs.cwLen.toNat →
    (∀ k (hk : k < cs.length), cs[k].toNat < 128 ∧ u.cwAt (i + k) = cs[k].toNat + 1) →
    u.regs.outLen.toNat + cs.length ≤ Config.outSize → ∀ fuel,
    dmLoop (fuel + cs.length) u = dmLoop fuel ((u.advance (8 * cs.length)).appended cs).dmAfter := by
  induction cs with
  | nil =>
    intro u i hp _ _ hbp hi _ _ _ fuel
    rw [State.appended_nil]
    exact congrArg (dmLoop fuel) (State.dmAfter_of_more hp (by rw [State.avail_eq]; omega)).symm
  | cons c rest ih =>
    intro u i hp hup htrl hbp hi hle hcs hroom fuel
    have hsize : Config.outSize = 16384 := rfl
    rw [List.length_cons] at hle hroom
    obtain ⟨hc, hcw⟩ := hcs 0 (by simp)
    have hround : u.dmRound = ((u.advance 8).appended [c]).dmAfter := dmRound_plain hp hup hbp hi hc hcw (by
      change u.regs.outLen.toNat + 1 + (if _ then u.work.trl.length else 0) ≤ _
      rw [htrl, List.length_nil, ite_self]
      omega)
    rw [List.length_cons, ← Nat.add_assoc, dmLoop_round _ hp, hround]
    by_cases hrest : rest = []
    · subst hrest
      rfl
    · have hpos := List.length_pos_iff.mpr hrest
      have hlen := outLen_appended_one (s := u.advance 8) c (by change u.regs.outLen.toNat < _; omega)
      rw [State.dmAfter_of_more (u := (u.advance 8).appended [c]) hp (by
          change 8 * u.regs.cwLen.toNat - (u.work.bp + 8) ≠ 0
          omega),
        ih (u := (u.advance 8).appended [c]) (i := i + 1) hp hup htrl (by change u.work.bp + 8 = _; omega)
          (by change i + 1 < u.regs.cwLen.toNat; omega) (by change _ ≤ u.regs.cwLen.toNat; omega)
          (fun k hk => by
            have := hcs (k + 1) (by simpa using hk)
            rwa [show i + (k + 1) = i + 1 + k from by omega] at this)
          (by rw [hlen]; change u.regs.outLen.toNat + 1 + _ ≤ _; omega),
        State.appended_advance, State.advance_advance, State.appended_append _ _ _ (by
          change u.regs.outLen.toNat + 1 < _
          omega),
        show 8 + 8 * rest.length = 8 * (rest.length + 1) from by omega]
      rfl

/-- The pad ends the command. -/
theorem dmRound_pad (hp : u.phase = .dmStream .ascii) (hbp : u.work.bp = 8 * i) (h : i < u.regs.cwLen.toNat)
    (hcw : u.cwAt i = 129) (hroom : u.regs.outLen.toNat + u.work.trl.length ≤ Config.outSize) :
    u.dmRound = (u.advance 8).dmEnded := by
  rw [dmRound_codeword hp hbp h, hcw]
  change State.streamEnd _ _ (State.dmFinish _) = _
  rw [State.dmFinish_ok (s := u.advance 8) hroom]
  rfl

/-- Characters up to the end of the stream or to a pad: the command ends somewhere in the stream with the characters in OUT. -/
theorem dmLoop_plain_end {cs : List Byte} (hp : u.phase = .dmStream .ascii) (hup : u.work.upper = false)
    (htrl : u.work.trl = []) (hbp : u.work.bp = 0) (hpos : 0 < u.regs.cwLen.toNat) (hle : cs.length ≤ u.regs.cwLen.toNat)
    (hcs : ∀ k (hk : k < cs.length), cs[k].toNat < 128 ∧ u.cwAt k = cs[k].toNat + 1)
    (hroom : u.regs.outLen.toNat + cs.length ≤ Config.outSize)
    (hpad : cs.length < u.regs.cwLen.toNat → u.cwAt cs.length = 129) {fuel : Nat} (hfuel : cs.length < fuel) : ∃ k, dmLoop fuel u = ((u.advance k).appended cs).dmEnded := by
  obtain ⟨f, rfl⟩ := Nat.exists_eq_add_of_le' hfuel
  have hend := dmLoop_plain cs (i := 0) hp hup htrl hbp hpos (by omega) (by simpa using hcs) hroom (f + 1)
  rw [show f + (cs.length + 1) = f + 1 + cs.length from by omega, hend]
  have havail : ((u.advance (8 * cs.length)).appended cs).avail = 8 * u.regs.cwLen.toNat - 8 * cs.length := by
    change 8 * u.regs.cwLen.toNat - (u.work.bp + 8 * cs.length) = _
    omega
  by_cases hlast : cs.length = u.regs.cwLen.toNat
  · rw [State.dmAfter_of_done (by omega), dmLoop_idle _ rfl]
    exact ⟨_, rfl⟩
  · have hp' : ((u.advance (8 * cs.length)).appended cs).phase = .dmStream .ascii := hp
    have hbp' : ((u.advance (8 * cs.length)).appended cs).work.bp = 8 * cs.length := by
      change u.work.bp + 8 * cs.length = _
      omega
    have hroom' : ((u.advance (8 * cs.length)).appended cs).regs.outLen.toNat
        + ((u.advance (8 * cs.length)).appended cs).work.trl.length ≤ Config.outSize := by
      rw [State.appended_outLen (s := u.advance _) hroom]
      change _ + u.work.trl.length ≤ _
      rw [htrl]
      exact hroom
    rw [State.dmAfter_of_more hp' (by omega), dmLoop_round f hp',
      dmRound_pad hp' hbp' (by change _ < u.regs.cwLen.toNat; omega) (hpad (by omega)) hroom', dmLoop_idle _ rfl,
      State.appended_advance, State.advance_advance]
    exact ⟨_, rfl⟩

end

/-- The characters of `n` plain codewords from the start of CW (rule R395). -/
def State.plainUnits (s : State) (n : Nat) : List Byte := (List.range n).map fun j => s.mem.cw.read j - 1

theorem State.plainUnits_length (s : State) (n : Nat) : (s.plainUnits n).length = n := by
  rw [State.plainUnits, List.length_map, List.length_range]

theorem State.plainUnits_getElem (s : State) {n j : Nat} (hj : j < (s.plainUnits n).length) (h1 : 1 ≤ (s.mem.cw.read j).toNat) :
    (s.plainUnits n)[j].toNat = (s.mem.cw.read j).toNat - 1 := by
  simp only [State.plainUnits, List.getElem_map, List.getElem_range]
  rw [BitVec.toNat_sub, show (1 : Byte).toNat = 1 from rfl]
  omega

/-- Settles O52: a round for each character, then the end of the stream or the pad. -/
theorem decDmDecodesPlainCharacters : Obligations.DecDmDecodesPlainCharacters := by
  intro s n h1 h4096 hn hchars hpad
  have hsize : Config.outSize = 16384 := rfl
  have hlen := s.plainUnits_length n
  have hunit : ∀ j (hj : j < (s.plainUnits n).length), (s.plainUnits n)[j].toNat = (s.mem.cw.read j).toNat - 1 :=
    fun j hj => s.plainUnits_getElem hj (hchars j (hlen ▸ hj)).1
  have hcs : ∀ j (hj : j < (s.plainUnits n).length),
      (s.plainUnits n)[j].toNat < 128 ∧ s.dmBegin.cwAt j = (s.plainUnits n)[j].toNat + 1 := by
    intro j hj
    have := hchars j (hlen ▸ hj)
    rw [hunit j hj]
    change _ ∧ (s.mem.cw.read j).toNat = _
    omega
  have hroom : s.dmBegin.regs.outLen.toNat + (s.plainUnits n).length ≤ Config.outSize := by
    rw [hlen]
    change 0 + n ≤ _
    omega
  obtain ⟨k, hk⟩ := dmLoop_plain_end (u := s.dmBegin) rfl rfl rfl rfl h1 (hlen.le.trans hn) hcs hroom (by rw [hlen]; exact hpad)
    (fuel := 2 * s.regs.cwLen.toNat + 2) (by omega)
  have hout := State.appended_outLen (s := s.dmBegin.advance k) hroom
  refine ⟨_, (execDecDm_of_legal h4096).trans (congrArg _ hk), State.complete_completed _, ?_, fun j hj => ?_,
    rfl, rfl, rfl, rfl, rfl⟩
  · have htrl := State.appended_outLen (s := (s.dmBegin.advance k).appended (s.plainUnits n)) (cs := []) (by
      rw [hout]
      exact hroom)
    refine htrl.trans (hout.trans ?_)
    rw [hlen]
    exact Nat.zero_add n
  · have hread := Buf.read_writeAll_get (s.plainUnits n) (Buf.blank s.draws) 0 j (hlen.symm ▸ hj)
    rw [Nat.zero_add] at hread
    exact (congrArg BitVec.toNat hread).trans (hunit j (hlen.symm ▸ hj))

/-! ### Elements without a meaning, and empty streams (rule R391, R394; 45_bsp_qr.md rule R431, R432) -/

/-- Settles O51: each element is a FormatException at the cursor; an empty stream ends in the decoder's first round. -/
theorem meaninglessElementsAndEmptyStreams : Obligations.MeaninglessElementsAndEmptyStreams := by
  refine ⟨fun s b v => ⟨s.streamEnd_formatErr writesDecDm rfl, s.streamEnd_formatErr writesDecDm rfl,
    s.streamEnd_formatErr writesDecQr rfl⟩, fun s h => ?_⟩
  have hlen : s.regs.cwLen.toNat = 0 := congrArg BitVec.toNat h
  refine ⟨?_, fun h1 h40 => ?_⟩
  · rw [execDecDm_of_legal (by omega), hlen, dmLoop_round (seg := .ascii) 1 rfl]
    rw [dmRound_short rfl (by change 8 * s.regs.cwLen.toNat - 0 < 8; omega), dmLoop_idle _ rfl]
    exact s.dmBegin.streamEnd_formatErr writesDecDm (Nat.zero_div 8)
  · have hlegal : decQrLegal s.regs = true := (decQrLegal_iff _).mpr ⟨⟨h1, h40⟩, by omega⟩
    have hround : s.qrBegin.qrRound = s.qrBegin.qrFinish := by
      rw [State.qrRound, State.nextIndicator, if_pos (by change 8 * s.regs.cwLen.toNat - 0 < 4; omega)]
      rfl
    refine ⟨s.qrBegin.qrFinish, ?_, State.complete_completed _, rfl, rfl, rfl, rfl, rfl, rfl⟩
    change execDecQr s = _
    rw [execDecQr, if_pos hlegal, hlen, qrLoop_round _ rfl, hround, qrLoop_idle _ rfl]

end Sys2Proof.Machine
end

section
/-! The segments of pairs of DEC.DM, C40, Text and X12, at any place of the stream (44_bsp_datamatrix.md rule R405 to R408; O53,
O54). -/

namespace Sys2Proof.Machine

/-! ### A step that runs a segment (rule R392) -/

section
variable {s t : State} {seg : DmSeg}

theorem step_segment (hu : s.undisturbed) (hp : s.phase = .dmStream seg) (hseg : seg ≠ .ascii) :
    step s = .next (s.streamEnd writesDecDm (dmSegmentThen seg s)) := by
  rw [step_of_undisturbed hu (by rw [hp]; exact Phase.noConfusion), run, hp]
  cases seg
  · exact absurd rfl hseg
  all_goals rfl

/-- The segment decoded, and the end-of-stream test behind it. -/
theorem step_segment_ok (hu : s.undisturbed) (hp : s.phase = .dmStream seg) (hseg : seg ≠ .ascii)
    (h : dmSegment seg s = .ok t) (hroom : (t.setUpper false).hasRoom 0) : step s = .next (t.setUpper false).dmAfter := by
  rw [step_segment hu hp hseg, dmSegmentThen, h]
  change Host.Outcome.next (s.streamEnd writesDecDm (t.setUpper false).dmNext) = _
  rw [State.dmNext_ok hroom]
  rfl

/-- The segment ends in a FormatException found at the cursor of `t`. -/
theorem step_segment_formatErr (hu : s.undisturbed) (hp : s.phase = .dmStream seg) (hseg : seg ≠ .ascii)
    (h : dmSegment seg s = .error t.formatErr) {n : Nat} (hn : t.work.bp / 8 = n) :
    ∃ u, step s = .next u ∧ u.Faulted .formatException .bsp n := by
  rw [step_segment hu hp hseg, dmSegmentThen, h]
  exact s.streamEnd_formatErr writesDecDm hn

theorem State.hasRoom_zero (h : s.regs.outLen.toNat + s.work.trl.length ≤ Config.outSize) : s.hasRoom 0 := by
  unfold State.hasRoom
  split <;> omega

end

/-! ### A pair of codewords (rule R405, R407) -/

theorem unpackTriplet_field {f : Nat} : unpackTriplet (f / 256) (f % 256) = if f = 0 then none else some (pairValues f) := by
  unfold unpackTriplet
  by_cases h : f = 0
  · rw [if_pos h, if_pos (by omega)]
  · have hf : 256 * (f / 256) + f % 256 - 1 = f - 1 := by omega
    have hmid : (f - 1) % 1600 / 40 = (f - 1) / 40 % 40 := by omega
    rw [if_neg h, if_neg (by omega)]
    dsimp only
    rw [hf, hmid]
    rfl

theorem pairValues_triplet {a b c : Nat} (hb : b < 40) (hc : c < 40) : pairValues (1600 * a + 40 * b + c + 1) = [a, b, c] := by
  unfold pairValues
  congr 1
  · omega
  congr 1
  · omega
  congr 1
  omega

theorem tripletCodewords_bits_cons (a b c : Nat) (rest : List Nat) :
    (tripletCodewords (a :: b :: c :: rest)).flatMap (fun b => bitsMsb b 8)
      = bitsMsb (1600 * a + 40 * b + c + 1) 16 ++ (tripletCodewords rest).flatMap (fun b => bitsMsb b 8) := by
  rw [tripletCodewords, List.flatMap_append, bitsMsb_add _ 8 8,
    ← bitsMsb_mod (1600 * a + 40 * b + c + 1) (k := 8) (Nat.le_refl 8)]
  simp [packTriplet]

theorem tripletCodewords_bits_length (vs : List Nat) :
    ((tripletCodewords vs).flatMap (fun b => bitsMsb b 8)).length = 16 * (vs.length / 3) := by
  rw [codewordBits_length, tripletCodewords_length]
  omega

section
variable {vals : List Nat → State → Except Raise State} {u w : State}

/-- A pair that is no unlatch: 0 is a FormatException, another one its three values. -/
theorem pairSeg_pair (vals : List Nat → State → Except Raise State) (h : 16 ≤ u.avail) {f : Nat}
    (hf : u.streamField 0 u.work.bp 16 = f) (hun : f / 256 ≠ 254) (fuel : Nat) :
    pairSeg vals (fuel + 1) u =
      (if f = 0 then .error (u.advance 16).formatErr else vals (pairValues f) (u.advance 16)) >>= fun w =>
        if w.avail = 0 then .ok w else pairSeg vals fuel w := by
  have hsplit : u.streamField 0 u.work.bp 16 = _ := u.field_add u.work.bp 8 8
  have hlow := u.field_lt (u.work.bp + 8) 8
  have hhigh : u.streamField 0 u.work.bp 8 = f / 256 := by omega
  have hlow' : (u.advance 8).streamField 0 (u.advance 8).work.bp 8 = f % 256 := by
    change u.streamField 0 (u.work.bp + 8) 8 = _
    omega
  rw [pairSeg, if_neg (by omega), State.readBits_ok (by omega), hhigh]
  dsimp only
  rw [if_neg hun, State.readBits_ok (by rw [State.avail_advance]; omega), hlow', State.advance_advance]
  dsimp only
  rw [unpackTriplet_field]
  by_cases h0 : f = 0
  · rw [if_pos h0, if_pos h0]
    rfl
  · rw [if_neg h0, if_neg h0]
    dsimp only
    cases vals (pairValues f) (u.advance 16) <;> rfl

/-- A pair with right values. -/
theorem pairSeg_pair_ok (h : 16 ≤ u.avail) {f : Nat} (hf : u.streamField 0 u.work.bp 16 = f) (hun : f / 256 ≠ 254)
    (h0 : f ≠ 0) (hw : vals (pairValues f) (u.advance 16) = .ok w) (fuel : Nat) :
    pairSeg vals (fuel + 1) u = if w.avail = 0 then .ok w else pairSeg vals fuel w := by
  rw [pairSeg_pair vals h hf hun, if_neg h0, hw]
  rfl

/-- Whole triplets read, up to the end of the stream or not. -/
theorem pairSeg_run (hv : ValueReader vals) (vs : List Nat) : ∀ {u w : State}, 0 < u.avail → vs.length % 3 = 0 →
    (∀ v ∈ vs, v < 40) → u.streamHolds u.work.bp ((tripletCodewords vs).flatMap (fun b => bitsMsb b 8)) →
    vals vs u = .ok w → ∀ fuel, pairSeg vals (fuel + vs.length / 3) u =
      if u.avail = 16 * (vs.length / 3) then .ok (w.advance (16 * (vs.length / 3)))
      else pairSeg vals fuel (w.advance (16 * (vs.length / 3))) := by
  induction vs using tripletCodewords.induct with
  | case1 a b c rest ih =>
    intro u w _ hlen hlt hs hw fuel
    simp only [List.length_cons] at hlen
    have ha := hlt a (by simp)
    have hb := hlt b (by simp)
    have hc := hlt c (by simp)
    have havail := hs.avail
    rw [tripletCodewords_bits_length] at havail
    simp only [List.length_cons] at havail
    rw [tripletCodewords_bits_cons] at hs
    obtain ⟨hpair, hrest⟩ := hs.append
    rw [bitsMsb_length] at hrest
    obtain ⟨m, hm, hmw⟩ := hv.append (a := [a, b, c]) hw
    obtain ⟨s1, s2, s3⟩ := hv.stream hm
    have hm' : vals (pairValues (1600 * a + 40 * b + c + 1)) (u.advance 16) = .ok (m.advance 16) := by
      rw [pairValues_triplet hb hc]
      exact hv.advance 16 hm
    have hleft : (m.advance 16).avail = u.avail - 16 := by
      rw [State.avail_advance, State.avail_eq, State.avail_eq, s1, s3]
    have hcount : (a :: b :: c :: rest).length / 3 = rest.length / 3 + 1 := by
      simp only [List.length_cons]; omega
    rw [hcount, ← Nat.add_assoc, pairSeg_pair_ok (by omega) (hpair.field (by omega)) (by omega) (by omega) hm', hleft]
    by_cases hend : u.avail - 16 = 0
    · obtain rfl : rest = [] := List.length_eq_zero_iff.mp (by omega)
      obtain rfl : m = w := Except.ok.inj ((hv.nil m).symm.trans hmw)
      rw [if_pos hend, if_pos (by simp only [List.length_nil]; omega)]
      rfl
    · rw [if_neg hend, ih (by omega) (by omega) (fun v hvm => hlt v (by simp [hvm]))
        (by
          have := hrest.congr (t := m.advance 16) s2 s1
          rwa [← s3] at this)
        (hv.advance 16 hmw), hleft, State.advance_advance,
        show 16 + 16 * (rest.length / 3) = 16 * (rest.length / 3 + 1) from by omega]
      by_cases hlast : u.avail - 16 = 16 * (rest.length / 3)
      · rw [if_pos hlast, if_pos (by omega)]
      · rw [if_neg hlast, if_neg (by omega)]
  | case2 xs hx =>
    intro u w h0 hlen _ _ hw fuel
    match xs, hx with
    | [], _ =>
      obtain rfl : u = w := Except.ok.inj ((hv.nil u).symm.trans hw)
      exact (if_neg (Nat.pos_iff_ne_zero.mp h0)).symm
    | [_], _ => simp at hlen
    | [_, _], _ => simp at hlen
    | _ :: _ :: _ :: _, hx => exact absurd rfl (hx _ _ _ _)

end

/-- The stream of `s` begins with the pairs of `vs`, which `vals` reads to reach `w` from `u`, a state at the cursor of `s`. -/
structure PairsRead (vals : List Nat → State → Except Raise State) (s u : State) (vs : List Nat) (w : State) : Prop where
  reader : ValueReader vals
  start : SameStream s u
  reads : vals vs u = .ok w
  lt : ∀ v ∈ vs, v < 40
  whole : vs.length % 3 = 0
  holds : s.streamHolds s.work.bp ((tripletCodewords vs).flatMap (fun b => bitsMsb b 8))

section
variable {vals : List Nat → State → Except Raise State} {s u w : State} {vs : List Nat}

theorem SameStream.avail (h : SameStream s u) : u.avail = s.avail := by
  rw [State.avail_eq, State.avail_eq, h.1, h.2.2]

theorem State.streamField_congr {s t : State} (hcw : t.mem.cw = s.mem.cw) (n : Nat) :
    ∀ acc p, t.streamField acc p n = s.streamField acc p n := by
  induction n with
  | zero => exact fun _ _ => rfl
  | succ n ih => intro acc p; rw [State.streamField, State.streamField, ih, State.streamBit_congr hcw]

/-- A field behind the cursor of `s`, read with the cursor moved on. -/
theorem SameStream.field (h : SameStream s w) (k n : Nat) :
    (w.advance k).streamField 0 (w.advance k).work.bp n = s.streamField 0 (s.work.bp + k) n := by
  rw [← h.2.2]
  exact State.streamField_congr (s := s) (t := w.advance k) h.2.1 n 0 _

/-- The cursor and the stream behind the pairs are those of `s`, moved on. -/
theorem PairsRead.sameStream (h : PairsRead vals s u vs w) : SameStream s w := h.start.trans (h.reader.stream h.reads)

theorem PairsRead.le_avail (h : PairsRead vals s u vs w) : 16 * (vs.length / 3) ≤ s.avail := by
  have := h.holds.avail
  rwa [tripletCodewords_bits_length] at this

/-- The pairs of the segment are read. -/
theorem PairsRead.run (h : PairsRead vals s u vs w) (h0 : 0 < s.avail) (fuel : Nat) : pairSeg vals (fuel + vs.length / 3) u =
    if s.avail = 16 * (vs.length / 3) then .ok (w.advance (16 * (vs.length / 3)))
    else pairSeg vals fuel (w.advance (16 * (vs.length / 3))) := by
  have hs := h.holds.congr h.start.2.1 h.start.1
  rw [← h.start.2.2] at hs
  rw [pairSeg_run h.reader vs (by rw [h.start.avail]; exact h0) h.whole h.lt hs h.reads, h.start.avail]

/-- The segment where bits are left behind its pairs: the rest of it is read there. -/
theorem PairsRead.rest (h : PairsRead vals s u vs w) (hmore : 16 * (vs.length / 3) < s.avail) :
    ∃ fuel, pairSeg vals (s.avail + 1) u = pairSeg vals (fuel + 1) (w.advance (16 * (vs.length / 3)))
      ∧ (w.advance (16 * (vs.length / 3))).avail = s.avail - 16 * (vs.length / 3) := by
  refine ⟨s.avail - vs.length / 3, ?_, by rw [State.avail_advance, h.sameStream.avail]⟩
  have hrun := h.run (by omega) (s.avail - vs.length / 3 + 1)
  rwa [if_neg (by omega), show s.avail - vs.length / 3 + 1 + vs.length / 3 = s.avail + 1 from by omega] at hrun

/-- The end of the stream, or its last codeword, ends the segment. -/
theorem PairsRead.ends (h : PairsRead vals s u vs w)
    (hend : s.avail = 16 * (vs.length / 3) ∧ vs ≠ [] ∨ s.avail = 16 * (vs.length / 3) + 8) :
    pairSeg vals (s.avail + 1) u = .ok (w.advance (16 * (vs.length / 3))) := by
  rcases hend with ⟨hend, hne⟩ | hend
  · have hpos := List.length_pos_iff.mpr hne
    have hwhole := h.whole
    have := h.run (by omega) (s.avail + 1 - vs.length / 3)
    rwa [if_pos hend, Nat.sub_add_cancel (by omega)] at this
  · obtain ⟨fuel, hrest, havail⟩ := h.rest (by omega)
    rw [hrest, pairSeg, if_pos (by omega)]

/-- An unlatch ends the segment behind it. -/
theorem PairsRead.unlatched (h : PairsRead vals s u vs w) (hmore : 16 * (vs.length / 3) + 8 < s.avail)
    (hun : s.streamField 0 (s.work.bp + 16 * (vs.length / 3)) 8 = 254) :
    pairSeg vals (s.avail + 1) u = .ok (w.advance (16 * (vs.length / 3) + 8)) := by
  obtain ⟨fuel, hrest, havail⟩ := h.rest (by omega)
  rw [hrest, pairSeg, if_neg (by omega), State.readBits_ok (by omega), h.sameStream.field, hun]
  dsimp only
  rw [if_pos rfl, State.advance_advance]

/-- A pair that is 0, or whose values are refused, is a FormatException behind it. -/
theorem PairsRead.faults (h : PairsRead vals s u vs w) (hmore : 16 * (vs.length / 3) + 16 ≤ s.avail) {f : Nat}
    (hf : s.streamField 0 (s.work.bp + 16 * (vs.length / 3)) 16 = f) (hun : f / 256 ≠ 254) {t : State}
    (ht : SameStream (w.advance (16 * (vs.length / 3) + 16)) t)
    (hbad : f = 0 ∨ f ≠ 0 ∧ vals (pairValues f) (w.advance (16 * (vs.length / 3) + 16)) = .error t.formatErr) :
    pairSeg vals (s.avail + 1) u = .error t.formatErr := by
  obtain ⟨fuel, hrest, havail⟩ := h.rest (by omega)
  have hinfo : (w.advance (16 * (vs.length / 3) + 16)).formatErr = t.formatErr := by
    rw [State.formatErr, State.formatErr, State.bspInfo, State.bspInfo, ht.2.2]
  rw [hrest, pairSeg_pair vals (by omega) ((h.sameStream.field _ _).trans hf) hun, State.advance_advance]
  rcases hbad with rfl | ⟨h0, herr⟩
  · rw [if_pos rfl, hinfo]
    rfl
  · rw [if_neg h0, herr]
    rfl

/-- The step that runs a segment of pairs to one of its two ends. -/
theorem PairsRead.step (h : PairsRead vals s u vs w) {seg : DmSeg} (hu : s.undisturbed) (hp : s.phase = .dmStream seg)
    (hascii : seg ≠ .ascii) (hseg : dmSegment seg s = pairSeg vals (s.avail + 1) u)
    (hroom : w.regs.outLen.toNat + w.work.trl.length ≤ Config.outSize) {n : Nat} (hn : n = 16 * (vs.length / 3)) :
    (s.avail = n ∧ vs ≠ [] ∨ s.avail = n + 8 → step s = .next ((w.advance n).setUpper false).dmAfter)
    ∧ (n + 8 < s.avail → s.streamField 0 (s.work.bp + n) 8 = 254 →
      step s = .next ((w.advance (n + 8)).setUpper false).dmAfter) := by
  subst hn
  exact ⟨fun hend => step_segment_ok hu hp hascii (hseg.trans (h.ends hend)) (State.hasRoom_zero hroom),
    fun hmore hun => step_segment_ok hu hp hascii (hseg.trans (h.unlatched hmore hun)) (State.hasRoom_zero hroom)⟩

/-- The step that runs a segment of pairs to one that faults. -/
theorem PairsRead.step_faults (h : PairsRead vals s u vs w) {seg : DmSeg} (hu : s.undisturbed) (hp : s.phase = .dmStream seg)
    (hascii : seg ≠ .ascii) (hseg : dmSegment seg s = pairSeg vals (s.avail + 1) u)
    (hmore : 16 * (vs.length / 3) + 16 ≤ s.avail) {f : Nat}
    (hf : s.streamField 0 (s.work.bp + 16 * (vs.length / 3)) 16 = f) (hun : f / 256 ≠ 254) {t : State}
    (ht : SameStream (w.advance (16 * (vs.length / 3) + 16)) t)
    (hbad : f = 0 ∨ f ≠ 0 ∧ vals (pairValues f) (w.advance (16 * (vs.length / 3) + 16)) = .error t.formatErr) :
    ∃ t, Machine.step s = .next t
      ∧ t.Faulted .formatException .bsp ((s.work.bp + 16 * (vs.length / 3) + 16) / 8) := by
  refine step_segment_formatErr hu hp hascii (hseg.trans (h.faults hmore hf hun ht hbad)) ?_
  rw [ht.2.2]
  change (w.work.bp + (16 * (vs.length / 3) + 16)) / 8 = _
  rw [h.sameStream.2.2, Nat.add_assoc]

end

/-! ### Bytes and numbers -/

theorem map_ofNat_toNat (cs : List Byte) : (cs.map BitVec.toNat).map (BitVec.ofNat 8) = cs := by
  simp [List.map_map, Function.comp_def]

theorem toNat_lt_of_mem {cs : List Byte} : ∀ c ∈ cs.map BitVec.toNat, c < 256 := by
  intro c hc
  obtain ⟨b, -, rfl⟩ := List.mem_map.mp hc
  exact b.isLt

/-- Characters with a value each, and the list of the values. -/
theorem map_valueOf {val : Nat → Option Nat} {cs : List Byte} {vs : List Nat}
    (h : cs.map (fun c => val c.toNat) = vs.map some) :
    (cs.map BitVec.toNat).map (valueOf val) = vs ∧ ∀ c ∈ cs.map BitVec.toNat, val c = some (valueOf val c) := by
  constructor
  · have := congrArg (List.map (Option.getD · 0)) h
    simpa [List.map_map, Function.comp_def, valueOf] using this
  · intro c hc
    obtain ⟨b, hb, rfl⟩ := List.mem_map.mp hc
    have hmem : val b.toNat ∈ vs.map some := h ▸ List.mem_map_of_mem hb
    obtain ⟨v, -, hv⟩ := List.mem_map.mp hmem
    rw [valueOf, ← hv]
    rfl

/-! ### X12 segments (rule R408) -/

section
variable {s : State} {cs : List Byte} {vs : List Nat}

/-- Characters native to X12 in the pairs of the stream. -/
theorem pairsRead_x12 (hcs : cs.map (fun c => x12Value c.toNat) = vs.map some) (hwhole : vs.length % 3 = 0)
    (hs : s.streamHolds s.work.bp ((tripletCodewords vs).flatMap (fun b => bitsMsb b 8)))
    (hroom : s.regs.outLen.toNat + cs.length ≤ Config.outSize) : PairsRead x12ValuesIn s s vs (s.appended cs) := by
  obtain ⟨hvals, hnat⟩ := map_valueOf hcs
  have hreads := x12ValuesIn_chars (s := s) (cs.map BitVec.toNat) hnat (by rwa [List.length_map])
  rw [hvals, map_ofNat_toNat] at hreads
  refine ⟨x12ValuesIn_reader, ⟨rfl, rfl, rfl⟩, hreads, fun v hv => ?_, hwhole, hs⟩
  rw [← hvals] at hv
  obtain ⟨c, hc, rfl⟩ := List.mem_map.mp hv
  exact (x12Char_x12Value (hnat c hc)).1

/-- A first value of 40 has no character. -/
theorem x12ValuesIn_refuses {v : Nat} (hv : 40 ≤ v) (vs : List Nat) (s : State) :
    x12ValuesIn (v :: vs) s = .error s.formatErr := by
  have : x12Char v = none := by
    unfold x12Char
    rw [if_neg (by omega), if_neg (by omega), if_neg (by omega), if_neg (by omega), if_neg (by omega), if_neg (by omega)]
  rw [x12ValuesIn, this]

/-- An X12 segment to its end. -/
theorem step_x12 (hu : s.undisturbed) (hp : s.phase = .dmStream .x12) (hcs : cs.map (fun c => x12Value c.toNat) = vs.map some)
    (hwhole : vs.length % 3 = 0) {n : Nat} (hn : n = 16 * (vs.length / 3))
    (hs : s.streamHolds s.work.bp ((tripletCodewords vs).flatMap (fun b => bitsMsb b 8)))
    (hroom : s.regs.outLen.toNat + cs.length + s.work.trl.length ≤ Config.outSize) :
    (s.avail = n ∧ cs ≠ [] ∨ s.avail = n + 8 →
      step s = .next (State.dmAfter { (s.advance n).appended cs with work := { (s.advance n).work with upper := false } }))
    ∧ (n + 8 < s.avail → s.streamField 0 (s.work.bp + n) 8 = 254 →
      step s = .next (State.dmAfter { (s.advance (n + 8)).appended cs with
        work := { (s.advance (n + 8)).work with upper := false } })) := by
  have hlen : cs.length = vs.length := by simpa using congrArg List.length hcs
  have hcs0 : cs ≠ [] → vs ≠ [] := by
    rw [← List.length_pos_iff, ← List.length_pos_iff, hlen]
    exact id
  have hread := pairsRead_x12 hcs hwhole hs (by omega)
  obtain ⟨hend, hun⟩ := hread.step (seg := .x12) hu hp (by decide) rfl (by
    rw [State.appended_outLen (by omega)]
    exact hroom) hn
  exact ⟨fun h => hend (h.imp (And.imp_right hcs0) id), hun⟩

end

/-! ### C40 and Text segments (rule R406) -/

/-- The segment of C40 or Text. -/
def textSeg (text : Bool) : DmSeg := if text = true then .text else .c40

/-- Where the values of a C40 or Text segment begin: no shift is pending. -/
def State.c40Start (s : State) : State := { s with work := { s.work with upper := false, shift := 0 } }

theorem dmSegment_textSeg (text : Bool) (s : State) :
    dmSegment (textSeg text) s = pairSeg (c40ValuesIn text) (s.avail + 1) s.c40Start := by
  cases text <;> rfl

theorem textSeg_ne_ascii (text : Bool) : textSeg text ≠ .ascii := by cases text <;> decide

/-- The mode of ENC.DM whose characters an item of C40 or Text spells. -/
def textMode (text : Bool) : Mode := if text = true then .text else .c40

theorem isText_textMode (text : Bool) : isText (textMode text) = text := by cases text <;> rfl

theorem itemValues_some (text : Bool) (c : Byte) : itemValues text (some c) = c40TextValues (textMode text) c.toNat := by
  cases text <;> rfl

theorem itemValues_lt (text : Bool) (x : SegItem) : ∀ v ∈ itemValues text x, v < 40 := by
  cases x with
  | none =>
    change ∀ v ∈ [1, 27], v < 40
    decide
  | some c => rw [itemValues_some]; exact c40TextValues_lt _ c.isLt

theorem itemValues_ne_nil (text : Bool) (x : SegItem) : itemValues text x ≠ [] := by
  cases x with
  | none => exact List.cons_ne_nil _ _
  | some c =>
    rw [itemValues_some]
    by_cases hc : c.toNat < 128
    · rcases c40TextValues_speltBy (textMode text) hc with ⟨v, hv, -⟩ | ⟨hv, -⟩ | ⟨v, hv, -⟩ | ⟨v, hv, -⟩ <;> rw [hv] <;>
        exact List.cons_ne_nil _ _
    · rw [c40TextValues_of_ext _ (by omega) c.isLt]
      exact List.cons_ne_nil _ _

theorem flatMap_itemValues_lt (text : Bool) (xs : List SegItem) : ∀ v ∈ xs.flatMap (itemValues text), v < 40 := by
  intro v hv
  obtain ⟨x, -, hx⟩ := List.mem_flatMap.mp hv
  exact itemValues_lt text x v hx

/-- The state with its working state replaced. -/
def State.setWork (s : State) (wk : Work) : State := { s with work := wk }

section
variable {s : State} {text : Bool}

theorem State.withItem_setWork (s : State) (wk : Work) (x : SegItem) :
    (s.setWork wk).withItem x = (s.withItem x).setWork wk := by
  cases x <;> rfl

theorem State.withItems_setWork (wk : Work) (xs : List SegItem) : ∀ s : State,
    (s.setWork wk).withItems xs = (s.withItems xs).setWork wk := by
  induction xs with
  | nil => exact fun _ => rfl
  | cons x xs ih => exact fun s => (congrArg (State.withItems · xs) (s.withItem_setWork wk x)).trans (ih _)

theorem State.withItem_work (s : State) (x : SegItem) : (s.withItem x).work = s.work := by cases x <;> rfl

theorem State.withItems_work (xs : List SegItem) : ∀ s : State, (s.withItems xs).work = s.work := by
  induction xs with
  | nil => exact fun _ => rfl
  | cons x xs ih => exact fun s => (ih _).trans (s.withItem_work x)

/-- An item takes a place in OUT, and at most one in FNC. -/
theorem State.withItem_counts (x : SegItem) (hout : s.regs.outLen.toNat < Config.outSize) :
    (s.withItem x).regs.outLen.toNat = s.regs.outLen.toNat + 1
      ∧ (s.withItem x).regs.fncCnt.toNat ≤ s.regs.fncCnt.toNat + 1 := by
  cases x with
  | some c => exact ⟨outLen_appended_one c hout, Nat.le_succ _⟩
  | none =>
    refine ⟨outLen_appended_one (s := s.withFnc1) 29 hout, ?_⟩
    change (s.regs.fncCnt + 1).toNat ≤ _
    rw [BitVec.toNat_add]
    exact Nat.mod_le _ _

theorem State.withItems_outLen (xs : List SegItem) : ∀ {s : State}, s.regs.outLen.toNat + xs.length ≤ Config.outSize →
    (s.withItems xs).regs.outLen.toNat = s.regs.outLen.toNat + xs.length := by
  induction xs with
  | nil => exact fun _ => rfl
  | cons x xs ih =>
    intro s hout
    rw [List.length_cons] at hout
    obtain ⟨ho, -⟩ := s.withItem_counts x (by omega)
    refine (ih (s := s.withItem x) (by omega)).trans ?_
    rw [ho, List.length_cons]
    omega

/-- The values of an item leave the item (rule R399, R406). -/
theorem c40ValuesIn_item (x : SegItem) (h0 : s.work.shift = 0) (hup : s.work.upper = false)
    (hout : s.regs.outLen.toNat < Config.outSize) (hfnc : s.regs.fncCnt.toNat < Config.fncSize) :
    c40ValuesIn text (itemValues text x) s = .ok (s.withItem x) := by
  cases x with
  | some c =>
    have := c40ValuesIn_char (textMode text) c.isLt h0 hup hout
    rwa [isText_textMode, ← itemValues_some, BitVec.ofNat_toNat, BitVec.setWidth_eq] at this
  | none =>
    have hfnc1 : c40Value text 27 (s.setShift 2) = ((s.setShift 2).setShift 0).addFnc1 := rfl
    rw [itemValues, c40ValuesIn_cons, c40Value_shift h0 (by decide)]
    dsimp only
    rw [c40ValuesIn_cons, hfnc1, State.setShift_back h0, State.addFnc1_ok hfnc hout]
    rfl

/-- The values of items leave the items. -/
theorem c40ValuesIn_items (xs : List SegItem) : ∀ {s : State}, s.work.shift = 0 → s.work.upper = false →
    s.regs.outLen.toNat + xs.length ≤ Config.outSize → s.regs.fncCnt.toNat + xs.length ≤ Config.fncSize →
    c40ValuesIn text (xs.flatMap (itemValues text)) s = .ok (s.withItems xs) := by
  induction xs with
  | nil => exact fun _ _ _ _ => rfl
  | cons x xs ih =>
    intro s h0 hup hout hfnc
    rw [List.length_cons] at hout hfnc
    obtain ⟨ho, hf⟩ := s.withItem_counts x (by omega)
    rw [List.flatMap_cons, c40ValuesIn_append _ (c40ValuesIn_item x h0 hup (by omega) (by omega)),
      ih (by rw [State.withItem_work]; exact h0) (by rw [State.withItem_work]; exact hup) (by omega) (by omega)]
    rfl

/-- The shift that values leave pending: none, or the one a last shift value names. -/
def pendingShift (pre : List Nat) : Nat :=
  match pre with
  | [] => 0
  | v :: _ => v + 1

theorem c40ValuesIn_pending {pre : List Nat} (h : Dangling pre) (h0 : s.work.shift = 0) :
    c40ValuesIn text pre s = .ok (s.setShift (pendingShift pre)) := by
  rcases h with rfl | ⟨v, hv, rfl⟩
  · exact congrArg Except.ok (by rw [pendingShift, ← h0]; rfl)
  · rw [c40ValuesIn_cons, c40Value_shift h0 hv]
    rfl

theorem Dangling.lt {pre : List Nat} (h : Dangling pre) : ∀ v ∈ pre, v < 40 := by
  rcases h with rfl | ⟨x, hx, rfl⟩
  · exact List.forall_mem_nil _
  · intro v hv
    rw [List.mem_singleton.mp hv]
    omega

/-- A value the pending shift has no meaning for (rule R406). -/
theorem c40Value_refuses {pre : List Nat} {v : Nat} (h : badValue text pre v) (hshift : s.work.shift = pendingShift pre) :
    c40Value text v s = .error s.formatErr := by
  unfold c40Value
  rw [hshift]
  rcases h with ⟨rfl, hv⟩ | ⟨rfl, hv⟩ | ⟨rfl, rfl, hv⟩
  · exact (if_neg (by omega)).trans (if_neg (by omega))
  · exact (if_neg (by omega)).trans ((if_neg (by omega)).trans (if_neg (by omega)))
  · exact (if_pos rfl).trans (if_neg (by omega))

/-- Items, then an upper shift or not, then a shift value or not. -/
theorem c40ValuesIn_behind {xs : List SegItem} {up pre : List Nat} (hup : up = [] ∨ up = [1, 30]) (hpre : Dangling pre)
    (h0 : s.work.shift = 0) (hu : s.work.upper = false) (hout : s.regs.outLen.toNat + xs.length ≤ Config.outSize)
    (hfnc : s.regs.fncCnt.toNat + xs.length ≤ Config.fncSize) :
    ∃ t, c40ValuesIn text (xs.flatMap (itemValues text) ++ up ++ pre) s = .ok t ∧ t.work.shift = pendingShift pre := by
  have h0' : (s.withItems xs).work.shift = 0 := by rw [State.withItems_work]; exact h0
  have hupper : ∃ b, c40ValuesIn text up (s.withItems xs) = .ok ((s.withItems xs).setUpper b) := by
    rcases hup with rfl | rfl
    · exact ⟨(s.withItems xs).work.upper, rfl⟩
    · refine ⟨true, ?_⟩
      rw [c40ValuesIn_cons, c40Value_shift h0' (by decide)]
      change Except.ok (((s.withItems xs).setShift 2 |>.setShift 0).setUpper true) = _
      rw [State.setShift_back h0']
  obtain ⟨b, hb⟩ := hupper
  refine ⟨((s.withItems xs).setUpper b).setShift (pendingShift pre), ?_, rfl⟩
  rw [List.append_assoc, c40ValuesIn_append _ (c40ValuesIn_items xs h0 hu hout hfnc), c40ValuesIn_append _ hb]
  exact c40ValuesIn_pending hpre h0'

theorem upperShift_lt {up : List Nat} (h : up = [] ∨ up = [1, 30]) : ∀ v ∈ up, v < 40 := by
  rcases h with rfl | rfl <;> decide

end

section
variable {s : State} {text : Bool} {xs : List SegItem} {pad vs : List Nat} {n : Nat}

/-- The items of a C40 or Text segment in the pairs of the stream, with a shift value or none behind them. -/
theorem pairsRead_items (hpad : Dangling pad) (hvs : vs = xs.flatMap (itemValues text) ++ pad) (hwhole : vs.length % 3 = 0)
    (hs : s.streamHolds s.work.bp ((tripletCodewords vs).flatMap (fun b => bitsMsb b 8)))
    (hout : s.regs.outLen.toNat + xs.length ≤ Config.outSize) (hfnc : s.regs.fncCnt.toNat + xs.length ≤ Config.fncSize) :
    PairsRead (c40ValuesIn text) s s.c40Start vs ((s.c40Start.withItems xs).setShift (pendingShift pad)) := by
  refine ⟨c40ValuesIn_reader text, ⟨rfl, rfl, rfl⟩, ?_, fun v hv => ?_, hwhole, hs⟩
  · rw [hvs, c40ValuesIn_append _ (c40ValuesIn_items xs (s := s.c40Start) rfl rfl hout hfnc)]
    exact c40ValuesIn_pending hpad (by rw [State.withItems_work]; rfl)
  · rw [hvs] at hv
    exact (List.mem_append.mp hv).elim (flatMap_itemValues_lt text xs v) (hpad.lt v)

/-- What the working state is at the end of the segment does not matter to the items. -/
theorem State.c40Start_withItems (s : State) (xs : List SegItem) (sh k : Nat) :
    ((((s.c40Start.withItems xs).setShift sh).advance k).setUpper false) = { (s.advance k).withItems xs with
      work := { (s.advance k).work with upper := false, shift := sh } } := by
  have hk : (s.advance k).withItems xs = (s.withItems xs).setWork (s.advance k).work := State.withItems_setWork _ xs s
  have hstart : s.c40Start.withItems xs = (s.withItems xs).setWork s.c40Start.work := State.withItems_setWork _ xs s
  rw [hk, hstart]
  rfl

theorem flatMap_itemValues_ne_nil (text : Bool) (h : xs ≠ []) : xs.flatMap (itemValues text) ≠ [] := by
  obtain ⟨x, xs, rfl⟩ := List.exists_cons_of_ne_nil h
  rw [List.flatMap_cons]
  exact List.append_ne_nil_of_left_ne_nil (itemValues_ne_nil text x) _

/-- A C40 or Text segment of items to its end. -/
theorem step_textSeg (hu : s.undisturbed) (hp : s.phase = .dmStream (textSeg text)) (hpad : pad = [] ∨ pad = [0])
    (hvs : vs = xs.flatMap (itemValues text) ++ pad) (hwhole : vs.length % 3 = 0) (hn : n = 16 * (vs.length / 3))
    (hs : s.streamHolds s.work.bp ((tripletCodewords vs).flatMap (fun b => bitsMsb b 8)))
    (hout : s.regs.outLen.toNat + xs.length + s.work.trl.length ≤ Config.outSize)
    (hfnc : s.regs.fncCnt.toNat + xs.length ≤ Config.fncSize) :
    (s.avail = n ∧ xs ≠ [] ∨ s.avail = n + 8 →
      step s = .next (State.dmAfter { (s.advance n).withItems xs with
        work := { (s.advance n).work with upper := false, shift := pad.length } }))
    ∧ (n + 8 < s.avail → s.streamField 0 (s.work.bp + n) 8 = 254 →
      step s = .next (State.dmAfter { (s.advance (n + 8)).withItems xs with
        work := { (s.advance (n + 8)).work with upper := false, shift := pad.length } })) := by
  have hlen : pendingShift pad = pad.length := by rcases hpad with rfl | rfl <;> rfl
  have hread := pairsRead_items (hpad.imp_right fun h => ⟨0, by decide, h⟩) hvs hwhole hs (by omega) hfnc
  have hroom : ((s.c40Start.withItems xs).setShift (pendingShift pad)).regs.outLen.toNat
      + ((s.c40Start.withItems xs).setShift (pendingShift pad)).work.trl.length ≤ Config.outSize := by
    rw [State.setShift_regs, State.setShift_work, State.withItems_work,
      State.withItems_outLen xs (s := s.c40Start) (by change s.regs.outLen.toNat + _ ≤ _; omega)]
    exact hout
  have hxs : xs ≠ [] → vs ≠ [] := fun h =>
    hvs ▸ List.append_ne_nil_of_left_ne_nil (flatMap_itemValues_ne_nil text h) pad
  obtain ⟨hend, hun⟩ := hread.step hu hp (textSeg_ne_ascii text) (dmSegment_textSeg text s) hroom hn
  rw [State.c40Start_withItems, hlen] at hend hun
  exact ⟨fun h => hend (h.imp (And.imp_right hxs) id), hun⟩

end

/-- A pair that faults behind right values, whatever shift they leave pending. -/
theorem step_textSeg_faults {s : State} {text : Bool} {xs : List SegItem} {up pre before : List Nat} {j f : Nat}
    (hu : s.undisturbed) (hp : s.phase = .dmStream (textSeg text)) (hup : up = [] ∨ up = [1, 30]) (hj : before.length = 3 * j)
    (hs : s.streamHolds s.work.bp ((tripletCodewords before).flatMap (fun b => bitsMsb b 8)))
    (hout : s.regs.outLen.toNat + xs.length ≤ Config.outSize) (hfnc : s.regs.fncCnt.toNat + xs.length ≤ Config.fncSize)
    (hmore : 16 * j + 16 ≤ s.avail) (hf : f = s.streamField 0 (s.work.bp + 16 * j) 16) (hun : f / 256 ≠ 254) {us : List Nat}
    (hpre : Dangling pre) (hvals : before ++ us = xs.flatMap (itemValues text) ++ up ++ pre)
    (hbad : f = 0 ∨ f ≠ 0 ∧ ∃ v ws, pairValues f = us ++ v :: ws ∧ badValue text pre v) :
    ∃ t, step s = .next t ∧ t.Faulted .formatException .bsp ((s.work.bp + 16 * j + 16) / 8) := by
  have hreader := c40ValuesIn_reader text
  obtain ⟨t, ht, hshift⟩ := c40ValuesIn_behind (s := s.c40Start) (text := text) hup hpre rfl rfl hout hfnc
  rw [← hvals] at ht
  obtain ⟨m, hm, hmt⟩ := hreader.append ht
  have hread : PairsRead (c40ValuesIn text) s s.c40Start before m := by
    refine ⟨hreader, ⟨rfl, rfl, rfl⟩, hm, fun v hv => ?_, by omega, hs⟩
    have hmem : v ∈ xs.flatMap (itemValues text) ++ up ++ pre := hvals ▸ List.mem_append_left us hv
    rcases List.mem_append.mp hmem with hmem | hmem
    · exact (List.mem_append.mp hmem).elim (flatMap_itemValues_lt text xs v) (upperShift_lt hup v)
    · exact hpre.lt v hmem
  have hcount : before.length / 3 = j := by omega
  have hstop := hread.step_faults hu hp (textSeg_ne_ascii text) (dmSegment_textSeg text s) (f := f)
    (t := t.advance (16 * j + 16))
  rw [hcount] at hstop
  obtain ⟨s1, s2, s3⟩ := hreader.stream hmt
  refine hstop hmore hf.symm hun ⟨s1, s2, congrArg (· + (16 * j + 16)) s3⟩ (hbad.imp_right ?_)
  rintro ⟨h0, v, ws, hvs, hv⟩
  refine ⟨h0, ?_⟩
  rw [hvs, c40ValuesIn_append _ (hreader.advance _ hmt), c40ValuesIn_cons, c40Value_refuses (s := t.advance _) hv hshift]

/-- Settles O54: the values of the items are read pair by pair, whatever item a pair's values belong to. -/
theorem dmC40AndTextSegments : Obligations.DmC40AndTextSegments := by
  constructor
  · intro s text xs pad vs n hu hp hpad hvs hwhole hn hs hout hfnc
    exact step_textSeg hu hp hpad hvs hwhole hn hs hout hfnc
  · intro s text xs up pre before j f hu hp hup hj hs hout hfnc hmore hf hun hbad
    rcases hbad with ⟨h0, hvals, hpre⟩ | ⟨h1, us, v, ws, hvs, hvals, hv⟩
    · have hpre' : Dangling pre := by
        simp only [List.mem_cons, List.not_mem_nil, or_false] at hpre
        rcases hpre with rfl | rfl | rfl | rfl
        · exact .inl rfl
        all_goals exact .inr ⟨_, by decide, rfl⟩
      exact step_textSeg_faults hu hp hup hj hs hout hfnc hmore hf hun hpre' (us := []) (by rw [List.append_nil]; exact hvals)
        (.inl h0)
    · have hpre' : Dangling pre := by
        rcases hv with ⟨rfl, -⟩ | ⟨rfl, -⟩ | ⟨rfl, -, -⟩
        · exact .inl rfl
        all_goals exact .inr ⟨_, by decide, rfl⟩
      exact step_textSeg_faults hu hp hup hj hs hout hfnc hmore hf hun hpre' hvals (.inr ⟨by omega, v, ws, hvs, hv⟩)

/-! ### The last pair of a segment (rule R406, R408) -/

theorem State.streamField_eq_bitsVal (s : State) (n : Nat) : ∀ acc p,
    s.streamField acc p n = bitsVal acc ((List.range' p n).map s.streamBit) := by
  induction n with
  | zero => exact fun _ _ => rfl
  | succ n ih => intro acc p; rw [State.streamField, ih]; rfl

/-- The stream holds the bits of its own fields. -/
theorem State.streamHolds_field {s : State} {p n v : Nat} (h : p + n ≤ 8 * s.regs.cwLen.toNat) (hv : s.streamField 0 p n = v) :
    s.streamHolds p (bitsMsb v n) := by
  have hbits : bitsMsb v n = (List.range' p n).map s.streamBit := by
    have := bitsMsb_bitsVal ((List.range' p n).map s.streamBit) 0
    rwa [← State.streamField_eq_bitsVal, hv, List.length_map, List.length_range'] at this
  rw [hbits]
  refine ⟨by rwa [List.length_map, List.length_range'], fun k hk => ?_⟩
  rw [List.getElem_map, List.getElem_range', Nat.one_mul]

/-- The last pair of the stream is one triplet. -/
theorem State.streamHolds_lastPair {s : State} {a b c : Nat} (h : s.avail = 16)
    (hf : s.streamField 0 s.work.bp 16 = 1600 * a + 40 * b + c + 1) :
    s.streamHolds s.work.bp ((tripletCodewords [a, b, c]).flatMap (fun b => bitsMsb b 8)) := by
  rw [tripletCodewords_bits_cons]
  change s.streamHolds _ (_ ++ [])
  rw [List.append_nil]
  rw [State.avail_eq] at h
  exact State.streamHolds_field (by omega) hf

/-- The last pair of a C40 or Text segment with three native characters. -/
theorem step_textSeg_lastPair {s : State} {text : Bool} {x y z : Byte} {a b c : Nat} (hu : s.undisturbed)
    (hp : s.phase = .dmStream (textSeg text)) (h : s.avail = 16)
    (hf : s.streamField 0 s.work.bp 16 = 1600 * a + 40 * b + c + 1)
    (hroom : s.regs.outLen.toNat + 3 + s.work.trl.length ≤ Config.outSize) (hx : itemValues text (some x) = [a])
    (hy : itemValues text (some y) = [b]) (hz : itemValues text (some z) = [c]) :
    step s = .next (State.dmEnded (State.appended
      { s.advance 16 with work := { (s.advance 16).work with upper := false, shift := 0 } } [x, y, z])) := by
  have hchars := c40ValuesIn_chars (textMode text) ([x, y, z].map BitVec.toNat) (s := s.c40Start)
    toNat_lt_of_mem rfl rfl (by change s.regs.outLen.toNat + 3 ≤ _; omega)
  have hvals : ([x, y, z].map BitVec.toNat).flatMap (c40TextValues (textMode text)) = [a, b, c] := by
    change c40TextValues _ _ ++ (c40TextValues _ _ ++ (c40TextValues _ _ ++ [])) = _
    rw [← itemValues_some, ← itemValues_some, ← itemValues_some, hx, hy, hz]
    rfl
  rw [isText_textMode, hvals, map_ofNat_toNat] at hchars
  have hread : PairsRead (c40ValuesIn text) s s.c40Start [a, b, c] _ :=
    ⟨c40ValuesIn_reader text, ⟨rfl, rfl, rfl⟩, hchars, fun v hv => by
      have hmem := hvals ▸ hv
      obtain ⟨k, hk, hkv⟩ := List.mem_flatMap.mp hmem
      exact c40TextValues_lt _ (toNat_lt_of_mem k hk) v hkv, by simp, State.streamHolds_lastPair h hf⟩
  have hstep := (hread.step hu hp (textSeg_ne_ascii text) (dmSegment_textSeg text s) (n := 16) (by
    rw [State.appended_outLen (by change s.regs.outLen.toNat + 3 ≤ _; omega)]
    exact hroom) (by simp)).1 (.inl ⟨h, List.cons_ne_nil _ _⟩)
  rw [hstep]
  refine congrArg _ (State.dmAfter_of_done ?_)
  change 8 * s.regs.cwLen.toNat - (s.work.bp + 16) = 0
  rw [State.avail_eq] at h
  omega

/-- Settles O53: the last pair and an X12 segment are runs of whole pairs, to an end or to a pair that faults. -/
theorem nativeTripletsDecode : Obligations.NativeTripletsDecode := by
  refine ⟨fun s x y z a b c hu h hf hroom => ⟨fun hp hx hy hz => ?_, fun hp hx hy hz => ?_, fun hp hx hy hz => ?_⟩,
    fun s cs vs n hu hp hcs hwhole hn hs hroom => ?_⟩
  · exact step_textSeg_lastPair (text := false) hu hp h hf hroom hx hy hz
  · exact step_textSeg_lastPair (text := true) hu hp h hf hroom hx hy hz
  · have hstep := (step_x12 (cs := [x, y, z]) (vs := [a, b, c]) (n := 16) hu hp (by simp [hx, hy, hz]) (by simp) (by simp)
      (State.streamHolds_lastPair h hf) hroom).1 (.inl ⟨h, List.cons_ne_nil _ _⟩)
    rw [hstep]
    refine congrArg _ (State.dmAfter_of_done ?_)
    change 8 * s.regs.cwLen.toNat - (s.work.bp + 16) = 0
    rw [State.avail_eq] at h
    omega
  · obtain ⟨hend, hun⟩ := step_x12 hu hp hcs hwhole hn hs hroom
    refine ⟨hend, hun, fun hmore f hf hbad => ?_⟩
    have hread := pairsRead_x12 hcs hwhole hs (by change s.regs.outLen.toNat + cs.length ≤ 16384; omega)
    subst hn
    refine hread.step_faults (seg := .x12) hu hp (by decide) rfl hmore hf.symm (by omega) ⟨rfl, rfl, rfl⟩
      (hbad.imp_right fun ⟨h40, _⟩ => ⟨by omega, x12ValuesIn_refuses (by omega) _ _⟩)

end Sys2Proof.Machine
end

section
/-! The EDIFACT, Base256 and ECI segments of DEC.DM, from what the stream holds (44_bsp_datamatrix.md rule R409, R410, R416;
O55). -/

namespace Sys2Proof.Machine

/-! ### EDIFACT segments (rule R409) -/

/-- The bits of characters native to EDIFACT (30_encoding.md rule R137). -/
def sextetBits (ws : List Nat) : List Bool := ws.flatMap (fun c => bitsMsb (c % 64) 6)

theorem sextetBits_length (ws : List Nat) : (sextetBits ws).length = 6 * ws.length := by
  simp [sextetBits, bitsMsb_length, Nat.mul_comm]

theorem sextetBits_append (as bs : List Nat) : sextetBits (as ++ bs) = sextetBits as ++ sextetBits bs := List.flatMap_append

/-- A character native to EDIFACT has its six low bits as its value. -/
theorem edfValue_native {c : Nat} (h : 32 ≤ c ∧ c ≤ 94) : edfValue c = some (c % 64) := by
  unfold edfValue
  split
  · exact congrArg some (by omega)
  · rw [if_pos (by omega)]
    exact congrArg some (by omega)

section
variable {s : State} {ws : List Nat} {b : List Bool}

/-- The value of a character where the stream holds it. -/
theorem State.streamHolds.sextet {c : Nat} : ∀ {ws : List Nat} {p j : Nat}, s.streamHolds p (sextetBits ws ++ b) →
    ws[j]? = some c → s.streamField 0 (p + 6 * j) 6 = c % 64
  | [], _, _, _, hj => nomatch hj
  | d :: ws, p, j, hs, hj => by
    rw [sextetBits, List.flatMap_cons, List.append_assoc] at hs
    obtain ⟨hfirst, hrest⟩ := hs.append
    cases j with
    | zero => cases hj; exact hfirst.field (Nat.mod_lt _ (by decide))
    | succ j =>
      rw [bitsMsb_length] at hrest
      rw [show p + 6 * (j + 1) = p + 6 + 6 * j from by omega]
      exact hrest.sextet hj

/-- Native characters at the front of a group. -/
theorem edfGroup_sextets (k : Nat) (hnat : ∀ c ∈ ws, 32 ≤ c ∧ c ≤ 94) (hs : s.streamHolds s.work.bp (sextetBits ws ++ b))
    (hroom : s.regs.outLen.toNat + ws.length ≤ Config.outSize) :
    edfGroup (ws.length + k) s = edfGroup k (s.wrote (6 * ws.length) ws) := by
  have hvalue : ∀ c ∈ ws, valueOf edfValue c = c % 64 := fun c hc => by rw [valueOf, edfValue_native (hnat c hc)]; rfl
  have havail := hs.append.1.avail
  rw [sextetBits_length] at havail
  refine edfGroup_chars ws k s (fun c hc => ?_) (fun j v hv => ?_) havail hroom
  · rw [hvalue c hc]
    exact edfValue_native (hnat c hc)
  · rw [List.getElem?_map, Option.map_eq_some_iff] at hv
    obtain ⟨c, hj, rfl⟩ := hv
    rw [hs.sextet hj, hvalue c (List.mem_of_getElem? hj)]

/-- Whole groups with more than 16 bits behind them: the segment goes on there. -/
theorem edfGroups_sextets (k : Nat) : ∀ {ws : List Nat} {s : State} {b : List Bool}, ws.length = 4 * k →
    (∀ c ∈ ws, 32 ≤ c ∧ c ≤ 94) → s.streamHolds s.work.bp (sextetBits ws ++ b) →
    s.regs.outLen.toNat + ws.length ≤ Config.outSize → 6 * ws.length + 16 < s.avail → ∀ fuel,
    edfGroups (fuel + k) s = edfGroups fuel (s.wrote (6 * ws.length) ws) := by
  induction k with
  | zero =>
    intro ws s b hlen _ _ _ _ fuel
    obtain rfl := List.length_eq_zero_iff.mp hlen
    rw [Nat.add_zero, List.length_nil, Nat.mul_zero, State.wrote_nil]
  | succ k ih =>
    intro ws s b hlen hnat hs hroom havail fuel
    have hfour : (ws.take 4).length = 4 := by rw [List.length_take]; omega
    have hdrop : (ws.drop 4).length = 4 * k := by rw [List.length_drop]; omega
    rw [← List.take_append_drop 4 ws, sextetBits_append, List.append_assoc] at hs
    rw [← List.take_append_drop 4 ws] at hroom
    obtain ⟨hrest, hroom'⟩ := State.wrote_rest hs hroom
    rw [sextetBits_length, hfour] at hrest hroom'
    have hgroup := edfGroup_sextets 0 (fun c hc => hnat c (List.mem_of_mem_take hc)) hs
      (by rw [List.length_append] at hroom; omega)
    rw [hfour] at hgroup
    have hleft : (s.wrote 24 (ws.take 4)).avail = s.avail - 24 := State.avail_advance s 24
    rw [← Nat.add_assoc, edfGroups, if_neg (by omega), hgroup]
    change (if (s.wrote 24 (ws.take 4)).avail = 0 then _ else _) = _
    rw [hleft, if_neg (by omega), ih hdrop (fun c hc => hnat c (List.mem_of_mem_drop hc)) hrest hroom'
      (by rw [hleft]; omega), State.wrote_wrote hroom, List.take_append_drop,
      show 24 + 6 * (ws.drop 4).length = 6 * ws.length from by omega]

/-- With 16 bits or fewer left the segment ends (rule R409). -/
theorem edfGroups_done (h : s.avail ≤ 16) (fuel : Nat) : edfGroups (fuel + 1) s = .ok s := by rw [edfGroups, if_pos h]

/-- The segment up to its last group, `k` groups of it being read, and the characters at the front of that group. -/
theorem edfSeg_lastGroup (k : Nat) (hk : 4 * k ≤ ws.length) (hnat : ∀ c ∈ ws, 32 ≤ c ∧ c ≤ 94)
    (hs : s.streamHolds s.work.bp (sextetBits ws ++ b)) (hroom : s.regs.outLen.toNat + ws.length ≤ Config.outSize)
    (havail : 24 * k + 16 < s.avail) :
    ∃ fuel t, edfSeg s = edfGroups (fuel + 2) t ∧ t.avail = s.avail - 24 * k
      ∧ ∀ m, edfGroup (ws.length - 4 * k + m) t = edfGroup m (s.wrote (6 * ws.length) ws) := by
  have htake : (ws.take (4 * k)).length = 4 * k := by rw [List.length_take]; omega
  have hdrop : (ws.drop (4 * k)).length = ws.length - 4 * k := List.length_drop
  rw [← List.take_append_drop (4 * k) ws, sextetBits_append, List.append_assoc] at hs
  rw [← List.take_append_drop (4 * k) ws] at hroom
  obtain ⟨hrest, hroom'⟩ := State.wrote_rest hs hroom
  rw [sextetBits_length, htake] at hrest hroom'
  have hgroups := edfGroups_sextets k htake (fun c hc => hnat c (List.mem_of_mem_take hc)) hs
    (by rw [List.length_append] at hroom; omega) (by omega) (s.avail - k - 1 + 2)
  rw [htake] at hgroups
  refine ⟨s.avail - k - 1, s.wrote (6 * (4 * k)) (ws.take (4 * k)), ?_, ?_, fun m => ?_⟩
  · rw [edfSeg, ← hgroups]
    congr 1
    omega
  · exact (State.avail_advance s _).trans (by omega)
  · rw [← hdrop, edfGroup_sextets m (fun c hc => hnat c (List.mem_of_mem_drop hc)) hrest hroom', State.wrote_wrote hroom,
      List.take_append_drop, hdrop, show 6 * (4 * k) + 6 * (ws.length - 4 * k) = 6 * ws.length from by omega]

/-- A segment of whole groups that leave 16 bits or fewer. -/
theorem edfSeg_bare (hlen : ws.length % 4 = 0) (hnat : ∀ c ∈ ws, 32 ≤ c ∧ c ≤ 94)
    (hs : s.streamHolds s.work.bp (sextetBits ws)) (hroom : s.regs.outLen.toNat + ws.length ≤ Config.outSize)
    (havail : s.avail ≤ 6 * ws.length + 16) : edfSeg s = .ok (s.wrote (6 * ws.length) ws) := by
  have hle := hs.avail
  rw [sextetBits_length] at hle
  by_cases hnil : ws = []
  · subst hnil
    rw [edfSeg, edfGroups_done havail, List.length_nil, Nat.mul_zero, State.wrote_nil]
  · have hpos := List.length_pos_iff.mpr hnil
    obtain ⟨fuel, t, hseg, hleft, hgroup⟩ := edfSeg_lastGroup (b := []) (ws.length / 4 - 1) (by omega) hnat
      (by rwa [List.append_nil]) hroom (by omega)
    have hfour := hgroup 0
    rw [show ws.length - 4 * (ws.length / 4 - 1) + 0 = 4 from by omega] at hfour
    have hend : (s.wrote (6 * ws.length) ws).avail ≤ 16 := by
      change (s.advance _).avail ≤ 16
      rw [State.avail_advance]
      omega
    rw [hseg, edfGroups, if_neg (by omega), hfour]
    change (if (s.wrote (6 * ws.length) ws).avail = 0 then _ else _) = _
    rw [edfGroups_done hend, ite_self]

/-- A segment that ends behind the unlatch value and the rest of its codeword. -/
theorem edfSeg_unlatched (hbp : s.work.bp % 8 = 0) (hnat : ∀ c ∈ ws, 32 ≤ c ∧ c ≤ 94)
    (hs : s.streamHolds s.work.bp (sextetBits ws ++ bitsMsb 31 6))
    (hroom : s.regs.outLen.toNat + ws.length ≤ Config.outSize) (havail : 6 * (ws.length - ws.length % 4) + 16 < s.avail) :
    edfSeg s = .ok (s.wrote (8 * ((6 * ws.length + 13) / 8)) ws) := by
  obtain ⟨fuel, t, hseg, hleft, hgroup⟩ := edfSeg_lastGroup (ws.length / 4) (by omega) hnat hs hroom (by omega)
  have hlast := hgroup (3 - ws.length % 4 + 1)
  rw [show ws.length - 4 * (ws.length / 4) + (3 - ws.length % 4 + 1) = 4 from by omega] at hlast
  have hin := hs.1
  rw [List.length_append, sextetBits_length, bitsMsb_length] at hin
  have hunlatch := hs.append.2
  rw [sextetBits_length] at hunlatch
  have hfield : (s.wrote (6 * ws.length) ws).streamField 0 (s.wrote (6 * ws.length) ws).work.bp 6 = 31 :=
    State.streamHolds.field (hunlatch.congr (t := s.wrote (6 * ws.length) ws) rfl rfl) (by decide)
  have hbp' : (s.wrote (6 * ws.length) ws).work.bp = s.work.bp + 6 * ws.length := rfl
  have hun := edfGroup_unlatch (3 - ws.length % 4) hfield (m := (s.work.bp + 6 * ws.length + 13) / 8) (by omega) (by omega)
    (by change _ ≤ 8 * s.regs.cwLen.toNat; omega)
  rw [hbp', show 8 * ((s.work.bp + 6 * ws.length + 13) / 8) - (s.work.bp + 6 * ws.length)
    = 8 * ((6 * ws.length + 13) / 8) - 6 * ws.length from by omega] at hun
  rw [hseg, edfGroups, if_neg (by omega), hlast, hun]
  dsimp only
  rw [State.wrote, State.appended_advance, State.advance_advance, Nat.add_sub_cancel' (by omega)]
  rfl

end

/-! ### Base256 segments (rule R410) -/

/-- Randomised bytes in the stream, the first at 1-based position `p` (30_encoding.md rule R139). -/
def randomisedBits (p : Nat) (bs : List Nat) : List Bool := (randomised p bs).flatMap (fun b => bitsMsb b 8)

theorem randomisedBits_length (p : Nat) (bs : List Nat) : (randomisedBits p bs).length = 8 * bs.length := by
  rw [randomisedBits, codewordBits_length, randomised_length]

theorem randomisedBits_cons (p b : Nat) (bs : List Nat) :
    randomisedBits p (b :: bs) = bitsMsb (rand255 b p) 8 ++ randomisedBits (p + 1) bs := rfl

theorem randomisedBits_append (as bs : List Nat) : ∀ p : Nat,
    randomisedBits p (as ++ bs) = randomisedBits p as ++ randomisedBits (p + as.length) bs := by
  induction as with
  | nil => exact fun _ => rfl
  | cons a as ih =>
    intro p
    rw [List.cons_append, randomisedBits_cons, ih, randomisedBits_cons, List.append_assoc, List.length_cons,
      Nat.add_right_comm, Nat.add_assoc]

section
variable {s : State} {n p d : Nat} {cs : List Nat} {b : List Bool}

/-- A randomised byte, read. -/
theorem State.streamHolds.readRandomised (h : s.streamHolds s.work.bp (bitsMsb (rand255 d p) 8)) (hd : d < 256) :
    s.readBits 8 = .ok (rand255 d p, s.advance 8) := h.readBits (unrand255_rand255 p hd).1

theorem b256Bytes_holds (cs : List Nat) : ∀ {p : Nat} {s : State}, (∀ c ∈ cs, c < 256) →
    s.streamHolds s.work.bp (randomisedBits p cs) → s.regs.outLen.toNat + cs.length ≤ Config.outSize →
    b256Bytes cs.length p s = .ok (s.wrote (8 * cs.length) cs) := by
  induction cs with
  | nil => exact fun _ _ _ => congrArg Except.ok (State.wrote_nil _).symm
  | cons c rest ih =>
    intro p s hb hs hroom
    have hc := hb c (by simp)
    rw [randomisedBits_cons] at hs
    obtain ⟨hrest, hroom'⟩ := State.wrote_rest (cs := [c]) (ds := rest) hs hroom
    rw [bitsMsb_length] at hrest hroom'
    have hout : (s.advance 8).out (BitVec.ofNat 8 c) = .ok (s.wrote 8 [c]) :=
      State.out_ok _ (show s.regs.outLen.toNat < Config.outSize by rw [List.length_cons] at hroom; omega)
    rw [List.length_cons, b256Bytes, hs.append.1.readRandomised hc]
    dsimp only
    rw [(unrand255_rand255 p hc).2, hout]
    dsimp only
    rw [ih (fun x hx => hb x (by simp [hx])) hrest hroom', State.wrote_wrote hroom, Nat.mul_succ, Nat.add_comm (8 * _)]
    rfl

/-- The payload that the stream cuts short: the bytes there are read, and the FormatException is found at the stream's end. -/
theorem b256Bytes_short (n : Nat) : ∀ {p : Nat} {s : State}, s.work.bp % 8 = 0 → s.work.bp ≤ 8 * s.regs.cwLen.toNat →
    s.avail < 8 * n → s.regs.outLen.toNat + s.avail / 8 ≤ Config.outSize →
    ∃ t : State, b256Bytes n p s = .error t.formatErr ∧ t.work.bp / 8 = s.regs.cwLen.toNat := by
  induction n with
  | zero => exact fun _ _ h _ => absurd h (Nat.not_lt_zero _)
  | succ n ih =>
    intro p s hbp hle hshort hroom
    rw [b256Bytes]
    rcases s.readBits_cases 8 with ⟨h8, hread⟩ | ⟨h8, hread⟩
    · have hsize : Config.outSize = 16384 := rfl
      have hroom1 : (s.advance 8).regs.outLen.toNat < Config.outSize := by
        change s.regs.outLen.toNat < _
        omega
      have havail : (s.advance 8).avail = s.avail - 8 := s.avail_advance 8
      have hle' : s.work.bp + 8 ≤ 8 * s.regs.cwLen.toNat := by
        rw [State.avail_eq] at h8
        omega
      rw [hread]
      dsimp only
      rw [State.out_ok _ hroom1]
      dsimp only
      refine ih (s := (s.advance 8).appended [_]) ?_ hle' ?_ ?_
      · change (s.work.bp + 8) % 8 = 0
        omega
      · change (s.advance 8).avail < _
        omega
      · rw [outLen_appended_one _ hroom1]
        change s.regs.outLen.toNat + 1 + (s.advance 8).avail / 8 ≤ _
        omega
    · rw [hread]
      rw [State.avail_eq] at h8
      exact ⟨s, rfl, by omega⟩

theorem b256Payload_holds (hb : ∀ c ∈ cs, c < 256) (hs : s.streamHolds s.work.bp (randomisedBits p cs))
    (hroom : s.regs.outLen.toNat + cs.length ≤ Config.outSize) (hseg : s.regs.segCnt.toNat < Config.segSize) :
    b256Payload cs.length p s = .ok ((s.wrote (8 * cs.length) cs).withSegment s.regs.outLen.toNat cs.length) := by
  rw [b256Payload, b256Bytes_holds cs hb hs hroom]
  exact State.addSegment_ok _ _ hseg

theorem b256Payload_short (hbp : s.work.bp % 8 = 0) (hle : s.work.bp ≤ 8 * s.regs.cwLen.toNat) (hshort : s.avail < 8 * n)
    (hroom : s.regs.outLen.toNat + s.avail / 8 ≤ Config.outSize) :
    ∃ t : State, b256Payload n p s = .error t.formatErr ∧ t.work.bp / 8 = s.regs.cwLen.toNat := by
  obtain ⟨t, ht, hinfo⟩ := b256Bytes_short n hbp hle hshort hroom (p := p)
  exact ⟨t, by rw [b256Payload, ht], hinfo⟩

/-- A length field of any form: the payload it announces is read behind it (30_encoding.md rule R138). -/
theorem b256Seg_field {f : List Nat} (hf : isB256Field f n (s.avail / 8 - 1))
    (hs : s.streamHolds s.work.bp (randomisedBits (s.work.bp / 8 + 1) f ++ b)) :
    b256Seg s = b256Payload n (s.work.bp / 8 + 1 + f.length) (s.advance (8 * f.length)) := by
  have hfront := hs.append.1
  rcases hf with ⟨rfl, h1, h249⟩ | ⟨d1, d2, rfl, h250, h255, hd2, rfl⟩ | ⟨rfl, rfl⟩
  · rw [b256Seg, (hfront.append (b := [])).1.readRandomised (by omega)]
    dsimp only
    rw [(unrand255_rand255 _ (by omega)).2, if_neg (by omega), if_pos (by omega)]
    rfl
  · rw [randomisedBits_cons] at hfront
    obtain ⟨hfirst, hsecond⟩ := hfront.append
    rw [bitsMsb_length] at hsecond
    have hsecond' : (s.advance 8).streamHolds (s.advance 8).work.bp (bitsMsb (rand255 d2 (s.work.bp / 8 + 1 + 1)) 8) :=
      (hsecond.append (b := [])).1.congr rfl rfl
    rw [b256Seg, hfirst.readRandomised (by omega)]
    dsimp only
    rw [(unrand255_rand255 _ (by omega)).2, if_neg (by omega), if_neg (by omega), hsecond'.readRandomised hd2]
    dsimp only
    rw [(unrand255_rand255 _ hd2).2, State.advance_advance]
    rfl
  · have havail : (s.advance 8).avail / 8 = s.avail / 8 - 1 := by
      rw [State.avail_advance]
      omega
    rw [b256Seg, (hfront.append (b := [])).1.readRandomised (by decide)]
    dsimp only
    rw [(unrand255_rand255 _ (by decide)).2, if_pos rfl, havail]
    rfl

end

/-! ### The segments as steps -/

section
variable {s : State}

theorem step_edifact {cs : List Byte} {n : Nat} (hu : s.undisturbed) (hp : s.phase = .dmStream .edifact)
    (hroom : s.regs.outLen.toNat + cs.length + s.work.trl.length ≤ Config.outSize)
    (hseg : edfSeg s = .ok (s.wrote n (cs.map BitVec.toNat))) : step s = .next (State.dmAfter { (s.advance n).appended cs with
      work := { (s.advance n).work with upper := false } }) := by
  rw [State.wrote, map_ofNat_toNat] at hseg
  refine step_segment_ok (seg := .edifact) hu hp (by decide) hseg (State.hasRoom_zero ?_)
  change ((s.advance n).appended cs).regs.outLen.toNat + _ ≤ _
  rw [State.appended_outLen (s := s.advance n) (by change s.regs.outLen.toNat + _ ≤ _; omega)]
  exact hroom

theorem step_base256 {cs : List Byte} {f : List Nat} {n : Nat} (hu : s.undisturbed) (hp : s.phase = .dmStream .base256)
    (hf : isB256Field f cs.length (s.avail / 8 - 1)) (hn : n = 8 * (f.length + cs.length))
    (hs : s.streamHolds s.work.bp (randomisedBits (s.work.bp / 8 + 1) (f ++ cs.map BitVec.toNat)))
    (hroom : s.regs.outLen.toNat + cs.length + s.work.trl.length ≤ Config.outSize)
    (hsegs : s.regs.segCnt.toNat < Config.segSize) :
    step s = .next (State.dmAfter { (s.advance n).appended cs with
      mem := { ((s.advance n).appended cs).mem with
        seg := s.mem.seg.write s.regs.segCnt.toNat (BitVec.ofNat 32 (s.regs.outLen.toNat + 65536 * cs.length)) }
      regs := { ((s.advance n).appended cs).regs with segCnt := s.regs.segCnt + 1 }
      work := { (s.advance n).work with upper := false } }) := by
  rw [randomisedBits_append] at hs
  have hbytes := hs.append.2
  rw [randomisedBits_length] at hbytes
  have hpay := b256Payload_holds (s := s.advance (8 * f.length)) toNat_lt_of_mem (hbytes.congr rfl rfl)
    (by rw [List.length_map]; change s.regs.outLen.toNat + _ ≤ _; omega) hsegs
  rw [List.length_map, State.wrote, map_ofNat_toNat, State.advance_advance, ← Nat.mul_add, ← hn] at hpay
  refine step_segment_ok (seg := .base256) hu hp (by decide) ((b256Seg_field hf hs).trans hpay) (State.hasRoom_zero ?_)
  change ((s.advance n).appended cs).regs.outLen.toNat + _ ≤ _
  rw [State.appended_outLen (s := s.advance n) (by change s.regs.outLen.toNat + _ ≤ _; omega)]
  exact hroom

/-- A payload the stream cuts short (rule R410). -/
theorem step_base256_short {f : List Nat} {n : Nat} (hu : s.undisturbed) (hp : s.phase = .dmStream .base256)
    (hbp : s.work.bp % 8 = 0) (hf : isB256Field f n 0) (hshort : s.avail < 8 * (f.length + n))
    (hroom : s.regs.outLen.toNat + s.avail / 8 ≤ Config.outSize)
    (hs : s.streamHolds s.work.bp (randomisedBits (s.work.bp / 8 + 1) f)) :
    ∃ t, step s = .next t ∧ t.Faulted .formatException .bsp s.regs.cwLen.toNat := by
  have hle := hs.avail
  have hin := hs.1
  rw [randomisedBits_length] at hle hin
  have hf' : isB256Field f n (s.avail / 8 - 1) := hf.imp_right (Or.imp_right (by
    rintro ⟨rfl, rfl⟩
    rw [List.length_singleton] at hshort hle
    omega))
  have hleft : (s.advance (8 * f.length)).avail = s.avail - 8 * f.length := s.avail_advance _
  obtain ⟨t, ht, hinfo⟩ := b256Payload_short (s := s.advance (8 * f.length)) (n := n) (p := s.work.bp / 8 + 1 + f.length)
    (by change (s.work.bp + 8 * f.length) % 8 = 0; omega) hin (by omega) (by
      change s.regs.outLen.toNat + _ ≤ _
      omega)
  refine step_segment_formatErr (seg := .base256) hu hp (by decide) ?_ hinfo
  rw [← ht]
  exact b256Seg_field (b := []) hf' (by rwa [List.append_nil])

/-- No codeword for the length field, or none for its second part (rule R410). -/
theorem step_base256_noField (hu : s.undisturbed) (hp : s.phase = .dmStream .base256) :
    (s.avail < 8 → ∃ t, step s = .next t ∧ t.Faulted .formatException .bsp (s.work.bp / 8))
    ∧ (8 ≤ s.avail → s.avail < 16 → 250 ≤ unrand255 (s.streamField 0 s.work.bp 8) (s.work.bp / 8 + 1) →
      ∃ t, step s = .next t ∧ t.Faulted .formatException .bsp ((s.work.bp + 8) / 8)) := by
  refine ⟨fun h => step_segment_formatErr (t := s) (seg := .base256) hu hp (by decide) ?_ rfl, fun h8 h16 h250 =>
    step_segment_formatErr (t := s.advance 8) (seg := .base256) hu hp (by decide) ?_ rfl⟩
  · change b256Seg s = _
    rw [b256Seg, State.readBits_error h]
  · change b256Seg s = _
    rw [b256Seg, State.readBits_ok h8]
    dsimp only
    rw [if_neg (by omega), if_neg (by omega), State.readBits_error (by rw [State.avail_advance]; omega)]

/-- The ECI segment (rule R416). -/
theorem step_eci (hu : s.undisturbed) (hp : s.phase = .dmStream .eci) :
    (8 ≤ s.avail → (s.advance 8).hasRoom 0 → step s = .next (State.dmAfter { s.advance 8 with
      work := { (s.advance 8).work with eci := true, upper := false }
      regs := { s.regs with resEci := ⟨BitVec.ofNat 20 (s.streamField 0 s.work.bp 8), true⟩ } }))
    ∧ (s.avail < 8 → ∃ t, step s = .next t ∧ t.Faulted .formatException .bsp (s.work.bp / 8)) := by
  refine ⟨fun h hroom => ?_, fun h => step_segment_formatErr (t := s) (seg := .eci) hu hp (by decide) ?_ rfl⟩
  · have hseg : dmSegment .eci s = .ok { s.advance 8 with
        work := { (s.advance 8).work with eci := true }
        regs := { s.regs with resEci := ⟨BitVec.ofNat 20 (s.streamField 0 s.work.bp 8), true⟩ } } := by
      change eciSeg s = _
      rw [eciSeg, State.readBits_ok h]
      rfl
    exact step_segment_ok hu hp (by decide) hseg hroom
  · change eciSeg s = _
    rw [eciSeg, State.readBits_error h]

end

/-- Settles O55, segment by segment. -/
theorem dmEdifactBase256AndEciSegments : Obligations.DmEdifactBase256AndEciSegments := by
  refine ⟨fun s cs n hu hp hnat hroom hcase => ?_, fun s cs f n hu hp _ hf hn hs hroom hsegs => ?_,
    fun s f n hu hp hbp hf hshort hroom hs => step_base256_short hu hp hbp hf hshort hroom hs,
    fun s hu hp => step_base256_noField hu hp, fun s hu hp => step_eci hu hp⟩
  · have hbits : cs.flatMap (fun c => bitsMsb (c.toNat % 64) 6) = sextetBits (cs.map BitVec.toNat) := by
      rw [sextetBits, List.flatMap_map]
    have hlen : (cs.map BitVec.toNat).length = cs.length := List.length_map _
    have hnat' : ∀ c ∈ cs.map BitVec.toNat, 32 ≤ c ∧ c ≤ 94 := List.forall_mem_map.mpr hnat
    have hroom' : s.regs.outLen.toNat + (cs.map BitVec.toNat).length ≤ Config.outSize := by
      rw [hlen]
      exact (Nat.le_add_right _ _).trans hroom
    rw [hbits] at hcase
    refine step_edifact hu hp hroom ?_
    rcases hcase with ⟨h4, rfl, hs, havail⟩ | ⟨hbp, rfl, hs, havail⟩
    · rw [← hlen] at h4 havail ⊢
      exact edfSeg_bare h4 hnat' hs hroom' havail
    · rw [← hlen] at havail ⊢
      exact edfSeg_unlatched hbp hnat' hs hroom' havail
  · exact step_base256 hu hp hf hn hs hroom hsegs

end Sys2Proof.Machine
end
